-- ==== Sys2Proof/Word.lean ====
section
/-! DEFINITION. The plain value types of the UJ-416 model: bytes, addresses, lines, sequences (00_scope, Terms). -/

namespace Sys2Proof

/-- One byte. -/
abbrev Byte := BitVec 8

/-- A byte offset into the retention memory, 24 bits (00_scope, Conventions). -/
abbrev Addr := BitVec 24

/-- A line number: address divided by 8, 21 bits (00_scope, Terms). -/
abbrev LineNo := BitVec 21

/-- The 8 bytes of a line. Byte 0, at the line's lowest address, stands in the 8 most significant bits,
so the bits read in the stored order of R1. -/
abbrev LineData := BitVec 64

/-- A set of byte numbers 0 to 7; bit `n` stands for byte `n` (00_scope, Conventions). -/
abbrev ByteSet := BitVec 8

/-- The sequence of an update group (R25). -/
abbrev Seq := BitVec 32

/-- A value of the stamp counter, in microseconds (R159). -/
abbrev Stamp := BitVec 32

/-- An initiator number, 0 to 3 (R60). -/
abbrev Initiator := Fin 4

/-- The index of a window record, W0 to W11 (R76). -/
abbrev WindowIndex := Fin 12

end Sys2Proof
end

