-- ==== Sys2Proof/Config.lean ====
section
/-! DEFINITION. What the manual fixes for the part, and the one value it leaves open (a free value). -/

namespace Sys2Proof

/-- What the part did for an incident (R154). -/
inductive Reaction
  | record
  | fence
  | halt
  | none
  deriving DecidableEq, Repr, Inhabited

namespace Config

/-- Slots of the posting queue (R2). -/
def slots : Nat := 32

/-- Records the group table can hold (R23). -/
def groupRecords : Nat := 4

/-- Records the incident list can hold (R155). -/
def incidentRecords : Nat := 16

/-- Records one journal can hold as line records (R42). -/
def journalRecords : Nat := 24

/-- The free-slot count at or below which the drain goes ahead of the journal engine (R85, line 3). -/
def pressureSlots : Nat := 4

/-- The pass-over count at which the drain goes ahead of every request (R85, line 1). -/
def passOverLimit : Nat := 8

/-- Control-area lines the start sequence reads (R121). -/
def startReads : Nat := 36

/-- Line writes FORMAT makes (R132). -/
def formatWrites : Nat := 40

/-- The reaction in force for a reaction code of 3, which R94 keeps as read and R78 lets no layout take to RUN.
The manual gives it no meaning, so it is a FREE VALUE: a fresh one for each use (log 15). -/
opaque freeReaction : Nat → Reaction

end Config

end Sys2Proof
end

