-- ==== Sys2Proof/Syntax.lean ====
section
/-! DEFINITION. The commands and events of spec/opcode_table.json, one constructor per row, with their operands. -/

namespace Sys2Proof

/-- The size of a controller read (R60). -/
inductive Size
  | one
  | two
  | four
  deriving DecidableEq, Repr

/-- Direction, size and data of a controller access (R60). Write data: the first byte of the access is the
most significant. -/
inductive AccessOp
  | read (size : Size)
  | write8 (data : BitVec 8)
  | write16 (data : BitVec 16)
  | write32 (data : BitVec 32)
  deriving DecidableEq, Repr

/-- A controller access as the bus carries it (R60). -/
structure Access where
  initiator : Initiator
  address : Addr
  op : AccessOp
  deriving DecidableEq, Repr

/-- The two lines whose levels hold the part in ENDED (R143). -/
inductive SupplyLine
  | pfwN
  | crstN
  deriving DecidableEq, Repr

/-- The commands of spec/opcode_table.json. A management command carries its argument bytes and the check
byte received (R164). -/
inductive Instr
  /-- POWER_ON (R120), with the levels found on PFW_N, CRST_N, MSEL_N and the array ready input. -/
  | powerOn (pfwN crstN mselN arrayReady : Bool)
  /-- POWER_LOSS (R143). -/
  | powerLoss
  /-- PFW_N_FALL (R134). -/
  | pfwNFall
  /-- CRST_N_FALL (R134). -/
  | crstNFall
  /-- LEAVE_ENDED (R143): the named line rises. -/
  | leaveEnded (line : SupplyLine)
  /-- SCAN_B_RISE (R31). -/
  | scanBRise
  /-- CONTROLLER_ACCESS (R62). -/
  | controllerAccess (access : Access)
  /-- HELD_WRITE_TAKEN_ANEW (R8). -/
  | heldWriteTakenAnew
  /-- HELD_READ_TAKEN_ANEW (R11). -/
  | heldReadTakenAnew
  /-- STALL_LIMIT_EXPIRY (R75). -/
  | stallLimitExpiry
  /-- ARRAY_READY (R82). `took`: the bits of a write step's enabled bytes that the memory took (log 5). -/
  | arrayReady (took : LineData)
  /-- ARRAY_TIMEOUT (R82). `took`: as for `arrayReady` (R83). -/
  | arrayTimeout (took : LineData)
  /-- START_READ_RETRY (R121). -/
  | startReadRetry
  /-- READ_STATUS (R167). -/
  | readStatus (check : Byte)
  /-- ACK_EVENTS (R161, R168). -/
  | ackEvents (events check : Byte)
  /-- SET_EVENT_MASK (R168). -/
  | setEventMask (events check : Byte)
  /-- PEEK_INCIDENT (R169). -/
  | peekIncident (check : Byte)
  /-- TAKE_INCIDENT (R169). -/
  | takeIncident (check : Byte)
  /-- READ_INITIATOR (R170). -/
  | readInitiator (initiator check : Byte)
  /-- RELEASE_FENCE (R149). -/
  | releaseFence (initiator check : Byte)
  /-- READ_GROUPS (R171). -/
  | readGroups (check : Byte)
  /-- READ_SLOT (R171). -/
  | readSlot (slot check : Byte)
  /-- CLOSE_GROUP (R172). -/
  | closeGroup (check : Byte)
  /-- FLUSH (R172). -/
  | flush (scope check : Byte)
  /-- REQUEST_CONFIG (R113). -/
  | requestConfig (check : Byte)
  /-- REQUEST_RUN (R116). -/
  | requestRun (check : Byte)
  /-- RESUME (R112). -/
  | resume (check : Byte)
  /-- READ_WINDOW (R173). -/
  | readWindow (index check : Byte)
  /-- WRITE_WINDOW (R173): the window index and the 8 bytes of the record, first byte most significant. -/
  | writeWindow (index : Byte) (record : BitVec 64) (check : Byte)
  /-- READ_SETTINGS (R173). -/
  | readSettings (check : Byte)
  /-- WRITE_SETTINGS (R173): the 16 bytes of the settings, first byte most significant. -/
  | writeSettings (settings : BitVec 128) (check : Byte)
  /-- STORE_LAYOUT (R103). -/
  | storeLayout (check : Byte)
  /-- FORMAT (R131). -/
  | format (check : Byte)
  /-- RESTART (R175). -/
  | restart (check : Byte)
  /-- UNKNOWN_COMMAND (R164): a code byte that names no command. -/
  | unknownCommand (code : Byte)
  /-- MSEL_N_FALL (R163). -/
  | mselNFall
  /-- MSEL_N_RISE (R163). -/
  | mselNRise
  /-- PFW_N_RISE (R143). -/
  | pfwNRise
  /-- CRST_N_RISE (R143). -/
  | crstNRise
  /-- STAMP_COUNTER_WRAP (R159). -/
  | stampCounterWrap
  deriving DecidableEq, Repr

end Sys2Proof
end

