-- ==== Sys2Proof/WellFormed.lean ====
section
/-! DEFINITION. When a term of `Instr` is a command the outside can send (R164, 12.3). -/

namespace Sys2Proof

/-- The codes of the command table (12.3). -/
def commandCodes : List Byte :=
  [0x01, 0x02, 0x03, 0x08, 0x09, 0x10, 0x11, 0x18, 0x19, 0x1A, 0x1B,
   0x20, 0x21, 0x22, 0x28, 0x29, 0x2A, 0x2B, 0x30, 0x31, 0x3F]

/-- UNKNOWN_COMMAND carries a code that names no command (R164); every other operand is a value its type
already bounds. -/
def Instr.wellFormed (i : Instr) : Bool :=
  match i with
  | .unknownCommand code => !commandCodes.contains code
  | .powerOn _ _ _ _ | .powerLoss | .pfwNFall | .crstNFall | .leaveEnded _ | .scanBRise
  | .controllerAccess _ | .heldWriteTakenAnew | .heldReadTakenAnew | .stallLimitExpiry
  | .arrayReady _ | .arrayTimeout _ | .startReadRetry | .readStatus _ | .ackEvents _ _
  | .setEventMask _ _ | .peekIncident _ | .takeIncident _ | .readInitiator _ _ | .releaseFence _ _
  | .readGroups _ | .readSlot _ _ | .closeGroup _ | .flush _ _ | .requestConfig _ | .requestRun _
  | .resume _ | .readWindow _ _ | .writeWindow _ _ _ | .readSettings _ | .writeSettings _ _
  | .storeLayout _ | .format _ | .restart _ | .mselNFall | .mselNRise | .pfwNRise | .crstNRise
  | .stampCounterWrap => true

end Sys2Proof
end

