-- ==== Sys2Proof/Machine/State.lean ====
section
/-! DEFINITION. The state of the UJ-416 block by block, its value at reset, and the reasons a step can stop. -/

namespace Sys2Proof.Machine

/-! ## Retention memory -/

/-- The retention memory: cells in rising address order, none equal to what an unlisted address reads as (log 3). -/
abbrev Memory := List Host.Cell

/-- The input lines whose level acts (00_scope, Signals). `arrayReady`: the memory's ready line is asserted and
has not been taken up by a presented step (R82, log 7). -/
structure Pins where
  pfwN : Bool
  crstN : Bool
  mselN : Bool
  arrayReady : Bool
  deriving DecidableEq, Repr

/-! ## Window table (R76, R77) -/

/-- What the part does with a line's accesses (R66). -/
inductive LineClass
  | closed
  | through
  | posted
  | grouped
  | locked
  deriving DecidableEq, Repr

/-- One window record (R76); `cls` is the class code, 5 to 7 possible but inconsistent. -/
structure Window where
  enabled : Bool
  matchBits : BitVec 21
  care : BitVec 21
  cls : BitVec 3
  verify : Bool
  priority : BitVec 2
  writers : BitVec 4
  deriving DecidableEq, Repr

/-- The nine reaction settings as coded: RECORD 0, FENCE 1, HALT 2 (R77, 6.2). -/
structure ReactionCodes where
  class21 : BitVec 2
  class22 : BitVec 2
  class23 : BitVec 2
  class24 : BitVec 2
  class27 : BitVec 2
  class28 : BitVec 2
  class31 : BitVec 2
  class32 : BitVec 2
  arrayFailures : BitVec 2
  deriving DecidableEq, Repr

/-- The global settings (R77), in the widths the working layout holds (R94). -/
structure Settings where
  capacityCode : BitVec 8
  journalBase : Addr
  lineLimit : BitVec 8
  stallLimit : BitVec 8
  arrayTimeout : BitVec 8
  budget : BitVec 16
  defaultClass : BitVec 8
  autoRun : BitVec 8
  reactions : ReactionCodes
  sensitivity : Vector (BitVec 2) 4
  deriving DecidableEq, Repr

/-- The working layout (section 4.5). -/
structure Layout where
  settings : Settings
  windows : Vector Window 12
  deriving DecidableEq, Repr

/-! ## Access unit (R60) -/

/-- The result of window matching (R67); `window` is absent where the line took the default class. -/
structure Classification where
  window : Option WindowIndex
  cls : LineClass
  verify : Bool
  writers : BitVec 4
  deriving DecidableEq, Repr

/-- What a held access waits for (R60). -/
inductive Wait
  | slot
  | groupRecord
  | writingEntry
  | grant
  | operation
  deriving DecidableEq, Repr

/-- The access in progress while it is held (R60, log 25). -/
structure Held where
  access : Access
  cls : Classification
  wait : Wait
  firstHeld : Stamp
  deriving DecidableEq, Repr

/-- The answer on the controller bus (R61); DONE carries the requested bytes of a read. -/
inductive Answer
  | done (bytes : List Byte)
  | stall
  | refuse
  deriving DecidableEq, Repr

/-- The access unit. -/
structure AccessUnit where
  held : Option Held
  answer : Option Answer
  deriving DecidableEq, Repr

/-! ## Posting queue (R2 to R22) -/

/-- The state of an entry (R3). -/
inductive EntryState
  | held
  | ready
  | writing
  | applied
  deriving DecidableEq, Repr

/-- One entry (R2). The class is GROUPED where `group` is present and POSTED where it is absent. -/
structure Entry where
  slot : Fin 32
  line : LineNo
  data : LineData
  valid : ByteSet
  window : WindowIndex
  group : Option Seq
  lastWriter : Initiator
  arrival : BitVec 32
  state : EntryState
  flushMark : Bool
  deriving DecidableEq, Repr

/-- The posting queue: its entries in age order, oldest first (R4); a slot that no entry names is FREE (log 21). -/
structure PostingQueue where
  entries : List Entry
  arrivalCounter : BitVec 32
  outstanding : Nat
  lossNote : Bool
  deriving DecidableEq, Repr

/-! ## Group tracker (R23 to R41) -/

/-- The four commit phases (R24). -/
inductive Phase
  | journaling
  | marking
  | applying
  | retiring
  deriving DecidableEq, Repr

/-- The state of a group record (R23, R24); STALLED carries its stalled phase. -/
inductive GroupState
  | open
  | closed
  | inPhase (phase : Phase)
  | stalled (phase : Phase)
  deriving DecidableEq, Repr

/-- Why a group was closed (R30). -/
inductive CloseCause
  | boundary
  | command
  | limit
  | halt
  | mode
  deriving DecidableEq, Repr

/-- One group record (R23). -/
structure Group where
  sequence : Seq
  state : GroupState
  lineCount : Nat
  closeCause : Option CloseCause
  journalPosition : Nat
  deriving DecidableEq, Repr

/-- The group tracker (R23, R25, R32). -/
structure GroupTracker where
  table : List Group
  nextSequence : Seq
  flushTarget : Option Seq
  deriving DecidableEq, Repr

/-! ## Journal engine (R46) -/

/-- Which line of a record or progress copy is next (R46). -/
inductive Half
  | first
  | second
  deriving DecidableEq, Repr

/-- The journal engine (R46). -/
structure JournalEngine where
  inCommit : Option Seq
  phase : Option Phase
  position : Nat
  half : Half
  runningCheck : BitVec 32
  journalPending : Bool
  deriving DecidableEq, Repr

/-! ## Array port (R80 to R92) -/

/-- The three kinds of operation (R80). -/
inductive OpKind
  | lineRead
  | maskedWrite
  | verifiedWrite
  deriving DecidableEq, Repr

/-- The step an operation is in (R80, R81). -/
inductive ArrayStep
  | read
  | write
  | readBack
  deriving DecidableEq, Repr

/-- The requester of an operation (R83, R84, R88, R89), with what its incident must carry when it fails. -/
inductive Requester
  /-- A controller read carried to the array (R12). -/
  | controllerRead (access : Access) (window : Option WindowIndex)
  /-- A THROUGH write (R73). -/
  | throughWrite (access : Access) (window : Option WindowIndex)
  /-- The posted drain (R14). -/
  | postedDrain (slot : Fin 32) (window : WindowIndex) (writer : Initiator)
  /-- The journal engine: a line of a journal record (R47). -/
  | journalRecord
  /-- The journal engine: an in-place write (R50). -/
  | inPlaceWrite (slot : Fin 32) (window : WindowIndex) (writer : Initiator)
  /-- The journal engine: a line of the retiring progress copy (R51). -/
  | retiringProgress
  /-- The control area writer: a line of STORE_LAYOUT (R103), with the lines written before it. -/
  | storeLayoutLine (before : Nat)
  /-- The control area writer: a line of FORMAT (R132), with the lines written before it. -/
  | formatLine (before : Nat)
  /-- The start sequence: a control-area read (R121), with the lines read before it. -/
  | startRead (before : Nat)
  /-- Recovery: a journal read of SCAN (R125), with the sequence sought and the records found. -/
  | scanRead (sought : Seq) (found : Nat)
  /-- Recovery: an in-place write of REPLAY (R127), with the records written before it. -/
  | replayWrite (sought : Seq) (before : Nat)
  /-- Recovery: a line of a progress copy (R127, R128); `replay` marks the copy that retires the replayed group. -/
  | recoveryProgress (sought : Seq) (replay : Bool) (before : Nat)
  /-- The shutdown sequencer: a line of a record under CONTINUE (R137). -/
  | shutdownRecord
  /-- The shutdown sequencer: a drain write (R138). -/
  | shutdownDrain (slot : Fin 32) (window : WindowIndex) (writer : Initiator)
  /-- The shutdown sequencer: a line of the final progress copy (R139), with the lines written before it. -/
  | shutdownProgress (before : Nat)
  deriving DecidableEq, Repr

/-- The operation in flight (R80 to R83). `presented`: its step stands on the array side (R82). -/
structure ArrayOp where
  requester : Requester
  kind : OpKind
  line : LineNo
  data : LineData
  enables : ByteSet
  attempt : Nat
  step : ArrayStep
  presented : Bool
  deriving DecidableEq, Repr

/-- The array port: the operation in flight and the arbiter's pass-over count (R86). -/
structure ArrayPort where
  op : Option ArrayOp
  passOver : Nat
  deriving DecidableEq, Repr

/-! ## Control area writer (R98) -/

/-- One of the two copies of a pair (R93). -/
inductive Copy
  | a
  | b
  deriving DecidableEq, Repr

/-- The shutdown state of a progress copy (6.2). -/
inductive ShutdownState
  | dirty
  | clean
  | short
  deriving DecidableEq, Repr

/-- The contents a block gives for a progress copy (R95, R104). -/
structure ProgressContent where
  state : ShutdownState
  postedAbandoned : Byte
  groupsAbandoned : Byte
  retiredThrough : Seq
  deriving DecidableEq, Repr

/-- What a copy write writes: it names the pair. -/
inductive CopyContent
  | layout (image : Layout)
  | progress (content : ProgressContent)
  deriving DecidableEq, Repr

/-- The copy write in flight (R98). -/
structure CopyWrite where
  content : CopyContent
  target : Copy
  generation : BitVec 32
  written : Nat
  deriving DecidableEq, Repr

/-- What FORMAT keeps while it is in flight (R131) and the lines it has written (R132). -/
structure FormatWork where
  image : Layout
  journalBase : Addr
  written : Nat
  deriving DecidableEq, Repr

/-- The control area writer (R98, R131). -/
structure ControlWriter where
  newestLayout : Option Copy
  layoutGeneration : BitVec 32
  storedImage : Option Layout
  newestProgress : Option Copy
  progressGeneration : BitVec 32
  retiredThrough : Seq
  startState : ShutdownState
  startPosted : Byte
  startGroups : Byte
  copyWrite : Option CopyWrite
  format : Option FormatWork
  formatIncomplete : Bool
  deriving DecidableEq, Repr

/-! ## Mode controller (R106) -/

/-- The eight modes (R107). -/
inductive Mode
  | starting
  | recovering
  | unformatted
  | config
  | run
  | halted
  | shutdown
  | ended
  deriving DecidableEq, Repr

/-- The long commands (R106). -/
inductive LongCommand
  | flush
  | requestConfig
  | requestRun
  | storeLayout
  | format
  | restart
  deriving DecidableEq, Repr

/-- The results of a long command (R119). -/
inductive LongResult
  | done
  | doneWithLoss
  | failed
  | abandoned
  deriving DecidableEq, Repr

/-- The details of the incident catalogue (R154); a detail's first two digits are its code. -/
inductive Detail
  | d211 | d212 | d220 | d230 | d241 | d242 | d243 | d244 | d250
  | d271 | d272 | d281 | d282 | d311 | d312 | d313 | d314 | d320
  | d411 | d412 | d413 | d414 | d415 | d416 | d417
  | d422 | d423 | d424 | d425 | d426
  | d510 | d511 | d512 | d520 | d521 | d530 | d540 | d550 | d560 | d570
  | d611 | d612 | d711 | d712
  deriving DecidableEq, Repr

/-- The mode controller (R106). -/
structure ModeController where
  mode : Mode
  configRequest : Bool
  handoverLoss : Bool
  haltCause : Option Detail
  longCommand : Option LongCommand
  lastResult : Option LongResult
  deriving DecidableEq, Repr

/-! ## Start sequence and recovery (R121, R124) -/

/-- The start sequence: the lines read in this attempt, and whether it waits out the retry (R121). -/
structure StartSequence where
  lines : List LineData
  waiting : Bool
  deriving DecidableEq, Repr

/-- How RECOVERING was entered (R124). -/
inductive RecoveryPath
  | start
  | command
  deriving DecidableEq, Repr

/-- The stages of recovery that outlast a handling (R124); CHECK is passed in the handling of entry. -/
inductive RecoveryStage
  | scan
  | replay
  | replayProgress
  | finalProgress
  deriving DecidableEq, Repr

/-- The two lines of a 16-byte journal record, first line first (R42). -/
structure JournalRecord where
  first : LineData
  second : LineData
  deriving DecidableEq, Repr

/-- Recovery (R124). `firstLine`: the first line of the position being read, once it has been read. -/
structure Recovery where
  path : RecoveryPath
  base : Seq
  stage : RecoveryStage
  scanPosition : Nat
  found : Nat
  runningCheck : BitVec 32
  records : List JournalRecord
  replayIndex : Nat
  firstLine : Option LineData
  deriving DecidableEq, Repr

/-! ## Shutdown sequencer (R134) -/

/-- The mode in which the cause was taken (R134). -/
inductive ShutdownOrigin
  | full
  | config
  | none
  deriving DecidableEq, Repr

/-- The stages of the shutdown sequence (R134). -/
inductive ShutdownStage
  | finishing
  | group
  | drain
  | progress
  | done
  deriving DecidableEq, Repr

/-- What becomes of the group the journal engine holds (R134, R136). -/
inductive GroupPlan
  | continue
  | stop
  deriving DecidableEq, Repr

/-- The shutdown sequencer (R134). -/
structure ShutdownSequencer where
  origin : ShutdownOrigin
  budget : Nat
  stage : ShutdownStage
  plan : Option GroupPlan
  postedAbandoned : Nat
  groupsAbandoned : Nat
  deriving DecidableEq, Repr

/-! ## Confinement unit (R145) -/

/-- An initiator's standing (R145). -/
inductive Standing
  | clean
  | noisy
  | suspect
  | fenced
  deriving DecidableEq, Repr

/-- One initiator record (R145). -/
structure InitiatorRecord where
  counter : Nat
  state : Standing
  reported : Standing
  deriving DecidableEq, Repr

/-! ## Incident recorder (R154 to R162) -/

/-- What a block reports of an incident: the fields of R154 but for stamp and reaction. -/
structure Report where
  detail : Detail
  initiator : Option Initiator := none
  address : Option Addr := none
  window : Option WindowIndex := none
  sequence : Option Seq := none
  count : Option (BitVec 32) := none
  deriving DecidableEq, Repr

/-- An incident record (R154). -/
structure Incident where
  report : Report
  stamp : Stamp
  reaction : Reaction
  deriving DecidableEq, Repr

/-- The four events (R160). -/
inductive Event
  | fault
  | confinement
  | mode
  | commandDone
  deriving DecidableEq, Repr

/-- One bit per event (R160). -/
structure EventSet where
  fault : Bool
  confinement : Bool
  mode : Bool
  commandDone : Bool
  deriving DecidableEq, Repr

/-- The incident recorder (R155, R159, R160). -/
structure IncidentRecorder where
  incidents : List Incident
  overflow : Bool
  pendingEvents : EventSet
  mask : EventSet
  stamp : Stamp
  deriving DecidableEq, Repr

/-! ## Management port (R163) -/

/-- The phases of a session (R163). -/
inductive SessionPhase
  | idle
  | request
  | response
  | trailing
  deriving DecidableEq, Repr

/-- The session in progress: phase and byte count (R163), the bytes received, the response bytes still to send,
and the byte MSDO carries while TRAILING. -/
structure Session where
  phase : SessionPhase
  byteCount : Nat
  received : List Byte
  response : List Byte
  trailingByte : Byte
  deriving DecidableEq, Repr

/-! ## The whole state -/

/-- The state of the part, the levels of its lines and the retention memory, with the queue of commands waiting.
`lineBefore` and `free` are the model's own: what the line of the copy write in flight held when its operation was granted
(log 27), and the counter of free values (log 15). -/
structure State where
  powered : Bool
  pins : Pins
  mem : Memory
  layout : Layout
  access : AccessUnit
  queue : PostingQueue
  groups : GroupTracker
  engine : JournalEngine
  port : ArrayPort
  writer : ControlWriter
  control : ModeController
  start : StartSequence
  recovery : Option Recovery
  shutdown : ShutdownSequencer
  confinement : Vector InitiatorRecord 4
  recorder : IncidentRecorder
  session : Session
  lineBefore : LineData
  free : Nat
  pending : List Instr
  deriving DecidableEq, Repr

/-- Why the part could not go on. -/
inductive Fault
  /-- Raised by CONTROLLER_ACCESS when the line's classification holds a class code of 5 to 7 or a default class
  byte above 1, to which the manual gives no effect (R76, R78, R94). Safe: no run reaches it, because R78 keeps
  such a layout out of RUN and HALTED (log 14). -/
  | reservedClass
  deriving DecidableEq, Repr

/-- Why a command has no meaning here. -/
inductive Refusal
  /-- Raised by an arm of `exec` that has no meaning yet; none is left. Safe. -/
  | notModelled (mnemonic : String)
  deriving DecidableEq, Repr

/-! ## Start values -/

/-- A disabled window with every field clear (R77). -/
def Window.builtIn : Window :=
  { enabled := false, matchBits := 0, care := 0, cls := 0, verify := false, priority := 0, writers := 0 }

/-- The built-in default of the working layout (R77). -/
def Layout.builtIn : Layout :=
  { settings :=
      { capacityCode := 0, journalBase := 0x000200, lineLimit := 16, stallLimit := 10, arrayTimeout := 100,
        budget := 64, defaultClass := 0, autoRun := 0,
        reactions :=
          { class21 := 0, class22 := 0, class23 := 0, class24 := 0, class27 := 0, class28 := 0, class31 := 0,
            class32 := 0, arrayFailures := 0 },
        sensitivity := Vector.replicate 4 3 },
    windows := Vector.replicate 12 Window.builtIn }

/-- The journal engine holding no group (R46); `pending` is its journal-pending flag. -/
def JournalEngine.idle (pending : Bool) : JournalEngine :=
  { inCommit := none, phase := none, position := 0, half := .first, runningCheck := 0xFFFFFFFF,
    journalPending := pending }

/-- No event. -/
def EventSet.none : EventSet :=
  { fault := false, confinement := false, mode := false, commandDone := false }

/-- Every event. -/
def EventSet.all : EventSet :=
  { fault := true, confinement := true, mode := true, commandDone := true }

/-- The session with no select (R163). -/
def Session.idle : Session :=
  { phase := .idle, byteCount := 0, received := [], response := [], trailingByte := 0xFF }

/-- The start values every block takes in the handling that enters STARTING (R120), before the first read. What
outlives an entry to STARTING is an argument: the levels of the lines, the memory, the session (R163), the
counter of free values and the queue. -/
def State.startValues (pins : Pins) (mem : Memory) (session : Session) (free : Nat) (pending : List Instr) :
    State :=
  { powered := true
    pins := pins
    mem := mem
    layout := Layout.builtIn
    access := { held := none, answer := none }
    queue := { entries := [], arrivalCounter := 0, outstanding := 0, lossNote := false }
    groups := { table := [], nextSequence := 0, flushTarget := none }
    engine := JournalEngine.idle false
    port := { op := none, passOver := 0 }
    writer :=
      { newestLayout := none, layoutGeneration := 0, storedImage := none, newestProgress := none,
        progressGeneration := 0, retiredThrough := 0, startState := .dirty, startPosted := 0, startGroups := 0,
        copyWrite := none, format := none, formatIncomplete := false }
    control :=
      { mode := .starting, configRequest := false, handoverLoss := false, haltCause := none,
        longCommand := none, lastResult := none }
    start := { lines := [], waiting := false }
    recovery := none
    shutdown :=
      { origin := .none, budget := 0, stage := .done, plan := none, postedAbandoned := 0, groupsAbandoned := 0 }
    confinement := Vector.replicate 4 { counter := 0, state := .clean, reported := .clean }
    recorder :=
      { incidents := [], overflow := false, pendingEvents := EventSet.none, mask := EventSet.all, stamp := 0 }
    session := session
    lineBefore := 0
    free := free
    pending := pending }

/-- The part right after power-on (R120): the start values, with the first control-area read begun at once
(R121). PFW_N, CRST_N and MSEL_N are high and the array ready input was asserted, so the read's step is presented
(DESIGN CHOICE, log 2); the memory lists nothing (log 3). -/
def State.reset : State :=
  { State.startValues { pfwN := true, crstN := true, mselN := true, arrayReady := false } [] Session.idle 0 [] with
    port :=
      { op := some
          { requester := .startRead 0, kind := .lineRead, line := 0, data := 0, enables := 0, attempt := 1,
            step := .read, presented := true },
        passOver := 0 } }

end Sys2Proof.Machine
end

