-- ==== Sys2Proof/Machine/Operands.lean ====
section
/-! DEFINITION. Operand forms: bytes of a line, byte enables, CRCs, controller-access operands, and the formats of
the records the part stores and sends (R1, R42 to R45, R60, 6.2, R164 to R173). -/

namespace Sys2Proof.Machine

/-! ## Bytes of lines -/

/-- Byte `n` of a line, byte 0 at the lowest address (00_scope, Conventions). -/
def byteOf (d : LineData) (n : Nat) : Byte :=
  d.extractLsb' (56 - 8 * n) 8

/-- The first `n` bytes of a value of `8 * n` bits in stored order, most significant first (R1). -/
def bytesOf {w : Nat} (n : Nat) (x : BitVec w) : List Byte :=
  (List.range n).map (fun i => x.extractLsb' (8 * (n - 1 - i)) 8)

/-- The lanes of a line that the byte numbers of `v` name: all ones there, zeros elsewhere. -/
def laneMask (v : ByteSet) : LineData :=
  let lane (n : Nat) : BitVec 8 := if v.getLsbD n then 0xFF else 0x00
  lane 0 ++ lane 1 ++ lane 2 ++ lane 3 ++ lane 4 ++ lane 5 ++ lane 6 ++ lane 7

/-- `new` at the bytes of `v`, `old` elsewhere. -/
def mergeBytes (old new : LineData) (v : ByteSet) : LineData :=
  (old &&& ~~~(laneMask v)) ||| (new &&& laneMask v)

/-- The address of a line's byte 0: line number times 8 (R91). -/
def lineAddress (line : LineNo) : Addr :=
  line ++ (0 : BitVec 3)

/-- The line an address lies in (00_scope, Terms). -/
def lineOf (a : Addr) : LineNo :=
  a.extractLsb' 3 21

/-- Lines one after another as one value, the first most significant. -/
def joinLines (w : Nat) (lines : List LineData) : BitVec w :=
  lines.foldl (fun acc l => (acc <<< 64) ||| l.setWidth w) 0

/-! ## Checks -/

/-- One bit of the CRC-32 with polynomial 0x04C11DB7, not reflected (R1). -/
def crc32Bit (c : BitVec 32) : BitVec 32 :=
  if c.msb then (c <<< 1) ^^^ 0x04C11DB7 else c <<< 1

/-- One byte taken into the running CRC-32 (R1). -/
def crc32Byte (c : BitVec 32) (b : Byte) : BitVec 32 :=
  Nat.repeat crc32Bit 8 (c ^^^ (b.setWidth 32 <<< 24))

/-- The initial value of the CRC-32 (R1). -/
def crc32Initial : BitVec 32 := 0xFFFFFFFF

/-- Bytes taken into the running CRC-32 in their stored order. -/
def crc32Update (c : BitVec 32) (bytes : List Byte) : BitVec 32 :=
  bytes.foldl crc32Byte c

/-- The CRC-32 of R1: the final value complemented. -/
def crc32 (bytes : List Byte) : BitVec 32 :=
  ~~~(crc32Update crc32Initial bytes)

/-- One bit of the CRC-8 with polynomial 0x07 (R164). -/
def crc8Bit (c : Byte) : Byte :=
  if c.msb then (c <<< 1) ^^^ 0x07 else c <<< 1

/-- The CRC-8 of the management port: initial value 0, not reflected, no complement (R164). -/
def crc8 (bytes : List Byte) : Byte :=
  bytes.foldl (fun c b => Nat.repeat crc8Bit 8 (c ^^^ b)) 0

/-- The exclusive OR of some bytes. -/
def xorBytes (bytes : List Byte) : Byte :=
  bytes.foldl (· ^^^ ·) 0

/-! ## Controller accesses (R60) -/

/-- The bytes of a read size. -/
def Size.bytes : Size → Nat
  | .one => 1
  | .two => 2
  | .four => 4

/-- The size of an access in bytes. -/
def opBytes : AccessOp → Nat
  | .read z => Size.bytes z
  | .write8 _ => 1
  | .write16 _ => 2
  | .write32 _ => 4

/-- Whether an access is a write. -/
def opIsWrite : AccessOp → Bool
  | .read _ => false
  | .write8 _ => true
  | .write16 _ => true
  | .write32 _ => true

/-- The byte number in its line of an access's first byte. -/
def lineOffset (a : Addr) : Nat :=
  (a.extractLsb' 0 3).toNat

/-- The byte numbers an access covers within its line (section 1.2). -/
def accessBytes (a : Access) : ByteSet :=
  let ones : ByteSet :=
    match opBytes a.op with
    | 1 => 0x01
    | 2 => 0x03
    | _ => 0x0F
  ones <<< lineOffset a.address

/-- The written bytes at their byte numbers, 0x00 elsewhere (R5, R73). -/
def accessData (a : Access) : LineData :=
  match a.op with
  | .read _ => 0
  | .write8 d => d.setWidth 64 <<< (56 - 8 * lineOffset a.address)
  | .write16 d => d.setWidth 64 <<< (48 - 8 * lineOffset a.address)
  | .write32 d => d.setWidth 64 <<< (32 - 8 * lineOffset a.address)

/-- The requested bytes of a line, in address order (R71). -/
def requestedBytes (a : Access) (d : LineData) : List Byte :=
  (List.range (opBytes a.op)).map (fun i => byteOf d (lineOffset a.address + i))

/-- The address is even for size 2 and a multiple of 4 for size 4 (R64). -/
def aligned (a : Access) : Bool :=
  a.address.toNat % opBytes a.op == 0

/-! ## Journal records (3.1) -/

/-- The 16 bytes of a journal record, in stored order. -/
def recordBytes (r : JournalRecord) : List Byte :=
  bytesOf 8 r.first ++ bytesOf 8 r.second

/-- The check byte of a line record: the exclusive OR of bytes 0 to 6 and 8 to 15 (R43). -/
def lineRecordCheck (r : JournalRecord) : Byte :=
  xorBytes (bytesOf 7 (r.first.extractLsb' 8 56) ++ bytesOf 8 r.second)

/-- Line record `index` of the group `sequence`, from an entry's line, valid set and data (R43). -/
def lineRecord (sequence : Seq) (index : Nat) (e : Entry) : JournalRecord :=
  let head : BitVec 56 :=
    0x31#8 ++ sequence.setWidth 8 ++ e.valid ++ BitVec.ofNat 8 index ++ (0#3 ++ e.line)
  let check := lineRecordCheck { first := head ++ 0#8, second := e.data }
  { first := head ++ check, second := e.data }

/-- The code of a close cause (3.1). -/
def CloseCause.code : CloseCause → Byte
  | .boundary => 1
  | .command => 2
  | .limit => 3
  | .halt => 4
  | .mode => 5

/-- A close cause as one byte, 0 when absent (R171). -/
def causeByte (c : Option CloseCause) : Byte :=
  match c with
  | none => 0
  | some c => CloseCause.code c

/-- The commit record of a group of `count` lines with the given group check (R44). -/
def commitRecord (sequence : Seq) (count : Nat) (cause : Option CloseCause) (check : BitVec 32) : JournalRecord :=
  { first := 0x3C#8 ++ sequence.setWidth 8 ++ BitVec.ofNat 8 count ++ causeByte cause ++ sequence,
    second := check ++ ~~~sequence }

/-- The line number a line record names, bytes 4 to 6 (R43). -/
def recordLine (r : JournalRecord) : BitVec 24 :=
  r.first.extractLsb' 8 24

/-- The valid set of a line record, byte 2 (R43). -/
def recordValid (r : JournalRecord) : ByteSet :=
  byteOf r.first 2

/-- The lines of the memory at a capacity code (R91). -/
def capacityLines (code : BitVec 8) : Nat :=
  8192 * 2 ^ code.toNat

/-- The capacity in bytes at a capacity code (R64, R91). -/
def capacityBytes (code : BitVec 8) : Nat :=
  65536 * 2 ^ code.toNat

/-- Recovery's six tests of a line record at position `index` for the sought sequence (R125). -/
def acceptsLineRecord (sought : Seq) (index : Nat) (capacityCode : BitVec 8) (r : JournalRecord) : Bool :=
  byteOf r.first 0 == 0x31
    && byteOf r.first 1 == sought.setWidth 8
    && byteOf r.first 3 == BitVec.ofNat 8 index
    && byteOf r.first 7 == lineRecordCheck r
    && recordValid r != 0
    && decide ((recordLine r).toNat < capacityLines capacityCode)

/-- Recovery's tests of a commit record after `count` accepted line records (R126). -/
def sealedCommit (sought : Seq) (count : Nat) (runningCheck : BitVec 32) (r : JournalRecord) : Bool :=
  let full : Seq := r.first.extractLsb' 0 32
  byteOf r.first 0 == 0x3C
    && full == sought
    && byteOf r.first 1 == sought.setWidth 8
    && r.second.extractLsb' 0 32 == ~~~full
    && byteOf r.first 2 == BitVec.ofNat 8 count
    && decide (1 ≤ count)
    && r.second.extractLsb' 32 32 == ~~~runningCheck

/-- The first line of journal position `position` (R42). -/
def journalLine (journalBase : Addr) (position : Nat) : LineNo :=
  lineOf journalBase + BitVec.ofNat 21 (2 * position)

/-- Line `half` of journal position `position` (R42). -/
def journalHalfLine (journalBase : Addr) (position : Nat) (half : Half) : LineNo :=
  match half with
  | .first => journalLine journalBase position
  | .second => journalLine journalBase position + 1

/-- Line `half` of a record. -/
def recordHalf (r : JournalRecord) (half : Half) : LineData :=
  match half with
  | .first => r.first
  | .second => r.second

/-! ## Layout copies (6.2) -/

/-- A window record as its 8 bytes (6.2). -/
def windowBits (w : Window) : BitVec 64 :=
  (0#3 ++ w.matchBits) ++ (0#3 ++ w.care)
    ++ (BitVec.ofBool w.enabled ++ w.cls ++ BitVec.ofBool w.verify ++ 0#1 ++ w.priority)
    ++ (0#4 ++ w.writers)

/-- The window record its 8 bytes give; bits marked zero are ignored (6.2, R173). -/
def windowOfBits (b : BitVec 64) : Window :=
  { enabled := b.getLsbD 15
    matchBits := b.extractLsb' 40 21
    care := b.extractLsb' 16 21
    cls := b.extractLsb' 12 3
    verify := b.getLsbD 11
    priority := b.extractLsb' 8 2
    writers := b.extractLsb' 0 4 }

/-- The four reaction bytes (6.2). -/
def reactionBits (r : ReactionCodes) : BitVec 32 :=
  r.class21 ++ r.class22 ++ r.class23 ++ r.class24 ++ r.class27 ++ r.class28 ++ r.class31 ++ r.class32
    ++ r.arrayFailures ++ 0#14

/-- The sensitivity byte: initiator 0 in bits 7-6 (6.2). -/
def sensitivityBits (v : Vector (BitVec 2) 4) : BitVec 8 :=
  v[0] ++ v[1] ++ v[2] ++ v[3]

/-- The global settings as bytes 3 to 18 of a layout copy (6.2, R173). -/
def settingsBits (s : Settings) : BitVec 128 :=
  s.capacityCode ++ s.journalBase ++ s.lineLimit ++ s.stallLimit ++ s.arrayTimeout ++ s.budget
    ++ s.defaultClass ++ s.autoRun ++ reactionBits s.reactions ++ sensitivityBits s.sensitivity

/-- The global settings those 16 bytes give (R94, R173). -/
def settingsOfBits (b : BitVec 128) : Settings :=
  { capacityCode := b.extractLsb' 120 8
    journalBase := b.extractLsb' 96 24
    lineLimit := b.extractLsb' 88 8
    stallLimit := b.extractLsb' 80 8
    arrayTimeout := b.extractLsb' 72 8
    budget := b.extractLsb' 56 16
    defaultClass := b.extractLsb' 48 8
    autoRun := b.extractLsb' 40 8
    reactions :=
      { class21 := b.extractLsb' 38 2
        class22 := b.extractLsb' 36 2
        class23 := b.extractLsb' 34 2
        class24 := b.extractLsb' 32 2
        class27 := b.extractLsb' 30 2
        class28 := b.extractLsb' 28 2
        class31 := b.extractLsb' 26 2
        class32 := b.extractLsb' 24 2
        arrayFailures := b.extractLsb' 22 2 }
    sensitivity := #v[b.extractLsb' 6 2, b.extractLsb' 4 2, b.extractLsb' 2 2, b.extractLsb' 0 2] }

/-- The twelve window records, W0 first (6.2). -/
def windowsBits (v : Vector Window 12) : BitVec 768 :=
  windowBits v[0] ++ windowBits v[1] ++ windowBits v[2] ++ windowBits v[3] ++ windowBits v[4]
    ++ windowBits v[5] ++ windowBits v[6] ++ windowBits v[7] ++ windowBits v[8] ++ windowBits v[9]
    ++ windowBits v[10] ++ windowBits v[11]

/-- The twelve window records those bytes give. -/
def windowsOfBits (b : BitVec 768) : Vector Window 12 :=
  let w (i : Nat) : Window := windowOfBits (b.extractLsb' (704 - 64 * i) 64)
  #v[w 0, w 1, w 2, w 3, w 4, w 5, w 6, w 7, w 8, w 9, w 10, w 11]

/-- Bytes 0 to 123 of a layout copy (6.2, R94). -/
def layoutBody (l : Layout) (generation : BitVec 32) : BitVec 992 :=
  0x4C59#16 ++ 0x01#8 ++ settingsBits l.settings ++ 0#8 ++ windowsBits l.windows ++ generation ++ 0#32

/-- A layout copy, 128 bytes (6.2, R94). -/
def layoutCopy (l : Layout) (generation : BitVec 32) : BitVec 1024 :=
  layoutBody l generation ++ crc32 (bytesOf 124 (layoutBody l generation))

/-- Line `i` of a layout copy, 0 to 15. -/
def layoutCopyLine (l : Layout) (generation : BitVec 32) (i : Nat) : LineData :=
  (layoutCopy l generation).extractLsb' (64 * (15 - i)) 64

/-- A layout copy as read is valid: kind, format version and CRC (R96). -/
def layoutValid (copy : BitVec 1024) : Bool :=
  copy.extractLsb' 1008 16 == 0x4C59 && copy.extractLsb' 1000 8 == 1
    && copy.extractLsb' 0 32 == crc32 (bytesOf 124 (copy.extractLsb' 32 992))

/-- The generation of a layout copy, bytes 116 to 119 (6.2). -/
def layoutGenerationOf (copy : BitVec 1024) : BitVec 32 :=
  copy.extractLsb' 64 32

/-- The layout a copy holds: every field as read (R94). -/
def layoutOfCopy (copy : BitVec 1024) : Layout :=
  { settings := settingsOfBits (copy.extractLsb' 872 128)
    windows := windowsOfBits (copy.extractLsb' 96 768) }

/-! ## Progress copies (6.2) -/

/-- The code of a shutdown state (6.2). -/
def ShutdownState.code : ShutdownState → Byte
  | .dirty => 0
  | .clean => 1
  | .short => 2

/-- The shutdown state read from byte 1: above 2 it reads DIRTY (R95). -/
def shutdownStateOf (b : Byte) : ShutdownState :=
  if b == 1 then .clean else if b == 2 then .short else .dirty

/-- Bytes 0 to 11 of a progress copy (R95). -/
def progressBody (p : ProgressContent) (generation : BitVec 32) : BitVec 96 :=
  0x50#8 ++ ShutdownState.code p.state ++ p.postedAbandoned ++ p.groupsAbandoned ++ generation ++ p.retiredThrough

/-- A progress copy, 16 bytes (R95). -/
def progressCopy (p : ProgressContent) (generation : BitVec 32) : BitVec 128 :=
  progressBody p generation ++ crc32 (bytesOf 12 (progressBody p generation))

/-- Line `i` of a progress copy, 0 or 1. -/
def progressCopyLine (p : ProgressContent) (generation : BitVec 32) (i : Nat) : LineData :=
  (progressCopy p generation).extractLsb' (64 * (1 - i)) 64

/-- A progress copy as read is valid: kind and CRC (R96). -/
def progressValid (copy : BitVec 128) : Bool :=
  copy.extractLsb' 120 8 == 0x50 && copy.extractLsb' 0 32 == crc32 (bytesOf 12 (copy.extractLsb' 32 96))

/-- The generation of a progress copy, bytes 4 to 7 (6.2). -/
def progressGenerationOf (copy : BitVec 128) : BitVec 32 :=
  copy.extractLsb' 64 32

/-- The contents of a progress copy as the part reads them (R95). -/
def progressOfCopy (copy : BitVec 128) : ProgressContent :=
  { state := shutdownStateOf (copy.extractLsb' 112 8)
    postedAbandoned := copy.extractLsb' 104 8
    groupsAbandoned := copy.extractLsb' 96 8
    retiredThrough := copy.extractLsb' 32 32 }

/-! ## Placement and choice of copies (R93, R97, R99) -/

/-- The first line of a layout copy (R93). -/
def layoutCopyBase : Copy → LineNo
  | .a => 0x000000
  | .b => 0x000010

/-- The first line of a progress copy (R93). -/
def progressCopyBase : Copy → LineNo
  | .a => 0x000020
  | .b => 0x000022

/-- The newest valid copy, from the generations of the copies that are valid (R97). -/
def newestCopy (a b : Option (BitVec 32)) : Option Copy :=
  match a, b with
  | none, none => none
  | some _, none => some .a
  | none, some _ => some .b
  | some ga, some gb =>
    if ga == gb + 1 then some .a
    else if gb == ga + 1 then some .b
    else if gb.toNat ≤ ga.toNat then some .a
    else some .b

/-- The copy a write goes to: not the newest one, and A when neither is valid (R99). -/
def targetCopy : Option Copy → Copy
  | none => .a
  | some .a => .b
  | some .b => .a

/-- The generation a write carries: one more than the newest, 1 when neither copy is valid (R99). -/
def nextGeneration (newest : Option Copy) (generation : BitVec 32) : BitVec 32 :=
  match newest with
  | none => 1
  | some _ => generation + 1

/-- The number of lines of a copy (R93). -/
def copyLines : CopyContent → Nat
  | .layout _ => 16
  | .progress _ => 2

/-- The line of memory that line `i` of a copy write goes to (R93, R100). -/
def copyLineNo (c : CopyWrite) (i : Nat) : LineNo :=
  match c.content with
  | .layout _ => layoutCopyBase c.target + BitVec.ofNat 21 i
  | .progress _ => progressCopyBase c.target + BitVec.ofNat 21 i

/-- The data of line `i` of a copy write (R94, R95). -/
def copyLineData (c : CopyWrite) (i : Nat) : LineData :=
  match c.content with
  | .layout l => layoutCopyLine l c.generation i
  | .progress p => progressCopyLine p c.generation i

/-! ## Window classification (R67) -/

/-- The class a class code names; codes 5 to 7 name none (R76). -/
def classOfCode (c : BitVec 3) : Option LineClass :=
  if c == 0 then some .closed
  else if c == 1 then some .through
  else if c == 2 then some .posted
  else if c == 3 then some .grouped
  else if c == 4 then some .locked
  else none

/-- A line matches a window (R67). -/
def windowMatches (w : Window) (line : LineNo) : Bool :=
  w.enabled && (line &&& w.care) == (w.matchBits &&& w.care)

/-- The twelve window indexes, W0 first. -/
def windowIndexes : List WindowIndex :=
  [0, 1, 2, 3, 4, 5, 6, 7, 8, 9, 10, 11]

/-- The lowest-numbered window a line matches (R67). -/
def matchedWindow (l : Layout) (line : LineNo) : Option WindowIndex :=
  windowIndexes.find? (fun i => windowMatches l.windows[i] line)

/-- The classification of a line; absent for a class code or default class byte with no meaning (R67, log 14). -/
def classify (l : Layout) (line : LineNo) : Option Classification :=
  match matchedWindow l line with
  | some i =>
    (classOfCode l.windows[i].cls).map (fun c =>
      { window := some i, cls := c, verify := l.windows[i].verify, writers := l.windows[i].writers })
  | none =>
    if l.settings.defaultClass == 0 then
      some { window := none, cls := .closed, verify := false, writers := 0xF }
    else if l.settings.defaultClass == 1 then
      some { window := none, cls := .through, verify := false, writers := 0xF }
    else none

/-! ## Consistency of a layout (R78) -/

/-- A reaction code its row allows when RECORD, FENCE and HALT are (R77). -/
def reactionAllowsFence (c : BitVec 2) : Bool :=
  c != 3

/-- A reaction code its row allows when only RECORD and HALT are (R77). -/
def reactionRecordOrHalt (c : BitVec 2) : Bool :=
  c == 0 || c == 2

/-- Every reaction is one its row allows (R77). -/
def reactionsConsistent (r : ReactionCodes) : Bool :=
  reactionAllowsFence r.class21 && reactionAllowsFence r.class22 && reactionAllowsFence r.class23
    && reactionAllowsFence r.class24 && reactionAllowsFence r.class27 && reactionAllowsFence r.class28
    && reactionRecordOrHalt r.class31 && reactionRecordOrHalt r.class32 && reactionRecordOrHalt r.arrayFailures

/-- Every global setting lies in its range, and the journal area below capacity (R77, R78). -/
def settingsConsistent (s : Settings) : Bool :=
  decide (s.capacityCode.toNat ≤ 8)
    && decide (s.journalBase.toNat % 0x200 = 0) && decide (0x200 ≤ s.journalBase.toNat)
    && decide (s.journalBase.toNat + 0x200 ≤ capacityBytes s.capacityCode)
    && decide (1 ≤ s.lineLimit.toNat) && decide (s.lineLimit.toNat ≤ 24)
    && decide (1 ≤ s.stallLimit.toNat) && decide (1 ≤ s.arrayTimeout.toNat)
    && decide (4 ≤ s.budget.toNat) && decide (s.budget.toNat ≤ 4095)
    && decide (s.defaultClass.toNat ≤ 1) && decide (s.autoRun.toNat ≤ 1)
    && reactionsConsistent s.reactions

/-- The working layout is consistent (R78). -/
def consistent (l : Layout) : Bool :=
  settingsConsistent l.settings && l.windows.toList.all (fun w => decide (w.cls.toNat ≤ 4))

end Sys2Proof.Machine
end

