-- ==== Sys2Proof/Machine/Updates.lean ====
section
/-! DEFINITION. One update per block of State; every other operation writes State through these. -/

namespace Sys2Proof.Machine

/-- `s` with its block `powered` replaced. -/
def State.setPowered (s : State) (v : Bool) : State :=
  { s with powered := v }

/-- `s` with its block `pins` replaced. -/
def State.setPins (s : State) (v : Pins) : State :=
  { s with pins := v }

/-- `s` with its block `mem` replaced. -/
def State.setMem (s : State) (v : Memory) : State :=
  { s with mem := v }

/-- `s` with its block `layout` replaced. -/
def State.setLayout (s : State) (v : Layout) : State :=
  { s with layout := v }

/-- `s` with its block `access` replaced. -/
def State.setAccess (s : State) (v : AccessUnit) : State :=
  { s with access := v }

/-- `s` with its block `queue` replaced. -/
def State.setQueue (s : State) (v : PostingQueue) : State :=
  { s with queue := v }

/-- `s` with its block `groups` replaced. -/
def State.setGroups (s : State) (v : GroupTracker) : State :=
  { s with groups := v }

/-- `s` with its block `engine` replaced. -/
def State.setEngine (s : State) (v : JournalEngine) : State :=
  { s with engine := v }

/-- `s` with its block `port` replaced. -/
def State.setPort (s : State) (v : ArrayPort) : State :=
  { s with port := v }

/-- `s` with its block `writer` replaced. -/
def State.setWriter (s : State) (v : ControlWriter) : State :=
  { s with writer := v }

/-- `s` with its block `control` replaced. -/
def State.setControl (s : State) (v : ModeController) : State :=
  { s with control := v }

/-- `s` with its block `start` replaced. -/
def State.setStart (s : State) (v : StartSequence) : State :=
  { s with start := v }

/-- `s` with its block `recovery` replaced. -/
def State.setRecovery (s : State) (v : Option Recovery) : State :=
  { s with recovery := v }

/-- `s` with its block `shutdown` replaced. -/
def State.setShutdown (s : State) (v : ShutdownSequencer) : State :=
  { s with shutdown := v }

/-- `s` with its block `confinement` replaced. -/
def State.setConfinement (s : State) (v : Vector InitiatorRecord 4) : State :=
  { s with confinement := v }

/-- `s` with its block `recorder` replaced. -/
def State.setRecorder (s : State) (v : IncidentRecorder) : State :=
  { s with recorder := v }

/-- `s` with its block `session` replaced. -/
def State.setSession (s : State) (v : Session) : State :=
  { s with session := v }

/-- `s` with its item `lineBefore` replaced. -/
def State.setLineBefore (s : State) (v : LineData) : State :=
  { s with lineBefore := v }

/-- `s` with its block `free` replaced. -/
def State.setFree (s : State) (v : Nat) : State :=
  { s with free := v }

/-- `s` with its block `pending` replaced. -/
def State.setPending (s : State) (v : List Instr) : State :=
  { s with pending := v }

end Sys2Proof.Machine
end

