-- ==== Sys2Proof/Machine/Flags.lean ====
section
/-! DEFINITION. Events and outputs: the event flags, ATTN_N, READY and the coded views of the states (R108, R160, R167). -/

namespace Sys2Proof.Machine

/-- The bit of one event. -/
def EventSet.has (e : EventSet) : Event → Bool
  | .fault => e.fault
  | .confinement => e.confinement
  | .mode => e.mode
  | .commandDone => e.commandDone

/-- The set with one event's bit replaced. -/
def EventSet.put (e : EventSet) (v : Event) (b : Bool) : EventSet :=
  match v with
  | .fault => { e with fault := b }
  | .confinement => { e with confinement := b }
  | .mode => { e with mode := b }
  | .commandDone => { e with commandDone := b }

/-- The event layout of R167: bit 3 FAULT, bit 2 CONFINEMENT, bit 1 MODE, bit 0 COMMAND_DONE. -/
def EventSet.byte (e : EventSet) : Byte :=
  0#4 ++ BitVec.ofBool e.fault ++ BitVec.ofBool e.confinement ++ BitVec.ofBool e.mode ++ BitVec.ofBool e.commandDone

/-- The events an argument byte names (R168). -/
def EventSet.ofByte (b : Byte) : EventSet :=
  { fault := b.getLsbD 3, confinement := b.getLsbD 2, mode := b.getLsbD 1, commandDone := b.getLsbD 0 }

/-- Raising an event: it becomes pending whatever its enable bit (R160). -/
def raise (s : State) (e : Event) : State :=
  s.setRecorder { s.recorder with pendingEvents := s.recorder.pendingEvents.put e true }

/-- At least one event is both pending and enabled (R160). -/
def attention (s : State) : Bool :=
  let p := s.recorder.pendingEvents
  let m := s.recorder.mask
  (p.fault && m.fault) || (p.confinement && m.confinement) || (p.mode && m.mode)
    || (p.commandDone && m.commandDone)

/-- The level of ATTN_N: low while an event is pending and enabled (R160); released without supply (log 22). -/
def attnN (s : State) : Bool :=
  !(s.powered && attention s)

/-- The mode serves controller accesses (R63, R108). -/
def serving (s : State) : Bool :=
  s.control.mode == .run || s.control.mode == .halted

/-- The level of READY (R108); low without supply (log 22). -/
def readyOut (s : State) : Bool :=
  s.powered && serving s

/-- What MSDO carries: nothing while high impedance, else the byte being sent (R163). Without supply it carries nothing:
the spec is silent, and high impedance is the model's choice (DESIGN CHOICE, log 22). -/
def msdo (s : State) : Option Byte :=
  if s.powered then
    match s.session.phase with
    | .idle => none
    | .request => some 0xFF
    | .response => some (s.session.response.headD 0xFF)
    | .trailing => some s.session.trailingByte
  else none

/-- The number of a detail (R154). -/
def Detail.number : Detail → BitVec 16
  | .d211 => 211 | .d212 => 212 | .d220 => 220 | .d230 => 230
  | .d241 => 241 | .d242 => 242 | .d243 => 243 | .d244 => 244 | .d250 => 250
  | .d271 => 271 | .d272 => 272 | .d281 => 281 | .d282 => 282
  | .d311 => 311 | .d312 => 312 | .d313 => 313 | .d314 => 314 | .d320 => 320
  | .d411 => 411 | .d412 => 412 | .d413 => 413 | .d414 => 414 | .d415 => 415 | .d416 => 416 | .d417 => 417
  | .d422 => 422 | .d423 => 423 | .d424 => 424 | .d425 => 425 | .d426 => 426
  | .d510 => 510 | .d511 => 511 | .d512 => 512 | .d520 => 520 | .d521 => 521 | .d530 => 530
  | .d540 => 540 | .d550 => 550 | .d560 => 560 | .d570 => 570
  | .d611 => 611 | .d612 => 612 | .d711 => 711 | .d712 => 712

/-- The code of a detail: its first two digits (R154). -/
def Detail.code (d : Detail) : Byte :=
  BitVec.ofNat 8 (d.number.toNat / 10)

/-- The codes of the modes (R167). -/
def Mode.code : Mode → Byte
  | .starting => 0
  | .recovering => 1
  | .unformatted => 2
  | .config => 3
  | .run => 4
  | .halted => 5
  | .shutdown => 6
  | .ended => 7

/-- A long command's code: its own command code (R166). -/
def LongCommand.code : LongCommand → Byte
  | .flush => 0x1B
  | .requestConfig => 0x20
  | .requestRun => 0x21
  | .storeLayout => 0x30
  | .format => 0x31
  | .restart => 0x3F

/-- The codes of the results (R166). -/
def LongResult.code : LongResult → Byte
  | .done => 1
  | .doneWithLoss => 2
  | .failed => 3
  | .abandoned => 4

/-- The codes of the standings (R167). -/
def Standing.code : Standing → BitVec 2
  | .clean => 0
  | .noisy => 1
  | .suspect => 2
  | .fenced => 3

/-- The codes of the reactions taken (R169). -/
def Reaction.code : Reaction → Byte
  | .record => 0
  | .fence => 1
  | .halt => 2
  | .none => 3

/-- The codes of the commit phases, as group states (R171). -/
def Phase.code : Phase → Byte
  | .journaling => 3
  | .marking => 4
  | .applying => 5
  | .retiring => 6

/-- The code of a group record's state (R171). -/
def GroupState.code : GroupState → Byte
  | .open => 1
  | .closed => 2
  | .inPhase p => Phase.code p
  | .stalled _ => 7

/-- The code of a group record's stalled phase, 0 when absent (R171). -/
def GroupState.stalledCode : GroupState → Byte
  | .stalled p => Phase.code p
  | .open | .closed | .inPhase _ => 0

/-- The codes of an entry's state; a FREE slot reads 0 (R171). -/
def EntryState.code : EntryState → Byte
  | .held => 1
  | .ready => 2
  | .writing => 3
  | .applied => 4

/-- The statuses of a response (R165). -/
inductive Status
  | ok
  | accepted
  | busy
  | wrongMode
  | badArgument
  | badCommand
  | badCheck
  | journalPending
  | layoutDiffers
  | badLayout
  deriving DecidableEq, Repr

/-- The codes of the statuses (R165). -/
def Status.code : Status → Byte
  | .ok => 0x00
  | .accepted => 0x01
  | .busy => 0x02
  | .wrongMode => 0x03
  | .badArgument => 0x04
  | .badCommand => 0x05
  | .badCheck => 0x06
  | .journalPending => 0x07
  | .layoutDiffers => 0x08
  | .badLayout => 0x09

end Sys2Proof.Machine
end

