-- ==== Sys2Proof/Machine/Ops.lean ====
section
/-! DEFINITION. The shared operations: memory, modes, incidents and their reactions, confinement, answers on the bus,
and the handling of queue entries and group records that several blocks use. -/

namespace Sys2Proof.Machine

/-! ## Memory -/

/-- What an unlisted address reads as: a memory nothing has written (DESIGN CHOICE, log 3). -/
def Memory.blank : Byte := 0x00

/-- The byte at an address. -/
def Memory.read (m : Memory) (a : Addr) : Byte :=
  match m with
  | [] => Memory.blank
  | (k, b) :: rest => if k = a.toNat then b else Memory.read rest a

/-- Store one byte, keeping the canonical form. -/
def Memory.write (m : Memory) (a : Addr) (v : Byte) : Memory :=
  match m with
  | [] => if v = Memory.blank then [] else [(a.toNat, v)]
  | (k, b) :: rest =>
    if k < a.toNat then (k, b) :: Memory.write rest a v
    else if k = a.toNat then if v = Memory.blank then rest else (k, v) :: rest
    else if v = Memory.blank then (k, b) :: rest
    else (a.toNat, v) :: (k, b) :: rest

/-- Cells above `low`, strictly rising, below 2^24, none blank. -/
def Memory.wfFrom (low : Nat) : Memory → Bool
  | [] => true
  | (k, b) :: rest => decide (low ≤ k) && decide (k < 2 ^ 24) && b != Memory.blank && Memory.wfFrom (k + 1) rest

/-- The canonical form of the memory. -/
def Memory.wf (m : Memory) : Bool :=
  Memory.wfFrom 0 m

/-- The address of byte `n` of a line. -/
def byteAddress (line : LineNo) (n : Nat) : Addr :=
  line ++ BitVec.ofNat 3 n

/-- The 8 bytes of a line, byte 0 first (R80). -/
def Memory.readLine (m : Memory) (line : LineNo) : LineData :=
  let b (n : Nat) : Byte := m.read (byteAddress line n)
  b 0 ++ b 1 ++ b 2 ++ b 3 ++ b 4 ++ b 5 ++ b 6 ++ b 7

/-- Store one byte of a line where its enable is set. -/
def Memory.writeLane (line : LineNo) (data : LineData) (enables : ByteSet) (m : Memory) (n : Nat) : Memory :=
  if enables.getLsbD n then m.write (byteAddress line n) (byteOf data n) else m

/-- A masked line write: the enabled bytes take the data, the others keep their contents (R80). -/
def Memory.writeLine (m : Memory) (line : LineNo) (data : LineData) (enables : ByteSet) : Memory :=
  [0, 1, 2, 3, 4, 5, 6, 7].foldl (Memory.writeLane line data enables) m

/-- What a write step leaves when the memory took only the bits of `took`: at the enabled bytes the new data where
`took` is set and the old contents elsewhere (R83, log 5). -/
def Memory.takeStep (m : Memory) (line : LineNo) (data : LineData) (enables : ByteSet) (took : LineData) : Memory :=
  m.writeLine line ((data &&& took) ||| (m.readLine line &&& ~~~took)) enables

/-! ## Modes and long commands -/

/-- A change of mode raises MODE (R107, R109). -/
def changeMode (s : State) (m : Mode) : State :=
  if s.control.mode = m then s else raise (s.setControl { s.control with mode := m }) .mode

/-- A long command completes: last result, absent, COMMAND_DONE (R119). -/
def completeLong (s : State) (r : LongResult) : State :=
  raise (s.setControl { s.control with longCommand := none, lastResult := some r }) .commandDone

/-! ## Incidents (R154 to R158) -/

/-- The setting that holds the reaction of a configurable incident (R77, R157). -/
def reactionSetting (r : ReactionCodes) : Detail → Option (BitVec 2)
  | .d211 | .d212 => some r.class21
  | .d220 => some r.class22
  | .d230 => some r.class23
  | .d241 | .d242 | .d243 | .d244 => some r.class24
  | .d271 | .d272 => some r.class27
  | .d281 | .d282 => some r.class28
  | .d311 | .d312 | .d313 | .d314 => some r.class31
  | .d320 => some r.class32
  | .d411 | .d412 | .d413 | .d422 | .d423 => some r.arrayFailures
  | .d250 | .d414 | .d415 | .d416 | .d417 | .d424 | .d425 | .d426 | .d510 | .d511 | .d512 | .d520 | .d521
  | .d530 | .d540 | .d550 | .d560 | .d570 | .d611 | .d612 | .d711 | .d712 => none

/-- The fixed reactions (R157). -/
def fixedReaction : Detail → Reaction
  | .d250 | .d417 => .record
  | .d414 | .d415 | .d416 | .d424 | .d425 | .d426 => .halt
  | .d211 | .d212 | .d220 | .d230 | .d241 | .d242 | .d243 | .d244 | .d271 | .d272 | .d281 | .d282 | .d311 | .d312
  | .d313 | .d314 | .d320 | .d411 | .d412 | .d413 | .d422 | .d423 | .d510 | .d511 | .d512 | .d520 | .d521 | .d530
  | .d540 | .d550 | .d560 | .d570 | .d611 | .d612 | .d711 | .d712 => .none

/-- The reaction a code stands for: RECORD 0, FENCE 1, HALT 2; code 3 is a free value (6.2, log 15). -/
def reactionOfCode (free : Nat) (c : BitVec 2) : Reaction :=
  if c == 0 then .record else if c == 1 then .fence else if c == 2 then .halt else Config.freeReaction free

/-- The reaction in force for an incident (R157). -/
def reactionInForce (s : State) (d : Detail) : Reaction :=
  match reactionSetting s.layout.settings.reactions d with
  | some c => reactionOfCode s.free c
  | none => fixedReaction d

/-- The notices, whose reaction is NONE in every mode (R157). -/
def isNotice : Detail → Bool
  | .d510 | .d511 | .d512 | .d520 | .d521 | .d530 | .d540 | .d550 | .d560 | .d570 | .d611 | .d612 | .d711 | .d712 => true
  | .d211 | .d212 | .d220 | .d230 | .d241 | .d242 | .d243 | .d244 | .d250 | .d271 | .d272 | .d281 | .d282 | .d311
  | .d312 | .d313 | .d314 | .d320 | .d411 | .d412 | .d413 | .d414 | .d415 | .d416 | .d417 | .d422 | .d423 | .d424
  | .d425 | .d426 => false

/-- SHUTDOWN shows RECORD for every incident that it can record (R140), whatever reaction is in force; a notice keeps its
NONE. Where R157 would leave a FENCE or a reaction code of 3 as it is, the model follows R140 (DEDUCED, log 15). -/
def shownAsRecord (s : State) (d : Detail) : Bool :=
  s.control.mode == .shutdown && !isNotice d

/-- The reaction taken: a HALT in force becomes RECORD outside RUN and HALTED (R157), and every reaction in SHUTDOWN
(R140, log 15). -/
def reactionTaken (s : State) (d : Detail) : Reaction :=
  if shownAsRecord s d then .record
  else if reactionInForce s d = .halt ∧ serving s = false then .record
  else reactionInForce s d

/-- A free value is used up where a reaction code of 3 is in force and the reaction is not shown as RECORD anyway
(log 15). -/
def freeAfter (s : State) (d : Detail) : Nat :=
  if reactionSetting s.layout.settings.reactions d = some 3 ∧ shownAsRecord s d = false then s.free + 1 else s.free

/-- An incident is recorded, or dropped with the overflow flag set; FAULT is raised (R155). -/
def recordIncident (s : State) (r : Report) : State :=
  let incident : Incident := { report := r, stamp := s.recorder.stamp, reaction := reactionTaken s r.detail }
  let recorder :=
    if s.recorder.incidents.length < Config.incidentRecords then
      { s.recorder with incidents := s.recorder.incidents ++ [incident] }
    else { s.recorder with overflow := true }
  raise ((s.setFree (freeAfter s r.detail)).setRecorder recorder) .fault

/-! ## Confinement (R145 to R152) -/

/-- The state a counter value selects (R147). -/
def standingOf (counter : Nat) : Standing :=
  if counter < 64 then .clean else if counter < 160 then .noisy else if counter < 320 then .suspect else .fenced

/-- A change of state is reportable under a sensitivity (R150). -/
def reportable (sensitivity : BitVec 2) (old new : Standing) : Bool :=
  decide (old ≠ new) &&
    (if sensitivity == 0 then false
     else if sensitivity == 1 then decide (old = .fenced) || decide (new = .fenced)
     else if sensitivity == 2 then
       decide (old = .fenced) || decide (new = .fenced) || decide (old = .suspect) || decide (new = .suspect)
     else true)

/-- All four reported states take the actual states (R151, R152). -/
def copyReported (s : State) : State :=
  s.setConfinement (s.confinement.map (fun r => { r with reported := r.state }))

/-- A change of an initiator's state is judged for the confinement event (R151). -/
def judgeChange (s : State) (i : Initiator) (old new : Standing) : State :=
  if s.recorder.pendingEvents.confinement then s
  else if reportable s.layout.settings.sensitivity[i] old new then raise (copyReported s) .confinement
  else s

/-- The counter and state of one initiator. -/
def setStanding (s : State) (i : Initiator) (counter : Nat) (state : Standing) : State :=
  s.setConfinement (s.confinement.set i { s.confinement[i] with counter := counter, state := state })

/-- A counter takes a new value, and an initiator that is not FENCED the state it selects; fencing records
71/711 (R147). -/
def changeCounter (s : State) (i : Initiator) (counter : Nat) : State :=
  let old := s.confinement[i]
  if old.counter = counter then s
  else if old.state = .fenced then setStanding s i counter .fenced
  else
    let new := standingOf counter
    let judged := judgeChange (setStanding s i counter new) i old.state new
    if new = .fenced then
      recordIncident judged { detail := .d711, initiator := some i, count := some (BitVec.ofNat 32 counter) }
    else judged

/-- A counted refusal: +8 for a write, +2 for a read, at most 511 (R146). -/
def countRefusal (s : State) (i : Initiator) (write : Bool) : State :=
  changeCounter s i (min 511 (s.confinement[i].counter + if write then 8 else 2))

/-- A write answered DONE counts -1, at least 0 (R146). -/
def countAccepted (s : State) (i : Initiator) : State :=
  changeCounter s i (s.confinement[i].counter - 1)

/-- A FENCE reaction (R148). -/
def fenceInitiator (s : State) (i : Initiator) : State :=
  if s.confinement[i].state = .fenced then s
  else
    recordIncident (judgeChange (setStanding s i 320 .fenced) i s.confinement[i].state .fenced)
      { detail := .d712, initiator := some i, count := some 320 }

/-! ## Answers on the controller bus (R61) -/

/-- The access in progress ends with a final answer. -/
def finishAccess (s : State) (a : Answer) : State :=
  s.setAccess { held := none, answer := some a }

/-- The access in progress is held with STALL (R61). -/
def holdAccess (s : State) (h : Held) : State :=
  s.setAccess { held := some h, answer := some .stall }

/-- A write is answered DONE and counted (R70, R72). -/
def finishWrite (s : State) (i : Initiator) : State :=
  countAccepted (finishAccess s (.done [])) i

/-- Every held access is refused, with no incident and no count (R74). -/
def refuseHeld (s : State) : State :=
  match s.access.held with
  | none => s
  | some _ => finishAccess s .refuse

/-- A held write is refused, with no incident and no count (R8, R29, R74). -/
def refuseHeldWrite (s : State) : State :=
  match s.access.held with
  | none => s
  | some h => if opIsWrite h.access.op then finishAccess s .refuse else s

/-! ## Queue entries -/

/-- Slot `k` is FREE. -/
def slotFree (q : PostingQueue) (k : Nat) : Bool :=
  q.entries.all (fun e => e.slot.val != k)

/-- The FREE slots, lowest first. -/
def freeSlots (q : PostingQueue) : List Nat :=
  (List.range Config.slots).filter (slotFree q)

/-- The free-slot count (R21). -/
def freeSlotCount (q : PostingQueue) : Nat :=
  (freeSlots q).length

/-- The lowest-numbered FREE slot (R5). -/
def lowestFreeSlot (q : PostingQueue) : Option (Fin 32) :=
  (freeSlots q).head?.map (Fin.ofNat 32)

/-- The entries that a test names change; the others and the order stay. -/
def changeEntries (s : State) (p : Entry → Bool) (f : Entry → Entry) : State :=
  s.setQueue { s.queue with entries := s.queue.entries.map (fun e => if p e then f e else e) }

/-- The entry of one slot takes a state. -/
def setEntryState (s : State) (slot : Fin 32) (st : EntryState) : State :=
  changeEntries s (fun e => e.slot == slot) (fun e => { e with state := st })

/-- Entries that a test names leave the queue; their slots become FREE (R18). -/
def freeEntries (s : State) (p : Entry → Bool) : State :=
  s.setQueue { s.queue with entries := s.queue.entries.filter (fun e => !p e) }

/-- The entries of a group, in arrival order (R4, R43). -/
def groupEntries (s : State) (sequence : Seq) : List Entry :=
  s.queue.entries.filter (fun e => e.group == some sequence)

/-- Every flush mark is cleared and the outstanding count becomes 0 (R20). -/
def clearFlushMarks (s : State) : State :=
  s.setQueue
    { s.queue with
      entries := s.queue.entries.map (fun e => { e with flushMark := false })
      outstanding := 0 }

/-! ## Group records -/

/-- The open group (R24). -/
def openGroup (s : State) : Option Group :=
  s.groups.table.find? (fun g => g.state == .open)

/-- The record of a sequence. -/
def groupOf (s : State) (sequence : Seq) : Option Group :=
  s.groups.table.find? (fun g => g.sequence == sequence)

/-- The record of a sequence changes. -/
def changeGroup (s : State) (sequence : Seq) (f : Group → Group) : State :=
  s.setGroups
    { s.groups with table := s.groups.table.map (fun g => if g.sequence == sequence then f g else g) }

/-- Closing the open group (R30). -/
def closeOpen (s : State) (cause : CloseCause) : State :=
  s.setGroups
    { s.groups with
      table := s.groups.table.map (fun g =>
        if g.state == .open then { g with state := .closed, closeCause := some cause } else g) }

/-- The engine holds no group; journal-pending stays (R51, R56). -/
def releaseEngine (s : State) : State :=
  s.setEngine (JournalEngine.idle s.engine.journalPending)

/-- A group is STALLED (R24). -/
def groupStalled (g : Group) : Bool :=
  match g.state with
  | .stalled _ => true
  | .open | .closed | .inPhase _ => false

/-- A group is in commit: in one of the four phases or STALLED (R35). -/
def groupInCommit (g : Group) : Bool :=
  match g.state with
  | .inPhase _ | .stalled _ => true
  | .open | .closed => false

/-! ## HALT, and carrying out reactions (R110, R115, R158) -/

/-- The details whose incident has made a group STALLED when it is reported in RUN or HALTED (R53 to R55). -/
def stallsGroup : Detail → Bool
  | .d414 | .d415 | .d416 | .d424 | .d425 | .d426 => true
  | .d211 | .d212 | .d220 | .d230 | .d241 | .d242 | .d243 | .d244 | .d250 | .d271 | .d272 | .d281 | .d282 | .d311
  | .d312 | .d313 | .d314 | .d320 | .d411 | .d412 | .d413 | .d417 | .d422 | .d423 | .d510 | .d511 | .d512 | .d520
  | .d521 | .d530 | .d540 | .d550 | .d560 | .d570 | .d611 | .d612 | .d711 | .d712 => false

/-- Entry to HALTED (R110). -/
def enterHalted (s : State) (d : Detail) : State :=
  let s := changeMode (s.setControl { s.control with haltCause := some d }) .halted
  closeOpen (refuseHeldWrite s) .halt

/-- The part leaves RUN or HALTED for CONFIG at the end of a handover: the request is cleared, a held access refused
and REQUEST_CONFIG completes (R114, R115). -/
def enterConfig (s : State) (r : LongResult) : State :=
  let s := changeMode (s.setControl { s.control with configRequest := false }) .config
  completeLong (refuseHeld s) r

/-- The abandon path of the handover (R115): groups, then entries, then 61/611 and 61/612, then CONFIG. -/
def abandonPath (s : State) : State :=
  let posted := (s.queue.entries.filter (fun e => e.group.isNone)).length
  let grouped := (s.queue.entries.filter (fun e => e.group.isSome)).length
  let s := releaseEngine (s.setGroups { s.groups with table := [], flushTarget := none })
  let s := s.setQueue { s.queue with entries := [], outstanding := 0 }
  let s := recordIncident s { detail := .d611, count := some (BitVec.ofNat 32 posted) }
  let s := recordIncident s { detail := .d612, count := some (BitVec.ofNat 32 grouped) }
  enterConfig s .doneWithLoss

/-- A HALT reaction reaches the mode controller (R110). -/
def haltReaction (s : State) (d : Detail) : State :=
  match s.control.mode with
  | .run => if s.control.configRequest && stallsGroup d then abandonPath s else enterHalted s d
  | .halted => if s.control.configRequest && stallsGroup d then abandonPath s else s
  | .starting | .recovering | .unformatted | .config | .shutdown | .ended => s

/-- Carrying out the reaction taken (R158). -/
def carryOut (s : State) (reaction : Reaction) (r : Report) : State :=
  match reaction with
  | .record | .none => s
  | .fence =>
    match r.initiator with
    | some i => fenceInitiator s i
    | none => s
  | .halt => haltReaction s r.detail

/-- An incident is recorded and its reaction carried out (R155, R158). -/
def reportIncident (s : State) (r : Report) : State :=
  carryOut (recordIncident s r) (reactionTaken s r.detail) r

/-! ## Copy writes of the control area writer (R99 to R101) -/

/-- A progress write begins: target and generation are taken now (R99). -/
def beginProgress (s : State) (p : ProgressContent) : State :=
  s.setWriter
    { s.writer with
      copyWrite := some
        { content := .progress p, target := targetCopy s.writer.newestProgress,
          generation := nextGeneration s.writer.newestProgress s.writer.progressGeneration, written := 0 } }

/-- A layout write begins (R99, R103). -/
def beginLayout (s : State) : State :=
  s.setWriter
    { s.writer with
      copyWrite := some
        { content := .layout s.layout, target := targetCopy s.writer.newestLayout,
          generation := nextGeneration s.writer.newestLayout s.writer.layoutGeneration, written := 0 } }

/-- The copy write in flight ends without completing; the writer's knowledge is unchanged (R101). That a line which fails
leaves the target copy not valid is `spoilCopy`; of a write cut short by SHUTDOWN the lines stay as they are (R96, R99). -/
def endCopyWrite (s : State) : State :=
  s.setWriter { s.writer with copyWrite := none }

/-- The writer records a complete copy as the newest of its pair (R100). -/
def recordCopy (w : ControlWriter) (c : CopyWrite) : ControlWriter :=
  match c.content with
  | .layout l =>
    { w with
      newestLayout := some c.target, layoutGeneration := c.generation, storedImage := some l, copyWrite := none }
  | .progress p =>
    { w with
      newestProgress := some c.target, progressGeneration := c.generation, retiredThrough := p.retiredThrough,
      copyWrite := none }

/-- A line of the copy write completes; the last line completes the copy write (R100). -/
def copyLineWritten (s : State) : State :=
  match s.writer.copyWrite with
  | none => s
  | some c =>
    if c.written + 1 < copyLines c.content then
      s.setWriter { s.writer with copyWrite := some { c with written := c.written + 1 } }
    else s.setWriter (recordCopy s.writer c)

/-- A DIRTY or CLEAN progress content with both abandoned counts 0 (R104). -/
def progressOf (state : ShutdownState) (retired : Seq) : ProgressContent :=
  { state := state, postedAbandoned := 0, groupsAbandoned := 0, retiredThrough := retired }

/-! ## Copies whose line fails (R101, R103, R104) -/

/-- The lines of memory from `first` on. -/
def Memory.readLines (m : Memory) (first : LineNo) (count : Nat) : List LineData :=
  (List.range count).map (fun i => m.readLine (first + BitVec.ofNat 21 i))

/-- The copy of the control area that a line belongs to is valid as the memory holds it (R93, R96). -/
def Memory.copyValid (m : Memory) (line : LineNo) : Bool :=
  let layout (c : Copy) : Bool := layoutValid (joinLines 1024 (m.readLines (layoutCopyBase c) 16))
  let progress (c : Copy) : Bool := progressValid (joinLines 128 (m.readLines (progressCopyBase c) 2))
  if line.toNat < 16 then layout .a
  else if line.toNat < 32 then layout .b
  else if line.toNat < 34 then progress .a
  else if line.toNat < 36 then progress .b
  else false

/-- A failure of the operation leaves the copy it writes not valid: a line of STORE_LAYOUT or of a progress copy (R101), and
a line of FORMAT's copies, its writes 4 to 39 (R104, R132, R133). -/
def writesCopy : Requester → Bool
  | .retiringProgress | .storeLayoutLine _ | .recoveryProgress _ _ _ | .shutdownProgress _ => true
  | .formatLine before => decide (4 ≤ before)
  | .controllerRead _ _ | .throughWrite _ _ | .postedDrain _ _ _ | .journalRecord | .inPlaceWrite _ _ _ | .startRead _
  | .scanRead _ _ | .replayWrite _ _ | .shutdownRecord | .shutdownDrain _ _ _ => false

/-- What the line of a copy write holds when its operation is granted is kept (log 27). -/
def keepLine (s : State) (op : ArrayOp) : State :=
  if writesCopy op.requester then s.setLineBefore (s.mem.readLine op.line) else s

/-- The lowest bit in which two lines that differ do so. -/
def firstDifference (x y : LineData) : LineData :=
  BitVec.twoPow 64 (((List.range 64).find? (fun k => (x ^^^ y).getLsbD k)).getD 0)

/-- What the memory makes of a line whose write fails, so that the line's copy is not valid: where the copy is valid, the
line holds the mixture of the new bytes and of the bytes it held at the grant that `took` names, and one bit in which the two
differ the other way where that makes the copy valid too (R83, R101, log 27). A line that held the new bytes at the grant holds
them (R83); where its copy is valid by them, it stays valid, the model's choice (log 28). -/
def Memory.spoilLine (m : Memory) (line : LineNo) (new old took : LineData) : Memory :=
  if m.copyValid line && new != old then
    let mixed := (new &&& took) ||| (old &&& ~~~took)
    let left := m.writeLine line mixed 0xFF
    if left.copyValid line then left.writeLine line (mixed ^^^ firstDifference new old) 0xFF else left
  else m

/-- The operation fails: the copy it writes a line of is not valid from then on (R101, R103, R104). -/
def spoilCopy (s : State) (op : ArrayOp) (took : LineData) : State :=
  if writesCopy op.requester then s.setMem (s.mem.spoilLine op.line op.data s.lineBefore took) else s

/-! ## Starting array operations (R80, R82, R85) -/

/-- An operation that reads a line. -/
def lineRead (requester : Requester) (line : LineNo) : ArrayOp :=
  { requester := requester, kind := .lineRead, line := line, data := 0, enables := 0, attempt := 1, step := .read,
    presented := false }

/-- An operation that writes a line, verified or not. -/
def lineWrite (requester : Requester) (verified : Bool) (line : LineNo) (data : LineData) (enables : ByteSet) :
    ArrayOp :=
  { requester := requester, kind := if verified then .verifiedWrite else .maskedWrite, line := line, data := data,
    enables := enables, attempt := 1, step := .write, presented := false }

/-- A step of the operation begins: it is presented if the array ready input is asserted, and waits for it
otherwise (R82, log 7). -/
def beginStep (s : State) (op : ArrayOp) : State :=
  if s.pins.arrayReady then
    (s.setPins { s.pins with arrayReady := false }).setPort { s.port with op := some { op with presented := true } }
  else s.setPort { s.port with op := some { op with presented := false } }

/-- The shutdown sequencer's budget falls by one, never below 0 (R134, R135). -/
def spendBudget (s : State) : State :=
  s.setShutdown { s.shutdown with budget := s.shutdown.budget - 1 }

/-- What a grant changes besides the port (R3, R14, R50, R60, R135, R138). -/
def markGranted (s : State) (r : Requester) : State :=
  match r with
  | .controllerRead _ _ | .throughWrite _ _ =>
    match s.access.held with
    | none => s
    | some h => s.setAccess { s.access with held := some { h with wait := .operation } }
  | .postedDrain k _ _ => setEntryState s k .writing
  | .inPlaceWrite k _ _ => setEntryState s k .writing
  | .shutdownRecord => spendBudget s
  | .shutdownDrain k _ _ => spendBudget (setEntryState s k .writing)
  | .shutdownProgress _ => spendBudget s
  | .journalRecord | .retiringProgress | .storeLayoutLine _ | .formatLine _ | .startRead _ | .scanRead _ _
  | .replayWrite _ _ | .recoveryProgress _ _ _ => s

/-- A granted operation starts its first step (R85). -/
def startOp (s : State) (op : ArrayOp) : State :=
  beginStep (markGranted (keepLine s op) op.requester) op

end Sys2Proof.Machine
end

