-- ==== Sys2Proof/Machine/Queue.lean ====
section
/-! DEFINITION. The posting queue and the group tracker at work: taking writes and reads, the drain choice, removal of
drained entries (R5 to R16, R19, R26 to R29). -/

namespace Sys2Proof.Machine

/-! ## Taking writes -/

/-- The line of an access. -/
def accessLine (a : Access) : LineNo :=
  lineOf a.address

/-- The entry a write creates (R5, R6). The window is present for every POSTED and GROUPED line (R2). -/
def newEntry (s : State) (h : Held) (slot : Fin 32) (group : Option Seq) : Entry :=
  { slot := slot, line := accessLine h.access, data := accessData h.access, valid := accessBytes h.access,
    window := h.cls.window.getD 0, group := group, lastWriter := h.access.initiator,
    arrival := s.queue.arrivalCounter, state := if group.isSome then .held else .ready, flushMark := false }

/-- An entry is created at the end of the age list and the arrival counter advances (R4). -/
def createEntry (s : State) (h : Held) (slot : Fin 32) (group : Option Seq) : State :=
  s.setQueue
    { s.queue with
      entries := s.queue.entries ++ [newEntry s h slot group]
      arrivalCounter := s.queue.arrivalCounter + 1 }

/-- A write is taken into an entry: bytes replaced, valid set joined, last writer set (R5, R6). -/
def mergeEntry (a : Access) (e : Entry) : Entry :=
  { e with
    data := mergeBytes e.data (accessData a) (accessBytes a)
    valid := e.valid ||| accessBytes a
    lastWriter := a.initiator }

/-- A write is taken into the entry of one slot. -/
def mergeInto (s : State) (slot : Fin 32) (a : Access) : State :=
  changeEntries s (fun e => e.slot == slot) (mergeEntry a)

/-- The POSTED entry of a line that is not WRITING (R5, R9). -/
def postedEntry (s : State) (line : LineNo) : Option Entry :=
  s.queue.entries.find? (fun e => e.line == line && e.group.isNone && e.state != .writing)

/-- The entry of a line that belongs to a group (R6). -/
def groupedEntry (s : State) (line : LineNo) (sequence : Seq) : Option Entry :=
  s.queue.entries.find? (fun e => e.line == line && e.group == some sequence)

/-- A write to a POSTED line is taken (R5, R8). -/
def takePosted (s : State) (h : Held) : State :=
  match postedEntry s (accessLine h.access) with
  | some e => finishWrite (mergeInto s e.slot h.access) h.access.initiator
  | none =>
    match lowestFreeSlot s.queue with
    | some k => finishWrite (createEntry s h k none) h.access.initiator
    | none => holdAccess s { h with wait := .slot }

/-- A group is opened with a write as its first entry (R27). -/
def openGroupWith (s : State) (h : Held) (slot : Fin 32) : State :=
  let sequence := s.groups.nextSequence
  let record : Group :=
    { sequence := sequence, state := .open, lineCount := 1, closeCause := none, journalPosition := 0 }
  let s := s.setGroups { s.groups with table := s.groups.table ++ [record], nextSequence := sequence + 1 }
  finishWrite (createEntry s h slot (some sequence)) h.access.initiator

/-- Step 4 of R26: the write needs a new group. -/
def takeInNewGroup (s : State) (h : Held) : State :=
  if s.groups.table.length < Config.groupRecords then
    match lowestFreeSlot s.queue with
    | some k => openGroupWith s h k
    | none => holdAccess s { h with wait := .slot }
  else holdAccess s { h with wait := .groupRecord }

/-- Step 3 of R26: the write needs a new entry in the open group. -/
def takeInOpenGroup (s : State) (h : Held) (g : Group) : State :=
  match lowestFreeSlot s.queue with
  | some k =>
    let s := changeGroup s g.sequence (fun r => { r with lineCount := r.lineCount + 1 })
    finishWrite (createEntry s h k (some g.sequence)) h.access.initiator
  | none => holdAccess s { h with wait := .slot }

/-- What 32/320 reports (R28). -/
def limitReport (s : State) (h : Held) (g : Group) : Report :=
  { detail := .d320, initiator := some h.access.initiator, address := some h.access.address, window := h.cls.window,
    sequence := some g.sequence, count := some (s.layout.settings.lineLimit.setWidth 32) }

/-- A write to a GROUPED line is taken: the four steps of R26. A LIMIT close records 32/320, the write goes on to step
4, and the reaction is carried out when the write's handling is complete (R28). -/
def takeGrouped (s : State) (h : Held) : State :=
  match openGroup s with
  | none => takeInNewGroup s h
  | some g =>
    match groupedEntry s (accessLine h.access) g.sequence with
    | some e => finishWrite (mergeInto s e.slot h.access) h.access.initiator
    | none =>
      if g.lineCount < s.layout.settings.lineLimit.toNat then takeInOpenGroup s h g
      else
        let closed := closeOpen s .limit
        let report := limitReport s h g
        carryOut (takeInNewGroup (recordIncident closed report) h) (reactionTaken closed .d320) report

/-- An accepted write is handled by its class (R72, R73). CLOSED and LOCKED writes have been refused (R66). -/
def takeWrite (s : State) (h : Held) : State :=
  match h.cls.cls with
  | .posted => takePosted s h
  | .grouped => takeGrouped s h
  | .through => holdAccess s { h with wait := .grant }
  | .closed | .locked => s

/-! ## Reading through the queue -/

/-- The entries of a line that are not WRITING, in age order (R10). -/
def quietEntries (s : State) (line : LineNo) : List Entry :=
  s.queue.entries.filter (fun e => e.line == line && e.state != .writing)

/-- Every entry of a line, in age order (R12). -/
def lineEntries (s : State) (line : LineNo) : List Entry :=
  s.queue.entries.filter (fun e => e.line == line)

/-- An entry of the line is WRITING (R11). -/
def lineWriting (s : State) (line : LineNo) : Bool :=
  s.queue.entries.any (fun e => e.line == line && e.state == .writing)

/-- The bytes that some of the entries carry. -/
def carriedBytes (es : List Entry) : ByteSet :=
  es.foldl (fun v e => v ||| e.valid) 0

/-- Entries laid over a line in arrival order: each byte ends with the newest entry that carries it (R10, R12). -/
def overlay (base : LineData) (es : List Entry) : LineData :=
  es.foldl (fun d e => mergeBytes d e.data e.valid) base

/-- A read is taken: answered from the entries, held for a WRITING entry, or sent to the array (R10, R11, R12). -/
def takeRead (s : State) (h : Held) : State :=
  let line := accessLine h.access
  let quiet := quietEntries s line
  if accessBytes h.access &&& ~~~(carriedBytes quiet) = 0 then
    finishAccess s (.done (requestedBytes h.access (overlay 0 quiet)))
  else if lineWriting s line then holdAccess s { h with wait := .writingEntry }
  else holdAccess s { h with wait := .grant }

/-- The controller's line read completes: the entries of the line are laid over the array bytes (R12). -/
def answerRead (s : State) (a : Access) (data : LineData) : State :=
  finishAccess s (.done (requestedBytes a (overlay data (lineEntries s (accessLine a)))))

/-- What a held access waits for has come: a slot has become FREE, a group record has been removed, the WRITING entry
has left WRITING (R8, R11, R29, log 12). -/
def heldDue (s : State) : Bool :=
  match s.access.held with
  | none => false
  | some h =>
    match h.wait with
    | .slot => decide (0 < freeSlotCount s.queue)
    | .groupRecord => decide (s.groups.table.length < Config.groupRecords)
    | .writingEntry => !lineWriting s (accessLine h.access)
    | .grant | .operation => false

/-! ## Posted drain -/

/-- The POSTED READY entries with no older POSTED entry of their line, oldest first (R13); `seen` holds the lines of
the older POSTED entries. -/
def eligibleAfter (seen : List LineNo) : List Entry → List Entry
  | [] => []
  | e :: rest =>
    if e.group.isSome then eligibleAfter seen rest
    else if e.state == .ready && !seen.contains e.line then e :: eligibleAfter (e.line :: seen) rest
    else eligibleAfter (e.line :: seen) rest

/-- The entries eligible to drain, oldest first (R13). -/
def eligibleEntries (s : State) : List Entry :=
  eligibleAfter [] s.queue.entries

/-- The drain priority of an entry's window in the working layout (R14). -/
def drainPriority (s : State) (e : Entry) : Nat :=
  s.layout.windows[e.window].priority.toNat

/-- The first entry of the lowest drain priority number in an age-ordered list (R14). -/
def lowestPriority (s : State) : List Entry → Option Entry
  | [] => none
  | e :: rest =>
    match lowestPriority s rest with
    | none => some e
    | some b => if drainPriority s b < drainPriority s e then some b else some e

/-- The entry the posted drain chooses (R14). -/
def drainChoice (s : State) : Option Entry :=
  lowestPriority s (eligibleEntries s)

/-- The POSTED entry that a drain write carries, while it is still in the queue (R18). -/
def drainedEntry (s : State) (slot : Fin 32) : Option Entry :=
  s.queue.entries.find? (fun e => e.slot == slot && e.group.isNone && e.state == .writing)

/-- A drained entry is removed; a flush mark is counted off, and a failure is noted for the FLUSH and for the handover
in progress (R15, R16, R19, R114). -/
def removeDrained (s : State) (slot : Fin 32) (failed : Bool) : State :=
  match drainedEntry s slot with
  | none => s
  | some e =>
    let q := s.queue
    let s := s.setQueue
      { q with
        entries := q.entries.filter (fun x => !(x.slot == slot))
        outstanding := if e.flushMark then q.outstanding - 1 else q.outstanding
        lossNote := q.lossNote || (e.flushMark && failed) }
    if failed && s.control.configRequest then s.setControl { s.control with handoverLoss := true } else s

end Sys2Proof.Machine
end

