-- ==== Sys2Proof/Machine/Journal.lean ====
section
/-! DEFINITION. The journal engine: taking a group, its four phases, failure and restart of a phase (R35 to R57). -/

namespace Sys2Proof.Machine

/-- The record of the group in commit (R46). -/
def commitGroup (s : State) : Option Group :=
  s.engine.inCommit.bind (groupOf s)

/-- The line count of the group in commit. -/
def commitLines (s : State) : Nat :=
  match commitGroup s with
  | some g => g.lineCount
  | none => 0

/-- The record of the group in commit changes. -/
def changeCommitGroup (s : State) (f : Group → Group) : State :=
  match s.engine.inCommit with
  | some q => changeGroup s q f
  | none => s

/-- A phase of the group in commit begins: engine and record take it, both positions 0, half FIRST (R36, R46). -/
def enterPhase (s : State) (p : Phase) : State :=
  let s := changeCommitGroup s (fun g => { g with state := .inPhase p, journalPosition := 0 })
  s.setEngine { s.engine with phase := some p, position := 0, half := .first }

/-- The record position and the record's journal position move together (R46), the half back to FIRST. -/
def setPosition (s : State) (n : Nat) (half : Half) : State :=
  let s := changeCommitGroup s (fun g => { g with journalPosition := n })
  s.setEngine { s.engine with position := n, half := half }

/-- Line record `position` is composed and taken into the running check (R43, R45, R48, log 23). -/
def composeRecord (s : State) : State :=
  match s.engine.inCommit with
  | none => s
  | some q =>
    match (groupEntries s q)[s.engine.position]? with
    | none => s
    | some e =>
      s.setEngine
        { s.engine with
          runningCheck :=
            crc32Update s.engine.runningCheck (recordBytes (lineRecord q s.engine.position e)) }

/-- JOURNALING begins or restarts: the running check is reset and record 0 composed (R45, R48, R57). -/
def startJournaling (s : State) : State :=
  let s := enterPhase s .journaling
  composeRecord (s.setEngine { s.engine with runningCheck := crc32Initial })

/-- RETIRING begins or restarts: the writer is asked for the progress copy (R51, R57). -/
def startRetiring (s : State) : State :=
  let s := enterPhase s .retiring
  match s.engine.inCommit with
  | some q => beginProgress s (progressOf .dirty q)
  | none => s

/-- The engine takes the oldest CLOSED group when R35's three conditions hold. -/
def takeNextGroup (s : State) : State :=
  if serving s && s.groups.table.all (fun g => !groupInCommit g) then
    match s.groups.table.find? (fun g => g.state == .closed) with
    | none => s
    | some g => startJournaling (s.setEngine { s.engine with inCommit := some g.sequence })
  else s

/-- The entries of the group in commit that a test names take a state (R17). -/
def setCommitEntries (s : State) (p : EntryState → Bool) (st : EntryState) : State :=
  match s.engine.inCommit with
  | none => s
  | some q => changeEntries s (fun e => e.group == some q && p e.state) (fun e => { e with state := st })

/-- The group becomes durable: journal-pending is set and APPLYING begins, its entries READY (R49). -/
def sealGroup (s : State) : State :=
  let s := enterPhase s .applying
  setCommitEntries (s.setEngine { s.engine with journalPending := true }) (fun _ => true) .ready

/-- A record has been written whole (R47, R48, R49): the next one is composed, MARKING begins, or the group is sealed. -/
def recordWritten (s : State) : State :=
  match s.engine.phase with
  | some .journaling =>
    if s.engine.position + 1 < commitLines s then composeRecord (setPosition s (s.engine.position + 1) .first)
    else
      let s := enterPhase s .marking
      s.setEngine { s.engine with runningCheck := ~~~s.engine.runningCheck }
  | some .marking => sealGroup s
  | some .applying | some .retiring | none => s

/-- A line of a journal record completes (R47). -/
def recordLineWritten (s : State) : State :=
  match s.engine.half with
  | .first => s.setEngine { s.engine with half := .second }
  | .second => recordWritten (s.setEngine { s.engine with half := .first })

/-- An in-place write completes: the entry is APPLIED; after the last entry RETIRING begins (R50). -/
def entryApplied (s : State) (slot : Fin 32) : State :=
  let s := setEntryState s slot .applied
  if s.engine.position + 1 < commitLines s then setPosition s (s.engine.position + 1) .first
  else startRetiring s

/-- The group retires (R38, R51): record removed, entries freed, journal-pending cleared, flush target met. -/
def retireGroup (s : State) : State :=
  match s.engine.inCommit with
  | none => s
  | some q =>
    let target := if s.groups.flushTarget == some q then none else s.groups.flushTarget
    let s := s.setGroups
      { s.groups with table := s.groups.table.filter (fun g => !(g.sequence == q)), flushTarget := target }
    (freeEntries s (fun e => e.group == some q)).setEngine (JournalEngine.idle false)

/-- A line of the retiring progress copy completes (R51). -/
def retiringLineWritten (s : State) : State :=
  let s := copyLineWritten s
  match s.engine.half with
  | .first => setPosition s 1 .second
  | .second => retireGroup s

/-- A group of entries whose first one not yet APPLIED is READY: the next in-place write (R50). -/
def nextInPlace (s : State) (sequence : Seq) : Option Entry :=
  (groupEntries s sequence).find? (fun e => e.state == .ready)

/-- The next line of the record the engine is writing, in JOURNALING or MARKING (R47 to R49). -/
def recordOp (s : State) (requester : Requester) (verified : Bool) : Option ArrayOp :=
  match commitGroup s with
  | none => none
  | some g =>
    let write (r : JournalRecord) (position : Nat) : ArrayOp :=
      lineWrite requester verified
        (journalHalfLine s.layout.settings.journalBase position s.engine.half) (recordHalf r s.engine.half) 0xFF
    match s.engine.phase with
    | some .journaling =>
      ((groupEntries s g.sequence)[s.engine.position]?).map (fun e =>
        write (lineRecord g.sequence s.engine.position e) s.engine.position)
    | some .marking =>
      some (write (commitRecord g.sequence g.lineCount g.closeCause s.engine.runningCheck) g.lineCount)
    | some .applying | some .retiring | none => none

/-- The next line of the copy write in flight (R100). -/
def copyOp (s : State) (requester : Nat → Requester) (verified : Bool) : Option ArrayOp :=
  s.writer.copyWrite.map (fun c =>
    lineWrite (requester c.written) verified (copyLineNo c c.written) (copyLineData c c.written) 0xFF)

/-- What the journal engine requests (R84): the next line of its phase. -/
def engineOp (s : State) : Option ArrayOp :=
  match s.engine.phase with
  | some .journaling | some .marking => recordOp s .journalRecord true
  | some .applying =>
    s.engine.inCommit.bind (fun q => (nextInPlace s q).map (fun e =>
      lineWrite (.inPlaceWrite e.slot e.window e.lastWriter) s.layout.windows[e.window].verify e.line e.data e.valid))
  | some .retiring => copyOp s (fun _ => .retiringProgress) true
  | none => none

/-! ## Failure and restart -/

/-- The group in commit becomes STALLED in the phase that failed, its position kept; a progress copy being written
ends (R37, R53 to R55, R101). -/
def stallGroup (s : State) : State :=
  match s.engine.phase with
  | none => s
  | some p =>
    let s := changeCommitGroup s (fun g => { g with state := .stalled p })
    endCopyWrite (s.setEngine { s.engine with phase := none })

/-- What the failure of a line of the journal engine reports: sequence, address, position reached (R53 to R55). -/
def commitReport (s : State) (d : Detail) (line : LineNo) : Report :=
  { detail := d, address := some (lineAddress line), sequence := s.engine.inCommit,
    count := some (BitVec.ofNat 32 s.engine.position) }

/-- A line of the journal engine fails. Outside SHUTDOWN the group is STALLED (R37); in SHUTDOWN it is not (R58). -/
def commitFailed (s : State) (r : Report) : State :=
  if s.control.mode = .shutdown then reportIncident s r else reportIncident (stallGroup s) r

/-- RESUME restarts the stalled phase of the group in commit from its start (R37, R57). -/
def restartPhase (s : State) (p : Phase) : State :=
  match p with
  | .journaling => startJournaling s
  | .marking => enterPhase s .marking
  | .applying => setCommitEntries (enterPhase s .applying) (fun st => st == .applied) .ready
  | .retiring => startRetiring s

/-- The stalled phase of the STALLED group, if there is one. -/
def stalledPhase (s : State) : Option Phase :=
  (s.groups.table.find? groupStalled).bind (fun g =>
    match g.state with
    | .stalled p => some p
    | .open | .closed | .inPhase _ => none)

end Sys2Proof.Machine
end

