-- ==== Sys2Proof/Machine/ControlArea.lean ====
section
/-! DEFINITION. STORE_LAYOUT and FORMAT: the control area writer's own copy writes (R102, R103, R131 to R133). -/

namespace Sys2Proof.Machine

/-- The working layout equals the stored layout (R102). -/
def layoutStored (s : State) : Bool :=
  match s.writer.newestLayout, s.writer.storedImage with
  | some _, some image => decide (image = s.layout)
  | some _, none | none, _ => false

/-! ## STORE_LAYOUT -/

/-- A line of STORE_LAYOUT completes; the sixteenth completes the command (R103). A write cut short by SHUTDOWN has
no copy write any more (R101). -/
def storeLineWritten (s : State) : State :=
  match s.writer.copyWrite with
  | none => s
  | some _ =>
    let s := copyLineWritten s
    if s.writer.copyWrite.isNone then completeLong s .done else s

/-- A line of a copy or of FORMAT fails: what is reported (R103, R133). -/
def writerReport (d : Detail) (line : LineNo) (before : Nat) : Report :=
  { detail := d, address := some (lineAddress line), count := some (BitVec.ofNat 32 before) }

/-- A line of STORE_LAYOUT fails: the write ends, the incident is recorded, the command completes FAILED (R101,
R103); after a cut by SHUTDOWN the incident alone is left (R141). -/
def storeLineFailed (s : State) (r : Report) : State :=
  match s.writer.copyWrite with
  | none => reportIncident s r
  | some _ => completeLong (reportIncident (endCopyWrite s) r) .failed

/-! ## FORMAT -/

/-- FORMAT is accepted: the image and journal base are kept, the writer's knowledge becomes NONE, the
format-incomplete flag is set (R131). -/
def beginFormat (s : State) : State :=
  s.setWriter
    { s.writer with
      newestLayout := none, layoutGeneration := 0, storedImage := none
      newestProgress := none, progressGeneration := 0, retiredThrough := 0
      format := some { image := s.layout, journalBase := s.layout.settings.journalBase, written := 0 }
      formatIncomplete := true }

/-- What FORMAT writes in each progress copy (R132). -/
def formatProgress : ProgressContent :=
  progressOf .clean 0

/-- Line, data and enables of FORMAT's line write `k`, 0 to 39 (R132). -/
def formatLine (f : FormatWork) (k : Nat) : LineNo × LineData × ByteSet :=
  if k = 0 then (layoutCopyBase .a, 0, 0x01)
  else if k = 1 then (layoutCopyBase .b, 0, 0x01)
  else if k = 2 then (journalHalfLine f.journalBase 0 .first, 0, 0xFF)
  else if k = 3 then (journalHalfLine f.journalBase 0 .second, 0, 0xFF)
  else if k < 6 then (progressCopyBase .a + BitVec.ofNat 21 (k - 4), progressCopyLine formatProgress 1 (k - 4), 0xFF)
  else if k < 8 then (progressCopyBase .b + BitVec.ofNat 21 (k - 6), progressCopyLine formatProgress 2 (k - 6), 0xFF)
  else if k < 24 then (layoutCopyBase .a + BitVec.ofNat 21 (k - 8), layoutCopyLine f.image 1 (k - 8), 0xFF)
  else (layoutCopyBase .b + BitVec.ofNat 21 (k - 24), layoutCopyLine f.image 2 (k - 24), 0xFF)

/-- FORMAT's next line write (R132). -/
def formatOp (f : FormatWork) : ArrayOp :=
  lineWrite (.formatLine f.written) true (formatLine f f.written).1 (formatLine f f.written).2.1
    (formatLine f f.written).2.2

/-- FORMAT completes (R132). -/
def formatComplete (s : State) (image : Layout) : State :=
  let s := s.setWriter
    { s.writer with
      newestLayout := some .b, layoutGeneration := 2, storedImage := some image
      newestProgress := some .b, progressGeneration := 2, retiredThrough := 0
      format := none, formatIncomplete := false }
  let s := s.setEngine { s.engine with journalPending := false }
  let s := s.setGroups { s.groups with nextSequence := 1 }
  completeLong (changeMode s .config) .done

/-- A line of FORMAT completes; the fortieth completes FORMAT (R132). Where FORMAT writes a copy over one that held the same
bytes, the copy is valid by its bytes (R96) before its last line, of which R133 says that it is not valid until then: a FORMAT
cut short there leaves what the bytes say, the model's choice (log 28). -/
def formatLineWritten (s : State) : State :=
  match s.writer.format with
  | none => s
  | some f =>
    if f.written + 1 < Config.formatWrites then
      s.setWriter { s.writer with format := some { f with written := f.written + 1 } }
    else formatComplete s f.image

/-- A line of FORMAT lies in the journal area: lines 2 and 3 of its 40 (R132, R133). -/
def formatLineInJournal (before : Nat) : Bool :=
  before == 2 || before == 3

/-- A line of FORMAT fails: the command completes FAILED, the writer's knowledge and the flag stay (R133). -/
def formatLineFailed (s : State) (r : Report) : State :=
  match s.writer.format with
  | none => reportIncident s r
  | some _ =>
    completeLong (reportIncident (s.setWriter { s.writer with format := none }) r) .failed

/-- What the control area writer requests in its own name (R84). -/
def writerOp (s : State) : Option ArrayOp :=
  match s.writer.format with
  | some f => some (formatOp f)
  | none => if s.control.longCommand = some .storeLayout then copyOp s .storeLayoutLine true else none

end Sys2Proof.Machine
end

