-- ==== Sys2Proof/Machine/Recovery.lean ====
section
/-! DEFINITION. Start-up and recovery: control-area reads, choice of copies, journal scan, replay (R120 to R129). -/

namespace Sys2Proof.Machine

/-! ## Start sequence -/

/-- The next control-area read: layout A, layout B, progress A, progress B, in line order (R93, R121). -/
def startReadOp (s : State) : ArrayOp :=
  lineRead (.startRead s.start.lines.length) (BitVec.ofNat 21 s.start.lines.length)

/-- Entry to STARTING with both supply lines high: start values, then the first read at once (R120, R143). -/
def enterStarting (s : State) : State :=
  let s := State.startValues s.pins s.mem s.session s.free s.pending
  startOp s (startReadOp s)

/-- The four copies as the start sequence read them. -/
structure ReadCopies where
  layoutA : BitVec 1024
  layoutB : BitVec 1024
  progressA : BitVec 128
  progressB : BitVec 128

/-- The copies in the 36 lines (R93, R121). -/
def copiesOf (lines : List LineData) : ReadCopies :=
  { layoutA := joinLines 1024 (lines.take 16)
    layoutB := joinLines 1024 ((lines.drop 16).take 16)
    progressA := joinLines 128 ((lines.drop 32).take 2)
    progressB := joinLines 128 ((lines.drop 34).take 2) }

/-- A layout copy's generation, if the copy is valid (R96). -/
def validLayoutGeneration (copy : BitVec 1024) : Option (BitVec 32) :=
  if layoutValid copy then some (layoutGenerationOf copy) else none

/-- A progress copy's generation, if the copy is valid (R96). -/
def validProgressGeneration (copy : BitVec 128) : Option (BitVec 32) :=
  if progressValid copy then some (progressGenerationOf copy) else none

/-- The newest valid layout copy of those read (R97). -/
def newestLayoutOf (c : ReadCopies) : Option Copy :=
  newestCopy (validLayoutGeneration c.layoutA) (validLayoutGeneration c.layoutB)

/-- The newest valid progress copy of those read (R97). -/
def newestProgressOf (c : ReadCopies) : Option Copy :=
  newestCopy (validProgressGeneration c.progressA) (validProgressGeneration c.progressB)

/-- A layout copy by name. -/
def ReadCopies.layout (c : ReadCopies) : Copy → BitVec 1024
  | .a => c.layoutA
  | .b => c.layoutB

/-- A progress copy by name. -/
def ReadCopies.progress (c : ReadCopies) : Copy → BitVec 128
  | .a => c.progressA
  | .b => c.progressB

/-- The writer takes its layout knowledge from the chosen copy (R98, R122). -/
def learnLayout (w : ControlWriter) (c : ReadCopies) : ControlWriter :=
  match newestLayoutOf c with
  | none => w
  | some n =>
    { w with
      newestLayout := some n
      layoutGeneration := layoutGenerationOf (c.layout n)
      storedImage := some (layoutOfCopy (c.layout n)) }

/-- The writer takes its progress knowledge and the start report from the chosen copy (R98, R122). -/
def learnProgress (w : ControlWriter) (c : ReadCopies) : ControlWriter :=
  match newestProgressOf c with
  | none => w
  | some n =>
    let p := progressOfCopy (c.progress n)
    { w with
      newestProgress := some n
      progressGeneration := progressGenerationOf (c.progress n)
      retiredThrough := p.retiredThrough
      startState := p.state, startPosted := p.postedAbandoned, startGroups := p.groupsAbandoned }

/-- The address of a layout copy (R93). -/
def layoutCopyAddress (c : Copy) : Addr :=
  lineAddress (layoutCopyBase c)

/-- The address of a progress copy (R93). -/
def progressCopyAddress (c : Copy) : Addr :=
  lineAddress (progressCopyBase c)

/-- A report with a detail alone. -/
def plainReport (d : Detail) : Report :=
  { detail := d }

/-- Notice 51/510 or 51/511, or 52/520 or 52/521: neither copy valid, or one and not the other (R123). -/
def pairNotices (a b : Bool) (neither one : Detail) (addressA addressB : Addr) : List Report :=
  if a && b then []
  else if a then [{ detail := one, address := some addressB }]
  else if b then [{ detail := one, address := some addressA }]
  else [plainReport neither]

/-- The notices drawn from the newest progress copy (R123). -/
def progressNotices (w : ControlWriter) : List Report :=
  let dirty : List Report :=
    if w.startState = .dirty then [{ detail := .d530, sequence := some w.retiredThrough }] else []
  let posted : List Report :=
    if w.startState = .short ∧ w.startPosted ≠ 0 then
      [{ detail := .d540, count := some (w.startPosted.setWidth 32), sequence := some w.retiredThrough }]
    else []
  let groups : List Report :=
    if w.startState ≠ .dirty ∧ w.startGroups ≠ 0 then
      [{ detail := .d550, count := some (w.startGroups.setWidth 32), sequence := some w.retiredThrough }]
    else []
  dirty ++ posted ++ groups

/-- The start notices, in the order of R123's table. -/
def startNotices (w : ControlWriter) (c : ReadCopies) : List Report :=
  pairNotices (layoutValid c.layoutA) (layoutValid c.layoutB) .d510 .d511 (layoutCopyAddress .a) (layoutCopyAddress .b)
    ++ pairNotices (progressValid c.progressA) (progressValid c.progressB) .d520 .d521 (progressCopyAddress .a)
      (progressCopyAddress .b)
    ++ (if w.newestProgress.isSome then progressNotices w else [])

/-! ## Recovery -/

/-- Recovery ends: its state becomes absent, the next sequence follows retired-through, the mode changes (R25, R128,
R129). -/
def endRecovery (s : State) (m : Mode) : State :=
  let s := s.setRecovery none
  changeMode (s.setGroups { s.groups with nextSequence := s.writer.retiredThrough + 1 }) m

/-- Recovery fails (R129): CONFIG, and on path COMMAND the command completes FAILED (R117). -/
def recoveryFails (s : State) (path : RecoveryPath) : State :=
  let s := endRecovery (endCopyWrite s) .config
  match path with
  | .start => s
  | .command => completeLong s .failed

/-- Recovery at the entry to RECOVERING (R124). -/
def freshRecovery (s : State) (path : RecoveryPath) : Recovery :=
  { path := path, base := s.writer.retiredThrough, stage := .scan, scanPosition := 0, found := 0,
    runningCheck := crc32Initial, records := [], replayIndex := 0, firstLine := none }

/-- Entry to RECOVERING and stage CHECK (R124): on path START an inconsistent layout records 51/512 and fails
recovery. -/
def enterRecovery (s : State) (path : RecoveryPath) : State :=
  let s := changeMode (s.setRecovery (some (freshRecovery s path))) .recovering
  match path with
  | .command => s
  | .start =>
    if consistent s.layout then s
    else
      let copy := s.writer.newestLayout.getD .a
      recoveryFails (recordIncident s { detail := .d512, address := some (layoutCopyAddress copy) }) .start

/-- The choice of copies after the 36 reads (R122): knowledge, layout, notices, mode. -/
def selectCopies (s : State) (lines : List LineData) : State :=
  let c := copiesOf lines
  let w := learnProgress (learnLayout s.writer c) c
  let s := s.setStart { lines := [], waiting := false }
  let s := s.setWriter w
  let s := s.setLayout (w.storedImage.getD s.layout)
  let s := (startNotices w c).foldl recordIncident s
  if w.newestLayout.isSome && w.newestProgress.isSome then enterRecovery s .start else changeMode s .unformatted

/-- A control-area read completes (R121, R122). -/
def startReadDone (s : State) (data : LineData) : State :=
  if s.control.mode = .starting then
    let lines := s.start.lines ++ [data]
    if lines.length < Config.startReads then s.setStart { s.start with lines := lines } else selectCopies s lines
  else s

/-- A control-area read fails: 41/417, and in STARTING the retry wait begins (R121). -/
def startReadFailed (s : State) (line : LineNo) (before : Nat) : State :=
  let s := reportIncident s (writerReport .d417 line before)
  if s.control.mode = .starting then s.setStart { lines := [], waiting := true } else s

/-- FINAL PROGRESS begins (R128): DIRTY on path COMMAND or with auto-run set, CLEAN otherwise. -/
def startFinalCopy (s : State) (r : Recovery) : State :=
  let toRun := r.path == .command || s.layout.settings.autoRun == 1
  let s := s.setRecovery (some { r with stage := .finalProgress })
  beginProgress s (progressOf (if toRun then .dirty else .clean) s.writer.retiredThrough)

/-- Journal-pending takes a value (R52). -/
def setJournalPending (s : State) (b : Bool) : State :=
  s.setEngine { s.engine with journalPending := b }

/-- The candidate position is judged as a commit record (R126). -/
def judgeCandidate (s : State) (r : Recovery) (record : JournalRecord) : State :=
  if sealedCommit (r.base + 1) r.found r.runningCheck record then
    (setJournalPending s true).setRecovery (some { r with stage := .replay, firstLine := none })
  else if 1 ≤ r.found then
    let s := recordIncident s
      { detail := .d570, sequence := some (r.base + 1), count := some (BitVec.ofNat 32 r.found),
        address := some s.layout.settings.journalBase }
    startFinalCopy (setJournalPending s false) { r with firstLine := none }
  else startFinalCopy (setJournalPending s false) { r with firstLine := none }

/-- A journal position has been read whole (R125). -/
def positionRead (s : State) (r : Recovery) (record : JournalRecord) : State :=
  if r.found < Config.journalRecords
      && acceptsLineRecord (r.base + 1) r.scanPosition s.layout.settings.capacityCode record then
    s.setRecovery (some
      { r with
        records := r.records ++ [record], found := r.found + 1, scanPosition := r.scanPosition + 1,
        runningCheck := crc32Update r.runningCheck (recordBytes record), firstLine := none })
  else judgeCandidate s r record

/-- A line of the scan has been read (R125). -/
def scanLineRead (s : State) (data : LineData) : State :=
  match s.recovery with
  | none => s
  | some r =>
    match r.firstLine with
    | none => s.setRecovery (some { r with firstLine := some data })
    | some l => positionRead s r { first := l, second := data }

/-- A replay write completes; after the last one 56/560 is recorded and the progress copy begun (R127). -/
def replayWritten (s : State) : State :=
  match s.recovery with
  | none => s
  | some r =>
    let r := { r with replayIndex := r.replayIndex + 1 }
    if r.replayIndex < r.found then s.setRecovery (some r)
    else
      let s := recordIncident s
        { detail := .d560, sequence := some (r.base + 1), count := some (BitVec.ofNat 32 r.found) }
      beginProgress (s.setRecovery (some { r with stage := .replayProgress })) (progressOf .dirty (r.base + 1))

/-- The final progress copy completes: RUN or CONFIG (R128, R117). -/
def recoveryComplete (s : State) (r : Recovery) : State :=
  match r.path with
  | .command =>
    let s := endRecovery s .run
    completeLong (s.setControl { s.control with haltCause := none }) .done
  | .start =>
    if s.layout.settings.autoRun == 1 then
      let s := endRecovery s .run
      s.setControl { s.control with haltCause := none }
    else endRecovery s .config

/-- A line of one of recovery's progress copies completes (R127, R128, log 18). -/
def recoveryLineWritten (s : State) (replay : Bool) : State :=
  let s := copyLineWritten s
  if s.writer.copyWrite.isSome then s
  else
    let s := if replay then setJournalPending s false else s
    match s.recovery with
    | none => s
    | some r => if replay then startFinalCopy s r else recoveryComplete s r

/-- An operation of recovery fails (R129); once SHUTDOWN has stopped recovery the incident alone is left. -/
def recoveryOpFailed (s : State) (report : Report) : State :=
  let s := reportIncident s report
  match s.recovery with
  | none => s
  | some r => recoveryFails s r.path

/-- What recovery reports of a failed operation (R129). -/
def recoveryReport (d : Detail) (sought : Seq) (line : LineNo) (count : Nat) : Report :=
  { detail := d, address := some (lineAddress line), sequence := some sought, count := some (BitVec.ofNat 32 count) }

/-- Recovery's next operation (R125, R127, R128). -/
def recoveryOp (s : State) (r : Recovery) : Option ArrayOp :=
  match r.stage with
  | .scan =>
    some (lineRead (.scanRead (r.base + 1) r.found)
      (journalHalfLine s.layout.settings.journalBase r.scanPosition (if r.firstLine.isNone then .first else .second)))
  | .replay =>
    r.records[r.replayIndex]?.map (fun record =>
      lineWrite (.replayWrite (r.base + 1) r.replayIndex) true ((recordLine record).setWidth 21) record.second
        (recordValid record))
  | .replayProgress => copyOp s (.recoveryProgress (r.base + 1) true) true
  | .finalProgress => copyOp s (.recoveryProgress (r.base + 1) false) true

end Sys2Proof.Machine
end

