-- ==== Sys2Proof/Machine/Shutdown.lean ====
section
/-! DEFINITION. Power-fail shutdown and controlled reset (R118, R134 to R143). -/

namespace Sys2Proof.Machine

/-- Where the shutdown starts from (R134). -/
def originOf : Mode → ShutdownOrigin
  | .run | .halted => .full
  | .config => .config
  | .starting | .recovering | .unformatted | .shutdown | .ended => .none

/-- The operation in flight is a write, verified or not (R135). -/
def writeInFlight (s : State) : Bool :=
  match s.port.op with
  | none => false
  | some op => op.kind != .lineRead

/-- The long command in flight ends ABANDONED; a RESTART stays (R118). -/
def abandonLong (s : State) : State :=
  match s.control.longCommand with
  | none => s
  | some c => if c = .restart then s else completeLong s .abandoned

/-- Entry to SHUTDOWN, in one handling (R89, R118, R134, R135). A copy write of STORE_LAYOUT and a FORMAT are cut short
here; a progress copy of the engine or of recovery is cut after its line in flight (R101, R135, log 18). The engine's items
keep the group in commit for the sequencer (R58, R134, R137), where R35 says that the engine holds no group in SHUTDOWN: the
model's reading (log 24). -/
def enterShutdown (s : State) : State :=
  let origin := originOf s.control.mode
  let budget := s.layout.settings.budget.toNat - (if writeInFlight s then 1 else 0)
  let s := changeMode (s.setControl { s.control with configRequest := false }) .shutdown
  let s := abandonLong (refuseHeld s)
  let s := (clearFlushMarks s).setGroups { s.groups with flushTarget := none }
  let s := if origin = .config then endCopyWrite s else s
  let s := s.setWriter { s.writer with format := none }
  let s := (s.setRecovery none).setStart { lines := [], waiting := false }
  let s := s.setPort { s.port with passOver := 0 }
  s.setShutdown
    { origin := origin, budget := budget, stage := .finishing, plan := none, postedAbandoned := 0,
      groupsAbandoned := 0 }

/-- A cause of shutdown is taken in the present mode (R118, R134). -/
def takeShutdownCause (s : State) : State :=
  match s.control.mode with
  | .shutdown | .ended => s
  | .starting | .recovering | .unformatted | .config | .run | .halted => enterShutdown s

/-- Both supply lines are deasserted (R143). -/
def supplyGood (s : State) : Bool :=
  s.pins.pfwN && s.pins.crstN

/-- What no block holds in ENDED: the journal engine holds no group (R58; until here its items keep it, log 24), and a copy
write that has not completed has ended (R101). The group records and journal-pending stay. -/
def endWork (s : State) : State :=
  releaseEngine (endCopyWrite s)

/-- The sequence ends: stage DONE, ENDED with the MODE event, and STARTING at once where both lines are high (R139,
R140, R143). -/
def endShutdown (s : State) : State :=
  let s := changeMode ((endWork s).setShutdown { s.shutdown with stage := .done }) .ended
  if supplyGood s then enterStarting s else s

/-- The stage of the sequence changes. -/
def setStage (s : State) (g : ShutdownStage) : State :=
  s.setShutdown { s.shutdown with stage := g }

/-- The next line of the final progress copy starts, while one is left (R139). -/
def finalProgressLine (s : State) : State :=
  match copyOp s .shutdownProgress false with
  | some op => startOp s op
  | none => s

/-- Stage PROGRESS begins (R139, R141). -/
def startFinalProgress (s : State) : State :=
  let nothing := s.shutdown.postedAbandoned == 0 && s.shutdown.groupsAbandoned == 0
  let content : ProgressContent :=
    { state := if nothing then .clean else .short
      postedAbandoned := BitVec.ofNat 8 s.shutdown.postedAbandoned
      groupsAbandoned := BitVec.ofNat 8 s.shutdown.groupsAbandoned
      retiredThrough := s.writer.retiredThrough }
  finalProgressLine (beginProgress (setStage s .progress) content)

/-- The POSTED entries left are freed and counted as abandoned (R18, R138). -/
def abandonPosted (s : State) : State :=
  let count := (s.queue.entries.filter (fun e => e.group.isNone)).length
  let s := freeEntries s (fun e => e.group.isNone)
  s.setShutdown { s.shutdown with postedAbandoned := count }

/-- Stage DRAIN: the next drain write under the budget, or the rest abandoned and PROGRESS (R138). -/
def drainStage (s : State) : State :=
  let s := setStage s .drain
  match if 3 ≤ s.shutdown.budget then drainChoice s else none with
  | some e => startOp s (lineWrite (.shutdownDrain e.slot e.window e.lastWriter) false e.line e.data e.valid)
  | none => startFinalProgress (abandonPosted s)

/-- The need of a group in JOURNALING or MARKING (R136). -/
def groupNeed (s : State) (g : Group) : Nat :=
  let whole := if g.state = .inPhase .journaling then 2 * (g.lineCount - g.journalPosition + 1) else 2
  if s.engine.half = .second then whole - 1 else whole

/-- The group is abandoned by the shutdown plan (R136). -/
def groupAbandoned (s : State) (g : Group) : Bool :=
  match g.state with
  | .open | .closed => true
  | .inPhase .journaling | .inPhase .marking => decide (s.shutdown.budget < groupNeed s g + 2)
  | .inPhase .applying | .inPhase .retiring => false
  | .stalled .journaling => true
  | .stalled .marking | .stalled .applying | .stalled .retiring => false

/-- A kept group is to be made durable (R136). -/
def groupContinues (g : Group) : Bool :=
  match g.state with
  | .inPhase .journaling | .inPhase .marking => true
  | .open | .closed | .inPhase .applying | .inPhase .retiring | .stalled _ => false

/-- The plan for the groups that are kept (R136). -/
def planOf (kept : List Group) : Option GroupPlan :=
  if kept.any groupContinues then some .continue else if kept.isEmpty then none else some .stop

/-- Stage GROUP: the fate of every live group is decided in one handling (R136, R39). The engine lets go of a group that is
abandoned here and keeps one that is kept (R35 against R58, R134 and R137: log 24). -/
def planGroups (s : State) : State :=
  let lost := s.groups.table.filter (groupAbandoned s)
  let kept := s.groups.table.filter (fun g => !groupAbandoned s g)
  let engineLoses := lost.any (fun g => some g.sequence == s.engine.inCommit)
  let s := s.setGroups { s.groups with table := kept, flushTarget := none }
  let s := freeEntries s (fun e => lost.any (fun g => e.group == some g.sequence))
  let s := if engineLoses then releaseEngine s else s
  s.setShutdown
    { s.shutdown with stage := .group, plan := planOf kept, groupsAbandoned := lost.length }

/-- Group plan CONTINUE: the next line of the group's journal work; DRAIN once the group is durable (R137). -/
def continueGroup (s : State) : State :=
  match recordOp s .shutdownRecord false with
  | some op => startOp s op
  | none => drainStage s

/-- The end of FINISHING: what follows depends on the origin (R135, R141, R142). -/
def afterFinishing (s : State) : State :=
  let s := endCopyWrite s
  match s.shutdown.origin with
  | .none => endShutdown s
  | .config =>
    if s.writer.formatIncomplete || decide (s.shutdown.budget < 2) then endShutdown s else startFinalProgress s
  | .full =>
    let s := planGroups s
    if s.shutdown.plan = some .continue then continueGroup s else drainStage s

/-- The sequencer goes on while the port is free (R89, R135 to R139). -/
def advanceShutdown (s : State) : State :=
  match s.shutdown.stage with
  | .finishing => afterFinishing s
  | .group => continueGroup s
  | .drain => drainStage s
  | .progress => finalProgressLine s
  | .done => s

/-- A line of the final progress copy completes; the second ends the sequence (R139). -/
def finalLineWritten (s : State) : State :=
  let s := copyLineWritten s
  if s.writer.copyWrite.isSome then s else endShutdown s

end Sys2Proof.Machine
end

