-- ==== Sys2Proof/Machine/Port.lean ====
section
/-! DEFINITION. The array port: requests, the arbiter's choice, the outcome of each operation, and what every handling
does last (R83 to R90). -/

namespace Sys2Proof.Machine

/-! ## Requests and grants (R84 to R86) -/

/-- The requests present, by requester (R84). -/
structure Requests where
  controller : Option ArrayOp
  drain : Option ArrayOp
  engine : Option ArrayOp
  writer : Option ArrayOp
  deriving DecidableEq, Repr

/-- What the controller access requests while it waits for a grant: a line read, or the masked line write of a THROUGH
write (R12, R73). -/
def controllerOp (s : State) : Option ArrayOp :=
  match s.access.held with
  | none => none
  | some h =>
    if h.wait = .grant then
      if opIsWrite h.access.op then
        some (lineWrite (.throughWrite h.access h.cls.window) h.cls.verify (accessLine h.access)
          (accessData h.access) (accessBytes h.access))
      else some (lineRead (.controllerRead h.access h.cls.window) (accessLine h.access))
    else none

/-- What the posted drain would be granted now (R13, R14). -/
def drainOp (s : State) : Option ArrayOp :=
  (drainChoice s).map (fun e =>
    lineWrite (.postedDrain e.slot e.window e.lastWriter) s.layout.windows[e.window].verify e.line e.data e.valid)

/-- The mode lets the control area writer request in its own name (R84). -/
def writerWorks (s : State) : Bool :=
  s.control.mode == .config || s.control.mode == .unformatted

/-- The requests present at this moment (R84). -/
def requestsOf (s : State) : Requests :=
  { controller := controllerOp s
    drain := if serving s then drainOp s else none
    engine := if serving s then engineOp s else none
    writer := if writerWorks s then writerOp s else none }

/-- The arbiter's choice: the first line of R85 that applies. -/
def arbiterChoice (passOver freeCount : Nat) (r : Requests) : Option ArrayOp :=
  if r.drain.isSome && passOver == Config.passOverLimit then r.drain
  else if r.controller.isSome then r.controller
  else if r.drain.isSome && decide (freeCount ≤ Config.pressureSlots) then r.drain
  else if r.engine.isSome then r.engine
  else if r.drain.isSome then r.drain
  else r.writer

/-- The operation is the posted drain's. -/
def isDrainOp (op : ArrayOp) : Bool :=
  match op.requester with
  | .postedDrain _ _ _ => true
  | .controllerRead _ _ | .throughWrite _ _ | .journalRecord | .inPlaceWrite _ _ _ | .retiringProgress
  | .storeLayoutLine _ | .formatLine _ | .startRead _ | .scanRead _ _ | .replayWrite _ _ | .recoveryProgress _ _ _
  | .shutdownRecord | .shutdownDrain _ _ _ | .shutdownProgress _ => false

/-- The pass-over count after a grant (R86). -/
def passOverAfter (passOver : Nat) (r : Requests) (granted : ArrayOp) : Nat :=
  if isDrainOp granted then 0 else if r.drain.isSome then passOver + 1 else passOver

/-- A held read is due to be taken anew; the arbiter's choice waits for that (R11, log 12). -/
def readDue (s : State) : Bool :=
  match s.access.held with
  | none => false
  | some h => h.wait == .writingEntry && heldDue s

/-- The arbiter grants one request, if one is present (R85). -/
def arbitrate (s : State) : State :=
  let r := requestsOf s
  match arbiterChoice s.port.passOver (freeSlotCount s.queue) r with
  | none => s
  | some op => startOp (s.setPort { s.port with passOver := passOverAfter s.port.passOver r op }) op

/-- The pass-over count becomes 0 when the posted drain is not requesting (R86). -/
def clearPassOver (s : State) : State :=
  if (requestsOf s).drain.isSome then s else s.setPort { s.port with passOver := 0 }

/-! ## What every handling does last -/

/-- The free port starts what its present owner has for it: the start sequence, recovery, the arbiter or the shutdown
sequencer (R85, R88, R89). -/
def drivePort (s : State) : State :=
  match s.port.op with
  | some _ => s
  | none =>
    match s.control.mode with
    | .starting => if s.start.waiting then s else startOp s (startReadOp s)
    | .recovering =>
      match s.recovery.bind (recoveryOp s) with
      | some op => startOp s op
      | none => s
    | .unformatted | .config | .run | .halted => if readDue s then s else arbitrate s
    | .shutdown => advanceShutdown s
    | .ended => s

/-- A FLUSH whose two parts are complete completes; a FLUSH is in flight in RUN and HALTED alone (R19, R32, R119). -/
def flushCheck (s : State) : State :=
  if serving s = true ∧ s.control.longCommand = some .flush ∧ s.queue.outstanding = 0 ∧ s.groups.flushTarget = none then
    completeLong s (if s.queue.lossNote then .doneWithLoss else .done)
  else s

/-- A handover whose condition holds completes (R114). -/
def handoverCheck (s : State) : State :=
  if serving s ∧ s.control.configRequest = true ∧ s.groups.table = [] ∧ s.queue.entries = [] then
    enterConfig s (if s.control.handoverLoss then .doneWithLoss else .done)
  else s

/-- What follows from a change in the same handling: the journal engine takes a group, long commands complete, the
free port is driven (R35, R114, R119, R85; log 13). -/
def settle (s : State) : State :=
  drivePort (clearPassOver (handoverCheck (flushCheck (takeNextGroup s))))

/-! ## Outcomes (R83) -/

/-- The held access whose own operation has ended, if it is still held (R74). -/
def operationHeld (s : State) : Option Held :=
  s.access.held.bind (fun h => if h.wait = .operation then some h else none)

/-- The controller's line read completes: the read is answered, unless it is no longer held (R12, R74). -/
def readCompleted (s : State) (data : LineData) : State :=
  match operationHeld s with
  | some h => answerRead s h.access data
  | none => s

/-- The THROUGH write completes: it is answered DONE, unless it is no longer held (R73, R74). -/
def throughCompleted (s : State) : State :=
  match operationHeld s with
  | some h => finishWrite s h.access.initiator
  | none => s

/-- An operation completes: its requester takes the outcome, with the line's bytes for a read. -/
def opCompleted (s : State) (op : ArrayOp) (data : LineData) : State :=
  match op.requester with
  | .controllerRead _ _ => readCompleted s data
  | .throughWrite _ _ => throughCompleted s
  | .postedDrain k _ _ | .shutdownDrain k _ _ => removeDrained s k false
  | .journalRecord | .shutdownRecord => recordLineWritten s
  | .inPlaceWrite k _ _ => entryApplied s k
  | .retiringProgress => retiringLineWritten s
  | .storeLayoutLine _ => storeLineWritten s
  | .formatLine _ => formatLineWritten s
  | .startRead _ => startReadDone s data
  | .scanRead _ _ => scanLineRead s data
  | .replayWrite _ _ => replayWritten s
  | .recoveryProgress _ replay _ => recoveryLineWritten s replay
  | .shutdownProgress _ => finalLineWritten s

/-- Why an operation failed (R83). -/
inductive Failure
  | timeout
  | miscompare
  deriving DecidableEq, Repr

/-- The detail for a timeout or for a miscompare (R83). -/
def failureDetail (f : Failure) (timeout miscompare : Detail) : Detail :=
  match f with
  | .timeout => timeout
  | .miscompare => miscompare

/-- What a failed controller operation reports (R71, R73). -/
def accessReport (d : Detail) (a : Access) (window : Option WindowIndex) : Report :=
  { detail := d, initiator := some a.initiator, address := some a.address, window := window }

/-- What a failed drain write reports (R16, R140). -/
def drainReport (d : Detail) (line : LineNo) (window : WindowIndex) (writer : Initiator) : Report :=
  { detail := d, initiator := some writer, address := some (lineAddress line), window := some window }

/-- The failed controller read is refused with 41/411, unless it is no longer held (R71, R74). -/
def readFailed (s : State) (a : Access) (window : Option WindowIndex) : State :=
  if (operationHeld s).isSome then reportIncident (finishAccess s .refuse) (accessReport .d411 a window) else s

/-- The failed THROUGH write is refused, if it is still held, and its incident recorded in either case (R73, R74). -/
def throughFailed (s : State) (f : Failure) (a : Access) (window : Option WindowIndex) : State :=
  let s := if (operationHeld s).isSome then finishAccess s .refuse else s
  reportIncident s (accessReport (failureDetail f .d412 .d422) a window)

/-- A failed in-place write: the entry is READY again and the phase fails (R17, R54). -/
def inPlaceFailed (s : State) (f : Failure) (line : LineNo) (k : Fin 32) (window : WindowIndex)
    (writer : Initiator) : State :=
  let report := commitReport s (failureDetail f .d415 .d425) line
  commitFailed (setEntryState s k .ready) { report with initiator := some writer, window := some window }

/-- An operation fails: its requester takes the outcome and records what its own rule names (R83). -/
def opFailed (s : State) (op : ArrayOp) (f : Failure) : State :=
  match op.requester with
  | .controllerRead a w => readFailed s a w
  | .throughWrite a w => throughFailed s f a w
  | .postedDrain k w i =>
    reportIncident (removeDrained s k true) (drainReport (failureDetail f .d413 .d423) op.line w i)
  | .shutdownDrain k w i => reportIncident (removeDrained s k true) (drainReport .d413 op.line w i)
  | .journalRecord => commitFailed s (commitReport s (failureDetail f .d414 .d424) op.line)
  | .inPlaceWrite k w i => inPlaceFailed s f op.line k w i
  | .retiringProgress =>
    commitFailed (endCopyWrite s) (commitReport s (failureDetail f .d416 .d426) op.line)
  | .storeLayoutLine before => storeLineFailed s (writerReport (failureDetail f .d416 .d426) op.line before)
  | .formatLine before =>
    let detail :=
      if formatLineInJournal before then failureDetail f .d414 .d424 else failureDetail f .d416 .d426
    formatLineFailed s (writerReport detail op.line before)
  | .startRead before => startReadFailed s op.line before
  | .scanRead sought found => recoveryOpFailed s (recoveryReport .d417 sought op.line found)
  | .replayWrite sought before =>
    recoveryOpFailed s (recoveryReport (failureDetail f .d415 .d425) sought op.line before)
  | .recoveryProgress sought _ before =>
    recoveryOpFailed s (recoveryReport (failureDetail f .d416 .d426) sought op.line before)
  | .shutdownRecord =>
    reportIncident s { detail := .d414, address := some (lineAddress op.line), sequence := s.engine.inCommit }
  | .shutdownProgress before => reportIncident (endCopyWrite s) (writerReport .d416 op.line before)

/-! ## Steps (R80 to R82) -/

/-- The port is free: no operation is in flight. -/
def freePort (s : State) : State :=
  s.setPort { s.port with op := none }

/-- Every enabled byte of the line read back equals the byte written (R81). -/
def readBackMatches (op : ArrayOp) (line : LineData) : Bool :=
  (line ^^^ op.data) &&& laneMask op.enables == 0

/-- What a step leaves in the memory: a write step writes what the memory took of it, any other step nothing (R80,
log 5). -/
def landStep (s : State) (op : ArrayOp) (took : LineData) : State :=
  match op.step with
  | .write => s.setMem (s.mem.takeStep op.line op.data op.enables took)
  | .read | .readBack => s

/-- A read-back is compared: the operation completes, makes its next attempt, or fails (R81, R101). -/
def compareReadBack (s : State) (op : ArrayOp) (line took : LineData) : State :=
  if readBackMatches op line then opCompleted (freePort s) op line
  else if op.attempt < 3 then beginStep s { op with attempt := op.attempt + 1, step := .write }
  else opFailed (freePort (spoilCopy s op took)) op .miscompare

/-- A step ends within its time: the operation goes on or completes. In SHUTDOWN it completes with this step
whatever it is (R81, R82, R89). -/
def stepEnded (s : State) (op : ArrayOp) (took : LineData) : State :=
  let line := s.mem.readLine op.line
  if s.control.mode = .shutdown then opCompleted (freePort s) op line
  else
    match op.kind, op.step with
    | .verifiedWrite, .write => beginStep s { op with step := .readBack }
    | .verifiedWrite, .readBack => compareReadBack s op line took
    | .verifiedWrite, .read | .lineRead, _ | .maskedWrite, _ => opCompleted (freePort s) op line

/-- The array ready input is asserted: with no step in progress it stays asserted, a waiting step is presented, a
presented step ends (R82). -/
def readyAsserted (s : State) (took : LineData) : State :=
  let s := s.setPins { s.pins with arrayReady := true }
  match s.port.op with
  | none => s
  | some op => if op.presented then settle (stepEnded (landStep s op took) op took) else beginStep s op

/-- The step in progress runs out of time: a presented write step may have written, the whole operation fails, and in
SHUTDOWN the sequence ends (R82, R83, R140). A copy whose line fails is not valid after the failure (R101, R103), also where the
step was waiting to be presented, since that wait belongs to the step (R82, log 27). -/
def stepTimedOut (s : State) (took : LineData) : State :=
  match s.port.op with
  | none => s
  | some op =>
    let landed := if op.presented then landStep s op took else s
    let failed := opFailed (freePort (spoilCopy landed op took)) op .timeout
    settle (if failed.control.mode = .shutdown then endShutdown failed else failed)

end Sys2Proof.Machine
end

