-- ==== Sys2Proof/Machine/Power.lean ====
section
/-! DEFINITION. The supply and the discrete lines: power-on, power loss, PFW_N, CRST_N (R120, R134, R143). -/

namespace Sys2Proof.Machine

/-- A handling of the part: without supply nothing is handled (log 1). -/
def handle (s : State) (f : State → State) : Host.Outcome State Fault Refusal :=
  .next (if s.powered then f s else s)

/-- Power-on: start values, then the first control-area read. A supply line found low counts as a falling edge taken
before that read (R120, R134, R142). -/
def powerUp (s : State) (pins : Pins) : State :=
  let s := State.startValues pins s.mem Session.idle s.free s.pending
  if supplyGood s then startOp s (startReadOp s) else settle (takeShutdownCause s)

/-- POWER_ON (R120). -/
def execPowerOn (pfwN crstN mselN arrayReady : Bool) (s : State) : Host.Outcome State Fault Refusal :=
  .next (powerUp s { pfwN := pfwN, crstN := crstN, mselN := mselN, arrayReady := arrayReady })

/-- POWER_LOSS: the part stops; a write step in progress has not completed and leaves nothing (R143, log 6). -/
def execPowerLoss (s : State) : Host.Outcome State Fault Refusal :=
  .next (s.setPowered false)

/-- The level of one supply line. -/
def lineLevel (s : State) (line : SupplyLine) : Bool :=
  match line with
  | .pfwN => s.pins.pfwN
  | .crstN => s.pins.crstN

/-- One supply line takes a level. -/
def setLine (s : State) (line : SupplyLine) (level : Bool) : State :=
  match line with
  | .pfwN => s.setPins { s.pins with pfwN := level }
  | .crstN => s.setPins { s.pins with crstN := level }

/-- A falling edge of a supply line is a cause of shutdown (R134, R118); a line already low has none (log 17). -/
def lineFall (s : State) (line : SupplyLine) : State :=
  if lineLevel s line then settle (takeShutdownCause (setLine s line false)) else s

/-- A rise of a supply line: the level is kept, and in ENDED the part enters STARTING when both lines are high (R143);
a line already high has none (log 17). -/
def lineRise (s : State) (line : SupplyLine) : State :=
  if lineLevel s line then s
  else
    let s := setLine s line true
    if s.control.mode = .ended ∧ supplyGood s = true then enterStarting s else s

/-- PFW_N_FALL (R134). -/
def execPfwNFall (s : State) : Host.Outcome State Fault Refusal :=
  handle s (fun s => lineFall s .pfwN)

/-- CRST_N_FALL (R134). -/
def execCrstNFall (s : State) : Host.Outcome State Fault Refusal :=
  handle s (fun s => lineFall s .crstN)

/-- LEAVE_ENDED: a rise in ENDED is judged (R143). -/
def execLeaveEnded (line : SupplyLine) (s : State) : Host.Outcome State Fault Refusal :=
  handle s (fun s => lineRise s line)

/-- PFW_N_RISE (R143). -/
def execPfwNRise (s : State) : Host.Outcome State Fault Refusal :=
  handle s (fun s => lineRise s .pfwN)

/-- CRST_N_RISE (R143). -/
def execCrstNRise (s : State) : Host.Outcome State Fault Refusal :=
  handle s (fun s => lineRise s .crstN)

/-- STAMP_COUNTER_WRAP: from 0xFFFFFFFF the stamp counter wraps to 0 (R159, log 8). -/
def execStampCounterWrap (s : State) : Host.Outcome State Fault Refusal :=
  handle s (fun s => s.setRecorder { s.recorder with stamp := 0 })

end Sys2Proof.Machine
end

