-- ==== Sys2Proof/Machine/Array.lean ====
section
/-! DEFINITION. The events of the array side: ready, timeout, and the retry of the start reads (R82, R121). -/

namespace Sys2Proof.Machine

/-- ARRAY_READY (R82). -/
def execArrayReady (took : LineData) (s : State) : Host.Outcome State Fault Refusal :=
  handle s (fun s => readyAsserted s took)

/-- ARRAY_TIMEOUT (R82). -/
def execArrayTimeout (took : LineData) (s : State) : Host.Outcome State Fault Refusal :=
  handle s (fun s => stepTimedOut s took)

/-- The retry wait of STARTING ends: the reads start again from the first line of layout copy A (R121). -/
def retryStartReads (s : State) : State :=
  if s.control.mode = .starting ∧ s.start.waiting = true then settle (s.setStart { lines := [], waiting := false })
  else s

/-- START_READ_RETRY (R121). -/
def execStartReadRetry (s : State) : Host.Outcome State Fault Refusal :=
  handle s retryStartReads

end Sys2Proof.Machine
end

