-- ==== Sys2Proof/Machine/Bus.lean ====
section
/-! DEFINITION. The controller bus: the ordered checks, handling by class, held accesses, the scan boundary (R31, R62 to
R75). -/

namespace Sys2Proof.Machine

/-! ## The checks (R62) -/

/-- What the checks find. -/
inductive Verdict
  /-- Every check that applies passed. -/
  | accepted (c : Classification)
  /-- The mode check failed: no incident (R63). -/
  | modeRefused
  /-- Another check failed: what is reported (R70). -/
  | refused (r : Report)
  /-- The line's class code or default class names no class (log 14). -/
  | reservedClass
  deriving DecidableEq, Repr

/-- The mode check (R63). -/
def modePasses (s : State) (write : Bool) : Bool :=
  match s.control.mode with
  | .run => !write || !s.control.configRequest
  | .halted => !write
  | .starting | .recovering | .unformatted | .config | .shutdown | .ended => false

/-- The detail for a read or for a write. -/
def byDirection (a : Access) (read write : Detail) : Detail :=
  if opIsWrite a.op then write else read

/-- The address lies in the control area, 0x000 to 0x11F (R65). -/
def inControlArea (address : Addr) : Bool :=
  decide (address.toNat < 0x120)

/-- The address lies in the 512 bytes from the journal base (R65). -/
def inJournalArea (base address : Addr) : Bool :=
  decide (base.toNat ≤ address.toNat) && decide (address.toNat < base.toNat + 512)

/-- The checks on alignment, capacity and reserved areas: what the first that fails reports (R64, R65). -/
def geometryFailure (l : Layout) (a : Access) : Option Detail :=
  if !aligned a then some (byDirection a .d271 .d272)
  else if capacityBytes l.settings.capacityCode ≤ a.address.toNat then some (byDirection a .d281 .d282)
  else if inControlArea a.address then some (byDirection a .d241 .d242)
  else if inJournalArea l.settings.journalBase a.address then some (byDirection a .d243 .d244)
  else none

/-- The checks on window class, writer set and fence: what the first that fails reports (R66, R68, R69). -/
def classFailure (s : State) (a : Access) (c : Classification) : Option Detail :=
  let write := opIsWrite a.op
  if c.cls = .closed then some (byDirection a .d211 .d212)
  else if write && c.cls == .locked then some .d220
  else if write && !c.writers.getLsbD a.initiator.val then some .d230
  else if write && s.confinement[a.initiator].state == .fenced then some .d250
  else none

/-- The seven checks in their order (R62). -/
def checkAccess (s : State) (a : Access) : Verdict :=
  if !modePasses s (opIsWrite a.op) then .modeRefused
  else
    match geometryFailure s.layout a with
    | some d => .refused (accessReport d a none)
    | none =>
      match classify s.layout (accessLine a) with
      | none => .reservedClass
      | some c =>
        match classFailure s a c with
        | some d => .refused (accessReport d a c.window)
        | none => .accepted c

/-! ## Refusal and acceptance -/

/-- A refusal counts, but not one under 25/250 (R70). -/
def countedRefusal (d : Detail) : Bool :=
  d != .d250

/-- A refusal by a check other than the mode check: REFUSE, the incident, the count, the reaction (R70). -/
def refuseAccess (s : State) (a : Access) (r : Report) : State :=
  let recorded := recordIncident (finishAccess s .refuse) r
  let counted := if countedRefusal r.detail then countRefusal recorded a.initiator (opIsWrite a.op) else recorded
  carryOut counted (reactionTaken s r.detail) r

/-- An access that has passed its checks, before anything is known of its wait (R60). -/
def arriving (s : State) (a : Access) (c : Classification) : Held :=
  { access := a, cls := c, wait := .grant, firstHeld := s.recorder.stamp }

/-- An access is handled by its class (section 4.4), at arrival or when it is taken anew. -/
def takeAccess (s : State) (h : Held) : State :=
  if opIsWrite h.access.op then takeWrite s h else takeRead s h

/-- CONTROLLER_ACCESS (R62). An access that arrives while another is held does not reach the unit (R60, log 11). -/
def execControllerAccess (a : Access) (s : State) : Host.Outcome State Fault Refusal :=
  if s.powered && s.access.held.isNone then
    match checkAccess s a with
    | .modeRefused => .next (finishAccess s .refuse)
    | .refused r => .next (settle (refuseAccess s a r))
    | .accepted c => .next (settle (takeAccess s (arriving s a c)))
    | .reservedClass => .fault .reservedClass
  else .next s

/-! ## Held accesses -/

/-- A held access of the named direction is taken anew when what it waits for has come (R8, R11, R29). -/
def takeAnew (s : State) (write : Bool) : State :=
  match s.access.held with
  | none => s
  | some h => if heldDue s && opIsWrite h.access.op == write then settle (takeAccess s h) else s

/-- HELD_WRITE_TAKEN_ANEW (R8). -/
def execHeldWriteTakenAnew (s : State) : Host.Outcome State Fault Refusal :=
  handle s (fun s => takeAnew s true)

/-- HELD_READ_TAKEN_ANEW (R11). -/
def execHeldReadTakenAnew (s : State) : Host.Outcome State Fault Refusal :=
  handle s (fun s => takeAnew s false)

/-- What the expiry of the stall limit records, by what the access waits for; none for an access whose operation has
been granted (R75). -/
def stallDetail : Wait → Option Detail
  | .slot => some .d311
  | .groupRecord => some .d312
  | .writingEntry => some .d313
  | .grant => some .d314
  | .operation => none

/-- The stall limit of the held access expires (R75). -/
def stallExpiry (s : State) : State :=
  match s.access.held with
  | none => s
  | some h =>
    match stallDetail h.wait with
    | none => s
    | some d => settle (reportIncident (finishAccess s .refuse) (accessReport d h.access h.cls.window))

/-- STALL_LIMIT_EXPIRY (R75). -/
def execStallLimitExpiry (s : State) : Host.Outcome State Fault Refusal :=
  handle s stallExpiry

/-! ## Scan boundary -/

/-- A scan boundary closes the open group in RUN alone (R31). -/
def scanBoundary (s : State) : State :=
  if s.control.mode = .run then settle (closeOpen s .boundary) else s

/-- SCAN_B_RISE (R31). -/
def execScanBRise (s : State) : Host.Outcome State Fault Refusal :=
  handle s scanBoundary

end Sys2Proof.Machine
end

