-- ==== Sys2Proof/Machine/Session.lean ====
section
/-! DEFINITION. Sessions of the management port: taking a request, its check, the response, the bytes sent (R163 to
R166). -/

namespace Sys2Proof.Machine

/-- The outcome of a command: its status and, after OK, its data (R165). -/
structure Reply where
  status : Status
  data : List Byte
  deriving DecidableEq, Repr

/-- A reply that carries no data. -/
def Reply.bare (status : Status) : Reply :=
  { status := status, data := [] }

/-- The bytes of a response: status, data, check byte (R165). -/
def responseBytes (r : Reply) : List Byte :=
  let body := Status.code r.status :: r.data
  body ++ [crc8 body]

/-- The composed response waits in phase RESPONSE; the request's bytes have been received (R163). -/
def respond (s : State) (request : List Byte) (r : Reply) : State :=
  s.setSession
    { phase := .response, byteCount := request.length, received := request, response := responseBytes r,
      trailingByte := 0xFF }

/-- A session that has begun and received no byte yet: a whole request may arrive (R163, log 10). -/
def requestOpen (s : State) : Bool :=
  s.session.phase == .request && s.session.byteCount == 0

/-- A command whose effect and reply are given: with a matching check byte it is taken in this handling, otherwise it
has no effect and is answered BAD_CHECK (R164). -/
def takeCommand (s : State) (code : Byte) (arguments : List Byte) (check : Byte) (run : State → State × Reply) :
    State :=
  if requestOpen s then
    let request := code :: arguments
    if check = crc8 request then respond (run s).1 (request ++ [check]) (run s).2
    else respond s (request ++ [check]) (Reply.bare .badCheck)
  else s

/-- A management command as a handling (R164, log 1). -/
def command (s : State) (code : Byte) (arguments : List Byte) (check : Byte) (run : State → State × Reply) :
    Host.Outcome State Fault Refusal :=
  handle s (fun s => takeCommand s code arguments check run)

/-- A command refused: no effect, and the status alone (R166). -/
def refuseCommand (s : State) (status : Status) : State × Reply :=
  (s, Reply.bare status)

/-- A short command that changes nothing and returns data (R165). -/
def answerData (s : State) (data : List Byte) : State × Reply :=
  (s, { status := .ok, data := data })

/-- A long command is accepted: it becomes the long command in flight (R119, R166). -/
def acceptLong (s : State) (c : LongCommand) : State :=
  s.setControl { s.control with longCommand := some c }

/-- One byte is clocked while the port sends (R163, log 9). -/
def clockByte (s : State) : State :=
  match s.session.phase with
  | .idle | .request => s
  | .trailing => s.setSession { s.session with byteCount := s.session.byteCount + 1 }
  | .response =>
    let left := s.session.response.tail
    s.setSession
      { s.session with
        phase := if left.isEmpty then .trailing else .response
        byteCount := s.session.byteCount + 1
        response := left }

/-- A session begins (R163). -/
def Session.begun : Session :=
  { phase := .request, byteCount := 0, received := [], response := [], trailingByte := 0xFF }

/-- MSEL_N_FALL: a session begins in phase REQUEST with byte count 0 (R163); a line already low has no edge
(log 17). -/
def execMselNFall (s : State) : Host.Outcome State Fault Refusal :=
  handle s (fun s =>
    if s.pins.mselN then (s.setPins { s.pins with mselN := false }).setSession Session.begun else s)

/-- MSEL_N_RISE: the session ends in any phase (R163); a line already high has no edge (log 17). -/
def execMselNRise (s : State) : Host.Outcome State Fault Refusal :=
  handle s (fun s =>
    if s.pins.mselN then s else (s.setPins { s.pins with mselN := true }).setSession Session.idle)

/-- The code byte that names no command: BAD_COMMAND in every byte from here on (R164). A code that names a command
is stored as the first byte of a request that the session may never finish (log 10). -/
def unknownCode (s : State) (code : Byte) : State :=
  if requestOpen s then
    s.setSession
      { phase := if commandCodes.contains code then .request else .trailing
        byteCount := 1, received := [code], response := []
        trailingByte := if commandCodes.contains code then 0xFF else Status.code .badCommand }
  else s

/-- UNKNOWN_COMMAND (R164). -/
def execUnknownCommand (code : Byte) (s : State) : Host.Outcome State Fault Refusal :=
  handle s (fun s => unknownCode s code)

end Sys2Proof.Machine
end

