-- ==== Sys2Proof/Machine/Management.lean ====
section
/-! DEFINITION. The management commands on groups, flushes, the layout and the modes (R103, R112, R113, R116, R131, R172
to R175). -/

namespace Sys2Proof.Machine

/-! ## CLOSE_GROUP and FLUSH (R32, R172) -/

/-- The data of CLOSE_GROUP: whether a group is closed, and its sequence (R172). -/
def closeGroupData (s : State) : List Byte :=
  match openGroup s with
  | none => List.replicate 5 0
  | some g => 1 :: bytesOf 4 g.sequence

/-- What CLOSE_GROUP does (R32, R172). -/
def closeGroupRun (s : State) : State × Reply :=
  (settle (closeOpen s .command), { status := .ok, data := closeGroupData s })

/-- CLOSE_GROUP (R32). -/
def execCloseGroup (check : Byte) (s : State) : Host.Outcome State Fault Refusal :=
  command s 0x1A [] check closeGroupRun

/-- Every POSTED entry present takes the flush mark, and they are counted (R19). -/
def markPosted (s : State) : State :=
  s.setQueue
    { s.queue with
      entries := s.queue.entries.map (fun e => if e.group.isNone then { e with flushMark := true } else e)
      outstanding := (s.queue.entries.filter (fun e => e.group.isNone)).length
      lossNote := false }

/-- The group part of a FLUSH of scope ALL: the open group is closed, the newest record is the target (R32). -/
def targetGroups (s : State) : State :=
  let s := closeOpen s .command
  s.setGroups { s.groups with flushTarget := s.groups.table.getLast?.map (fun g => g.sequence) }

/-- A FLUSH is accepted (R172). -/
def acceptFlush (s : State) (all : Bool) : State :=
  let s := markPosted (acceptLong s .flush)
  settle (if all then targetGroups s else s)

/-- What FLUSH does: the mode, a long command in flight, the scope (R166, R172). -/
def flushRun (scope : Byte) (s : State) : State × Reply :=
  if !serving s then refuseCommand s .wrongMode
  else if s.control.longCommand.isSome then refuseCommand s .busy
  else if scope = 1 then (acceptFlush s false, Reply.bare .accepted)
  else if scope = 2 then (acceptFlush s true, Reply.bare .accepted)
  else refuseCommand s .badArgument

/-- FLUSH (R172). -/
def execFlush (scope check : Byte) (s : State) : Host.Outcome State Fault Refusal :=
  command s 0x1B [scope] check (flushRun scope)

/-! ## REQUEST_CONFIG, REQUEST_RUN, RESUME (R112, R113, R116) -/

/-- A REQUEST_CONFIG is accepted: the request is pending, writes stop, the open group closes, and with a STALLED group
the abandon path is taken (R113). -/
def acceptConfig (s : State) : State :=
  let s := acceptLong s .requestConfig
  let s := s.setControl { s.control with configRequest := true, handoverLoss := false }
  let s := closeOpen (refuseHeldWrite s) .mode
  settle (if s.groups.table.any groupStalled then abandonPath s else s)

/-- What REQUEST_CONFIG does (R113). -/
def requestConfigRun (s : State) : State × Reply :=
  if s.control.mode = .config then (s, Reply.bare .ok)
  else if !serving s then refuseCommand s .wrongMode
  else if s.control.longCommand.isSome then refuseCommand s .busy
  else (acceptConfig s, Reply.bare .accepted)

/-- REQUEST_CONFIG (R113). -/
def execRequestConfig (check : Byte) (s : State) : Host.Outcome State Fault Refusal :=
  command s 0x20 [] check requestConfigRun

/-- What REQUEST_RUN does: the four checks in their order, then RECOVERING (R116). -/
def requestRunRun (s : State) : State × Reply :=
  if s.control.mode ≠ .config then refuseCommand s .wrongMode
  else if s.control.longCommand.isSome then refuseCommand s .busy
  else if !consistent s.layout then refuseCommand s .badLayout
  else if !layoutStored s then refuseCommand s .layoutDiffers
  else (settle (enterRecovery (acceptLong s .requestRun) .command), Reply.bare .accepted)

/-- REQUEST_RUN (R116). -/
def execRequestRun (check : Byte) (s : State) : Host.Outcome State Fault Refusal :=
  command s 0x21 [] check requestRunRun

/-- The stalled phase of a STALLED group is restarted, if there is one (R112, R57). -/
def restartStalled (s : State) : State :=
  match stalledPhase s with
  | none => s
  | some p => restartPhase s p

/-- RESUME in HALTED: RUN, no halt cause, the stalled phase restarted (R112). -/
def resume (s : State) : State :=
  let s := changeMode (s.setControl { s.control with haltCause := none }) .run
  settle (restartStalled s)

/-- What RESUME does (R112). -/
def resumeRun (s : State) : State × Reply :=
  if s.control.mode = .halted then (resume s, Reply.bare .ok) else refuseCommand s .wrongMode

/-- RESUME (R112). -/
def execResume (check : Byte) (s : State) : Host.Outcome State Fault Refusal :=
  command s 0x22 [] check resumeRun

/-! ## Layout (R79, R173) -/

/-- The modes in which the working layout may be written (R79). -/
def layoutWritable (s : State) : Bool :=
  s.control.mode == .config || s.control.mode == .unformatted

/-- The window an argument byte names; absent above 11 (R173). -/
def windowOf (b : Byte) : Option WindowIndex :=
  if h : b.toNat < 12 then some ⟨b.toNat, h⟩ else none

/-- What READ_WINDOW answers (R173). -/
def readWindowRun (index : Byte) (s : State) : State × Reply :=
  match windowOf index with
  | none => refuseCommand s .badArgument
  | some i => answerData s (bytesOf 8 (windowBits s.layout.windows[i]))

/-- READ_WINDOW (R173). -/
def execReadWindow (index check : Byte) (s : State) : Host.Outcome State Fault Refusal :=
  command s 0x28 [index] check (readWindowRun index)

/-- One window record of the working layout is replaced (R173). -/
def putWindow (s : State) (i : WindowIndex) (record : BitVec 64) : State :=
  s.setLayout { s.layout with windows := s.layout.windows.set i (windowOfBits record) }

/-- What WRITE_WINDOW does (R173). -/
def writeWindowRun (index : Byte) (record : BitVec 64) (s : State) : State × Reply :=
  if !layoutWritable s then refuseCommand s .wrongMode
  else
    match windowOf index with
    | none => refuseCommand s .badArgument
    | some i => (putWindow s i record, Reply.bare .ok)

/-- WRITE_WINDOW (R173). -/
def execWriteWindow (index : Byte) (record : BitVec 64) (check : Byte) (s : State) :
    Host.Outcome State Fault Refusal :=
  command s 0x29 (index :: bytesOf 8 record) check (writeWindowRun index record)

/-- READ_SETTINGS (R173). -/
def execReadSettings (check : Byte) (s : State) : Host.Outcome State Fault Refusal :=
  command s 0x2A [] check (fun s => answerData s (bytesOf 16 (settingsBits s.layout.settings)))

/-- The global settings of the working layout are replaced (R173). -/
def putSettings (s : State) (settings : BitVec 128) : State :=
  s.setLayout { s.layout with settings := settingsOfBits settings }

/-- What WRITE_SETTINGS does (R173). -/
def writeSettingsRun (settings : BitVec 128) (s : State) : State × Reply :=
  if layoutWritable s then (putSettings s settings, Reply.bare .ok) else refuseCommand s .wrongMode

/-- WRITE_SETTINGS (R173). -/
def execWriteSettings (settings : BitVec 128) (check : Byte) (s : State) : Host.Outcome State Fault Refusal :=
  command s 0x2B (bytesOf 16 settings) check (writeSettingsRun settings)

/-! ## STORE_LAYOUT and FORMAT (R103, R131) -/

/-- What STORE_LAYOUT does: the mode and the format-incomplete flag, BUSY, journal-pending (R103, R133, R174). -/
def storeLayoutRun (s : State) : State × Reply :=
  if s.control.mode ≠ .config || s.writer.formatIncomplete then refuseCommand s .wrongMode
  else if s.control.longCommand.isSome then refuseCommand s .busy
  else if s.engine.journalPending then refuseCommand s .journalPending
  else (settle (beginLayout (acceptLong s .storeLayout)), Reply.bare .accepted)

/-- STORE_LAYOUT (R103). -/
def execStoreLayout (check : Byte) (s : State) : Host.Outcome State Fault Refusal :=
  command s 0x30 [] check storeLayoutRun

/-- What FORMAT does: the mode, BUSY, the consistency check (R131). -/
def formatRun (s : State) : State × Reply :=
  if !layoutWritable s then refuseCommand s .wrongMode
  else if s.control.longCommand.isSome then refuseCommand s .busy
  else if !consistent s.layout then refuseCommand s .badLayout
  else (settle (beginFormat (acceptLong s .format)), Reply.bare .accepted)

/-- FORMAT (R131). -/
def execFormat (check : Byte) (s : State) : Host.Outcome State Fault Refusal :=
  command s 0x31 [] check formatRun

/-! ## RESTART (R175) -/

/-- What RESTART does (R175). -/
def restartRun (s : State) : State × Reply :=
  if s.control.longCommand.isSome then refuseCommand s .busy
  else (settle (takeShutdownCause (acceptLong s .restart)), Reply.bare .accepted)

/-- RESTART (R175). -/
def execRestart (check : Byte) (s : State) : Host.Outcome State Fault Refusal :=
  command s 0x3F [] check restartRun

end Sys2Proof.Machine
end

