-- ==== Sys2Proof/Machine/Status.lean ====
section
/-! DEFINITION. The management commands on status, events, incidents, initiators, groups and slots (R149, R161, R167 to
R171). -/

namespace Sys2Proof.Machine

/-! ## READ_STATUS (R167) -/

/-- Byte 1 of READ_STATUS (R167). -/
def statusFlags (s : State) : Byte :=
  BitVec.ofBool s.control.configRequest ++ BitVec.ofBool s.engine.journalPending
    ++ BitVec.ofBool s.recorder.overflow ++ BitVec.ofBool (openGroup s).isSome ++ 0#4

/-- The long command in flight as its code, 0x00 for none (R166). -/
def longCode (c : Option LongCommand) : Byte :=
  match c with
  | none => 0
  | some c => LongCommand.code c

/-- The last result as its code, 0x00 when absent (R166). -/
def resultCode (r : Option LongResult) : Byte :=
  match r with
  | none => 0
  | some r => LongResult.code r

/-- The halt cause as its detail, 0 when absent (R167). -/
def haltCode (d : Option Detail) : BitVec 16 :=
  match d with
  | none => 0
  | some d => Detail.number d

/-- The sequence of the open group, 0 with no group OPEN (R167, R172). -/
def openSequence (s : State) : Seq :=
  match openGroup s with
  | none => 0
  | some g => g.sequence

/-- The four reported states, initiator 0 in bits 7-6 (R167). -/
def reportedStates (s : State) : Byte :=
  let code (i : Initiator) : BitVec 2 := Standing.code s.confinement[i].reported
  code 0 ++ code 1 ++ code 2 ++ code 3

/-- The 24 data bytes of READ_STATUS (R167). -/
def statusData (s : State) : List Byte :=
  [Mode.code s.control.mode, statusFlags s, longCode s.control.longCommand, resultCode s.control.lastResult,
    EventSet.byte s.recorder.pendingEvents, EventSet.byte s.recorder.mask, BitVec.ofNat 8 (freeSlotCount s.queue),
    BitVec.ofNat 8 s.groups.table.length]
    ++ bytesOf 4 (openSequence s) ++ bytesOf 4 s.writer.retiredThrough ++ bytesOf 4 s.groups.nextSequence
    ++ [BitVec.ofNat 8 s.recorder.incidents.length, reportedStates s] ++ bytesOf 2 (haltCode s.control.haltCause)

/-- READ_STATUS (R167). -/
def execReadStatus (check : Byte) (s : State) : Host.Outcome State Fault Refusal :=
  command s 0x01 [] check (fun s => answerData s (statusData s))

/-! ## Events (R160, R161, R168) -/

/-- Bits 7-4 of an event argument are clear (R168). -/
def eventArgument (b : Byte) : Bool :=
  b.extractLsb' 4 4 == 0

/-- One event is cleared. -/
def clearEvent (s : State) (e : Event) : State :=
  s.setRecorder { s.recorder with pendingEvents := s.recorder.pendingEvents.put e false }

/-- FAULT is acknowledged, and the overflow flag cleared (R161). -/
def ackFault (s : State) : State :=
  let s := clearEvent s .fault
  s.setRecorder { s.recorder with overflow := false }

/-- Some initiator's pair of reported and actual state is a reportable change (R152). -/
def anyReportable (s : State) : Bool :=
  let changed (i : Initiator) : Bool :=
    reportable s.layout.settings.sensitivity[i] s.confinement[i].reported s.confinement[i].state
  changed 0 || changed 1 || changed 2 || changed 3

/-- CONFINEMENT is acknowledged: cleared, the actual states copied, and raised again where a pair is reportable
(R152). -/
def ackConfinement (s : State) : State :=
  if s.recorder.pendingEvents.confinement then
    let copied := copyReported (clearEvent s .confinement)
    if anyReportable s then raise copied .confinement else copied
  else s

/-- The events of a set are acknowledged (R161). -/
def acknowledge (s : State) (e : EventSet) : State :=
  let s := if e.fault then ackFault s else s
  let s := if e.confinement then ackConfinement s else s
  let s := if e.mode then clearEvent s .mode else s
  if e.commandDone then clearEvent s .commandDone else s

/-- What ACK_EVENTS does (R168). -/
def ackEventsRun (events : Byte) (s : State) : State × Reply :=
  if eventArgument events then (acknowledge s (EventSet.ofByte events), Reply.bare .ok)
  else refuseCommand s .badArgument

/-- ACK_EVENTS (R161, R168). -/
def execAckEvents (events check : Byte) (s : State) : Host.Outcome State Fault Refusal :=
  command s 0x02 [events] check (ackEventsRun events)

/-- What SET_EVENT_MASK does (R160, R168). -/
def setEventMaskRun (events : Byte) (s : State) : State × Reply :=
  if eventArgument events then
    (s.setRecorder { s.recorder with mask := EventSet.ofByte events }, Reply.bare .ok)
  else refuseCommand s .badArgument

/-- SET_EVENT_MASK (R168). -/
def execSetEventMask (events check : Byte) (s : State) : Host.Outcome State Fault Refusal :=
  command s 0x03 [events] check (setEventMaskRun events)

/-! ## Incidents (R156, R169) -/

/-- An optional number in `n` bytes, 0 when absent. -/
def optionBytes {w : Nat} (n : Nat) (x : Option (BitVec w)) : List Byte :=
  bytesOf n (x.getD 0)

/-- Byte 0 of an incident: bit 7 a record, bits 4 to 0 the optional fields present (R169). -/
def presenceByte (r : Report) : Byte :=
  BitVec.ofBool true ++ 0#2 ++ BitVec.ofBool r.initiator.isSome ++ BitVec.ofBool r.address.isSome
    ++ BitVec.ofBool r.window.isSome ++ BitVec.ofBool r.sequence.isSome ++ BitVec.ofBool r.count.isSome

/-- An optional initiator or window number as a byte, 0 when absent. -/
def indexByte {n : Nat} (x : Option (Fin n)) : Byte :=
  match x with
  | none => 0
  | some i => BitVec.ofNat 8 i.val

/-- The 22 data bytes of an incident record (R169). -/
def incidentBytes (i : Incident) : List Byte :=
  [presenceByte i.report, Detail.code i.report.detail] ++ bytesOf 2 (Detail.number i.report.detail)
    ++ bytesOf 4 i.stamp ++ [indexByte i.report.initiator] ++ optionBytes 3 i.report.address
    ++ [indexByte i.report.window] ++ optionBytes 4 i.report.sequence ++ optionBytes 4 i.report.count
    ++ [Reaction.code i.reaction]

/-- The answer on the oldest incident: its record, or 22 zero bytes (R156, R169). -/
def oldestIncident (s : State) : List Byte :=
  match s.recorder.incidents with
  | [] => List.replicate 22 0
  | i :: _ => incidentBytes i

/-- PEEK_INCIDENT (R169). -/
def execPeekIncident (check : Byte) (s : State) : Host.Outcome State Fault Refusal :=
  command s 0x08 [] check (fun s => answerData s (oldestIncident s))

/-- What TAKE_INCIDENT does (R156). -/
def takeIncidentRun (s : State) : State × Reply :=
  (s.setRecorder { s.recorder with incidents := s.recorder.incidents.tail },
    { status := .ok, data := oldestIncident s })

/-- TAKE_INCIDENT (R169). -/
def execTakeIncident (check : Byte) (s : State) : Host.Outcome State Fault Refusal :=
  command s 0x09 [] check takeIncidentRun

/-! ## Initiators (R149, R170) -/

/-- The initiator an argument byte names; absent above 3 (R170). -/
def initiatorOf (b : Byte) : Option Initiator :=
  if h : b.toNat < 4 then some ⟨b.toNat, h⟩ else none

/-- The 5 data bytes of READ_INITIATOR (R170). -/
def initiatorData (s : State) (i : Initiator) : List Byte :=
  let r := s.confinement[i]
  bytesOf 2 (BitVec.ofNat 16 r.counter)
    ++ [(Standing.code r.state).setWidth 8, (Standing.code r.reported).setWidth 8,
      s.layout.settings.sensitivity[i].setWidth 8]

/-- What READ_INITIATOR answers (R170). -/
def readInitiatorRun (initiator : Byte) (s : State) : State × Reply :=
  match initiatorOf initiator with
  | none => refuseCommand s .badArgument
  | some i => answerData s (initiatorData s i)

/-- READ_INITIATOR (R170). -/
def execReadInitiator (initiator check : Byte) (s : State) : Host.Outcome State Fault Refusal :=
  command s 0x10 [initiator] check (readInitiatorRun initiator)

/-- A FENCED initiator is released: counter 0, state CLEAN, the change judged (R149). -/
def release (s : State) (i : Initiator) : State :=
  judgeChange (setStanding s i 0 .clean) i .fenced .clean

/-- What RELEASE_FENCE does (R149, R170). -/
def releaseFenceRun (initiator : Byte) (s : State) : State × Reply :=
  match initiatorOf initiator with
  | none => refuseCommand s .badArgument
  | some i =>
    if s.confinement[i].state = .fenced then (release s i, Reply.bare .ok) else refuseCommand s .badArgument

/-- RELEASE_FENCE (R149). -/
def execReleaseFence (initiator check : Byte) (s : State) : Host.Outcome State Fault Refusal :=
  command s 0x11 [initiator] check (releaseFenceRun initiator)

/-! ## Groups and slots (R40, R59, R171) -/

/-- The 9 bytes of a group record (R171). -/
def groupBytes (g : Group) : List Byte :=
  bytesOf 4 g.sequence
    ++ [GroupState.code g.state, GroupState.stalledCode g.state, BitVec.ofNat 8 g.lineCount,
      causeByte g.closeCause, BitVec.ofNat 8 g.journalPosition]

/-- The field of one record of the table, zeros beyond its end (R171). -/
def groupField (s : State) (i : Nat) : List Byte :=
  match s.groups.table[i]? with
  | none => List.replicate 9 0
  | some g => groupBytes g

/-- The 37 data bytes of READ_GROUPS (R171). -/
def groupsData (s : State) : List Byte :=
  [BitVec.ofNat 8 s.groups.table.length] ++ groupField s 0 ++ groupField s 1 ++ groupField s 2 ++ groupField s 3

/-- READ_GROUPS (R171). -/
def execReadGroups (check : Byte) (s : State) : Host.Outcome State Fault Refusal :=
  command s 0x18 [] check (fun s => answerData s (groupsData s))

/-- The 24 bytes of an entry (R171). -/
def entryBytes (e : Entry) : List Byte :=
  [EntryState.code e.state, BitVec.ofBool e.group.isSome ++ BitVec.ofBool e.flushMark ++ 0#6]
    ++ bytesOf 3 (0#3 ++ e.line) ++ [e.valid, BitVec.ofNat 8 e.window.val, BitVec.ofNat 8 e.lastWriter.val]
    ++ bytesOf 4 e.arrival ++ bytesOf 4 (e.group.getD 0) ++ bytesOf 8 e.data

/-- The 24 data bytes of READ_SLOT: the slot's entry, or zeros for a FREE slot (R171). -/
def slotData (s : State) (slot : Nat) : List Byte :=
  match s.queue.entries.find? (fun e => e.slot.val == slot) with
  | none => List.replicate 24 0
  | some e => entryBytes e

/-- What READ_SLOT answers (R171). -/
def readSlotRun (slot : Byte) (s : State) : State × Reply :=
  if slot.toNat < Config.slots then answerData s (slotData s slot.toNat) else refuseCommand s .badArgument

/-- READ_SLOT (R171). -/
def execReadSlot (slot check : Byte) (s : State) : Host.Outcome State Fault Refusal :=
  command s 0x19 [slot] check (readSlotRun slot)

end Sys2Proof.Machine
end

