-- ==== Sys2Proof/Machine/Dispatch.lean ====
section
/-! DEFINITION. One arm per command, each a direct call of its meaning. -/

namespace Sys2Proof.Machine

/-- The effect of one command on everything but the queue of commands. -/
def exec (i : Instr) (s : State) : Host.Outcome State Fault Refusal :=
  match i with
  | .powerOn pfwN crstN mselN arrayReady => Sys2Proof.Machine.execPowerOn pfwN crstN mselN arrayReady s
  | .powerLoss => Sys2Proof.Machine.execPowerLoss s
  | .pfwNFall => Sys2Proof.Machine.execPfwNFall s
  | .crstNFall => Sys2Proof.Machine.execCrstNFall s
  | .leaveEnded line => Sys2Proof.Machine.execLeaveEnded line s
  | .scanBRise => Sys2Proof.Machine.execScanBRise s
  | .controllerAccess access => Sys2Proof.Machine.execControllerAccess access s
  | .heldWriteTakenAnew => Sys2Proof.Machine.execHeldWriteTakenAnew s
  | .heldReadTakenAnew => Sys2Proof.Machine.execHeldReadTakenAnew s
  | .stallLimitExpiry => Sys2Proof.Machine.execStallLimitExpiry s
  | .arrayReady took => Sys2Proof.Machine.execArrayReady took s
  | .arrayTimeout took => Sys2Proof.Machine.execArrayTimeout took s
  | .startReadRetry => Sys2Proof.Machine.execStartReadRetry s
  | .readStatus check => Sys2Proof.Machine.execReadStatus check s
  | .ackEvents events check => Sys2Proof.Machine.execAckEvents events check s
  | .setEventMask events check => Sys2Proof.Machine.execSetEventMask events check s
  | .peekIncident check => Sys2Proof.Machine.execPeekIncident check s
  | .takeIncident check => Sys2Proof.Machine.execTakeIncident check s
  | .readInitiator initiator check => Sys2Proof.Machine.execReadInitiator initiator check s
  | .releaseFence initiator check => Sys2Proof.Machine.execReleaseFence initiator check s
  | .readGroups check => Sys2Proof.Machine.execReadGroups check s
  | .readSlot slot check => Sys2Proof.Machine.execReadSlot slot check s
  | .closeGroup check => Sys2Proof.Machine.execCloseGroup check s
  | .flush scope check => Sys2Proof.Machine.execFlush scope check s
  | .requestConfig check => Sys2Proof.Machine.execRequestConfig check s
  | .requestRun check => Sys2Proof.Machine.execRequestRun check s
  | .resume check => Sys2Proof.Machine.execResume check s
  | .readWindow index check => Sys2Proof.Machine.execReadWindow index check s
  | .writeWindow index record check => Sys2Proof.Machine.execWriteWindow index record check s
  | .readSettings check => Sys2Proof.Machine.execReadSettings check s
  | .writeSettings settings check => Sys2Proof.Machine.execWriteSettings settings check s
  | .storeLayout check => Sys2Proof.Machine.execStoreLayout check s
  | .format check => Sys2Proof.Machine.execFormat check s
  | .restart check => Sys2Proof.Machine.execRestart check s
  | .unknownCommand code => Sys2Proof.Machine.execUnknownCommand code s
  | .mselNFall => Sys2Proof.Machine.execMselNFall s
  | .mselNRise => Sys2Proof.Machine.execMselNRise s
  | .pfwNRise => Sys2Proof.Machine.execPfwNRise s
  | .crstNRise => Sys2Proof.Machine.execCrstNRise s
  | .stampCounterWrap => Sys2Proof.Machine.execStampCounterWrap s

end Sys2Proof.Machine
end

