-- ==== Sys2Proof/Machine/Tick.lean ====
section
/-! DEFINITION. What one microsecond without a command does: the stamp counter counts and the serial port clocks one
byte (R159, R163; logs 8 and 9). -/

namespace Sys2Proof.Machine

/-- One microsecond passes (R159). -/
def countStamp (s : State) : State :=
  s.setRecorder { s.recorder with stamp := s.recorder.stamp + 1 }

/-- The step of the part on an empty queue; without supply nothing happens (logs 8 and 9). -/
def tick (s : State) : State :=
  if s.powered then clockByte (countStamp s) else s

/-- The state with a command at the front of its queue. -/
def pushCommand (s : State) (c : Option Instr) : State :=
  match c with
  | none => s
  | some c => s.setPending (c :: s.pending)

end Sys2Proof.Machine
end

