-- ==== Sys2Proof/Safety.lean ====
section
/-! DEFINITION. What a state of the part must satisfy for its items to lie in the values their tables give, when a
step is safe, and the bounds in time that the events stand for. -/

namespace Sys2Proof.Machine

/-! ## Bounds in time -/

/-- The stall limit in microseconds: STALL_LIMIT_EXPIRY comes no earlier after first held (R75). -/
def stallLimitMicroseconds (l : Layout) : Nat :=
  10 * l.settings.stallLimit.toNat

/-- The array timeout in microseconds, a setting of 0 taken as 100: ARRAY_TIMEOUT comes no earlier after the step
began (R82). -/
def arrayTimeoutMicroseconds (l : Layout) : Nat :=
  10 * (if l.settings.arrayTimeout = 0 then 100 else l.settings.arrayTimeout.toNat)

/-! ## Values in range -/

/-- An entry carries at least one byte, 0x00 outside its valid set, and a flush mark only when POSTED (R2). -/
def EntryOk (e : Entry) : Prop :=
  e.valid ≠ 0 ∧ e.data &&& ~~~(laneMask e.valid) = 0 ∧ (e.flushMark = true → e.group = none)

/-- No slot holds two entries, every entry is as R2 says, and at most 32 targets are outstanding (R2, R19). -/
structure QueueOk (q : PostingQueue) : Prop where
  slots : (q.entries.map Entry.slot).Nodup
  entries : ∀ e ∈ q.entries, EntryOk e
  outstanding : q.outstanding ≤ Config.slots

/-- A held access has passed the alignment check (R62, R64). -/
def AccessOk (a : AccessUnit) : Prop :=
  ∀ h, a.held = some h → aligned h.access = true

/-- One to three attempts, and a write has at least one byte enabled (R80, R81). -/
def OpOk (op : ArrayOp) : Prop :=
  1 ≤ op.attempt ∧ op.attempt ≤ 3 ∧ (op.kind ≠ .lineRead → op.enables ≠ 0)

/-- The pass-over count is 0 to 8 (R86) and the operation in flight is as R80 and R81 say. -/
structure PortOk (p : ArrayPort) : Prop where
  passOver : p.passOver ≤ Config.passOverLimit
  op : ∀ op, p.op = some op → OpOk op

/-- Recovery has kept as many records as it found, at most 24, each with a valid set that is not empty (R124, R125). -/
def RecoveryOk (r : Option Recovery) : Prop :=
  ∀ v, r = some v →
    v.found = v.records.length ∧ v.found ≤ Config.journalRecords ∧ ∀ x ∈ v.records, recordValid x ≠ 0

/-- The budget counter and the two counts lie in their ranges (R134). -/
structure ShutdownOk (d : ShutdownSequencer) : Prop where
  budget : d.budget ≤ 65535
  posted : d.postedAbandoned ≤ Config.slots
  groups : d.groupsAbandoned ≤ Config.groupRecords

/-- A counter of 0 to 511, and for an initiator that is not FENCED the state it selects (R145, R147). -/
def InitiatorOk (r : InitiatorRecord) : Prop :=
  r.counter ≤ 511 ∧ (r.state ≠ .fenced → r.state = standingOf r.counter)

/-- Items lie in the values their tables give: the memory is canonical, slots and entries are as R2 says, the sizes of the
group table, of the start lines, of recovery's records and of the incident list are bounded, and so are the attempt, the
pass-over count, the sequencer's counts and the initiators' counters. A group record's line count and journal position (R23),
the engine's record position (R46) and the number of OPEN groups and of groups in commit (R24) are not among them. -/
structure Sound (s : State) : Prop where
  mem : s.mem.wf = true
  access : AccessOk s.access
  queue : QueueOk s.queue
  groups : s.groups.table.length ≤ Config.groupRecords
  port : PortOk s.port
  start : s.start.lines.length < Config.startReads
  recovery : RecoveryOk s.recovery
  shutdown : ShutdownOk s.shutdown
  initiators : ∀ i : Initiator, InitiatorOk s.confinement[i]
  incidents : s.recorder.incidents.length ≤ Config.incidentRecords

/-! ## WRITING entries and the operation in flight -/

/-- The requester's write carries this entry: a drain write the POSTED entry of its slot, an in-place write the GROUPED one
(R14, R50, R138). -/
def carriesEntry (r : Requester) (e : Entry) : Prop :=
  match r with
  | .postedDrain k _ _ | .shutdownDrain k _ _ => k = e.slot ∧ e.group = none
  | .inPlaceWrite k _ _ => k = e.slot ∧ e.group.isSome = true
  | .controllerRead _ _ | .throughWrite _ _ | .journalRecord | .retiringProgress | .storeLayoutLine _ | .formatLine _
  | .startRead _ | .scanRead _ _ | .replayWrite _ _ | .recoveryProgress _ _ _ | .shutdownRecord | .shutdownProgress _ =>
    False

/-- Every WRITING entry is carried by the operation in flight (R3, R14, R50). -/
def WritingCarried (s : State) : Prop :=
  ∀ e ∈ s.queue.entries, e.state = .writing → ∃ op, s.port.op = some op ∧ carriesEntry op.requester e

/-! ## What the modes allow -/

/-- The items that depend on the mode: what `ModesAgree` speaks of. `heldWrite` is absent where no access is held. -/
structure ModeView where
  mode : Mode
  request : Bool
  long : Option LongCommand
  heldWrite : Option Bool
  noGroups : Bool
  noEntries : Bool
  recovery : Bool
  format : Bool
  target : Bool
  knowsNothing : Bool
  copyWrite : Bool
  requester : Option Requester
  stage : ShutdownStage

/-- The items of a state that depend on its mode. -/
def State.modeView (s : State) : ModeView :=
  { mode := s.control.mode
    request := s.control.configRequest
    long := s.control.longCommand
    heldWrite := s.access.held.map (fun h => opIsWrite h.access.op)
    noGroups := s.groups.table.isEmpty
    noEntries := s.queue.entries.isEmpty
    recovery := s.recovery.isSome
    format := s.writer.format.isSome
    target := s.groups.flushTarget.isSome
    knowsNothing := s.writer.newestLayout.isNone && s.writer.newestProgress.isNone && s.writer.storedImage.isNone
    copyWrite := s.writer.copyWrite.isSome
    requester := s.port.op.map ArrayOp.requester
    stage := s.shutdown.stage }

/-- Controller accesses are served (R108). -/
def ModeView.serves (v : ModeView) : Prop :=
  v.mode = .run ∨ v.mode = .halted

/-- Requests of the control area writer are served (R84). -/
def ModeView.writes (v : ModeView) : Prop :=
  v.mode = .config ∨ v.mode = .unformatted

/-- The operation in flight belongs to the mode, and in SHUTDOWN to the stage (R88, R89, R103, R132, R135 to R139). -/
def ModeView.opFits (v : ModeView) : Requester → Prop
  | .storeLayoutLine _ =>
    (v.mode = .shutdown ∧ v.stage = .finishing) ∨ (v.writes ∧ v.long = some .storeLayout)
  | .formatLine _ => (v.mode = .shutdown ∧ v.stage = .finishing) ∨ (v.writes ∧ v.long = some .format)
  | .shutdownRecord | .shutdownDrain _ _ _ => v.mode = .shutdown ∧ (v.stage = .group ∨ v.stage = .drain)
  | .shutdownProgress _ => v.mode = .shutdown ∧ v.stage = .progress
  | .startRead _ => v.mode = .shutdown → v.stage = .finishing
  | .controllerRead _ _ | .throughWrite _ _ | .postedDrain _ _ _ | .journalRecord | .inPlaceWrite _ _ _
  | .retiringProgress | .scanRead _ _ | .replayWrite _ _ | .recoveryProgress _ _ _ =>
    v.mode ≠ .starting ∧ (v.mode = .shutdown → v.stage = .finishing)

/-- What holds of the mode-dependent items throughout a handling. -/
structure ModeView.Core (v : ModeView) : Prop where
  /-- An access is held in RUN and HALTED alone, a write in RUN with no configuration request alone (R63, R74). -/
  held : v.heldWrite.isSome = true → v.serves
  heldWrite : v.heldWrite = some true → v.mode = .run ∧ v.request = false
  /-- The configuration request is pending only in RUN or HALTED with REQUEST_CONFIG in flight (R106). -/
  request : v.request = true → v.serves ∧ v.long = some .requestConfig
  /-- The queue and the group table are empty whenever the working layout can change (R79), and in RECOVERING. -/
  work : v.mode = .starting ∨ v.mode = .recovering ∨ v.writes → v.noGroups = true ∧ v.noEntries = true
  /-- Recovery exists in RECOVERING alone (R124). -/
  recovery : v.recovery = true → v.mode = .recovering
  /-- FORMAT's image is kept while FORMAT is in flight alone (R131). -/
  format : v.format = true → v.writes ∧ v.long = some .format
  /-- A flush target stands while FLUSH is in flight alone (R32). -/
  target : v.target = true → v.serves ∧ v.long = some .flush
  /-- In STARTING the control area writer knows no copy (R98, R120). -/
  starting : v.mode = .starting → v.knowsNothing = true ∧ v.copyWrite = false
  /-- The operation in flight belongs to the mode. -/
  op : ∀ r, v.requester = some r → v.opFits r
  /-- In SHUTDOWN the sequence has not ended, and in stage PROGRESS its copy write is in flight (R139). -/
  sequence : v.mode = .shutdown → v.stage ≠ .done ∧ (v.stage = .progress → v.copyWrite = true)
  /-- In ENDED no array operation is in flight (R143). -/
  ended : v.mode = .ended → v.requester = none

/-- What holds of the mode-dependent items between two handlings: with a handover in progress a group record or an entry
is left (R114), and in SHUTDOWN an operation is in flight (R135 to R139). -/
structure ModesAgree (s : State) : Prop where
  core : s.modeView.Core
  handover : s.control.configRequest = true → s.groups.table ≠ [] ∨ s.queue.entries ≠ []
  busy : s.control.mode = .shutdown → s.port.op.isSome = true

/-! ## What the statements speak of -/

/-- The part has supply, and a session in which a whole request may arrive (R163, log 10). -/
def Listening (s : State) : Prop :=
  s.powered = true ∧ s.session.phase = .request ∧ s.session.byteCount = 0

/-- The bytes a management command sends, code and arguments, and its check byte (12.3). -/
def requestOf : Instr → Option (List Byte × Byte)
  | .readStatus k => some ([0x01], k)
  | .ackEvents e k => some ([0x02, e], k)
  | .setEventMask e k => some ([0x03, e], k)
  | .peekIncident k => some ([0x08], k)
  | .takeIncident k => some ([0x09], k)
  | .readInitiator i k => some ([0x10, i], k)
  | .releaseFence i k => some ([0x11, i], k)
  | .readGroups k => some ([0x18], k)
  | .readSlot n k => some ([0x19, n], k)
  | .closeGroup k => some ([0x1A], k)
  | .flush x k => some ([0x1B, x], k)
  | .requestConfig k => some ([0x20], k)
  | .requestRun k => some ([0x21], k)
  | .resume k => some ([0x22], k)
  | .readWindow i k => some ([0x28, i], k)
  | .writeWindow i r k => some ([0x29, i] ++ bytesOf 8 r, k)
  | .readSettings k => some ([0x2A], k)
  | .writeSettings v k => some (0x2B :: bytesOf 16 v, k)
  | .storeLayout k => some ([0x30], k)
  | .format k => some ([0x31], k)
  | .restart k => some ([0x3F], k)
  | .powerOn _ _ _ _ | .powerLoss | .pfwNFall | .crstNFall | .leaveEnded _ | .scanBRise | .controllerAccess _
  | .heldWriteTakenAnew | .heldReadTakenAnew | .stallLimitExpiry | .arrayReady _ | .arrayTimeout _
  | .startReadRetry | .unknownCommand _ | .mselNFall | .mselNRise | .pfwNRise | .crstNRise
  | .stampCounterWrap => none

/-- From `s` the command `c`, sent as the code and argument bytes `request` with a check byte, leads to `t` with the
composed response waiting: the status, the data, and their CRC-8 (R163, R165). -/
def Answers (c : Instr) (s t : State) (request : List Byte) (status : Byte) (data : List Byte) : Prop :=
  exec c s = .next (t.setSession
    { phase := .response
      byteCount := request.length + 1
      received := request ++ [crc8 request]
      response := status :: data ++ [crc8 (status :: data)]
      trailingByte := 0xFF })

/-- From `s` the command `c` is answered with the status alone and has no effect. -/
def Declines (c : Instr) (s : State) (request : List Byte) (status : Byte) : Prop :=
  Answers c s s request status []

/-- An incident reported in `s` stands in the list of `t` behind the records of `s`, or was dropped with the overflow
flag set; FAULT is pending (R155). -/
def Records (s t : State) (r : Report) (x : Reaction) : Prop :=
  t.recorder.pendingEvents.fault = true ∧
    (if s.recorder.incidents.length < 16 then
      t.recorder.incidents[s.recorder.incidents.length]? =
        some { report := r, stamp := s.recorder.stamp, reaction := x }
    else t.recorder.overflow = true)

/-- The incident list and the events but for MODE and COMMAND_DONE are as they were. -/
def NoIncident (s t : State) : Prop :=
  t.recorder.incidents = s.recorder.incidents ∧ t.recorder.overflow = s.recorder.overflow ∧
    t.recorder.pendingEvents.fault = s.recorder.pendingEvents.fault

/-- The falling edge of a supply line. -/
def fallOf : SupplyLine → Instr
  | .pfwN => .pfwNFall
  | .crstN => .crstNFall

/-- The commands that report a rise of a supply line (R143). -/
def risesOf : SupplyLine → List Instr
  | .pfwN => [.pfwNRise, .leaveEnded .pfwN]
  | .crstN => [.crstNRise, .leaveEnded .crstN]

/-- The other supply line. -/
def otherLine : SupplyLine → SupplyLine
  | .pfwN => .crstN
  | .crstN => .pfwN

/-- The part right after an entry to STARTING with both supply lines high (R120, R121): every block at its start
value, the first control-area read begun. What outlives the entry is taken from `s`; the session is given. -/
def startedFrom (s : State) (mselN ready : Bool) (session : Session) : State :=
  { State.startValues { pfwN := true, crstN := true, mselN := mselN, arrayReady := false } s.mem session s.free
      s.pending with
    port :=
      { op := some
          { requester := .startRead 0, kind := .lineRead, line := 0, data := 0, enables := 0, attempt := 1,
            step := .read, presented := ready }
        passOver := 0 } }

/-- What entry to SHUTDOWN leaves while an operation is in flight (R118, R134, R135). -/
structure ShutdownEntered (s t : State) : Prop where
  mode : t.control.mode = .shutdown
  event : t.recorder.pendingEvents.mode = true
  request : t.control.configRequest = false
  origin : t.shutdown.origin =
    (if s.control.mode = .run ∨ s.control.mode = .halted then .full
     else if s.control.mode = .config then .config else .none)
  budget : t.shutdown.budget = s.layout.settings.budget.toNat - (if writeInFlight s then 1 else 0)
  stage : t.shutdown.stage = .finishing
  plan : t.shutdown.plan = none
  counts : t.shutdown.postedAbandoned = 0 ∧ t.shutdown.groupsAbandoned = 0
  held : t.access.held = none
  refused : s.access.held.isSome = true → t.access.answer = some .refuse
  marks : t.queue.entries = s.queue.entries.map (fun e => { e with flushMark := false })
  outstanding : t.queue.outstanding = 0
  target : t.groups.flushTarget = none
  groups : t.groups.table = s.groups.table
  recovery : t.recovery = none
  format : t.writer.format = none
  operation : t.port.op = s.port.op
  passOver : t.port.passOver = 0
  layout : t.layout = s.layout
  incidents : NoIncident s t

/-- The journal engine carries a group through a phase: the group's record, the engine's group and phase (R46). -/
structure Carries (s : State) (q : Seq) (g : Group) (p : Phase) : Prop where
  inCommit : s.engine.inCommit = some q
  phase : s.engine.phase = some p
  record : groupOf s q = some g
  state : g.state = .inPhase p

/-- The group `q` stands in phase `p` at the given step, in the engine and in its record (R46). -/
def AtStep (t : State) (q : Seq) (p : Phase) (position : Nat) (half : Half) : Prop :=
  t.engine.inCommit = some q ∧ t.engine.phase = some p ∧ t.engine.position = position ∧ t.engine.half = half ∧
    ∃ r ∈ t.groups.table, r.sequence = q ∧ r.state = .inPhase p ∧ r.journalPosition = position

/-- The group table with its OPEN group closed (R30). -/
def closedTable (table : List Group) (cause : CloseCause) : List Group :=
  table.map (fun g => if g.state = .open then { g with state := .closed, closeCause := some cause } else g)

/-- With no group of this table in commit, the oldest CLOSED one has been taken: JOURNALING, both positions 0, half FIRST
(R35, R46). -/
def OldestTaken (table : List Group) (t : State) : Prop :=
  (∀ g ∈ table, groupInCommit g = false) → ∀ g, table.find? (fun x => x.state == .closed) = some g →
    AtStep t g.sequence .journaling 0 .first

/-- The entry that a write creates or changes in `t`, apart from its state: taken from access `a` (R5, R6). -/
structure EntryFrom (a : Access) (w : Option WindowIndex) (group : Option Seq) (arrival : BitVec 32) (e : Entry) :
    Prop where
  line : e.line = lineOf a.address
  data : ∀ n < 8, byteOf e.data n = if (accessBytes a).getLsbD n then byteOf (accessData a) n else 0
  valid : e.valid = accessBytes a
  window : ∀ i, w = some i → e.window = i
  group : e.group = group
  lastWriter : e.lastWriter = a.initiator
  arrival : e.arrival = arrival
  flushMark : e.flushMark = false

/-- The entry `x` of `t` is the entry `e` of `s` with the write `a` taken into it (R5). -/
structure MergedFrom (a : Access) (e x : Entry) : Prop where
  slot : x.slot = e.slot
  line : x.line = e.line
  data : ∀ n < 8, byteOf x.data n = if (accessBytes a).getLsbD n then byteOf (accessData a) n else byteOf e.data n
  valid : x.valid = e.valid ||| accessBytes a
  window : x.window = e.window
  group : x.group = e.group
  lastWriter : x.lastWriter = a.initiator
  arrival : x.arrival = e.arrival
  flushMark : x.flushMark = e.flushMark

/-- A write has been answered DONE: no access is held, and its initiator's count fell by one, not below 0 (R72, R146). -/
def WriteDone (s t : State) (a : Access) : Prop :=
  t.access = { held := none, answer := some (.done []) } ∧
    t.confinement[a.initiator].counter = s.confinement[a.initiator].counter - 1

/-- An access is held with STALL and waits as given (R61). -/
def HeldFor (t : State) (h : Held) (w : Wait) : Prop :=
  t.access = { held := some { h with wait := w }, answer := some .stall }

/-- Slot `k` is the lowest-numbered FREE slot (R5). -/
def LowestFree (s : State) (k : Fin 32) : Prop :=
  (∀ e ∈ s.queue.entries, e.slot ≠ k) ∧ ∀ j : Fin 32, j < k → ∃ e ∈ s.queue.entries, e.slot = j

/-- No slot is FREE. -/
def QueueFull (s : State) : Prop :=
  ∀ k : Fin 32, ∃ e ∈ s.queue.entries, e.slot = k

/-- What becomes of an accepted write of a POSTED line (R5, R8). A new or merged entry is READY, or WRITING where the
port was free and the posted drain was granted at once; with a new entry the port is not left free (R13, R85). -/
def PostedTaken (s : State) (h : Held) (t : State) : Prop :=
  match postedEntry s (lineOf h.access.address) with
  | some e =>
    WriteDone s t h.access ∧ t.queue.arrivalCounter = s.queue.arrivalCounter ∧
      t.queue.entries.length = s.queue.entries.length ∧
      ∃ x ∈ t.queue.entries, MergedFrom h.access e x ∧ (x.state = e.state ∨ (s.port.op = none ∧ x.state = .writing))
  | none =>
    (∀ k, LowestFree s k →
      WriteDone s t h.access ∧ t.queue.arrivalCounter = s.queue.arrivalCounter + 1 ∧
        t.queue.entries.length = s.queue.entries.length + 1 ∧ t.port.op.isSome = true ∧
        ∃ x ∈ t.queue.entries, x.slot = k ∧ EntryFrom h.access h.cls.window none s.queue.arrivalCounter x ∧
          (x.state = .ready ∨ (s.port.op = none ∧ x.state = .writing))) ∧
    (QueueFull s →
      HeldFor t h .slot ∧ t.queue.arrivalCounter = s.queue.arrivalCounter ∧
        t.queue.entries.map Entry.slot = s.queue.entries.map Entry.slot)

/-- A write opened a group in slot `k`: its record at journal position 0, its first entry, the next sequence (R27). The
record stands OPEN with no close cause, or as an entry to HALTED in the same handling left it (R28), in any state in which no
older record bears its sequence. -/
def GroupOpened (s : State) (h : Held) (k : Fin 32) (state : GroupState) (cause : Option CloseCause) (t : State) : Prop :=
  WriteDone s t h.access ∧ t.groups.nextSequence = s.groups.nextSequence + 1 ∧
    t.groups.table.length = s.groups.table.length + 1 ∧
    (∃ r ∈ t.groups.table, r.sequence = s.groups.nextSequence ∧ r.lineCount = 1 ∧ r.journalPosition = 0 ∧
      ((∀ x ∈ s.groups.table, x.sequence ≠ s.groups.nextSequence) → r.state = state ∧ r.closeCause = cause)) ∧
    ∃ x ∈ t.queue.entries, x.slot = k ∧ x.state = .held ∧
      EntryFrom h.access h.cls.window (some s.groups.nextSequence) s.queue.arrivalCounter x

/-- A write that needs a new group, with a group record and a slot at hand or not (R26 step 4). -/
def NewGroupTaken (s : State) (h : Held) (t : State) : Prop :=
  (s.groups.table.length < 4 → ∀ k, LowestFree s k → GroupOpened s h k .open none t) ∧
    (s.groups.table.length < 4 → QueueFull s → HeldFor t h .slot) ∧
    (4 ≤ s.groups.table.length → HeldFor t h .groupRecord)

/-- What becomes of an accepted write of a GROUPED line: the four steps of R26, and the close at the line limit (R28), with
its HALT reaction carried out when the write has landed or is held. -/
def GroupedTaken (s : State) (h : Held) (t : State) : Prop :=
  match openGroup s with
  | none => NewGroupTaken s h t
  | some g =>
    match groupedEntry s (lineOf h.access.address) g.sequence with
    | some e =>
      WriteDone s t h.access ∧ t.groups.table.map Group.lineCount = s.groups.table.map Group.lineCount ∧
        ∃ x ∈ t.queue.entries, MergedFrom h.access e x ∧ (e.state = .held → x.state = .held)
    | none =>
      if g.lineCount < s.layout.settings.lineLimit.toNat then
        (∀ k, LowestFree s k →
          WriteDone s t h.access ∧ t.groups.nextSequence = s.groups.nextSequence ∧
            (∃ r ∈ t.groups.table, r.sequence = g.sequence ∧ r.lineCount = g.lineCount + 1) ∧
            ∃ x ∈ t.queue.entries, x.slot = k ∧ x.state = .held ∧
              EntryFrom h.access h.cls.window (some g.sequence) s.queue.arrivalCounter x) ∧
        (QueueFull s → HeldFor t h .slot)
      else
        Records s t
            { detail := .d320, initiator := some h.access.initiator, address := some h.access.address
              window := h.cls.window, sequence := some g.sequence
              count := some (s.layout.settings.lineLimit.setWidth 32) }
            (reactionTaken s .d320) ∧
          (∃ r ∈ t.groups.table, r.sequence = g.sequence ∧ r.closeCause = some .limit ∧ r.lineCount = g.lineCount) ∧
          OldestTaken (closedTable s.groups.table .limit) t ∧
          (reactionTaken s .d320 ≠ .halt → t.control.mode = s.control.mode ∧
            (reactionTaken s .d320 ≠ .fence → s.groups.table.length < 4 →
              ∀ k, LowestFree s k → GroupOpened s h k .open none t) ∧
            (s.groups.table.length < 4 → QueueFull s → HeldFor t h .slot) ∧
              (4 ≤ s.groups.table.length → HeldFor t h .groupRecord)) ∧
          (reactionTaken s .d320 = .halt →
            t.control.mode = .halted ∧ t.control.haltCause = some .d320 ∧ t.recorder.pendingEvents.mode = true ∧
              (s.groups.table.length < 4 → ∀ k, LowestFree s k → GroupOpened s h k .closed (some .halt) t) ∧
              (QueueFull s ∨ 4 ≤ s.groups.table.length → t.access = { held := none, answer := some .refuse }))

/-- What becomes of a THROUGH write: it is held with STALL for a grant, with another operation in flight, or the grant
came at once (R73, R85). -/
def ThroughTaken (h : Held) (t : State) : Prop :=
  (HeldFor t h .grant ∧ t.port.op.isSome = true) ∨
    (HeldFor t h .operation ∧ ∃ op, t.port.op = some op ∧ op.line = lineOf h.access.address ∧
      op.enables = accessBytes h.access ∧ op.data = accessData h.access ∧
      op.kind = (if h.cls.verify then .verifiedWrite else .maskedWrite))

/-- The newest entry of a line, other than a WRITING one, that carries byte `n` (R10). -/
def newestCarrying (s : State) (line : LineNo) (n : Nat) : Option Entry :=
  ((quietEntries s line).filter (fun e => e.valid.getLsbD n)).getLast?

/-- What becomes of an accepted read: answered from the entries, held for a WRITING entry, or sent to the array
(R10 to R12). -/
def ReadTaken (s : State) (h : Held) (t : State) : Prop :=
  let line := lineOf h.access.address
  let byteNo (i : Nat) : Nat := lineOffset h.access.address + i
  let carried : Prop := ∀ i < opBytes h.access.op, (newestCarrying s line (byteNo i)).isSome = true
  let writing : Prop := ∃ e ∈ s.queue.entries, e.line = line ∧ e.state = .writing
  (carried →
      ∃ bytes, t.access = { held := none, answer := some (.done bytes) } ∧ bytes.length = opBytes h.access.op ∧
        ∀ i < opBytes h.access.op, ∀ e, newestCarrying s line (byteNo i) = some e →
          bytes[i]? = some (byteOf e.data (byteNo i))) ∧
    (¬carried → writing → HeldFor t h .writingEntry) ∧
    (¬carried → ¬writing →
      (HeldFor t h .grant ∧ t.port.op.isSome = true) ∨
        (HeldFor t h .operation ∧ ∃ op, t.port.op = some op ∧ op.kind = .lineRead ∧ op.line = line))

/-- A handover in progress waits for something: with the configuration request pending, a group record or an entry is
left (R114). -/
def HandoverWaits (s : State) : Prop :=
  s.control.configRequest = true → s.groups.table ≠ [] ∨ s.queue.entries ≠ []

/-- A reaction to an incident that leaves no group STALLED has been carried out on the part, RUN or HALTED before. HALT takes
RUN to HALTED with the incident as halt cause: MODE is raised, a held write refused, the open group closed with cause HALT, and
the oldest CLOSED group taken (R35); HALTED keeps its mode and its halt cause. Any other reaction changes neither, and a
configuration request stays (R110). -/
structure HaltCarriedOut (s t : State) (d : Detail) (x : Reaction) : Prop where
  request : t.control.configRequest = s.control.configRequest
  kept : x ≠ .halt → t.control.mode = s.control.mode ∧ t.control.haltCause = s.control.haltCause
  halted : x = .halt → t.control.mode = .halted ∧
    t.control.haltCause = (if s.control.mode = .run then some d else s.control.haltCause)
  event : x = .halt → s.control.mode = .run → t.recorder.pendingEvents.mode = true
  heldWrite : x = .halt → s.control.mode = .run → ∀ h, s.access.held = some h → opIsWrite h.access.op = true →
    t.access = { held := none, answer := some .refuse }
  closed : x = .halt → s.control.mode = .run → openGroup t = none ∧
    (∀ g, openGroup s = some g → ∃ r ∈ t.groups.table, r.sequence = g.sequence ∧ r.closeCause = some .halt) ∧
    OldestTaken (closedTable s.groups.table .halt) t

/-- The incidents that a refused access adds, in their order: the refusal with its reaction, then 71/711 where the count
fences the initiator, or 71/712 where a FENCE reaction does (R70, R147, R148). -/
def refusalIncidents (s : State) (r : Report) (i : Initiator) (counted : Nat) : List Incident :=
  let x := reactionTaken s r.detail
  let notice (d : Detail) (n : Nat) : Report × Reaction :=
    ({ detail := d, initiator := some i, count := some (BitVec.ofNat 32 n) }, .none)
  let fencing : List (Report × Reaction) :=
    if s.confinement[i].state = .fenced then []
    else if 320 ≤ counted then [notice .d711 counted]
    else if x = .fence then [notice .d712 320]
    else []
  ((r, x) :: fencing).map (fun y => { report := y.1, stamp := s.recorder.stamp, reaction := y.2 })

/-- The operation in flight ends with this assertion of ready and completes without failure: it is a line read, a
masked line write, or a verified write whose read-back finds every enabled byte as written (R80, R81). -/
def Completes (s : State) (op : ArrayOp) : Prop :=
  s.port.op = some op ∧ op.presented = true ∧
    ((op.kind = .lineRead ∧ op.step = .read) ∨ (op.kind = .maskedWrite ∧ op.step = .write) ∨
      (op.kind = .verifiedWrite ∧ op.step = .readBack ∧
        ∀ n < 8, op.enables.getLsbD n = true → s.mem.read (byteAddress op.line n) = byteOf op.data n))

/-- The operation in flight ends with this command, an array failure of the named kind: a timeout, or a third read-back
that finds an enabled byte different (R81 to R83). -/
def FailsWith (s : State) (op : ArrayOp) (c : Instr) (f : Failure) : Prop :=
  (∃ took, c = .arrayTimeout took ∧ f = .timeout) ∨
    (∃ took, c = .arrayReady took ∧ f = .miscompare ∧ op.kind = .verifiedWrite ∧ op.step = .readBack ∧
      op.presented = true ∧ op.attempt = 3 ∧
      ∃ n < 8, op.enables.getLsbD n = true ∧ s.mem.read (byteAddress op.line n) ≠ byteOf op.data n)

/-- The detail an operation's requester records: for a timeout, or for a miscompare (R83). -/
def Failure.detail (f : Failure) (timeout miscompare : Detail) : Detail :=
  match f with
  | .timeout => timeout
  | .miscompare => miscompare

/-- The requesters of the lines of a copy write (R101), FORMAT's writes 4 to 39, its copies, among them (R104, R132). -/
def CopyRequester (r : Requester) : Prop :=
  r = .retiringProgress ∨ (∃ n, r = .storeLayoutLine n) ∨ (∃ q replay n, r = .recoveryProgress q replay n) ∨
    (∃ n, r = .shutdownProgress n) ∨ ∃ n, r = .formatLine n ∧ 4 ≤ n

/-- The copy of the control area that this line belongs to is not valid, by the bytes that the memory holds: layout copies in
lines 0 to 15 and 16 to 31, progress copies in lines 32 and 33 and in lines 34 and 35 (R93, R96). -/
def CopyNotValid (m : Memory) (line : LineNo) : Prop :=
  let lines (first count : Nat) : List LineData :=
    (List.range count).map (fun i => m.readLine (BitVec.ofNat 21 (first + i)))
  let n := line.toNat
  (n < 16 → layoutValid (joinLines 1024 (lines 0 16)) = false) ∧
    (16 ≤ n ∧ n < 32 → layoutValid (joinLines 1024 (lines 16 16)) = false) ∧
    (32 ≤ n ∧ n < 34 → progressValid (joinLines 128 (lines 32 2)) = false) ∧
    (34 ≤ n ∧ n < 36 → progressValid (joinLines 128 (lines 34 2)) = false)

/-- The line of the operation held other bytes at its grant than are written, or it holds these and its copy is not valid all
the same. What it shuts out, a valid copy that is written over with the bytes it has, is log 28. -/
def ChangesTheCopy (s : State) (op : ArrayOp) : Prop :=
  s.lineBefore = op.data → s.mem.readLine op.line = op.data ∧ CopyNotValid s.mem op.line

/-- The long command in flight has completed in `t` with this result: it is absent, the last result takes it, and
COMMAND_DONE is raised (R119). -/
def LongCompleted (t : State) (r : LongResult) : Prop :=
  t.control.longCommand = none ∧ t.control.lastResult = some r ∧ t.recorder.pendingEvents.commandDone = true

/-- A FLUSH has completed, with or without loss; the mode controller's request stays (R19, R119). -/
def FlushCompleted (s t : State) (loss : Bool) : Prop :=
  LongCompleted t (if loss then .doneWithLoss else .done) ∧ t.control.configRequest = s.control.configRequest

/-- The handover has ended in CONFIG, with or without loss: the request is cleared, the MODE event raised, READY low, and an
access held until then refused (R114, R115). -/
structure HandoverCompleted (s t : State) (loss : Bool) : Prop where
  mode : t.control.mode = .config
  event : t.recorder.pendingEvents.mode = true
  request : t.control.configRequest = false
  result : LongCompleted t (if loss then .doneWithLoss else .done)
  ready : readyOut t = false
  held : t.access.held = none
  refused : s.access.held.isSome = true → t.access.answer = some .refuse

/-- A progress copy with this content is being written, to the copy that is not the newest (R99, R104). -/
def CopyBegun (s t : State) (p : ProgressContent) : Prop :=
  ∃ w, t.writer.copyWrite = some w ∧ w.content = .progress p ∧ w.written = 0 ∧
    some w.target ≠ s.writer.newestProgress ∧
    w.generation = (if s.writer.newestProgress = none then 1 else s.writer.progressGeneration + 1)

/-- The final progress copy has begun: stage PROGRESS, the first of its two masked line writes in flight (R139). -/
def FinalCopyBegun (s t : State) (p : ProgressContent) : Prop :=
  t.control.mode = .shutdown ∧ t.shutdown.stage = .progress ∧ CopyBegun s t p ∧
    ∃ op, t.port.op = some op ∧ op.requester = .shutdownProgress 0 ∧ op.kind = .maskedWrite ∧ op.enables = 0xFF ∧
      ((op.line = 0x20 ∧ s.writer.newestProgress ≠ some .a) ∨ (op.line = 0x22 ∧ s.writer.newestProgress = some .a))

/-- What is recorded of an operation that times out in SHUTDOWN (R140, by R83 and the requester's own rule); nothing of the
line read of a read (R74). That this goes for an operation of STARTING, RECOVERING and UNFORMATTED too is the model's reading
(log 19). -/
def timeoutReport (s : State) (op : ArrayOp) : Option Report :=
  let line (d : Detail) (n : Nat) : Report :=
    { detail := d, address := some (lineAddress op.line), count := some (BitVec.ofNat 32 n) }
  let commit (d : Detail) : Report := { line d s.engine.position with sequence := s.engine.inCommit }
  match op.requester with
  | .controllerRead _ _ => none
  | .throughWrite a w =>
    some { detail := .d412, initiator := some a.initiator, address := some a.address, window := w }
  | .postedDrain _ w i | .shutdownDrain _ w i =>
    some { detail := .d413, initiator := some i, address := some (lineAddress op.line), window := some w }
  | .journalRecord => some (commit .d414)
  | .inPlaceWrite _ w i => some { commit .d415 with initiator := some i, window := some w }
  | .retiringProgress => some (commit .d416)
  | .storeLayoutLine n | .shutdownProgress n => some (line .d416 n)
  | .formatLine n => some (line (if n = 2 ∨ n = 3 then .d414 else .d416) n)
  | .startRead n => some (line .d417 n)
  | .scanRead q n => some { line .d417 n with sequence := some q }
  | .replayWrite q n => some { line .d415 n with sequence := some q }
  | .recoveryProgress q _ n => some { line .d416 n with sequence := some q }
  | .shutdownRecord =>
    some { detail := .d414, address := some (lineAddress op.line), sequence := s.engine.inCommit }

/-- What a shutdown leaves behind in ENDED: no operation in flight, no group in the journal engine, no copy write (R58,
R101, R143). -/
structure EndedAtRest (t : State) : Prop where
  mode : t.control.mode = .ended
  event : t.recorder.pendingEvents.mode = true
  stage : t.shutdown.stage = .done
  operation : t.port.op = none
  inCommit : t.engine.inCommit = none
  phase : t.engine.phase = none
  copyWrite : t.writer.copyWrite = none

/-! ## What the array port is asked for -/

/-- An operation as its requester asks for it: the first attempt, no step presented (R80 to R82). -/
def freshOp (r : Requester) (k : OpKind) (line : LineNo) (data : LineData) (enables : ByteSet) : ArrayOp :=
  { requester := r, kind := k, line := line, data := data, enables := enables, attempt := 1
    step := if k = .lineRead then .read else .write, presented := false }

/-- The kind of a line write (R81). -/
def writeKind (verified : Bool) : OpKind :=
  if verified then .verifiedWrite else .maskedWrite

/-- Line `written` of a copy write, all 8 bytes enabled: where it stands and what it holds (R93, R100). -/
def copyLineOp (r : Requester) (k : OpKind) (w : CopyWrite) : ArrayOp :=
  match w.content, w.target with
  | .layout l, .a => freshOp r k (BitVec.ofNat 21 w.written) (layoutCopyLine l w.generation w.written) 0xFF
  | .layout l, .b => freshOp r k (0x10 + BitVec.ofNat 21 w.written) (layoutCopyLine l w.generation w.written) 0xFF
  | .progress p, .a => freshOp r k (0x20 + BitVec.ofNat 21 w.written) (progressCopyLine p w.generation w.written) 0xFF
  | .progress p, .b => freshOp r k (0x22 + BitVec.ofNat 21 w.written) (progressCopyLine p w.generation w.written) 0xFF

/-- Line, data and enables of the 40 line writes of FORMAT, in their order (R132). -/
def formatWrites (image : Layout) (base : Addr) : List (LineNo × LineData × ByteSet) :=
  let clean : ProgressContent := { state := .clean, postedAbandoned := 0, groupsAbandoned := 0, retiredThrough := 0 }
  [(0x000000, 0, 0x01), (0x000010, 0, 0x01), (lineOf base, 0, 0xFF), (lineOf base + 1, 0, 0xFF),
      (0x000020, progressCopyLine clean 1 0, 0xFF), (0x000021, progressCopyLine clean 1 1, 0xFF),
      (0x000022, progressCopyLine clean 2 0, 0xFF), (0x000023, progressCopyLine clean 2 1, 0xFF)] ++
    (List.range 16).map (fun i => (BitVec.ofNat 21 i, layoutCopyLine image 1 i, 0xFF)) ++
    (List.range 16).map (fun i => (BitVec.ofNat 21 (16 + i), layoutCopyLine image 2 i, 0xFF))

/-- The next line of the record that a group in JOURNALING or MARKING has to write: line `half` of line record `position`,
or of the commit record at the position after the last (R42, R47 to R49). -/
def recordLineOp (s : State) (q : Seq) (g : Group) (p : Phase) (r : Requester) (k : OpKind) : Option ArrayOp :=
  let write (x : JournalRecord) (position : Nat) : ArrayOp :=
    match s.engine.half with
    | .first =>
      freshOp r k (lineOf s.layout.settings.journalBase + BitVec.ofNat 21 (2 * position)) x.first 0xFF
    | .second =>
      freshOp r k (lineOf s.layout.settings.journalBase + BitVec.ofNat 21 (2 * position + 1)) x.second 0xFF
  match p with
  | .journaling =>
    (groupEntries s q)[s.engine.position]?.map (fun e => write (lineRecord q s.engine.position e) s.engine.position)
  | .marking => some (write (commitRecord q g.lineCount g.closeCause s.engine.runningCheck) g.lineCount)
  | .applying | .retiring => none

/-- What each requester asks for: the controller access, the posted drain, the journal engine and the control area writer
(R84). -/
structure RequestsOf (s : State) (r : Requests) : Prop where
  noAccess : (∀ h, s.access.held = some h → h.wait ≠ .grant) → r.controller = none
  read : ∀ h, s.access.held = some h → h.wait = .grant → opIsWrite h.access.op = false →
    r.controller = some (freshOp (.controllerRead h.access h.cls.window) .lineRead (lineOf h.access.address) 0 0)
  through : ∀ h, s.access.held = some h → h.wait = .grant → opIsWrite h.access.op = true →
    r.controller = some (freshOp (.throughWrite h.access h.cls.window) (writeKind h.cls.verify)
      (lineOf h.access.address) (accessData h.access) (accessBytes h.access))
  notServing : serving s = false → r.drain = none ∧ r.engine = none
  drain : serving s = true → r.drain = (drainChoice s).map (fun e =>
    freshOp (.postedDrain e.slot e.window e.lastWriter) (writeKind s.layout.windows[e.window].verify) e.line e.data
      e.valid)
  noPhase : s.engine.phase = none → r.engine = none
  records : ∀ q g p, serving s = true → Carries s q g p → p = .journaling ∨ p = .marking →
    r.engine = recordLineOp s q g p .journalRecord .verifiedWrite
  inPlace : ∀ q, serving s = true → s.engine.inCommit = some q → s.engine.phase = some .applying →
    r.engine = ((groupEntries s q).find? (fun e => e.state == .ready)).map (fun e =>
      freshOp (.inPlaceWrite e.slot e.window e.lastWriter) (writeKind s.layout.windows[e.window].verify) e.line e.data
        e.valid)
  retiring : serving s = true → s.engine.phase = some .retiring →
    r.engine = s.writer.copyWrite.map (copyLineOp .retiringProgress .verifiedWrite)
  format : ∀ f x, s.control.mode = .config ∨ s.control.mode = .unformatted → s.writer.format = some f →
    (formatWrites f.image f.journalBase)[f.written]? = some x →
    r.writer = some (freshOp (.formatLine f.written) .verifiedWrite x.1 x.2.1 x.2.2)
  storeLayout : s.control.mode = .config ∨ s.control.mode = .unformatted → s.writer.format = none →
    s.control.longCommand = some .storeLayout →
    r.writer = s.writer.copyWrite.map (fun w => copyLineOp (.storeLayoutLine w.written) .verifiedWrite w)
  noWriter : (s.control.mode ≠ .config ∧ s.control.mode ≠ .unformatted) ∨
      (s.writer.format = none ∧ s.control.longCommand ≠ some .storeLayout) → r.writer = none

/-- Between two handlings nothing waits that could go on: in RUN and HALTED, with a CLOSED group there is one in commit
(R35), and where the arbiter serves, a free port has no request before it (R85), unless a read held for a WRITING entry is due
to be taken anew (log 12). -/
structure NothingWaits (s : State) : Prop where
  groups : serving s = true → (∃ g ∈ s.groups.table, g.state = .closed) →
    ∃ g ∈ s.groups.table, groupInCommit g = true
  requests : serving s = true ∨ s.control.mode = .config ∨ s.control.mode = .unformatted → s.port.op = none →
    (∀ h, s.access.held = some h → h.wait = .writingEntry →
      ∃ e ∈ s.queue.entries, e.line = lineOf h.access.address ∧ e.state = .writing) →
    requestsOf s = { controller := none, drain := none, engine := none, writer := none }

/-! ## What the shutdown sequence does next -/

/-- The group in commit moves to another place of its commit, in the engine and in its record (R46). -/
structure MovesTo (s u : State) (q : Seq) (p : Phase) (position : Nat) (half : Half) : Prop where
  table : u.groups.table = s.groups.table.map (fun r =>
    if r.sequence = q then { r with state := .inPhase p, journalPosition := position } else r)
  engine : u.engine.inCommit = some q ∧ u.engine.phase = some p ∧ u.engine.position = position ∧ u.engine.half = half

/-- The requesters whose operations run in RUN and HALTED (R84). -/
def worksInRun : Requester → Bool
  | .controllerRead _ _ | .throughWrite _ _ | .postedDrain _ _ _ | .journalRecord | .inPlaceWrite _ _ _
  | .retiringProgress => true
  | .storeLayoutLine _ | .formatLine _ | .startRead _ | .scanRead _ _ | .replayWrite _ _ | .recoveryProgress _ _ _
  | .shutdownRecord | .shutdownDrain _ _ _ | .shutdownProgress _ => false

/-- The step that ended at entry to SHUTDOWN counts: what its requester takes of it, before the sequence goes on (R135, by
R15, R47 to R51 and R74): of the requesters whose operations run in RUN and HALTED. -/
def StepCounts (s : State) (op : ArrayOp) (u : State) : Prop :=
  let kept : Prop := u.groups.table = s.groups.table ∧ u.engine = s.engine
  let pending : Prop := u.engine.journalPending = s.engine.journalPending
  let knows : Prop := u.writer.newestProgress = s.writer.newestProgress ∧
    u.writer.progressGeneration = s.writer.progressGeneration ∧ u.writer.retiredThrough = s.writer.retiredThrough
  u.control = s.control ∧ u.shutdown = s.shutdown ∧ u.layout = s.layout ∧
    match op.requester with
    | .postedDrain k _ _ =>
      kept ∧ knows ∧ ((∃ e ∈ s.queue.entries, e.slot = k ∧ e.group = none ∧ e.state = .writing) →
        u.queue.entries = s.queue.entries.filter (fun x => decide (x.slot ≠ k)))
    | .journalRecord => knows ∧ ∀ q g p, Carries s q g p →
      (s.engine.half = .first → u.groups.table = s.groups.table ∧ u.engine = { s.engine with half := .second } ∧
        u.queue = s.queue) ∧
      (s.engine.half = .second → p = .journaling → u.queue = s.queue ∧ pending ∧
        (s.engine.position + 1 < g.lineCount → MovesTo s u q .journaling (s.engine.position + 1) .first) ∧
        (g.lineCount ≤ s.engine.position + 1 → MovesTo s u q .marking 0 .first ∧
          u.engine.runningCheck = ~~~s.engine.runningCheck)) ∧
      (s.engine.half = .second → p = .marking → MovesTo s u q .applying 0 .first ∧ u.engine.journalPending = true ∧
        u.queue.entries = s.queue.entries.map (fun e => if e.group = some q then { e with state := .ready } else e))
    | .inPlaceWrite k _ _ => knows ∧ pending ∧
      u.queue.entries = s.queue.entries.map (fun e => if e.slot = k then { e with state := .applied } else e) ∧
      ∀ q g, Carries s q g .applying →
        (s.engine.position + 1 < g.lineCount → MovesTo s u q .applying (s.engine.position + 1) .first) ∧
        (g.lineCount ≤ s.engine.position + 1 → MovesTo s u q .retiring 0 .first)
    | .retiringProgress => ∀ q g c p, Carries s q g .retiring → s.writer.copyWrite = some c → c.content = .progress p →
      (s.engine.half = .first → c.written = 0 → knows ∧ pending ∧ u.queue = s.queue ∧
        MovesTo s u q .retiring 1 .second) ∧
      (s.engine.half = .second → c.written = 1 →
        u.groups.table = s.groups.table.filter (fun r => decide (r.sequence ≠ q)) ∧
          u.queue.entries = s.queue.entries.filter (fun e => decide (e.group ≠ some q)) ∧
          u.engine = JournalEngine.idle false ∧ u.writer.newestProgress = some c.target ∧
          u.writer.progressGeneration = c.generation ∧ u.writer.retiredThrough = p.retiredThrough)
    | .controllerRead _ _ | .throughWrite _ _ => kept ∧ knows ∧ u.queue = s.queue
    | .storeLayoutLine _ | .formatLine _ | .startRead _ | .scanRead _ _ | .replayWrite _ _ | .recoveryProgress _ _ _
    | .shutdownRecord | .shutdownDrain _ _ _ | .shutdownProgress _ => True

/-- The budget and the entries of `v` decide the next write of stage DRAIN: one more entry, chosen as the posted drain would,
or the final copy, with the entries left freed and counted (R138, R139). -/
structure DrainGoesOn (v t : State) : Prop where
  next : ∀ e, 3 ≤ v.shutdown.budget → drainChoice v = some e →
    t.shutdown.stage = .drain ∧ t.shutdown.budget = v.shutdown.budget - 1 ∧ t.queue.entries =
      v.queue.entries.map (fun x => if x.slot = e.slot then { x with state := .writing } else x) ∧
    t.port.op = some { freshOp (.shutdownDrain e.slot e.window e.lastWriter) .maskedWrite e.line e.data e.valid with
      presented := true }
  final : v.shutdown.budget < 3 ∨ drainChoice v = none →
    let left := (v.queue.entries.filter (fun e => e.group.isNone)).length
    t.queue.entries = v.queue.entries.filter (fun e => e.group.isSome) ∧ t.shutdown.postedAbandoned = left ∧
      t.shutdown.budget = v.shutdown.budget - 1 ∧
      FinalCopyBegun v t
        { state := if left = 0 ∧ v.shutdown.groupsAbandoned = 0 then .clean else .short
          postedAbandoned := BitVec.ofNat 8 left
          groupsAbandoned := BitVec.ofNat 8 v.shutdown.groupsAbandoned
          retiredThrough := v.writer.retiredThrough }

/-- From `u`, with the port free, the group plan is made, and its first operation starts: a line of the record that a kept
group in JOURNALING or MARKING has to write, else a write of stage DRAIN or of the final copy (R135 to R139). -/
structure PlanFollows (u t : State) : Prop where
  mode : t.control.mode = .shutdown
  origin : t.shutdown.origin = .full
  table : t.groups.table = (planGroups u).groups.table
  plan : t.shutdown.plan = (planGroups u).shutdown.plan
  abandoned : t.shutdown.groupsAbandoned = (planGroups u).shutdown.groupsAbandoned
  pending : t.engine.journalPending = u.engine.journalPending
  engine : ∀ g ∈ u.groups.table, u.engine.inCommit = some g.sequence →
    (g ∈ t.groups.table → t.engine = u.engine) ∧
      (g ∉ t.groups.table → t.engine.inCommit = none ∧ t.engine.phase = none)
  group : ∀ q g p o, Carries u q g p → g ∈ t.groups.table →
    recordLineOp u q g p .shutdownRecord .maskedWrite = some o →
    t.shutdown.plan = some .continue ∧ t.shutdown.stage = .group ∧ t.shutdown.budget = u.shutdown.budget - 1 ∧
      t.queue.entries = (planGroups u).queue.entries ∧ t.port.op = some { o with presented := true }
  drain : t.shutdown.plan ≠ some .continue → DrainGoesOn (planGroups u) t

/-- The places of the global settings in their 128 bits, bytes 3 to 18 of a layout copy (6.2, R173). -/
structure SettingsAt (g : Settings) (v : BitVec 128) : Prop where
  capacityCode : g.capacityCode = v.extractLsb' 120 8
  journalBase : g.journalBase = v.extractLsb' 96 24
  lineLimit : g.lineLimit = v.extractLsb' 88 8
  stallLimit : g.stallLimit = v.extractLsb' 80 8
  arrayTimeout : g.arrayTimeout = v.extractLsb' 72 8
  budget : g.budget = v.extractLsb' 56 16
  defaultClass : g.defaultClass = v.extractLsb' 48 8
  autoRun : g.autoRun = v.extractLsb' 40 8
  class21 : g.reactions.class21 = v.extractLsb' 38 2
  class22 : g.reactions.class22 = v.extractLsb' 36 2
  class23 : g.reactions.class23 = v.extractLsb' 34 2
  class24 : g.reactions.class24 = v.extractLsb' 32 2
  class27 : g.reactions.class27 = v.extractLsb' 30 2
  class28 : g.reactions.class28 = v.extractLsb' 28 2
  class31 : g.reactions.class31 = v.extractLsb' 26 2
  class32 : g.reactions.class32 = v.extractLsb' 24 2
  arrayFailures : g.reactions.arrayFailures = v.extractLsb' 22 2
  sensitivity : ∀ i : Initiator, g.sensitivity[i] = v.extractLsb' (6 - 2 * i.val) 2

/-- The places of a window record's fields in its 64 bits (6.2, R173). -/
structure WindowAt (w : Window) (b : BitVec 64) : Prop where
  matchBits : w.matchBits = b.extractLsb' 40 21
  care : w.care = b.extractLsb' 16 21
  enabled : w.enabled = b.getLsbD 15
  cls : w.cls = b.extractLsb' 12 3
  verify : w.verify = b.getLsbD 11
  priority : w.priority = b.extractLsb' 8 2
  writers : w.writers = b.extractLsb' 0 4

/-- Every field of the layout lies in its range, and the journal area below capacity (R76, R77, R78). -/
structure InRange (l : Layout) : Prop where
  capacity : l.settings.capacityCode.toNat ≤ 8
  base : l.settings.journalBase.toNat % 0x200 = 0 ∧ 0x200 ≤ l.settings.journalBase.toNat
  area : l.settings.journalBase.toNat + 0x200 ≤ 65536 * 2 ^ l.settings.capacityCode.toNat
  lineLimit : 1 ≤ l.settings.lineLimit.toNat ∧ l.settings.lineLimit.toNat ≤ 24
  stallLimit : 1 ≤ l.settings.stallLimit.toNat
  arrayTimeout : 1 ≤ l.settings.arrayTimeout.toNat
  budget : 4 ≤ l.settings.budget.toNat ∧ l.settings.budget.toNat ≤ 4095
  flags : l.settings.defaultClass.toNat ≤ 1 ∧ l.settings.autoRun.toNat ≤ 1
  fences : ∀ c ∈ [l.settings.reactions.class21, l.settings.reactions.class22, l.settings.reactions.class23,
    l.settings.reactions.class24, l.settings.reactions.class27, l.settings.reactions.class28], c ≠ 3
  halts : ∀ c ∈ [l.settings.reactions.class31, l.settings.reactions.class32, l.settings.reactions.arrayFailures],
    c = 0 ∨ c = 2
  classes : ∀ i : WindowIndex, l.windows[i].cls.toNat ≤ 4

/-! ## Safe steps -/

/-- The step from this state answers a next state. -/
def StepsOn (s : State) : Prop :=
  ∃ t, step s = .next t

end Sys2Proof.Machine
end

