-- ==== Sys2Proof/Certificates/Slice0/Obligations.lean ====
section
/-! DEFINITION. The statements for the provers. -/

open Sys2Proof Sys2Proof.Machine

/-! ## The machine -/

/-- A step takes the command at the front of the queue and runs it on the rest. -/
def Obligations.StepRunsTheFrontCommand : Prop :=
  ∀ (c : Instr) (rest : List Instr) (s : State), step (s.setPending (c :: rest)) = exec c (s.setPending rest)

/-- On an empty queue a part without supply stays as it is; with supply the stamp counter counts one microsecond and a
session that sends clocks one byte out; STAMP_COUNTER_WRAP sets the stamp counter to 0 and changes nothing else: the
model's choice (logs 8 and 9). -/
def Obligations.TimeCountsTheStamp : Prop :=
  (∀ s : State, s.pending = [] →
    (s.powered = false → step s = .next s) ∧
    (s.powered = true → ∃ u : Session,
      step s = .next ((s.setRecorder { s.recorder with stamp := s.recorder.stamp + 1 }).setSession u) ∧
      (s.session.phase = .idle ∨ s.session.phase = .request → u = s.session) ∧
      (s.session.phase = .trailing → u = { s.session with byteCount := s.session.byteCount + 1 }) ∧
      (s.session.phase = .response →
        u.response = s.session.response.tail ∧ u.byteCount = s.session.byteCount + 1 ∧
          (u.phase = .trailing ↔ s.session.response.tail = []) ∧ u.trailingByte = s.session.trailingByte))) ∧
  (∀ s : State, s.powered = true →
    exec .stampCounterWrap s = .next (s.setRecorder { s.recorder with stamp := 0 }))

/-- After power-on every block holds its start value, the working layout the built-in default (R77), the control area writer
no knowledge (R98), and the first control-area read is in flight (R120). The levels of the lines and the memory's contents
are the model's choice (logs 2 and 3) and are not stated. -/
def Obligations.ResetHoldsTheStartValues : Prop :=
  let s := State.reset
  s.control = { mode := .starting, configRequest := false, handoverLoss := false, haltCause := none,
                longCommand := none, lastResult := none } ∧
    freeSlotCount s.queue = 32 ∧ s.queue.entries = [] ∧ s.queue.arrivalCounter = 0 ∧ s.queue.outstanding = 0 ∧
    s.queue.lossNote = false ∧
    s.groups = { table := [], nextSequence := 0, flushTarget := none } ∧
    s.engine = { inCommit := none, phase := none, position := 0, half := .first, runningCheck := 0xFFFFFFFF,
                 journalPending := false } ∧
    s.access.held = none ∧
    s.recovery = none ∧
    s.shutdown = { origin := .none, budget := 0, stage := .done, plan := none, postedAbandoned := 0,
                   groupsAbandoned := 0 } ∧
    (∀ i : Initiator, s.confinement[i] = { counter := 0, state := .clean, reported := .clean }) ∧
    s.recorder.incidents = [] ∧ s.recorder.overflow = false ∧ s.recorder.pendingEvents = EventSet.none ∧
    s.recorder.mask = EventSet.all ∧ s.recorder.stamp = 0 ∧ s.session.phase = .idle ∧
    readyOut s = false ∧ attnN s = true ∧
    s.layout = Layout.builtIn ∧
    s.layout.settings =
      { capacityCode := 0, journalBase := 0x200, lineLimit := 16, stallLimit := 10, arrayTimeout := 100, budget := 64
        defaultClass := 0, autoRun := 0
        reactions :=
          { class21 := 0, class22 := 0, class23 := 0, class24 := 0, class27 := 0, class28 := 0, class31 := 0
            class32 := 0, arrayFailures := 0 }
        sensitivity := #v[3, 3, 3, 3] } ∧
    (∀ i : WindowIndex, s.layout.windows[i] =
      { enabled := false, matchBits := 0, care := 0, cls := 0, verify := false, priority := 0, writers := 0 }) ∧
    s.writer =
      { newestLayout := none, layoutGeneration := 0, storedImage := none, newestProgress := none
        progressGeneration := 0, retiredThrough := 0, startState := .dirty, startPosted := 0, startGroups := 0
        copyWrite := none, format := none, formatIncomplete := false } ∧
    s.start = { lines := [], waiting := false } ∧
    (∃ op, s.port.op = some op ∧ op.kind = .lineRead ∧ op.line = 0) ∧ s.port.passOver = 0

/-- After power-on the bounds that `Sound` names hold, no entry is WRITING without an operation that carries it, and the
mode-dependent items agree with the mode. -/
def Obligations.InvariantsHoldAtReset : Prop :=
  Sound State.reset ∧ WritingCarried State.reset ∧ ModesAgree State.reset

/-- Every step keeps the bounds that `Sound` names: the canonical memory, an aligned held access, one entry per slot with a
valid set that is not empty and 0x00 outside it, at most 32 targets outstanding, 4 groups, 16 incidents, 35 start lines and 24
records of recovery, a pass-over count of at most 8, one to three attempts, a write with a byte enabled, the sequencer's budget
and counts, and counters of at most 511 with the standings they select. A group's line count and journal position, the engine's
record position and the number of OPEN groups and of groups in commit are not among them. With them every step keeps that each
WRITING entry is carried by the operation in flight (R3, R14, R50). -/
def Obligations.EveryStepKeepsSound : Prop :=
  ∀ s t : State, Sound s → step s = .next t → Sound t ∧ (WritingCarried s → WritingCarried t)

/-- Every step keeps what the modes allow (`ModesAgree`): a held access in RUN and HALTED alone and a held write in RUN
alone; a configuration request in RUN and HALTED alone, with REQUEST_CONFIG in flight and something left to wait for; an
empty queue and group table in STARTING, RECOVERING, UNFORMATTED and CONFIG; recovery in RECOVERING alone; an array operation
that belongs to the mode, one in flight throughout SHUTDOWN and none in ENDED. -/
def Obligations.EveryStepKeepsModesAgree : Prop :=
  ∀ s t : State, ModesAgree s → step s = .next t → ModesAgree t

/-- Every command answers a next state, but for a controller access to a line whose class code or default class names
no class; an access under a consistent layout always answers one. -/
def Obligations.EveryCommandAnswersANextState : Prop :=
  ∀ (c : Instr) (s : State),
    (∃ t, exec c s = .next t) ∨
      ((∃ a, c = .controllerAccess a) ∧ exec c s = .fault .reservedClass ∧ consistent s.layout = false)

/-- POWER_LOSS leaves the part without supply, READY low, ATTN_N released and MSDO at high impedance; without supply no
command but POWER_ON changes anything: the model's choice (logs 1, 6 and 22). -/
def Obligations.WithoutSupplyNothingHappens : Prop :=
  (∀ s : State, exec .powerLoss s = .next { s with powered := false }) ∧
  (∀ s : State, s.powered = false → readyOut s = false ∧ attnN s = true ∧ msdo s = none ∧
    ∀ c : Instr, (∀ p k m r, c ≠ .powerOn p k m r) → exec c s = .next s)

/-! ## Frames -/

/-- No command but ARRAY_READY and ARRAY_TIMEOUT changes a byte of the memory; none changes the queue of commands. That
POWER_LOSS is among them in every mode, so that a write step in progress at the loss of supply leaves its line as it was, is
the model's reading (log 6): R143 says it of SHUTDOWN and ENDED alone. -/
def Obligations.OnlyArrayStepsReachTheMemory : Prop :=
  ∀ (c : Instr) (s t : State), exec c s = .next t →
    t.pending = s.pending ∧
      ((∀ took, c ≠ .arrayReady took ∧ c ≠ .arrayTimeout took) → ∀ x : Addr, t.mem.read x = s.mem.read x)

/-- The end of a presented write step, in time or not, changes the enabled bytes of its line alone: with every bit of `took`
set they take the given data (R80). That a step, ended in time or not, leaves the new data in the bits of `took` alone, and
the old contents in the others, is the model's reading (log 5): R81 has written bytes read back and R83 allows any mixture
after a failure. Any other array event changes no byte, but for a failure of a copy write: the copy is not valid after it (R101),
and no byte outside the failed line changes. That its line holds what `took` says where that leaves the copy not valid, and
elsewhere another mixture of the new bytes and of those the line held at the grant (R83), is the model's reading (log 27), and
`lineBefore`, in which a grant keeps the latter, is its own item. A line that held the new bytes at the grant holds what `took`
says of them, and its copy is what the bytes make it: the model's choice (log 28). -/
def Obligations.ArrayStepsWriteTheEnabledBytes : Prop :=
  (∀ (took : LineData) (c : Instr) (s t : State), (c = .arrayReady took ∨ c = .arrayTimeout took) → s.powered = true →
    Sound s → exec c s = .next t →
    let landed (x : Addr) : Byte :=
      match s.port.op with
      | none => s.mem.read x
      | some op =>
        if op.presented = true ∧ op.step = .write ∧ lineOf x = op.line ∧ op.enables.getLsbD (lineOffset x) = true then
          (byteOf op.data (lineOffset x) &&& byteOf took (lineOffset x)) |||
            (s.mem.read x &&& ~~~(byteOf took (lineOffset x)))
        else s.mem.read x
    ((∀ op f, s.port.op = some op → CopyRequester op.requester → ¬FailsWith s op c f) →
      ∀ x : Addr, t.mem.read x = landed x) ∧
    (∀ op f, s.port.op = some op → CopyRequester op.requester → FailsWith s op c f →
      (f = .timeout ∨ s.control.mode ≠ .shutdown → ChangesTheCopy s op → CopyNotValid t.mem op.line) ∧
      (∀ x : Addr, lineOf x ≠ op.line → t.mem.read x = s.mem.read x) ∧
      (∀ m : Memory, (∀ x : Addr, m.read x = landed x) → CopyNotValid m op.line →
        ∀ x : Addr, t.mem.read x = landed x) ∧
      (s.lineBefore = op.data → ∀ x : Addr, t.mem.read x = landed x) ∧
      (∀ (x : Addr) (b : Nat), lineOf x = op.line → b < 8 →
        (t.mem.read x).getLsbD b = (byteOf op.data (lineOffset x)).getLsbD b ∨
          (t.mem.read x).getLsbD b = (byteOf s.lineBefore (lineOffset x)).getLsbD b ∨
          (t.mem.read x).getLsbD b = (s.mem.read x).getLsbD b))) ∧
  (∀ (s : State) (op : ArrayOp), (CopyRequester op.requester → (startOp s op).lineBefore = s.mem.readLine op.line) ∧
    (¬CopyRequester op.requester → (startOp s op).lineBefore = s.lineBefore))

/-- What the commands of the controller bus and of SCAN_B leave unchanged in RUN and HALTED: the layout, the control area
writer's knowledge, recovery, the start sequence and the shutdown sequencer, the session, the memory, the supply lines,
journal-pending, the event mask, the stamp counter, and the halt cause unless the part leaves RUN. -/
def Obligations.BusCommandsLeaveTheRest : Prop :=
  ∀ (c : Instr) (s t : State), serving s = true →
    ((∃ a, c = .controllerAccess a) ∨ c = .heldWriteTakenAnew ∨ c = .heldReadTakenAnew ∨ c = .stallLimitExpiry ∨
      c = .scanBRise) →
    exec c s = .next t →
    t.layout = s.layout ∧ t.writer = s.writer ∧ t.recovery = s.recovery ∧ t.start = s.start ∧
      t.shutdown = s.shutdown ∧ t.session = s.session ∧ t.powered = s.powered ∧ t.pending = s.pending ∧
      t.pins.pfwN = s.pins.pfwN ∧ t.pins.crstN = s.pins.crstN ∧ t.pins.mselN = s.pins.mselN ∧
      (∀ x : Addr, t.mem.read x = s.mem.read x) ∧ t.engine.journalPending = s.engine.journalPending ∧
      t.recorder.mask = s.recorder.mask ∧ t.recorder.stamp = s.recorder.stamp ∧
      (t.control.haltCause = s.control.haltCause ∨ (s.control.mode = .run ∧ t.control.mode ≠ .run))

/-! ## Supply -/

/-- POWER_ON with both supply lines high: start values, the memory as it was, the first control-area read begun; its
step is presented where the array ready input is asserted. With a supply line low the part passes to ENDED without an
array operation and stays there (R120, R134, R142). -/
def Obligations.PowerOnEntersStarting : Prop :=
  (∀ (mselN ready : Bool) (s : State),
    exec (.powerOn true true mselN ready) s = .next (startedFrom s mselN ready Session.idle)) ∧
  (∀ (pfwN crstN mselN ready : Bool) (s : State), (pfwN && crstN) = false →
    ∃ t, exec (.powerOn pfwN crstN mselN ready) s = .next t ∧ t.control.mode = .ended ∧ t.port.op = none ∧
      t.pins = { pfwN := pfwN, crstN := crstN, mselN := mselN, arrayReady := ready } ∧ t.mem = s.mem ∧
      t.recorder.incidents = [] ∧ t.recorder.pendingEvents.mode = true ∧ t.queue.entries = [] ∧
      t.layout = Layout.builtIn ∧ t.shutdown.stage = .done)

/-- A falling edge of PFW_N or CRST_N with an array operation in flight moves the part to SHUTDOWN and leaves the
operation in flight. -/
def Obligations.SupplyFallEntersShutdown : Prop :=
  ∀ (line : SupplyLine) (s : State), s.powered = true → lineLevel s line = true → s.port.op.isSome = true →
    s.control.mode ≠ .shutdown → s.control.mode ≠ .ended →
    ∃ t, exec (fallOf line) s = .next t ∧ ShutdownEntered s t ∧ lineLevel t line = false ∧
      lineLevel t (otherLine line) = lineLevel s (otherLine line) ∧
      (∀ l, s.control.longCommand = some l → l ≠ .restart →
        t.control.longCommand = none ∧ t.control.lastResult = some .abandoned ∧
          t.recorder.pendingEvents.commandDone = true) ∧
      (s.control.longCommand = none ∨ s.control.longCommand = some .restart →
        t.control.longCommand = s.control.longCommand ∧ t.control.lastResult = s.control.lastResult)

/-- With the array port free, a falling edge from STARTING, RECOVERING or UNFORMATTED takes the part to ENDED at once and
nothing is written (R142); from RUN or HALTED the sequence has its first operation in flight (R135 to R139); from CONFIG the
final CLEAN copy begins, or the part is in ENDED at once where FORMAT is incomplete or the budget below 2 (R141). -/
def Obligations.SupplyFallWithAFreePort : Prop :=
  ∀ (line : SupplyLine) (s : State), s.powered = true → lineLevel s line = true → s.port.op = none →
    (s.control.mode = .starting ∨ s.control.mode = .recovering ∨ s.control.mode = .unformatted →
      ∃ t, exec (fallOf line) s = .next t ∧ t.control.mode = .ended ∧ t.recorder.pendingEvents.mode = true ∧
        t.port.op = none ∧ lineLevel t line = false ∧ t.mem = s.mem ∧ NoIncident s t ∧ t.shutdown.stage = .done) ∧
    (serving s = true →
      ∃ t, exec (fallOf line) s = .next t ∧ t.control.mode = .shutdown ∧ t.shutdown.origin = .full ∧
        t.port.op.isSome = true ∧ lineLevel t line = false ∧ t.access.held = none ∧ t.mem = s.mem ∧ NoIncident s t) ∧
    (s.control.mode = .config →
      ∃ t, exec (fallOf line) s = .next t ∧ lineLevel t line = false ∧ t.mem = s.mem ∧ NoIncident s t ∧
        t.recorder.pendingEvents.mode = true ∧
        (s.writer.formatIncomplete = true ∨ s.layout.settings.budget.toNat < 2 → EndedAtRest t) ∧
        (s.writer.formatIncomplete = false → 2 ≤ s.layout.settings.budget.toNat →
          FinalCopyBegun s t (progressOf .clean s.writer.retiredThrough) ∧ t.shutdown.origin = .config ∧
            t.shutdown.budget = s.layout.settings.budget.toNat - 1))

/-- A falling edge in SHUTDOWN or ENDED changes the level of the line alone, but for the pass-over count, which is 0
there; in SHUTDOWN an operation is in flight between two handlings. A rise changes the level of the line alone, but in
ENDED the rise that leaves both supply lines high takes the part to STARTING in that handling; the session goes on (R134,
R143, R163). That LEAVE_ENDED outside ENDED acts as a rise of its line, and that a rise reported on a line already high has no
effect, is the model's choice (log 17). -/
def Obligations.SupplyEdgesInShutdownAndEnded : Prop :=
  (∀ (line : SupplyLine) (s : State), s.powered = true → lineLevel s line = true →
    (s.control.mode = .ended ∨ (s.control.mode = .shutdown ∧ s.port.op.isSome = true)) →
    exec (fallOf line) s = .next ((setLine s line false).setPort { s.port with passOver := 0 })) ∧
  (∀ (line : SupplyLine) (c : Instr) (s : State), c ∈ risesOf line → s.powered = true →
    (s.control.mode ≠ .ended ∨ lineLevel s (otherLine line) = false) →
    exec c s = .next (setLine s line true)) ∧
  (∀ (line : SupplyLine) (c : Instr) (s : State), c ∈ risesOf line → s.powered = true → s.control.mode = .ended →
    lineLevel s line = false → lineLevel s (otherLine line) = true →
    exec c s = .next (startedFrom s s.pins.mselN s.pins.arrayReady s.session))

/-! ## Array port -/

/-- An assertion of ready with no operation in flight stays asserted; one that a waiting step needs presents the step and
is taken up by it (R82, log 7). Outside SHUTDOWN the write step of a verified write is followed by its read-back step, and a
read-back that finds an enabled byte different by the next attempt while fewer than 3 have been made, with the same data
and enables (R81); the next step is presented at once. -/
def Obligations.StepsFollowTheReadyLine : Prop :=
  (∀ (took : LineData) (s : State), s.powered = true →
    (s.port.op = none → exec (.arrayReady took) s = .next (s.setPins { s.pins with arrayReady := true })) ∧
    (∀ op, s.port.op = some op → op.presented = false →
      exec (.arrayReady took) s =
        .next ((s.setPins { s.pins with arrayReady := false }).setPort
          { s.port with op := some { op with presented := true } }))) ∧
  (∀ (took : LineData) (s : State) (op : ArrayOp), s.powered = true → s.port.op = some op → op.presented = true →
    s.control.mode ≠ .shutdown → op.kind = .verifiedWrite →
    (op.step = .write → ∃ t, exec (.arrayReady took) s = .next t ∧
      t.port.op = some { op with step := .readBack } ∧ t.pins.arrayReady = false) ∧
    (op.step = .readBack → op.attempt < 3 →
      (∃ n < 8, op.enables.getLsbD n = true ∧ s.mem.read (byteAddress op.line n) ≠ byteOf op.data n) →
      ∃ t, exec (.arrayReady took) s = .next t ∧
        t.port.op = some { op with attempt := op.attempt + 1, step := .write } ∧ t.pins.arrayReady = false ∧
        NoIncident s t))

/-- A drain write that completes removes its entry: the slot becomes FREE, the entry leaves the age list, the order of
the others stays, and a marked entry counts off one target of the FLUSH (R15). The last target completes the FLUSH whose
group part is complete, DONE or DONE_WITH_LOSS (R19, R119), and the last entry completes the handover (R114). With no handover
in progress the freed port is then given to the arbiter, with the entry gone (R83, R85). A drain write whose entry has been
freed removes nothing (R18). -/
def Obligations.DrainWriteRemovesItsEntry : Prop :=
  (∀ (took : LineData) (s : State) (op : ArrayOp) (e : Entry) (w : WindowIndex) (i : Initiator), s.powered = true →
    Sound s → serving s = true → Completes s op → op.requester = .postedDrain e.slot w i →
    e ∈ s.queue.entries → e.group = none → e.state = .writing →
    ∃ t, exec (.arrayReady took) s = .next t ∧
      t.queue.entries.map Entry.slot = (s.queue.entries.map Entry.slot).filter (fun k => k != e.slot) ∧
      t.queue.outstanding = (if e.flushMark then s.queue.outstanding - 1 else s.queue.outstanding) ∧
      t.queue.lossNote = s.queue.lossNote ∧ NoIncident s t ∧
      (s.control.configRequest = false → s.control.longCommand = some .flush →
        (t.queue.outstanding = 0 → s.groups.flushTarget = none → FlushCompleted s t s.queue.lossNote) ∧
        (t.queue.outstanding ≠ 0 ∨ s.groups.flushTarget.isSome = true → t.control = s.control)) ∧
      (s.control.configRequest = false → ∃ u : State, t = drivePort u ∧ u.port.op = none ∧
        u.pins = { s.pins with arrayReady := true } ∧ u.control.mode = s.control.mode ∧ u.access = s.access ∧
        u.layout = s.layout ∧
        u.queue.entries = s.queue.entries.filter (fun x => decide (x.slot ≠ e.slot)) ∧
        u.port.passOver = (if drainChoice u = none then 0 else s.port.passOver) ∧
        ((∃ g ∈ s.groups.table, groupInCommit g = true) → u.groups.table = s.groups.table ∧ u.engine = s.engine)) ∧
      (s.control.configRequest = true → s.groups.table = [] → s.queue.entries = [e] →
        HandoverCompleted s t s.control.handoverLoss)) ∧
  (∀ (took : LineData) (s : State) (op : ArrayOp) (k : Fin 32) (w : WindowIndex) (i : Initiator), s.powered = true →
    Completes s op → op.requester = .postedDrain k w i → serving s = true ∨ s.control.mode = .config ∨
      s.control.mode = .recovering →
    (∀ e ∈ s.queue.entries, e.slot = k → e.group = none → e.state ≠ .writing) →
    ∃ t, exec (.arrayReady took) s = .next t ∧ NoIncident s t ∧
      t.queue.entries.map Entry.slot = s.queue.entries.map Entry.slot ∧ t.queue.outstanding = s.queue.outstanding ∧
      t.queue.lossNote = s.queue.lossNote ∧ (serving s = false → t.queue = s.queue ∧ t.control = s.control))

/-- A drain write that times out, or still differs after its third attempt, removes its entry all the same, with 41/413
or 42/423 recorded and a loss noted for a marked entry (R16). The last target completes the FLUSH whose group part is
complete, with the loss (R19, R119), and the last entry completes the handover with a loss (R114). One that is not the last of
a handover sets the handover loss note, and the handover goes on (R114). A HALT reaction takes RUN to HALTED and leaves HALTED
and its halt cause as they are, with a handover in progress too (R110). Of a drain write whose entry has been freed the incident
is recorded all the same, and no entry is removed (R18). That the incident is recorded, and shows its HALT, before the handover
completes in the same handling is the model's reading (log 13). -/
def Obligations.FailedDrainWriteRemovesItsEntry : Prop :=
  (∀ (took : LineData) (c : Instr) (d : Detail) (s : State) (op : ArrayOp) (e : Entry) (w : WindowIndex)
    (i : Initiator), s.powered = true → Sound s → serving s = true → s.port.op = some op →
    op.requester = .postedDrain e.slot w i → e ∈ s.queue.entries → e.group = none → e.state = .writing →
    ((c = .arrayTimeout took ∧ d = .d413) ∨
      (c = .arrayReady took ∧ d = .d423 ∧ op.kind = .verifiedWrite ∧ op.step = .readBack ∧ op.presented = true ∧
        op.attempt = 3 ∧
        ∃ n < 8, op.enables.getLsbD n = true ∧ s.mem.read (byteAddress op.line n) ≠ byteOf op.data n)) →
    ∃ t, exec c s = .next t ∧
      Records s t { detail := d, initiator := some i, address := some (lineAddress op.line), window := some w }
        (reactionTaken s d) ∧
      t.queue.entries.map Entry.slot = (s.queue.entries.map Entry.slot).filter (fun k => k != e.slot) ∧
      t.queue.outstanding = (if e.flushMark then s.queue.outstanding - 1 else s.queue.outstanding) ∧
      t.queue.lossNote = (s.queue.lossNote || e.flushMark) ∧
      (s.control.configRequest = false → s.control.longCommand = some .flush →
        (t.queue.outstanding = 0 → s.groups.flushTarget = none →
          FlushCompleted s t (s.queue.lossNote || e.flushMark)) ∧
        (t.queue.outstanding ≠ 0 ∨ s.groups.flushTarget.isSome = true →
          t.control.longCommand = some .flush ∧ t.control.lastResult = s.control.lastResult)) ∧
      (s.control.configRequest = false ∨ s.groups.table ≠ [] ∨ s.queue.entries ≠ [e] →
        HaltCarriedOut s t d (reactionTaken s d) ∧
          t.control.handoverLoss = (s.control.handoverLoss || s.control.configRequest)) ∧
      (s.control.configRequest = true → s.groups.table = [] → s.queue.entries = [e] → HandoverCompleted s t true)) ∧
  (∀ (c : Instr) (f : Failure) (s : State) (op : ArrayOp) (k : Fin 32) (w : WindowIndex) (i : Initiator),
    s.powered = true → s.port.op = some op → FailsWith s op c f → op.requester = .postedDrain k w i →
    serving s = true ∨ s.control.mode = .config ∨ s.control.mode = .recovering →
    (∀ e ∈ s.queue.entries, e.slot = k → e.group = none → e.state ≠ .writing) →
    let d := f.detail .d413 .d423
    ∃ t, exec c s = .next t ∧
      Records s t { detail := d, initiator := some i, address := some (lineAddress op.line), window := some w }
        (reactionTaken s d) ∧
      t.queue.entries.map Entry.slot = s.queue.entries.map Entry.slot ∧ t.queue.outstanding = s.queue.outstanding ∧
      t.queue.lossNote = s.queue.lossNote ∧ (serving s = false → t.queue = s.queue ∧ t.control = s.control))

/-- The line read of a held read completes: the read is answered DONE with the requested bytes, each from the newest
entry of the line that carries it, or from the array where none does (R12). With a timeout it is refused with 41/411, its
reaction is carried out, and the queue keeps its entries; the read is not counted (R12, R71). The line read of a read that is
no longer held ends without effect and records nothing, in CONFIG and RECOVERING, and in SHUTDOWN but for a start that follows in
the same handling (R74, R143). -/
def Obligations.LineReadAnswersTheHeldRead : Prop :=
  (∀ (took : LineData) (s : State) (op : ArrayOp) (a : Access) (w : Option WindowIndex) (h : Held),
    s.powered = true → Sound s → serving s = true → Completes s op → op.kind = .lineRead →
    op.requester = .controllerRead a w → s.access.held = some h → h.wait = .operation → h.access = a →
    op.line = lineOf a.address →
    ∃ t bytes, exec (.arrayReady took) s = .next t ∧ t.access = { held := none, answer := some (.done bytes) } ∧
      t.mem = s.mem ∧ bytes.length = opBytes a.op ∧
      ∀ i < opBytes a.op, bytes[i]? = some
        (match ((s.queue.entries.filter (fun e => e.line == lineOf a.address)).filter
            (fun e => e.valid.getLsbD (lineOffset a.address + i))).getLast? with
        | some e => byteOf e.data (lineOffset a.address + i)
        | none => s.mem.read (byteAddress (lineOf a.address) (lineOffset a.address + i)))) ∧
  (∀ (took : LineData) (s : State) (op : ArrayOp) (a : Access) (w : Option WindowIndex) (h : Held),
    s.powered = true → serving s = true → s.port.op = some op → op.requester = .controllerRead a w →
    s.access.held = some h → h.wait = .operation → h.access = a →
    ∃ t, exec (.arrayTimeout took) s = .next t ∧ t.access = { held := none, answer := some .refuse } ∧
      Records s t { detail := .d411, initiator := some a.initiator, address := some a.address, window := w }
        (reactionTaken s .d411) ∧
      t.queue.entries.map Entry.slot = s.queue.entries.map Entry.slot ∧
      (reactionTaken s .d411 ≠ .fence → t.confinement = s.confinement) ∧
      (s.control.configRequest = false →
        (reactionTaken s .d411 = .halt → t.control.mode = .halted ∧
          (s.control.mode = .run → t.control.haltCause = some .d411)) ∧
        (reactionTaken s .d411 ≠ .halt → t.control.mode = s.control.mode))) ∧
  (∀ (took : LineData) (c : Instr) (s : State) (op : ArrayOp) (a : Access) (w : Option WindowIndex),
    s.powered = true → s.port.op = some op → op.requester = .controllerRead a w →
    s.access.held = none → c = .arrayTimeout took ∨ (c = .arrayReady took ∧ op.kind = .lineRead ∧ op.presented = true) →
    let noEffect (t : State) : Prop := t.access = s.access ∧ t.confinement = s.confinement ∧ NoIncident s t
    (serving s = true ∨ s.control.mode = .config ∨ s.control.mode = .recovering →
      ∃ t, exec c s = .next t ∧ noEffect t ∧ t.queue.entries.map Entry.slot = s.queue.entries.map Entry.slot ∧
        (serving s = false → t.control = s.control)) ∧
    (s.control.mode = .shutdown →
      ∃ t, exec c s = .next t ∧ ((supplyGood s = true ∧ t.control.mode = .starting) ∨ noEffect t)))

/-- The operation of a THROUGH write completes: the write is answered DONE and counted as accepted. With a timeout it is
refused with 41/412, with a third read-back that differs with 42/422, and not counted (R73). Of a write that is no longer held
such a failure is recorded all the same (R74). -/
def Obligations.ThroughWriteEndsWithItsOperation : Prop :=
  (∀ (took : LineData) (s : State) (op : ArrayOp) (a : Access) (w : Option WindowIndex) (h : Held),
    s.powered = true → s.control.mode = .run → s.port.op = some op → op.requester = .throughWrite a w →
    s.access.held = some h → h.wait = .operation → h.access = a →
    (Completes s op → ∃ t, exec (.arrayReady took) s = .next t ∧ WriteDone s t a) ∧
    ∀ (c : Instr) (f : Failure), FailsWith s op c f →
      let d := f.detail .d412 .d422
      ∃ t, exec c s = .next t ∧ t.access = { held := none, answer := some .refuse } ∧
        Records s t { detail := d, initiator := some a.initiator, address := some a.address, window := w }
          (reactionTaken s d) ∧
        (reactionTaken s d ≠ .fence → t.confinement = s.confinement) ∧
        (s.control.configRequest = false → reactionTaken s d = .halt →
          t.control.mode = .halted ∧ t.control.haltCause = some d)) ∧
  (∀ (c : Instr) (f : Failure) (s : State) (op : ArrayOp) (a : Access) (w : Option WindowIndex), s.powered = true →
    s.control.mode ≠ .shutdown → s.port.op = some op → op.requester = .throughWrite a w → s.access.held = none →
    FailsWith s op c f →
    let d := f.detail .d412 .d422
    ∃ t, exec c s = .next t ∧ t.access = s.access ∧
      Records s t { detail := d, initiator := some a.initiator, address := some a.address, window := w }
        (reactionTaken s d) ∧
      (reactionTaken s d ≠ .fence → t.confinement = s.confinement))

/-- The lines of a commit advance the group (R47, R48, R50, R51). The first line of a record sets the half to SECOND; the
second, in JOURNALING, moves to the next record or begins MARKING; in MARKING it makes the group durable: journal-pending is
set, APPLYING begins at record position 0, and no entry of the group stays HELD (R49). An in-place write leaves its entry
APPLIED and moves on, after the last entry to RETIRING, whose progress copy then begins. The running check takes in the 16
bytes of each line record and is complemented after the last (R45); that it takes a record in as soon as the record is the next
to write is the model's timing (log 23). -/
def Obligations.CommitRecordMakesTheGroupDurable : Prop :=
  (∀ (took : LineData) (s : State) (op : ArrayOp) (q : Seq) (g : Group), s.powered = true → serving s = true →
    Completes s op → op.requester = .journalRecord → s.engine.phase = some .marking → s.engine.half = .second →
    s.engine.inCommit = some q → groupOf s q = some g →
    ∃ t, exec (.arrayReady took) s = .next t ∧ t.engine.journalPending = true ∧ t.engine.phase = some .applying ∧
      t.engine.inCommit = some q ∧ t.engine.position = 0 ∧
      (∃ r ∈ t.groups.table, r.sequence = q ∧ r.state = .inPhase .applying ∧ r.journalPosition = 0) ∧
      ∀ e ∈ t.queue.entries, e.group = some q → e.state = .ready ∨ e.state = .writing) ∧
  (∀ (took : LineData) (s : State) (op : ArrayOp) (q : Seq) (g : Group) (p : Phase), s.powered = true →
    serving s = true → Completes s op → Carries s q g p → op.requester = .journalRecord →
    g.journalPosition = s.engine.position →
    ∃ t, exec (.arrayReady took) s = .next t ∧ NoIncident s t ∧
      (s.engine.half = .first → AtStep t q p s.engine.position .second) ∧
      (s.engine.half = .second → p = .journaling →
        (s.engine.position + 1 < g.lineCount → AtStep t q .journaling (s.engine.position + 1) .first ∧
          ∀ e, (groupEntries s q)[s.engine.position + 1]? = some e →
            t.engine.runningCheck =
              crc32Update s.engine.runningCheck (recordBytes (lineRecord q (s.engine.position + 1) e))) ∧
        (g.lineCount ≤ s.engine.position + 1 →
          AtStep t q .marking 0 .first ∧ t.engine.runningCheck = ~~~s.engine.runningCheck))) ∧
  (∀ (took : LineData) (s : State) (op : ArrayOp) (q : Seq) (g : Group) (e : Entry) (w : WindowIndex) (i : Initiator),
    s.powered = true → Sound s → serving s = true → Completes s op → Carries s q g .applying →
    op.requester = .inPlaceWrite e.slot w i → e ∈ s.queue.entries → e.group = some q → s.engine.half = .first →
    ∃ t, exec (.arrayReady took) s = .next t ∧ NoIncident s t ∧
      (∃ x ∈ t.queue.entries, x = { e with state := .applied }) ∧
      (s.engine.position + 1 < g.lineCount → AtStep t q .applying (s.engine.position + 1) .first) ∧
      (g.lineCount ≤ s.engine.position + 1 →
        AtStep t q .retiring 0 .first ∧ CopyBegun s t (progressOf .dirty q)))

/-- The first line of the retiring progress copy leaves the copy with one line written and the record position at 1, half
SECOND (R47, R51, R100). The second line retires the group: its record leaves the table, its entries leave the queue,
journal-pending is cleared, retired-through takes the copy's value, and a flush target on it is met (R38, R51): the FLUSH
completes if its posted part is complete (R32, R119). With the last record and the last entries gone the handover completes
(R114). The engine then takes the oldest CLOSED group into JOURNALING, and holds none where there is none (R35). -/
def Obligations.SecondRetiringLineRetiresTheGroup : Prop :=
  (∀ (took : LineData) (s : State) (op : ArrayOp) (q : Seq) (g : Group) (c : CopyWrite) (p : ProgressContent),
    s.powered = true → serving s = true → Completes s op → op.requester = .retiringProgress →
    s.engine.half = .first → Carries s q g .retiring → s.writer.copyWrite = some c → c.content = .progress p →
    c.written = 0 →
    ∃ t, exec (.arrayReady took) s = .next t ∧ NoIncident s t ∧ AtStep t q .retiring 1 .second ∧
      t.writer = { s.writer with copyWrite := some { c with written := 1 } }) ∧
  (∀ (took : LineData) (s : State) (op : ArrayOp) (q : Seq) (c : CopyWrite) (p : ProgressContent),
    s.powered = true → serving s = true → Completes s op → op.requester = .retiringProgress →
    s.engine.half = .second → s.engine.inCommit = some q → s.writer.copyWrite = some c → c.content = .progress p →
    c.written = 1 →
    ∃ t, exec (.arrayReady took) s = .next t ∧ (∀ r ∈ t.groups.table, r.sequence ≠ q) ∧
      (∀ e ∈ t.queue.entries, e.group ≠ some q) ∧ t.engine.journalPending = false ∧
      t.writer.retiredThrough = p.retiredThrough ∧ t.writer.newestProgress = some c.target ∧
      t.writer.progressGeneration = c.generation ∧ t.writer.copyWrite.isSome = false ∧
      (s.groups.flushTarget = some q → t.groups.flushTarget = none) ∧
      (s.control.configRequest = false → s.control.longCommand = some .flush → s.groups.flushTarget = some q →
        (s.queue.outstanding = 0 → FlushCompleted s t s.queue.lossNote) ∧
        (s.queue.outstanding ≠ 0 → t.control = s.control)) ∧
      (s.control.configRequest = true → (∀ r ∈ s.groups.table, r.sequence = q) →
        (∀ e ∈ s.queue.entries, e.group = some q) → HandoverCompleted s t s.control.handoverLoss) ∧
      OldestTaken (s.groups.table.filter (fun r => decide (r.sequence ≠ q))) t ∧
      ((∀ r ∈ s.groups.table, r.sequence ≠ q → r.state ≠ .closed) →
        t.engine.inCommit = none ∧ t.engine.phase = none ∧ t.engine.position = 0 ∧ t.engine.half = .first))

/-- A failure of the journal engine: 41/414 or 42/424 for a line of a record (R53), 41/415 or 42/425 for an in-place write,
whose entry is READY again (R54), 41/416 or 42/426 for a line of the retiring copy, whose copy write ends and whose target copy
is not valid (R55, R101; over the same bytes log 28); the incident shows HALT. With no configuration request pending the group
is STALLED in its phase with its position kept (R37): in RUN the part enters HALTED with that incident as halt cause, and in
HALTED it stays there with the halt cause it had (R110). With a request pending the handover takes its abandon path: 61/611 and
61/612 with the numbers of entries freed, CONFIG, DONE_WITH_LOSS (R56, R115). -/
def Obligations.JournalTimeoutStallsAndHalts : Prop :=
  ∀ (c : Instr) (f : Failure) (s : State) (op : ArrayOp) (q : Seq) (g : Group) (p : Phase), s.powered = true →
    Sound s → serving s = true → s.port.op = some op → FailsWith s op c f →
    s.engine.inCommit = some q → s.engine.phase = some p → groupOf s q = some g →
    let report (d : Detail) (i : Option Initiator) (w : Option WindowIndex) : Report :=
      { detail := d, initiator := i, address := some (lineAddress op.line), window := w, sequence := some q
        count := some (BitVec.ofNat 32 s.engine.position) }
    let stalled (t : State) (d : Detail) : Prop :=
      t.control.mode = .halted ∧
        (s.control.mode = .run →
          t.control.haltCause = some d ∧ t.recorder.pendingEvents.mode = true ∧ openGroup t = none) ∧
        (s.control.mode = .halted →
          t.control.haltCause = s.control.haltCause ∧
            t.recorder.pendingEvents.mode = s.recorder.pendingEvents.mode) ∧
        (∃ r ∈ t.groups.table, r.sequence = q ∧ r.state = .stalled p ∧ r.journalPosition = g.journalPosition) ∧
        t.engine.inCommit = some q ∧ t.engine.phase = none ∧
        t.engine.position = s.engine.position ∧ t.engine.half = s.engine.half
    let fails (t : State) (d : Detail) (i : Option Initiator) (w : Option WindowIndex) : Prop :=
      Records s t (report d i w) .halt ∧ t.engine.journalPending = s.engine.journalPending ∧
        t.writer.newestProgress = s.writer.newestProgress ∧ t.writer.retiredThrough = s.writer.retiredThrough ∧
        (s.control.configRequest = false → stalled t d) ∧
        (s.control.configRequest = true →
          HandoverCompleted s t true ∧ t.control.haltCause = s.control.haltCause ∧ t.groups.table = [] ∧
            t.groups.flushTarget = none ∧ t.queue.entries = [] ∧ t.engine.inCommit = none ∧ t.engine.phase = none ∧
            t.groups.nextSequence = s.groups.nextSequence ∧
            (s.recorder.incidents.length < 14 →
              t.recorder.incidents = s.recorder.incidents ++
                [(report d i w, Reaction.halt),
                  ({ detail := .d611
                     count := some (BitVec.ofNat 32 (s.queue.entries.filter (fun e => e.group.isNone)).length) }, .none),
                  ({ detail := .d612
                     count := some (BitVec.ofNat 32 (s.queue.entries.filter (fun e => e.group.isSome)).length) },
                    .none)].map (fun x => { report := x.1, stamp := s.recorder.stamp, reaction := x.2 })))
    (op.requester = .journalRecord → ∃ t, exec c s = .next t ∧ fails t (f.detail .d414 .d424) none none) ∧
    (∀ (e : Entry) (w : WindowIndex) (i : Initiator), op.requester = .inPlaceWrite e.slot w i →
      e ∈ s.queue.entries → e.group = some q →
      ∃ t, exec c s = .next t ∧ fails t (f.detail .d415 .d425) (some i) (some w) ∧
        (s.control.configRequest = false → ∃ x ∈ t.queue.entries, x = { e with state := .ready })) ∧
    (op.requester = .retiringProgress →
      ∃ t, exec c s = .next t ∧ fails t (f.detail .d416 .d426) none none ∧ t.writer.copyWrite = none ∧
        (ChangesTheCopy s op → CopyNotValid t.mem op.line))

/-! ## Start -/

/-- A control-area read before the thirty-sixth that completes is kept behind those before it, and the read of the next line
starts at once: layout copy A, layout copy B, progress copy A, progress copy B, which are the first 36 lines in their order
(R93, R121). The thirty-sixth control-area read ends the start sequence: the writer's knowledge and the working layout come from
the newest valid copies, the start report among it (R98); the mode becomes UNFORMATTED where a pair has none, RECOVERING
otherwise, and CONFIG where the loaded layout is inconsistent (R122, R124). The start notices whose conditions hold are
recorded in the order of their table, with reaction NONE (R123), and after them 51/512 for an inconsistent layout (R124); the
list takes them up to 16 records, and the rest set the overflow flag. -/
def Obligations.StartSequenceChoosesTheMode : Prop :=
  (∀ (took : LineData) (s : State) (op : ArrayOp) (n : Nat), s.powered = true → s.control.mode = .starting →
    Completes s op → op.kind = .lineRead → op.requester = .startRead n → s.start.lines.length < 35 →
    s.start.waiting = false →
    let read := s.start.lines.length + 1
    ∃ t, exec (.arrayReady took) s = .next t ∧ t.control = s.control ∧ NoIncident s t ∧ t.mem = s.mem ∧
      t.layout = s.layout ∧ t.writer = s.writer ∧
      t.start = { lines := s.start.lines ++ [s.mem.readLine op.line], waiting := false } ∧
      t.port.op = some
        { freshOp (.startRead read) .lineRead (BitVec.ofNat 21 read) 0 0 with presented := true }) ∧
  (∀ (took : LineData) (s : State) (op : ArrayOp) (n : Nat), s.powered = true → s.control.mode = .starting →
    Completes s op → op.kind = .lineRead → op.requester = .startRead n → s.start.lines.length = 35 →
    s.writer.newestLayout = none → s.writer.newestProgress = none → s.writer.storedImage = none →
    s.recorder.incidents.length ≤ 16 →
    let c := copiesOf (s.start.lines ++ [s.mem.readLine op.line])
    let pair (a b : Bool) (neither one : Detail) (addressA addressB : Addr) : List Report :=
      match a, b with
      | true, true => []
      | true, false => [{ detail := one, address := some addressB }]
      | false, true => [{ detail := one, address := some addressA }]
      | false, false => [{ detail := neither }]
    let previousRun : List Report :=
      match newestProgressOf c with
      | none => []
      | some n =>
        let x := progressOfCopy (c.progress n)
        match x.state with
        | .dirty => [{ detail := .d530, sequence := some x.retiredThrough }]
        | .clean | .short =>
          (if x.state = .short ∧ x.postedAbandoned ≠ 0 then
            [{ detail := .d540, count := some (x.postedAbandoned.setWidth 32), sequence := some x.retiredThrough }]
          else []) ++
          (if x.groupsAbandoned ≠ 0 then
            [{ detail := .d550, count := some (x.groupsAbandoned.setWidth 32), sequence := some x.retiredThrough }]
          else [])
    let inconsistent : List Report :=
      match newestLayoutOf c, newestProgressOf c with
      | some l, some _ =>
        if consistent (layoutOfCopy (c.layout l)) then []
        else [{ detail := .d512, address := some (match l with | .a => 0x000000 | .b => 0x000080) }]
      | _, _ => []
    let notices : List Incident :=
      (pair (layoutValid c.layoutA) (layoutValid c.layoutB) .d510 .d511 0x000000 0x000080 ++
        pair (progressValid c.progressA) (progressValid c.progressB) .d520 .d521 0x000100 0x000110 ++
        previousRun ++ inconsistent).map (fun x => { report := x, stamp := s.recorder.stamp, reaction := .none })
    ∃ t, exec (.arrayReady took) s = .next t ∧ t.recorder.pendingEvents.mode = true ∧ t.start.lines = [] ∧
      (∀ l, newestLayoutOf c = some l →
        t.layout = layoutOfCopy (c.layout l) ∧ t.writer.newestLayout = some l ∧
          t.writer.layoutGeneration = layoutGenerationOf (c.layout l) ∧ t.writer.storedImage = some t.layout) ∧
      (∀ p, newestProgressOf c = some p →
        t.writer.newestProgress = some p ∧ t.writer.progressGeneration = progressGenerationOf (c.progress p) ∧
          t.writer.retiredThrough = (progressOfCopy (c.progress p)).retiredThrough ∧
          t.writer.startState = (progressOfCopy (c.progress p)).state ∧
          t.writer.startPosted = (progressOfCopy (c.progress p)).postedAbandoned ∧
          t.writer.startGroups = (progressOfCopy (c.progress p)).groupsAbandoned) ∧
      (newestLayoutOf c = none → t.layout = s.layout ∧ t.writer.newestLayout = none) ∧
      (newestProgressOf c = none → t.writer.newestProgress = none ∧ t.writer.startState = s.writer.startState ∧
        t.writer.startPosted = s.writer.startPosted ∧ t.writer.startGroups = s.writer.startGroups) ∧
      t.recorder.incidents = (s.recorder.incidents ++ notices).take 16 ∧
      t.recorder.overflow = (s.recorder.overflow || decide (16 < s.recorder.incidents.length + notices.length)) ∧
      t.recorder.pendingEvents.fault = (s.recorder.pendingEvents.fault || !notices.isEmpty) ∧
      t.control.mode =
        (if newestLayoutOf c = none ∨ newestProgressOf c = none then .unformatted
         else if consistent t.layout then .recovering else .config))

/-- A control-area read that times out records 41/417 with its line's address and the lines read before it; the bytes
read are dropped and the retry wait begins, the mode staying STARTING. The retry reads again from layout copy A (R121). -/
def Obligations.StartReadTimeoutIsRetried : Prop :=
  (∀ (took : LineData) (s : State) (op : ArrayOp) (n : Nat), s.powered = true → s.control.mode = .starting →
    s.port.op = some op → op.requester = .startRead n →
    ∃ t, exec (.arrayTimeout took) s = .next t ∧ t.control = s.control ∧ t.port.op = none ∧
      t.start = { lines := [], waiting := true } ∧ t.recorder.stamp = s.recorder.stamp ∧
      Records s t
        { detail := .d417, address := some (lineAddress op.line), count := some (BitVec.ofNat 32 n) } .record) ∧
  (∀ s : State, s.powered = true → s.control.mode = .starting → s.start.waiting = true → s.port.op = none →
    exec .startReadRetry s = .next
      (((s.setStart { lines := [], waiting := false }).setPins { s.pins with arrayReady := false }).setPort
        { op := some
            { requester := .startRead 0, kind := .lineRead, line := 0, data := 0, enables := 0, attempt := 1,
              step := .read, presented := s.pins.arrayReady }
          passOver := 0 }))

/-- A line of STORE_LAYOUT or FORMAT before the last counts as written, and the next one starts: the lines of the composed
copy in their order (R100, R103), or FORMAT's 40 lines (R132); nothing else of the writer's knowledge changes. The last line of
a work of many lines completes it. The fortieth line of FORMAT: the writer knows both pairs anew,
journal-pending is clear, the next sequence is 1, and the mode is CONFIG (R132). The sixteenth line of STORE_LAYOUT: the copy
is the newest, the stored image the one composed (R100, R103). The second line of recovery's final progress copy: the next
sequence follows retired-through, and the mode is RUN on path COMMAND, which completes, or with auto-run, else CONFIG (R128).
A line that fails ends the work with reaction RECORD and its command with FAILED, the writer's knowledge kept: STORE_LAYOUT
with 41/416 or 42/426 (R101, R103); FORMAT with the same, or with 41/414 or 42/424 on a line of the journal area, its lines 2
and 3 (R132, R133); recovery with 41/417 in the scan, 41/415 or 42/425 in the replay and 41/416 or 42/426 in its progress
copies, after which the mode is CONFIG and the next sequence follows retired-through (R129, R117). The copy whose line failed is
not valid after it (R101, R103, R104, R129), but for a valid copy written over with the bytes it has, the model's choice
(log 28). -/
def Obligations.FortiethLineCompletesFormat : Prop :=
  (∀ (took : LineData) (s : State) (op : ArrayOp) (f : FormatWork) (n : Nat), s.powered = true → Completes s op →
    (s.control.mode = .unformatted ∨ s.control.mode = .config) → op.requester = .formatLine n →
    s.writer.format = some f → f.written = 39 →
    ∃ t, exec (.arrayReady took) s = .next t ∧ t.control.mode = .config ∧ t.control.longCommand = none ∧
      t.control.lastResult = some .done ∧ t.recorder.pendingEvents.commandDone = true ∧
      (s.control.mode = .unformatted → t.recorder.pendingEvents.mode = true) ∧
      t.writer.newestLayout = some .b ∧ t.writer.layoutGeneration = 2 ∧ t.writer.storedImage = some f.image ∧
      t.writer.newestProgress = some .b ∧ t.writer.progressGeneration = 2 ∧ t.writer.retiredThrough = 0 ∧
      t.writer.formatIncomplete = false ∧ t.writer.format = none ∧ t.engine.journalPending = false ∧
      t.groups.nextSequence = 1) ∧
  (∀ (took : LineData) (s : State) (op : ArrayOp) (n : Nat), s.powered = true → Completes s op →
    s.access.held = none → s.control.mode = .config ∨ s.control.mode = .unformatted →
    (∀ f : FormatWork, op.requester = .formatLine n → s.writer.format = some f → f.written < 39 →
      ∃ t x, exec (.arrayReady took) s = .next t ∧ t.control = s.control ∧ NoIncident s t ∧
        t.writer = { s.writer with format := some { f with written := f.written + 1 } } ∧
        (formatWrites f.image f.journalBase)[f.written + 1]? = some x ∧
        t.port.op = some
          { freshOp (.formatLine (f.written + 1)) .verifiedWrite x.1 x.2.1 x.2.2 with presented := true }) ∧
    (∀ (w : CopyWrite) (l : Layout), op.requester = .storeLayoutLine n → s.writer.format = none →
      s.control.longCommand = some .storeLayout → s.writer.copyWrite = some w → w.content = .layout l → w.written < 15 →
      let next : CopyWrite := { w with written := w.written + 1 }
      ∃ t, exec (.arrayReady took) s = .next t ∧ t.control = s.control ∧ NoIncident s t ∧
        t.writer = { s.writer with copyWrite := some next } ∧
        t.port.op = some
          { copyLineOp (.storeLayoutLine (w.written + 1)) .verifiedWrite next with presented := true })) ∧
  (∀ (took : LineData) (s : State) (op : ArrayOp) (n : Nat) (w : CopyWrite) (l : Layout), s.powered = true →
    Completes s op → s.control.mode = .config → op.requester = .storeLayoutLine n → s.writer.copyWrite = some w →
    w.content = .layout l → w.written = 15 →
    ∃ t, exec (.arrayReady took) s = .next t ∧ t.control.mode = .config ∧ t.control.longCommand = none ∧
      t.control.lastResult = some .done ∧ t.recorder.pendingEvents.commandDone = true ∧
      t.writer.newestLayout = some w.target ∧ t.writer.layoutGeneration = w.generation ∧
      t.writer.storedImage = some l ∧ t.writer.copyWrite = none ∧
      t.writer.newestProgress = s.writer.newestProgress ∧ t.layout = s.layout ∧ NoIncident s t) ∧
  (∀ (took : LineData) (s : State) (op : ArrayOp) (q : Seq) (n : Nat) (r : Recovery) (w : CopyWrite)
    (p : ProgressContent), s.powered = true → Completes s op → s.control.mode = .recovering →
    s.control.configRequest = false → s.recovery = some r → op.requester = .recoveryProgress q false n →
    s.writer.copyWrite = some w → w.content = .progress p → w.written = 1 →
    ∃ t, exec (.arrayReady took) s = .next t ∧ t.recovery = none ∧ t.recorder.pendingEvents.mode = true ∧
      t.writer.newestProgress = some w.target ∧ t.writer.progressGeneration = w.generation ∧
      t.writer.retiredThrough = p.retiredThrough ∧ t.writer.copyWrite = none ∧
      t.groups.nextSequence = p.retiredThrough + 1 ∧ NoIncident s t ∧
      (r.path = .command → t.control.longCommand = none ∧ t.control.lastResult = some .done ∧
        t.recorder.pendingEvents.commandDone = true) ∧
      (r.path = .command ∨ s.layout.settings.autoRun = 1 →
        t.control.mode = .run ∧ t.control.haltCause = none ∧ readyOut t = true) ∧
      (r.path = .start → s.layout.settings.autoRun ≠ 1 → t.control.mode = .config ∧ readyOut t = false)) ∧
  (∀ (c : Instr) (f : Failure) (s : State) (op : ArrayOp) (n : Nat), s.powered = true → FailsWith s op c f →
    s.port.op = some op →
    let writerReport (d : Detail) : Report :=
      { detail := d, address := some (lineAddress op.line), count := some (BitVec.ofNat 32 n) }
    (∀ w : CopyWrite, s.control.mode = .config → op.requester = .storeLayoutLine n → s.writer.copyWrite = some w →
      ∃ t, exec c s = .next t ∧ LongCompleted t .failed ∧ t.control.mode = .config ∧ t.layout = s.layout ∧
        t.writer = { s.writer with copyWrite := none } ∧ Records s t (writerReport (f.detail .d416 .d426)) .record ∧
        (s.mem.wf = true → ChangesTheCopy s op → CopyNotValid t.mem op.line)) ∧
    (∀ k : FormatWork, s.control.mode = .config ∨ s.control.mode = .unformatted → op.requester = .formatLine n →
      s.writer.format = some k →
      ∃ t, exec c s = .next t ∧ LongCompleted t .failed ∧ t.control.mode = s.control.mode ∧
        t.writer = { s.writer with format := none } ∧
        Records s t
          (writerReport (if n = 2 ∨ n = 3 then f.detail .d414 .d424 else f.detail .d416 .d426)) .record ∧
        (4 ≤ n → s.mem.wf = true → ChangesTheCopy s op → CopyNotValid t.mem op.line)) ∧
    (∀ (r : Recovery) (q : Seq) (d : Detail), s.control.mode = .recovering → s.recovery = some r →
      (op.requester = .scanRead q n ∧ f = .timeout ∧ d = .d417) ∨
        (op.requester = .replayWrite q n ∧ d = f.detail .d415 .d425) ∨
        ((∃ replay, op.requester = .recoveryProgress q replay n) ∧ d = f.detail .d416 .d426) →
      ∃ t, exec c s = .next t ∧ Records s t { writerReport d with sequence := some q } .record ∧ t.recovery = none ∧
        t.control.mode = .config ∧ t.recorder.pendingEvents.mode = true ∧ readyOut t = false ∧
        t.groups.nextSequence = s.writer.retiredThrough + 1 ∧ t.engine.journalPending = s.engine.journalPending ∧
        t.writer = { s.writer with copyWrite := none } ∧
        ((∃ replay, op.requester = .recoveryProgress q replay n) → s.mem.wf = true → ChangesTheCopy s op →
          CopyNotValid t.mem op.line) ∧
        (r.path = .command → LongCompleted t .failed) ∧
        (r.path = .start → t.control.longCommand = s.control.longCommand ∧
          t.control.lastResult = s.control.lastResult)))

/-- SHUTDOWN ends in ENDED, or in STARTING at once where both supply lines are high (R143). A timeout ends the sequence at once
with no further operation (R140). ENDED shows the incident that the requester of the operation in flight at entry names, or
41/414, 41/413 or 41/416 for the sequencer's own work, and none for the line read of a refused read (R74, R83, R140); for an
operation of STARTING, RECOVERING or UNFORMATTED this is the model's reading (log 19). An in-place write's entry is READY again
(R54), a drain write's entry is removed (R16); a copy whose line timed out is not valid (R101; over the same bytes log 28).
Every incident recorded shows RECORD (R140); where R157 would leave a FENCE or a code of 3 as it is, this is the model's
reading (log 15). The second line of the final progress copy ends it with that copy the newest of its pair (R139). In ENDED the
journal engine holds no group and no copy write is in flight (R58, R101). -/
def Obligations.TimeoutInShutdownEndsIt : Prop :=
  (∀ (took : LineData) (s : State) (op : ArrayOp), s.powered = true → s.control.mode = .shutdown →
    s.port.op = some op → s.recovery = none →
    ∃ t, exec (.arrayTimeout took) s = .next t ∧
      (CopyRequester op.requester → s.mem.wf = true → ChangesTheCopy s op → CopyNotValid t.mem op.line) ∧
      (supplyGood s = false → EndedAtRest t ∧ t.writer.newestProgress = s.writer.newestProgress ∧
        t.writer.retiredThrough = s.writer.retiredThrough ∧ t.engine.journalPending = s.engine.journalPending ∧
        t.groups.table = s.groups.table ∧
        (∀ x ∈ t.recorder.incidents.drop s.recorder.incidents.length, x.reaction = .record) ∧
        (∀ r, timeoutReport s op = some r → Records s t r .record) ∧
        (timeoutReport s op = none → s.access.held = none → NoIncident s t) ∧
        (∀ k w i, op.requester = .postedDrain k w i ∨ op.requester = .shutdownDrain k w i →
          ∀ e ∈ s.queue.entries, e.slot = k → e.group = none → e.state = .writing →
            t.queue.entries = s.queue.entries.filter (fun x => decide (x.slot ≠ k))) ∧
        (∀ k w i, op.requester = .inPlaceWrite k w i → t.queue.entries =
          s.queue.entries.map (fun e => if e.slot = k then { e with state := .ready } else e))) ∧
      (supplyGood s = true → t.control.mode = .starting ∧ t.queue.entries = [] ∧ t.groups.table = [] ∧
        t.recorder.incidents = [])) ∧
  (∀ (took : LineData) (s : State) (op : ArrayOp) (n : Nat) (w : CopyWrite) (p : ProgressContent), s.powered = true →
    s.control.mode = .shutdown → s.port.op = some op → op.presented = true → op.requester = .shutdownProgress n →
    s.writer.copyWrite = some w → w.content = .progress p → w.written = 1 →
    ∃ t, exec (.arrayReady took) s = .next t ∧
      (supplyGood s = false → EndedAtRest t ∧ NoIncident s t ∧ t.writer.newestProgress = some w.target ∧
        t.writer.progressGeneration = w.generation ∧ t.writer.retiredThrough = p.retiredThrough ∧
        t.groups.table = s.groups.table ∧ t.engine.journalPending = s.engine.journalPending) ∧
      (supplyGood s = true → t = (startedFrom s s.pins.mselN true s.session).setMem t.mem))

/-! ## Controller bus -/

/-- The mode check (R63): reads pass in RUN and HALTED, writes in RUN with no configuration request pending. An access it
refuses is answered REFUSE and nothing else happens; READY is asserted in RUN and HALTED. -/
def Obligations.ModeCheck : Prop :=
  (∀ (s : State) (write : Bool), modePasses s write = true ↔
    (s.control.mode = .run ∧ (write = false ∨ s.control.configRequest = false)) ∨
      (s.control.mode = .halted ∧ write = false)) ∧
  (∀ (a : Access) (s : State), s.powered = true → s.access.held = none → modePasses s (opIsWrite a.op) = false →
    exec (.controllerAccess a) s = .next (s.setAccess { held := none, answer := some .refuse })) ∧
  (∀ (a : Access) (s : State), modePasses s (opIsWrite a.op) = true → checkAccess s a ≠ .modeRefused) ∧
  (∀ s : State, s.powered = true → (readyOut s = true ↔ s.control.mode = .run ∨ s.control.mode = .halted))

/-- The checks behind the mode check, in their order: alignment, capacity, control area, journal area, window class,
writer set, fence, with the detail and the window each reports (R62, R64 to R69). That a line whose class code or default
class byte names no class has no class, and its access no answer, is the model's reading (log 14). -/
def Obligations.AccessChecksInOrder : Prop :=
  ∀ (a : Access) (s : State), modePasses s (opIsWrite a.op) = true →
    let address := a.address.toNat
    let base := s.layout.settings.journalBase.toNat
    let which (read write : Detail) : Detail := if opIsWrite a.op then write else read
    let refuse (d : Detail) (w : Option WindowIndex) : Verdict :=
      .refused { detail := d, initiator := some a.initiator, address := some a.address, window := w }
    checkAccess s a =
      if address % opBytes a.op ≠ 0 then refuse (which .d271 .d272) none
      else if 65536 * 2 ^ s.layout.settings.capacityCode.toNat ≤ address then refuse (which .d281 .d282) none
      else if address < 0x120 then refuse (which .d241 .d242) none
      else if base ≤ address ∧ address < base + 512 then refuse (which .d243 .d244) none
      else
        match classify s.layout (lineOf a.address) with
        | none => .reservedClass
        | some c =>
          if c.cls = .closed then refuse (which .d211 .d212) c.window
          else if opIsWrite a.op = true ∧ c.cls = .locked then refuse .d220 c.window
          else if opIsWrite a.op = true ∧ c.writers.getLsbD a.initiator.val = false then refuse .d230 c.window
          else if opIsWrite a.op = true ∧ s.confinement[a.initiator].state = .fenced then refuse .d250 c.window
          else .accepted c

/-- A line takes the classification of the lowest-numbered enabled window whose cared-for bits it matches, and the
default class where it matches none (R67). The class codes: CLOSED 0, THROUGH 1, POSTED 2, GROUPED 3, LOCKED 4 (R76); 5 to 7
name no class (log 14). -/
def Obligations.LowestMatchingWindowClassifies : Prop :=
  ([0, 1, 2, 3, 4, 5, 6, 7].map classOfCode =
    [some .closed, some .through, some .posted, some .grouped, some .locked, none, none, none]) ∧
  ∀ (l : Layout) (line : LineNo),
    let hit (i : WindowIndex) : Prop :=
      l.windows[i].enabled = true ∧
        ∀ b < 21, l.windows[i].care.getLsbD b = true → line.getLsbD b = l.windows[i].matchBits.getLsbD b
    (∀ i : WindowIndex, hit i → (∀ j : WindowIndex, j < i → ¬hit j) → ∀ c, classOfCode l.windows[i].cls = some c →
      classify l line = some
        { window := some i, cls := c, verify := l.windows[i].verify, writers := l.windows[i].writers }) ∧
    ((∀ i : WindowIndex, ¬hit i) →
      (l.settings.defaultClass = 0 →
        classify l line = some { window := none, cls := .closed, verify := false, writers := 0xF }) ∧
      (l.settings.defaultClass = 1 →
        classify l line = some { window := none, cls := .through, verify := false, writers := 0xF }))

/-- An access refused by a check other than the mode check: REFUSE, the incident, then the count (+8 for a write, +2 for
a read, at most 511, none under 25/250), which records 71/711 where it fences the initiator, then the reaction: a FENCE sets a
counter below 320 to 320 and records 71/712, a HALT takes RUN to HALTED (R70, R110, R146 to R148). -/
def Obligations.RefusedAccessIsCounted : Prop :=
  ∀ (a : Access) (s : State) (r : Report), s.powered = true → Sound s → s.access.held = none →
    checkAccess s a = .refused r →
    ∃ t, exec (.controllerAccess a) s = .next t ∧ t.access = { held := none, answer := some .refuse } ∧
      Records s t r (reactionTaken s r.detail) ∧ t.mem = s.mem ∧
      t.queue.arrivalCounter = s.queue.arrivalCounter ∧
      (let old := s.confinement[a.initiator]
       let counted :=
         if r.detail = .d250 then old.counter
         else min 511 (old.counter + if opIsWrite a.op then 8 else 2)
       let new := t.confinement[a.initiator]
       new.counter =
           (if reactionTaken s r.detail = .fence ∧ old.state ≠ .fenced then max 320 counted else counted) ∧
         (new.state = .fenced ↔ old.state = .fenced ∨ reactionTaken s r.detail = .fence ∨ 320 ≤ counted)) ∧
      (∀ j : Initiator, j ≠ a.initiator →
        t.confinement[j].counter = s.confinement[j].counter ∧ t.confinement[j].state = s.confinement[j].state) ∧
      (let counted := s.confinement[a.initiator].counter + if opIsWrite a.op then 8 else 2
       let added := refusalIncidents s r a.initiator (min 511 counted)
       t.recorder.incidents = (s.recorder.incidents ++ added).take 16 ∧
         t.recorder.overflow = (s.recorder.overflow || decide (16 < s.recorder.incidents.length + added.length))) ∧
      (HandoverWaits s → HaltCarriedOut s t r.detail (reactionTaken s r.detail))

/-- An accepted write is taken by its class: POSTED into the line's entry or a new one, GROUPED into the open group or a
new one, THROUGH towards the array; where no slot or record is free it is held (R5, R8, R26 to R29, R72, R73). That each
WRITING entry is carried by the operation in flight is a premise every step keeps (`EveryStepKeepsSound`). -/
def Obligations.AcceptedWriteIsTakenByItsClass : Prop :=
  ∀ (a : Access) (s : State) (c : Classification), s.powered = true → Sound s → WritingCarried s →
    s.access.held = none → opIsWrite a.op = true → checkAccess s a = .accepted c →
    let h : Held := { access := a, cls := c, wait := .grant, firstHeld := s.recorder.stamp }
    ∃ t, exec (.controllerAccess a) s = .next t ∧
      (c.cls = .posted → PostedTaken s h t) ∧ (c.cls = .grouped → GroupedTaken s h t) ∧
      (c.cls = .through → ThroughTaken h t) ∧ t.mem = s.mem

/-- An accepted read is answered from the entries that are not WRITING where they carry every requested byte, held where
the line has a WRITING entry, and otherwise sent to the array (R10 to R12). -/
def Obligations.AcceptedReadIsTaken : Prop :=
  ∀ (a : Access) (s : State) (c : Classification), s.powered = true → Sound s → s.access.held = none →
    HandoverWaits s → opIsWrite a.op = false → checkAccess s a = .accepted c →
    ∃ t, exec (.controllerAccess a) s = .next t ∧
      ReadTaken s { access := a, cls := c, wait := .grant, firstHeld := s.recorder.stamp } t ∧ NoIncident s t ∧
      t.confinement = s.confinement

/-- A write held for a slot or a group record is taken anew once one is there, as at arrival (R8, R29); a read held for
a WRITING entry once that entry has left WRITING (R11). That the two commands change nothing before what the access waits for
has come, nor for an access that waits for a grant or for its operation, is the model's reading (log 12). That each WRITING
entry is carried by the operation in flight is a premise every step keeps (`EveryStepKeepsSound`). -/
def Obligations.HeldAccessIsTakenAnew : Prop :=
  ∀ (s : State) (h : Held), s.powered = true → Sound s → WritingCarried s → serving s = true → HandoverWaits s →
    s.access.held = some h →
    (opIsWrite h.access.op = true → s.control.mode = .run → s.control.configRequest = false →
      (h.wait = .slot ∧ (∃ k : Fin 32, ∀ e ∈ s.queue.entries, e.slot ≠ k)) ∨
        (h.wait = .groupRecord ∧ s.groups.table.length < 4) →
      ∃ t, exec .heldWriteTakenAnew s = .next t ∧
        (h.cls.cls = .posted → PostedTaken s h t) ∧ (h.cls.cls = .grouped → GroupedTaken s h t)) ∧
    (opIsWrite h.access.op = false → h.wait = .writingEntry →
      (∀ e ∈ s.queue.entries, e.line = lineOf h.access.address → e.state ≠ .writing) →
      ∃ t, exec .heldReadTakenAnew s = .next t ∧ ReadTaken s h t) ∧
    ((h.wait = .slot ∧ QueueFull s) ∨ (h.wait = .groupRecord ∧ 4 ≤ s.groups.table.length) ∨
      (h.wait = .writingEntry ∧ ∃ e ∈ s.queue.entries, e.line = lineOf h.access.address ∧ e.state = .writing) ∨
      h.wait = .grant ∨ h.wait = .operation →
      exec .heldWriteTakenAnew s = .next s ∧ exec .heldReadTakenAnew s = .next s)

/-- The stall limit of a held access expires: REFUSE with the incident of what it waits for, and no count, and the reaction of
class 31 is carried out, a HALT taking RUN to HALTED (R75, R110); an access whose operation has been granted is not concerned,
and without a held access nothing happens (R75). -/
def Obligations.StallLimitRefusesTheHeldAccess : Prop :=
  (∀ (s : State) (h : Held) (d : Detail), s.powered = true → s.access.held = some h →
    ((h.wait = .slot ∧ d = .d311) ∨ (h.wait = .groupRecord ∧ d = .d312) ∨ (h.wait = .writingEntry ∧ d = .d313) ∨
      (h.wait = .grant ∧ d = .d314)) →
    serving s = true →
    ∃ t, exec .stallLimitExpiry s = .next t ∧ t.access = { held := none, answer := some .refuse } ∧
      Records s t
        { detail := d, initiator := some h.access.initiator, address := some h.access.address, window := h.cls.window }
        (reactionTaken s d) ∧
      (reactionTaken s d ≠ .fence → t.confinement = s.confinement) ∧
      t.queue.entries.map Entry.slot = s.queue.entries.map Entry.slot ∧
      (HandoverWaits s → HaltCarriedOut s t d (reactionTaken s d))) ∧
  (∀ s : State, s.powered = true →
    (s.access.held = none ∨ ∃ h, s.access.held = some h ∧ h.wait = .operation) →
    exec .stallLimitExpiry s = .next s)

/-- In RUN a scan boundary closes the open group with cause BOUNDARY; outside RUN it is ignored (R31). With no group in
commit the engine then takes the oldest CLOSED group, the one just closed among them (R35), and begins the running check
(R45); that it takes the first record in at once is the model's timing (log 23). -/
def Obligations.ScanBoundaryClosesTheOpenGroup : Prop :=
  ∀ s : State, s.powered = true →
    (s.control.mode = .run →
      ∃ t, exec .scanBRise s = .next t ∧ openGroup t = none ∧
        (∀ g, openGroup s = some g → ∃ r ∈ t.groups.table,
          r.sequence = g.sequence ∧ r.closeCause = some .boundary ∧ r.lineCount = g.lineCount) ∧
        (openGroup s = none → t.groups.table.map Group.closeCause = s.groups.table.map Group.closeCause) ∧
        t.groups.table.map Group.sequence = s.groups.table.map Group.sequence ∧ NoIncident s t ∧
        OldestTaken (closedTable s.groups.table .boundary) t ∧
        ((∀ g ∈ s.groups.table, groupInCommit g = false) → ∀ g e rest,
          (closedTable s.groups.table .boundary).find? (fun x => x.state == .closed) = some g →
          groupEntries s g.sequence = e :: rest →
          t.engine.runningCheck = crc32Update 0xFFFFFFFF (recordBytes (lineRecord g.sequence 0 e)))) ∧
    (s.control.mode ≠ .run → exec .scanBRise s = .next s)

/-- The bytes a write carries land at its own byte numbers, the first byte at the access's address (R60). -/
def Obligations.WrittenBytesStandAtTheirAddresses : Prop :=
  ∀ a : Access, aligned a = true → ∀ n < 8,
    ((accessBytes a).getLsbD n = true ↔ lineOffset a.address ≤ n ∧ n < lineOffset a.address + opBytes a.op) ∧
    (∀ d, a.op = .write8 d → n = lineOffset a.address → byteOf (accessData a) n = d) ∧
    (∀ d, a.op = .write16 d → ∀ i < 2, n = lineOffset a.address + i →
      byteOf (accessData a) n = d.extractLsb' (8 * (1 - i)) 8) ∧
    (∀ d, a.op = .write32 d → ∀ i < 4, n = lineOffset a.address + i →
      byteOf (accessData a) n = d.extractLsb' (8 * (3 - i)) 8)

/-! ## Confinement and incidents -/

/-- A change of standing is reportable when the initiator's sensitivity selects it (R150); judged with the event not
pending, a reportable one copies all four states and raises it, and any other changes nothing (R151). -/
def Obligations.StandingChangesAreJudged : Prop :=
  (∀ (sensitivity : BitVec 2) (old new : Standing), reportable sensitivity old new = true ↔
    old ≠ new ∧
      ((sensitivity = 1 ∧ (old = .fenced ∨ new = .fenced)) ∨
        (sensitivity = 2 ∧ (old = .fenced ∨ new = .fenced ∨ old = .suspect ∨ new = .suspect)) ∨
        sensitivity = 3)) ∧
  (∀ (s : State) (i : Initiator) (old new : Standing),
    (s.recorder.pendingEvents.confinement = true → judgeChange s i old new = s) ∧
    (reportable s.layout.settings.sensitivity[i] old new = false → judgeChange s i old new = s) ∧
    (s.recorder.pendingEvents.confinement = false → reportable s.layout.settings.sensitivity[i] old new = true →
      (judgeChange s i old new).recorder.pendingEvents.confinement = true ∧
        ∀ j : Initiator, (judgeChange s i old new).confinement[j] =
          { s.confinement[j] with reported := s.confinement[j].state }))

/-- An initiator that is not FENCED takes the state its new counter value selects, a rise to 320 or more records 71/711;
a FENCED one stays FENCED (R147). -/
def Obligations.CounterSelectsTheStanding : Prop :=
  ∀ (s : State) (i : Initiator) (counter : Nat), counter ≠ s.confinement[i].counter → counter ≤ 511 →
    let t := changeCounter s i counter
    t.confinement[i].counter = counter ∧
      (s.confinement[i].state = .fenced → t.confinement[i].state = .fenced ∧ t.recorder = s.recorder) ∧
      (s.confinement[i].state ≠ .fenced →
        t.confinement[i].state =
          (if counter ≤ 63 then .clean else if counter ≤ 159 then .noisy else if counter ≤ 319 then .suspect
           else .fenced) ∧
        (counter < 320 → NoIncident s t) ∧
        (320 ≤ counter →
          Records s t { detail := .d711, initiator := some i, count := some (BitVec.ofNat 32 counter) } .none))

/-! ## Management port -/

/-- A request whose check byte does not match has no effect and is answered BAD_CHECK; a code that names no command is
answered BAD_COMMAND in every byte from then on, with phase TRAILING, and has no effect (R164). A request counts only in
a session that has begun and received nothing yet (log 10). A falling edge of MSEL_N begins a session in phase REQUEST
with byte count 0, a rising edge ends it in any phase (R163). -/
def Obligations.SessionsCarryRequests : Prop :=
  (∀ (c : Instr) (request : List Byte) (check : Byte) (s : State), Listening s →
    requestOf c = some (request, check) → check ≠ crc8 request →
    exec c s = .next (s.setSession
      { phase := .response, byteCount := request.length + 1, received := request ++ [check]
        response := [0x06, crc8 [0x06]], trailingByte := 0xFF })) ∧
  (∀ (c : Instr) (s : State), (requestOf c).isSome = true → ¬Listening s → exec c s = .next s) ∧
  (∀ (code : Byte) (s : State), Listening s → code ∉ commandCodes →
    exec (.unknownCommand code) s = .next (s.setSession
      { phase := .trailing, byteCount := 1, received := [code], response := [], trailingByte := 0x05 })) ∧
  (∀ s : State, s.powered = true →
    (s.pins.mselN = true → exec .mselNFall s = .next ((s.setPins { s.pins with mselN := false }).setSession
      { phase := .request, byteCount := 0, received := [], response := [], trailingByte := 0xFF })) ∧
    (s.pins.mselN = false → exec .mselNRise s = .next ((s.setPins { s.pins with mselN := true }).setSession
      Session.idle)))

/-- READ_STATUS returns its 24 bytes from the state as it stands, and changes nothing (R167). -/
def Obligations.ReadStatusShowsTheState : Prop :=
  ∀ s : State, Listening s → ∃ d : List Byte, d.length = 24 ∧
    Answers (.readStatus (crc8 [0x01])) s s [0x01] 0x00 d ∧
    d[0]? = some (match s.control.mode with
      | .starting => (0 : Byte) | .recovering => 1 | .unformatted => 2 | .config => 3
      | .run => 4 | .halted => 5 | .shutdown => 6 | .ended => 7) ∧
    (∀ b, d[1]? = some b →
      b.getLsbD 7 = s.control.configRequest ∧ b.getLsbD 6 = s.engine.journalPending ∧
        b.getLsbD 5 = s.recorder.overflow ∧ (b.getLsbD 4 = true ↔ ∃ g ∈ s.groups.table, g.state = .open) ∧
        b.extractLsb' 0 4 = 0) ∧
    d[2]? = some (match s.control.longCommand with
      | none => (0x00 : Byte) | some .flush => 0x1B | some .requestConfig => 0x20 | some .requestRun => 0x21
      | some .storeLayout => 0x30 | some .format => 0x31 | some .restart => 0x3F) ∧
    d[3]? = some (match s.control.lastResult with
      | none => (0x00 : Byte) | some .done => 0x01 | some .doneWithLoss => 0x02 | some .failed => 0x03
      | some .abandoned => 0x04) ∧
    (∀ b, d[4]? = some b →
      b.getLsbD 3 = s.recorder.pendingEvents.fault ∧ b.getLsbD 2 = s.recorder.pendingEvents.confinement ∧
        b.getLsbD 1 = s.recorder.pendingEvents.mode ∧ b.getLsbD 0 = s.recorder.pendingEvents.commandDone ∧
        b.extractLsb' 4 4 = 0) ∧
    (∀ b, d[5]? = some b →
      b.getLsbD 3 = s.recorder.mask.fault ∧ b.getLsbD 2 = s.recorder.mask.confinement ∧
        b.getLsbD 1 = s.recorder.mask.mode ∧ b.getLsbD 0 = s.recorder.mask.commandDone ∧ b.extractLsb' 4 4 = 0) ∧
    d[6]? = some (BitVec.ofNat 8 (freeSlotCount s.queue)) ∧
    d[7]? = some (BitVec.ofNat 8 s.groups.table.length) ∧
    (d.drop 8).take 4 = bytesOf 4 (match openGroup s with | some g => g.sequence | none => 0) ∧
    (d.drop 12).take 4 = bytesOf 4 s.writer.retiredThrough ∧
    (d.drop 16).take 4 = bytesOf 4 s.groups.nextSequence ∧
    d[20]? = some (BitVec.ofNat 8 s.recorder.incidents.length) ∧
    (∀ b, d[21]? = some b → ∀ i : Initiator, b.extractLsb' (6 - 2 * i.val) 2 =
      (match s.confinement[i].reported with
        | .clean => (0 : BitVec 2) | .noisy => 1 | .suspect => 2 | .fenced => 3)) ∧
    (d.drop 22).take 2 = bytesOf 2 (match s.control.haltCause with | some c => Detail.number c | none => (0 : BitVec 16)) ∧
    (∀ c : Detail, (Detail.code c).toNat = (Detail.number c).toNat / 10) ∧ Detail.number .d415 = 0x019F ∧
    freeSlotCount s.queue =
      ((List.finRange 32).filter (fun k => s.queue.entries.all (fun e => decide (e.slot ≠ k)))).length

/-- READ_GROUPS returns the records of the table in 37 bytes and READ_SLOT an entry in 24, zeros where there is none, a
slot above 31 is answered BAD_ARGUMENT, and neither changes anything (R171). -/
def Obligations.ReadGroupsAndSlotsShowTheQueue : Prop :=
  ∀ s : State, Listening s →
    (∃ d : List Byte, d.length = 37 ∧ Answers (.readGroups (crc8 [0x18])) s s [0x18] 0x00 d ∧
      d[0]? = some (BitVec.ofNat 8 s.groups.table.length) ∧
      ∀ i < 4,
        (s.groups.table.length ≤ i → (d.drop (1 + 9 * i)).take 9 = List.replicate 9 0) ∧
        ∀ g, s.groups.table[i]? = some g →
          (d.drop (1 + 9 * i)).take 9 = bytesOf 4 g.sequence ++
            [(match g.state with
              | .open => 1 | .closed => 2 | .inPhase .journaling => 3 | .inPhase .marking => 4
              | .inPhase .applying => 5 | .inPhase .retiring => 6 | .stalled _ => 7),
             (match g.state with
              | .stalled .journaling => 3 | .stalled .marking => 4 | .stalled .applying => 5
              | .stalled .retiring => 6 | _ => 0),
             BitVec.ofNat 8 g.lineCount,
             (match g.closeCause with
              | none => 0 | some .boundary => 1 | some .command => 2 | some .limit => 3 | some .halt => 4
              | some .mode => 5),
             BitVec.ofNat 8 g.journalPosition]) ∧
    (∀ n : Byte, n.toNat ≤ 31 → ∃ d : List Byte, d.length = 24 ∧
      Answers (.readSlot n (crc8 [0x19, n])) s s [0x19, n] 0x00 d ∧
      ((∀ e ∈ s.queue.entries, e.slot.val ≠ n.toNat) → d = List.replicate 24 0) ∧
      ∀ e ∈ s.queue.entries, e.slot.val = n.toNat → (s.queue.entries.map Entry.slot).Nodup →
        d[0]? = some (match e.state with | .held => (1 : Byte) | .ready => 2 | .writing => 3 | .applied => 4) ∧
        (∀ b, d[1]? = some b →
          b.getLsbD 7 = e.group.isSome ∧ b.getLsbD 6 = e.flushMark ∧ b.extractLsb' 0 6 = 0) ∧
        (d.drop 2).take 3 = bytesOf 3 (e.line.setWidth 24) ∧ d[5]? = some e.valid ∧
        d[6]? = some (BitVec.ofNat 8 e.window.val) ∧ d[7]? = some (BitVec.ofNat 8 e.lastWriter.val) ∧
        (d.drop 8).take 4 = bytesOf 4 e.arrival ∧ (d.drop 12).take 4 = bytesOf 4 (e.group.getD 0) ∧
        (d.drop 16).take 8 = bytesOf 8 e.data) ∧
    (∀ n : Byte, 31 < n.toNat → Declines (.readSlot n (crc8 [0x19, n])) s [0x19, n] 0x04)

/-- PEEK_INCIDENT and TAKE_INCIDENT return the oldest record in 22 bytes, absent fields reading 0; TAKE_INCIDENT removes
it; on an empty list both return zeros and change nothing (R169). The numbers of the details are those of the catalogue. -/
def Obligations.IncidentsAreReadFromTheFront : Prop :=
  ([Detail.d211, .d212, .d220, .d230, .d241, .d242, .d243, .d244, .d250, .d271, .d272, .d281, .d282, .d311, .d312, .d313,
      .d314, .d320, .d411, .d412, .d413, .d414, .d415, .d416, .d417, .d422, .d423, .d424, .d425, .d426, .d510, .d511,
      .d512, .d520, .d521, .d530, .d540, .d550, .d560, .d570, .d611, .d612, .d711, .d712].map
      (fun d => (Detail.number d).toNat) =
    [211, 212, 220, 230, 241, 242, 243, 244, 250, 271, 272, 281, 282, 311, 312, 313, 314, 320, 411, 412, 413, 414, 415,
      416, 417, 422, 423, 424, 425, 426, 510, 511, 512, 520, 521, 530, 540, 550, 560, 570, 611, 612, 711, 712]) ∧
  ∀ s : State, Listening s →
    (s.recorder.incidents = [] →
      Answers (.peekIncident (crc8 [0x08])) s s [0x08] 0x00 (List.replicate 22 0) ∧
        Answers (.takeIncident (crc8 [0x09])) s s [0x09] 0x00 (List.replicate 22 0)) ∧
    (∀ i rest, s.recorder.incidents = i :: rest → ∃ d : List Byte, d.length = 22 ∧
      Answers (.peekIncident (crc8 [0x08])) s s [0x08] 0x00 d ∧
      Answers (.takeIncident (crc8 [0x09])) s (s.setRecorder { s.recorder with incidents := rest }) [0x09] 0x00 d ∧
      (∀ b, d[0]? = some b →
        b.getLsbD 7 = true ∧ b.getLsbD 4 = i.report.initiator.isSome ∧ b.getLsbD 3 = i.report.address.isSome ∧
          b.getLsbD 2 = i.report.window.isSome ∧ b.getLsbD 1 = i.report.sequence.isSome ∧
          b.getLsbD 0 = i.report.count.isSome ∧ b.extractLsb' 5 2 = 0) ∧
      d[1]? = some (BitVec.ofNat 8 ((Detail.number i.report.detail).toNat / 10)) ∧
      (d.drop 2).take 2 = bytesOf 2 (Detail.number i.report.detail) ∧
      (d.drop 4).take 4 = bytesOf 4 i.stamp ∧
      d[8]? = some (match i.report.initiator with | some x => BitVec.ofNat 8 x.val | none => 0) ∧
      (d.drop 9).take 3 = bytesOf 3 (i.report.address.getD 0) ∧
      d[12]? = some (match i.report.window with | some x => BitVec.ofNat 8 x.val | none => 0) ∧
      (d.drop 13).take 4 = bytesOf 4 (i.report.sequence.getD 0) ∧
      (d.drop 17).take 4 = bytesOf 4 (i.report.count.getD 0) ∧
      d[21]? = some (match i.reaction with | .record => (0 : Byte) | .fence => 1 | .halt => 2 | .none => 3))

/-- READ_INITIATOR returns the record of the initiator it names, RELEASE_FENCE releases it when it is FENCED, with the
change judged; an initiator number above 3 and a release of one that is not FENCED are answered BAD_ARGUMENT (R170). -/
def Obligations.InitiatorsAreReadAndReleased : Prop :=
  ∀ s : State, Listening s →
    (∀ (n : Byte) (i : Initiator), n.toNat = i.val →
      Answers (.readInitiator n (crc8 [0x10, n])) s s [0x10, n] 0x00
        (bytesOf 2 (BitVec.ofNat 16 s.confinement[i].counter) ++
          [(match s.confinement[i].state with | .clean => 0 | .noisy => 1 | .suspect => 2 | .fenced => 3),
           (match s.confinement[i].reported with | .clean => 0 | .noisy => 1 | .suspect => 2 | .fenced => 3),
           s.layout.settings.sensitivity[i].setWidth 8]) ∧
      (s.confinement[i].state = .fenced → ∃ t,
        Answers (.releaseFence n (crc8 [0x11, n])) s t [0x11, n] 0x00 [] ∧
        t.confinement[i].counter = 0 ∧ t.confinement[i].state = .clean ∧ NoIncident s t ∧
        (if s.recorder.pendingEvents.confinement = false ∧
            reportable s.layout.settings.sensitivity[i] .fenced .clean = true then
          t.recorder.pendingEvents.confinement = true ∧
            ∀ j : Initiator, t.confinement[j].reported = t.confinement[j].state
        else t.recorder = s.recorder ∧
          ∀ j : Initiator, t.confinement[j].reported = s.confinement[j].reported) ∧
        ∀ j : Initiator, j ≠ i →
          t.confinement[j].counter = s.confinement[j].counter ∧ t.confinement[j].state = s.confinement[j].state) ∧
      (s.confinement[i].state ≠ .fenced → Declines (.releaseFence n (crc8 [0x11, n])) s [0x11, n] 0x04)) ∧
    (∀ n : Byte, 3 < n.toNat →
      Declines (.readInitiator n (crc8 [0x10, n])) s [0x10, n] 0x04 ∧
        Declines (.releaseFence n (crc8 [0x11, n])) s [0x11, n] 0x04)

/-- ACK_EVENTS clears the events its bits name, with the overflow flag for FAULT and the copy and possible new raising
for CONFINEMENT; SET_EVENT_MASK replaces the four enable bits and ATTN_N follows; an argument with any of bits 7 to 4 set
is answered BAD_ARGUMENT and changes nothing (R168, R161, R152). -/
def Obligations.EventsAreAcknowledgedAndMasked : Prop :=
  ∀ (s : State) (b : Byte), Listening s →
    (b.extractLsb' 4 4 = 0 →
      (∃ t, Answers (.ackEvents b (crc8 [0x02, b])) s t [0x02, b] 0x00 [] ∧
        t = (s.setRecorder t.recorder).setConfinement t.confinement ∧ t.recorder.stamp = s.recorder.stamp ∧
        t.recorder.pendingEvents.fault = (s.recorder.pendingEvents.fault && !b.getLsbD 3) ∧
        t.recorder.overflow = (s.recorder.overflow && !b.getLsbD 3) ∧
        t.recorder.pendingEvents.mode = (s.recorder.pendingEvents.mode && !b.getLsbD 1) ∧
        t.recorder.pendingEvents.commandDone = (s.recorder.pendingEvents.commandDone && !b.getLsbD 0) ∧
        t.recorder.incidents = s.recorder.incidents ∧ t.recorder.mask = s.recorder.mask ∧
        (b.getLsbD 2 = false ∨ s.recorder.pendingEvents.confinement = false →
          t.confinement = s.confinement ∧
            t.recorder.pendingEvents.confinement = s.recorder.pendingEvents.confinement) ∧
        (b.getLsbD 2 = true → s.recorder.pendingEvents.confinement = true →
          (∀ i : Initiator, t.confinement[i] = { s.confinement[i] with reported := s.confinement[i].state }) ∧
          (t.recorder.pendingEvents.confinement = true ↔ ∃ i : Initiator,
            reportable s.layout.settings.sensitivity[i] s.confinement[i].reported s.confinement[i].state = true))) ∧
      (∃ m : EventSet,
        Answers (.setEventMask b (crc8 [0x03, b])) s (s.setRecorder { s.recorder with mask := m }) [0x03, b] 0x00 [] ∧
        m = { fault := b.getLsbD 3, confinement := b.getLsbD 2, mode := b.getLsbD 1, commandDone := b.getLsbD 0 } ∧
        (attnN (s.setRecorder { s.recorder with mask := m }) = false ↔
          (s.recorder.pendingEvents.fault = true ∧ b.getLsbD 3 = true) ∨
            (s.recorder.pendingEvents.confinement = true ∧ b.getLsbD 2 = true) ∨
            (s.recorder.pendingEvents.mode = true ∧ b.getLsbD 1 = true) ∨
            (s.recorder.pendingEvents.commandDone = true ∧ b.getLsbD 0 = true)))) ∧
    (b.extractLsb' 4 4 ≠ 0 →
      Declines (.ackEvents b (crc8 [0x02, b])) s [0x02, b] 0x04 ∧
        Declines (.setEventMask b (crc8 [0x03, b])) s [0x03, b] 0x04)

/-- CLOSE_GROUP closes the open group with cause COMMAND and is answered OK with its sequence, or zeros with no group
open, in every mode (R32, R172). In RUN and HALTED, with no group in commit, the engine then takes the oldest CLOSED group
(R35). In SHUTDOWN an operation is in flight between two handlings. -/
def Obligations.CloseGroupClosesTheOpenGroup : Prop :=
  ∀ s : State, Listening s → (s.control.mode = .shutdown → s.port.op.isSome = true) →
    ∃ t, Answers (.closeGroup (crc8 [0x1A])) s t [0x1A] 0x00
        (match openGroup s with
        | some g => 1 :: bytesOf 4 g.sequence
        | none => [0, 0, 0, 0, 0]) ∧
      openGroup t = none ∧ NoIncident s t ∧
      t.groups.table.map Group.sequence = s.groups.table.map Group.sequence ∧
      (∀ g, openGroup s = some g → ∃ r ∈ t.groups.table,
        r.sequence = g.sequence ∧ r.closeCause = some .command ∧ r.lineCount = g.lineCount) ∧
      (openGroup s = none → t.groups.table.map Group.closeCause = s.groups.table.map Group.closeCause) ∧
      (serving s = true → OldestTaken (closedTable s.groups.table .command) t)

/-- FLUSH is answered WRONG_MODE outside RUN and HALTED, BUSY with a long command in flight, BAD_ARGUMENT for a scope
other than 1 or 2. Accepted, it marks and counts the POSTED entries; for scope ALL it closes the open group and takes the
newest record as target; with nothing to wait for it completes DONE at once (R19, R32, R172). -/
def Obligations.FlushMarksAndCounts : Prop :=
  ∀ (s : State) (scope : Byte), Listening s →
    let c := Instr.flush scope (crc8 [0x1B, scope])
    (serving s = false → Declines c s [0x1B, scope] 0x03) ∧
    (serving s = true → s.control.longCommand.isSome = true → Declines c s [0x1B, scope] 0x02) ∧
    (serving s = true → s.control.longCommand = none → scope ≠ 1 → scope ≠ 2 → Declines c s [0x1B, scope] 0x04) ∧
    (serving s = true → s.control.longCommand = none → s.control.configRequest = false → s.groups.flushTarget = none →
      scope = 1 ∨ scope = 2 →
      let posted := (s.queue.entries.filter (fun e => e.group.isNone)).length
      let target := if scope = 2 then s.groups.table.getLast?.map Group.sequence else none
      ∃ t, Answers c s t [0x1B, scope] 0x01 [] ∧ t.queue.outstanding = posted ∧ t.queue.lossNote = false ∧
        t.queue.entries.map Entry.slot = s.queue.entries.map Entry.slot ∧
        (∀ e ∈ t.queue.entries, e.group = none → e.flushMark = true) ∧
        t.groups.flushTarget = target ∧ (scope = 2 → openGroup t = none) ∧
        (posted = 0 ∧ target = none →
          t.control.longCommand = none ∧ t.control.lastResult = some .done ∧
            t.recorder.pendingEvents.commandDone = true) ∧
        (posted ≠ 0 ∨ target ≠ none →
          t.control.longCommand = some .flush ∧ t.control.lastResult = s.control.lastResult))

/-- REQUEST_CONFIG: OK in CONFIG, WRONG_MODE outside RUN, HALTED and CONFIG, BUSY with a long command in flight.
Accepted, with no group STALLED: the request is pending, a held write refused, the open group closed with cause MODE, and with
no group in commit the oldest CLOSED group taken into JOURNALING (R35); with the table and the queue empty the handover
completes at once; with a group STALLED the abandon path discards everything with 61/611 and 61/612 (R113 to R115). -/
def Obligations.RequestConfigBeginsTheHandover : Prop :=
  ∀ s : State, Listening s →
    let c := Instr.requestConfig (crc8 [0x20])
    (s.control.mode = .config → Answers c s s [0x20] 0x00 []) ∧
    (s.control.mode ≠ .config → serving s = false → Declines c s [0x20] 0x03) ∧
    (serving s = true → s.control.longCommand.isSome = true → Declines c s [0x20] 0x02) ∧
    (serving s = true → s.control.longCommand = none →
      ∃ t, Answers c s t [0x20] 0x01 [] ∧
        ((∀ g ∈ s.groups.table, ∀ p, g.state ≠ .stalled p) → s.groups.table ≠ [] ∨ s.queue.entries ≠ [] →
          t.control.mode = s.control.mode ∧ t.control.configRequest = true ∧
          t.control.longCommand = some .requestConfig ∧ t.control.handoverLoss = false ∧ openGroup t = none ∧
          (∀ h, s.access.held = some h → opIsWrite h.access.op = true →
            t.access = { held := none, answer := some .refuse }) ∧
          (∀ g, openGroup s = some g → ∃ r ∈ t.groups.table, r.sequence = g.sequence ∧ r.closeCause = some .mode) ∧
          OldestTaken (closedTable s.groups.table .mode) t) ∧
        (s.groups.table = [] → s.queue.entries = [] →
          t.control.mode = .config ∧ t.control.configRequest = false ∧ t.control.longCommand = none ∧
          t.control.lastResult = some .done ∧ t.recorder.pendingEvents.commandDone = true ∧
          t.recorder.pendingEvents.mode = true ∧ t.access.held = none ∧ readyOut t = false) ∧
        ((∃ g ∈ s.groups.table, ∃ p, g.state = .stalled p) →
          t.control.mode = .config ∧ t.control.configRequest = false ∧ t.control.longCommand = none ∧
          t.control.lastResult = some .doneWithLoss ∧ t.groups.table = [] ∧ t.queue.entries = [] ∧
          t.engine.inCommit = none ∧ t.engine.journalPending = s.engine.journalPending ∧ t.access.held = none ∧
          (s.recorder.incidents.length < 15 →
            (t.recorder.incidents.drop s.recorder.incidents.length).map (fun i => (i.report, i.reaction)) =
              [({ detail := .d611
                  count := some (BitVec.ofNat 32 (s.queue.entries.filter (fun e => e.group.isNone)).length) },
                .none),
               ({ detail := .d612
                  count := some (BitVec.ofNat 32 (s.queue.entries.filter (fun e => e.group.isSome)).length) },
                .none)])))

/-- REQUEST_RUN: WRONG_MODE, BUSY, BAD_LAYOUT, LAYOUT_DIFFERS by the first check that fails, with no effect; accepted, the
long command becomes REQUEST_RUN, the mode RECOVERING with MODE raised, and recovery, with the writer's retired-through as
its base, begins at the journal base, after the operation in flight if there is one (R116, R124). -/
def Obligations.RequestRunEntersRecovering : Prop :=
  ∀ s : State, Listening s →
    let c := Instr.requestRun (crc8 [0x21])
    let stored := s.writer.newestLayout.isSome = true ∧ s.writer.storedImage = some s.layout
    (s.control.mode ≠ .config → Declines c s [0x21] 0x03) ∧
    (s.control.mode = .config → s.control.longCommand.isSome = true → Declines c s [0x21] 0x02) ∧
    (s.control.mode = .config → s.control.longCommand = none → consistent s.layout = false →
      Declines c s [0x21] 0x09) ∧
    (s.control.mode = .config → s.control.longCommand = none → consistent s.layout = true → ¬stored →
      Declines c s [0x21] 0x08) ∧
    (s.control.mode = .config → s.control.longCommand = none → consistent s.layout = true → stored →
      ∃ t r, Answers c s t [0x21] 0x01 [] ∧ t.control.mode = .recovering ∧
        t.control.longCommand = some .requestRun ∧ t.recorder.pendingEvents.mode = true ∧ t.recovery = some r ∧
        r.path = .command ∧ r.base = s.writer.retiredThrough ∧ r.stage = .scan ∧ r.found = 0 ∧
        (∀ op, s.port.op = some op → t.port.op = some op) ∧
        (s.port.op = none → ∃ op, t.port.op = some op ∧ op.kind = .lineRead ∧
          op.line = lineOf s.layout.settings.journalBase))

/-- RESUME in HALTED: RUN, the halt cause absent, MODE raised, a STALLED group back in its stalled phase from the start: in
JOURNALING the running check is reset, in MARKING it is kept, in APPLYING every APPLIED entry is READY again (WRITING where the
free port was granted to it at once), in RETIRING the progress copy is begun again (R57, R17). That the reset check takes record
0 in at once is the model's timing (log 23). With no STALLED group nothing is restarted; in every other mode than HALTED
WRONG_MODE and nothing changes (R112). -/
def Obligations.ResumeReturnsToRun : Prop :=
  ∀ s : State, Listening s →
    (s.control.mode ≠ .halted → Declines (.resume (crc8 [0x22])) s [0x22] 0x03) ∧
    (s.control.mode = .halted → HandoverWaits s →
      ∃ t, Answers (.resume (crc8 [0x22])) s t [0x22] 0x00 [] ∧ t.control.mode = .run ∧ t.control.haltCause = none ∧
        t.recorder.pendingEvents.mode = true ∧ NoIncident s t ∧ t.confinement = s.confinement ∧
        (∀ g p, s.groups.table.find? groupStalled = some g → g.state = .stalled p →
          s.engine.inCommit = some g.sequence →
          AtStep t g.sequence p 0 .first ∧ t.engine.journalPending = s.engine.journalPending ∧
            (p = .journaling → t.engine.runningCheck =
              (match groupEntries s g.sequence with
              | e :: _ => crc32Update 0xFFFFFFFF (recordBytes (lineRecord g.sequence 0 e))
              | [] => 0xFFFFFFFF)) ∧
            (p = .marking → t.engine.runningCheck = s.engine.runningCheck) ∧
            (p = .applying →
              ∀ e ∈ s.queue.entries, e.group = some g.sequence → e.state = .applied ∨ e.state = .ready →
                ∃ x ∈ t.queue.entries,
                  x = { e with state := .ready } ∨ (s.port.op = none ∧ x = { e with state := .writing })) ∧
            (p = .retiring → CopyBegun s t (progressOf .dirty g.sequence))) ∧
        ((∀ g ∈ s.groups.table, groupStalled g = false) → (∃ g ∈ s.groups.table, groupInCommit g = true) →
          t.engine = s.engine ∧ t.writer = s.writer ∧ t.groups = s.groups))

/-- The window records and the settings of the working layout are read in every mode and written in CONFIG and
UNFORMATTED alone, each field taking the value given and standing at its place in the record; a window index above 11 is answered
BAD_ARGUMENT (R173, 6.2). -/
def Obligations.LayoutIsReadAndWritten : Prop :=
  ∀ s : State, Listening s →
    let writable := s.control.mode = .config ∨ s.control.mode = .unformatted
    (Answers (.readSettings (crc8 [0x2A])) s s [0x2A] 0x00 (bytesOf 16 (settingsBits s.layout.settings)) ∧
      SettingsAt s.layout.settings (settingsBits s.layout.settings) ∧
      (settingsBits s.layout.settings).extractLsb' 8 14 = 0) ∧
    (∀ (n : Byte) (i : WindowIndex), n.toNat = i.val →
      Answers (.readWindow n (crc8 [0x28, n])) s s [0x28, n] 0x00 (bytesOf 8 (windowBits s.layout.windows[i])) ∧
      WindowAt s.layout.windows[i] (windowBits s.layout.windows[i]) ∧
      ∀ record : BitVec 64,
        let c := Instr.writeWindow n record (crc8 ([0x29, n] ++ bytesOf 8 record))
        (¬writable → Declines c s ([0x29, n] ++ bytesOf 8 record) 0x03) ∧
        (writable → ∃ w : Window,
          Answers c s (s.setLayout { s.layout with windows := s.layout.windows.set i w })
            ([0x29, n] ++ bytesOf 8 record) 0x00 [] ∧
          WindowAt w record)) ∧
    (∀ n : Byte, 11 < n.toNat →
      Declines (.readWindow n (crc8 [0x28, n])) s [0x28, n] 0x04 ∧
      ∀ record : BitVec 64,
        Declines (.writeWindow n record (crc8 ([0x29, n] ++ bytesOf 8 record))) s ([0x29, n] ++ bytesOf 8 record)
          (if s.control.mode = .config ∨ s.control.mode = .unformatted then 0x04 else 0x03)) ∧
    (∀ v : BitVec 128,
      let c := Instr.writeSettings v (crc8 (0x2B :: bytesOf 16 v))
      (¬writable → Declines c s (0x2B :: bytesOf 16 v) 0x03) ∧
      (writable → ∃ g : Settings,
        Answers c s (s.setLayout { s.layout with settings := g }) (0x2B :: bytesOf 16 v) 0x00 [] ∧
        SettingsAt g v ∧
        (∀ b, b < 128 → ¬(8 ≤ b ∧ b < 22) → (settingsBits g).getLsbD b = v.getLsbD b)))

/-- STORE_LAYOUT: WRONG_MODE outside CONFIG or with the format-incomplete flag, BUSY, JOURNAL_PENDING; accepted, the copy
that is not the newest is written from the working layout, with the next generation (R99, R103, R174), and with the port free
its first line starts at once (R85, R100). -/
def Obligations.StoreLayoutBeginsTheCopy : Prop :=
  ∀ s : State, Listening s →
    let c := Instr.storeLayout (crc8 [0x30])
    let ok := s.control.mode = .config ∧ s.writer.formatIncomplete = false
    (¬ok → Declines c s [0x30] 0x03) ∧
    (ok → s.control.longCommand.isSome = true → Declines c s [0x30] 0x02) ∧
    (ok → s.control.longCommand = none → s.engine.journalPending = true → Declines c s [0x30] 0x07) ∧
    (ok → s.control.longCommand = none → s.engine.journalPending = false →
      ∃ t w, Answers c s t [0x30] 0x01 [] ∧ t.control.mode = .config ∧ t.control.longCommand = some .storeLayout ∧
        t.writer.copyWrite = some w ∧ w.content = .layout s.layout ∧ w.written = 0 ∧
        some w.target ≠ s.writer.newestLayout ∧ (s.writer.newestLayout = none → w.target = .a ∧ w.generation = 1) ∧
        (s.writer.newestLayout ≠ none → w.generation = s.writer.layoutGeneration + 1) ∧
        t.writer.newestLayout = s.writer.newestLayout ∧ t.writer.storedImage = s.writer.storedImage ∧ NoIncident s t ∧
        (s.port.op = none → s.access.held = none → s.writer.format = none →
          t.port.op = some
            { freshOp (.storeLayoutLine 0) .verifiedWrite (match w.target with | .a => 0x000000 | .b => 0x000010)
                (layoutCopyLine s.layout w.generation 0) 0xFF with
              presented := s.pins.arrayReady }))

/-- FORMAT: WRONG_MODE outside CONFIG and UNFORMATTED, BUSY, BAD_LAYOUT; accepted, the writer forgets both pairs, keeps
the image and the journal base, and sets the format-incomplete flag (R131), and with the port free its first line write, 0x00
over byte 0 of line 0, starts at once (R85, R132). The check behind BAD_LAYOUT passes exactly the
layouts whose every field lies in its range (R76 to R78). -/
def Obligations.FormatForgetsBothPairs : Prop :=
  (∀ l : Layout, consistent l = true ↔ InRange l) ∧
  ∀ s : State, Listening s →
    let c := Instr.format (crc8 [0x31])
    let ok := s.control.mode = .config ∨ s.control.mode = .unformatted
    (¬ok → Declines c s [0x31] 0x03) ∧
    (ok → s.control.longCommand.isSome = true → Declines c s [0x31] 0x02) ∧
    (ok → s.control.longCommand = none → consistent s.layout = false → Declines c s [0x31] 0x09) ∧
    (ok → s.control.longCommand = none → consistent s.layout = true →
      ∃ t, Answers c s t [0x31] 0x01 [] ∧ t.control.mode = s.control.mode ∧ t.control.longCommand = some .format ∧
        t.writer.newestLayout = none ∧ t.writer.layoutGeneration = 0 ∧ t.writer.storedImage = none ∧
        t.writer.newestProgress = none ∧ t.writer.progressGeneration = 0 ∧ t.writer.retiredThrough = 0 ∧
        t.writer.formatIncomplete = true ∧
        t.writer.format = some { image := s.layout, journalBase := s.layout.settings.journalBase, written := 0 } ∧
        NoIncident s t ∧
        (s.port.op = none → s.access.held = none →
          t.port.op = some
            { freshOp (.formatLine 0) .verifiedWrite 0x000000 0 0x01 with presented := s.pins.arrayReady }))

/-- RESTART: BUSY with a long command in flight; otherwise ACCEPTED, and a cause of shutdown in that handling, in which it
stays the long command in flight (R175, R118). With an operation in flight the part waits for it in SHUTDOWN; in SHUTDOWN and
ENDED the mode and the sequence stay (R143). With the port free the sequence goes on at once: from RUN and HALTED an operation
of it is in flight (R135 to R139); from CONFIG the final CLEAN copy begins, unless FORMAT is incomplete or the budget below 2
(R141); from there and from STARTING, RECOVERING and UNFORMATTED the part is at once in STARTING again, or in ENDED where a
supply line is low (R142, R143). -/
def Obligations.RestartIsACauseOfShutdown : Prop :=
  ∀ s : State, Listening s →
    let c := Instr.restart (crc8 [0x3F])
    let mode := s.control.mode
    let through (t : State) : Prop :=
      (supplyGood s = true → t.control.mode = .starting ∧ t.control.longCommand = none ∧ t.recorder.incidents = []) ∧
        (supplyGood s = false → EndedAtRest t ∧ t.control.longCommand = some .restart ∧ NoIncident s t)
    (s.control.longCommand.isSome = true → Declines c s [0x3F] 0x02) ∧
    (s.control.longCommand = none →
      ∃ t, Answers c s t [0x3F] 0x01 [] ∧ t.mem = s.mem ∧
        (s.port.op.isSome = true → mode ≠ .shutdown → mode ≠ .ended →
          ShutdownEntered s t ∧ t.control.longCommand = some .restart ∧ t.control.lastResult = s.control.lastResult) ∧
        (mode = .ended ∨ (mode = .shutdown ∧ s.port.op.isSome = true) →
          t = (s.setControl { s.control with longCommand := some .restart }).setPort { s.port with passOver := 0 }) ∧
        (s.port.op = none → serving s = true →
          t.control.mode = .shutdown ∧ t.shutdown.origin = .full ∧ t.port.op.isSome = true ∧
            t.control.longCommand = some .restart) ∧
        (s.port.op = none → mode = .config →
          (s.writer.formatIncomplete = true ∨ s.layout.settings.budget.toNat < 2 → through t) ∧
          (s.writer.formatIncomplete = false → 2 ≤ s.layout.settings.budget.toNat →
            FinalCopyBegun s t (progressOf .clean s.writer.retiredThrough) ∧ t.shutdown.origin = .config ∧
              t.control.longCommand = some .restart ∧ NoIncident s t)) ∧
        (s.port.op = none → mode = .starting ∨ mode = .recovering ∨ mode = .unformatted → through t))

/-! ## Choices and formats -/

/-- Each requester asks for what its rule names (R84). The free port grants one request, in the order the arbiter gives the
requesters, and starts its first step; a granted drain or in-place write finds its entry WRITING; the pass-over count becomes 0
when the posted drain is granted and rises by one when its request is passed over (R85, R86). What a handling does last: it
leaves a port with an operation in flight as it is, and lets the arbiter choose for a free one in RUN, HALTED, CONFIG and
UNFORMATTED; that the choice waits while a held read is due to be taken anew is the model's reading (log 12). So between two
handlings no request stands before a free port, and with no group in commit no group is CLOSED (R35): this holds after
power-on, and every step keeps it. -/
def Obligations.ArbiterGrantsInOrder : Prop :=
  (∀ s : State, RequestsOf s (requestsOf s)) ∧
  (∀ s : State,
    let r := requestsOf s
    let p := s.port.passOver
    let few := freeSlotCount s.queue ≤ 4
    let granted (op : ArrayOp) (passOver : Nat) : Prop :=
      (arbitrate s).port = { op := some { op with presented := s.pins.arrayReady }, passOver := passOver } ∧
        (∀ k w i, op.requester = .postedDrain k w i ∨ op.requester = .inPlaceWrite k w i →
          (arbitrate s).queue.entries =
            s.queue.entries.map (fun e => if e.slot = k then { e with state := .writing } else e))
    (∀ d, r.drain = some d → p = 8 → granted d 0) ∧
    (∀ a, r.controller = some a → r.drain = none → granted a p) ∧
    (∀ a d, r.controller = some a → r.drain = some d → p ≠ 8 → granted a (p + 1)) ∧
    (∀ d, r.controller = none → r.drain = some d → few → granted d 0) ∧
    (∀ j, r.controller = none → r.drain = none → r.engine = some j → granted j p) ∧
    (∀ j d, r.controller = none → r.drain = some d → p ≠ 8 → ¬few → r.engine = some j → granted j (p + 1)) ∧
    (∀ d, r.controller = none → r.drain = some d → r.engine = none → granted d 0) ∧
    (∀ w, r.controller = none → r.drain = none → r.engine = none → r.writer = some w → granted w p) ∧
    (r.controller = none → r.drain = none → r.engine = none → r.writer = none → arbitrate s = s)) ∧
  (∀ s : State,
    let due : Prop := ∃ h, s.access.held = some h ∧ h.wait = .writingEntry ∧
      ∀ e ∈ s.queue.entries, e.line = lineOf h.access.address → e.state ≠ .writing
    (s.port.op.isSome = true → drivePort s = s) ∧
    (s.port.op = none → serving s = true ∨ s.control.mode = .config ∨ s.control.mode = .unformatted →
      (due → drivePort s = s) ∧ (¬due → drivePort s = arbitrate s))) ∧
  NothingWaits State.reset ∧
  (∀ s t : State, NothingWaits s → step s = .next t → NothingWaits t)

/-- The posted drain chooses, among the POSTED READY entries with no older POSTED entry of their line, one whose window has
the lowest drain priority number, and the oldest among equals; it chooses one whenever there is one (R13, R14). -/
def Obligations.DrainChoosesByPriorityThenAge : Prop :=
  ∀ s : State,
    let eligible (before : List Entry) (e : Entry) : Prop :=
      e.group = none ∧ e.state = .ready ∧ ∀ x ∈ before, x.group = none → x.line ≠ e.line
    let priority (e : Entry) : Nat := s.layout.windows[e.window].priority.toNat
    (∀ e, drainChoice s = some e → ∃ before after, s.queue.entries = before ++ e :: after ∧ eligible before e ∧
      (∀ b x c, before = b ++ x :: c → eligible b x → priority e < priority x) ∧
      (∀ b x c, after = b ++ x :: c → eligible (before ++ e :: b) x → priority e ≤ priority x)) ∧
    (drainChoice s = none → ∀ b x c, s.queue.entries = b ++ x :: c → ¬eligible b x)

/-- The newest valid copy of a pair, from the generations of the copies that are valid (R97). -/
def Obligations.NewestValidCopy : Prop :=
  newestCopy none none = none ∧
  (∀ g, newestCopy (some g) none = some .a) ∧ (∀ g, newestCopy none (some g) = some .b) ∧
  (∀ a b : BitVec 32,
    (a = b + 1 → newestCopy (some a) (some b) = some .a) ∧
    (b = a + 1 → newestCopy (some a) (some b) = some .b) ∧
    (a ≠ b + 1 → b ≠ a + 1 →
      (b.toNat < a.toNat → newestCopy (some a) (some b) = some .a) ∧
      (a.toNat < b.toNat → newestCopy (some a) (some b) = some .b) ∧
      (a = b → newestCopy (some a) (some b) = some .a)))

/-- Composing a copy and loading it agree: every layout is read back from its copy field by field, whatever its values, the
copy is valid and carries its generation, and its 16 lines are the copy; the same for a progress copy (R94 to R96). Every
field stands at its place in the copy (6.2). -/
def Obligations.CopiesAreReadBackAsComposed : Prop :=
  (∀ (l : Layout) (g : BitVec 32),
    layoutOfCopy (layoutCopy l g) = l ∧ layoutValid (layoutCopy l g) = true ∧
      layoutGenerationOf (layoutCopy l g) = g ∧
      joinLines 1024 ((List.range 16).map (layoutCopyLine l g)) = layoutCopy l g ∧
      (layoutCopy l g).extractLsb' 1000 24 = 0x4C5901 ∧ SettingsAt l.settings ((layoutCopy l g).extractLsb' 872 128) ∧
      (∀ i : WindowIndex, WindowAt l.windows[i] ((layoutCopy l g).extractLsb' (800 - 64 * i.val) 64)) ∧
      (layoutCopy l g).extractLsb' 64 32 = g ∧ (layoutCopy l g).extractLsb' 864 8 = 0 ∧
      (layoutCopy l g).extractLsb' 32 32 = 0 ∧
      (layoutCopy l g).extractLsb' 0 32 = crc32 (bytesOf 124 ((layoutCopy l g).extractLsb' 32 992))) ∧
  (∀ (p : ProgressContent) (g : BitVec 32),
    progressOfCopy (progressCopy p g) = p ∧ progressValid (progressCopy p g) = true ∧
      progressGenerationOf (progressCopy p g) = g ∧
      joinLines 128 ((List.range 2).map (progressCopyLine p g)) = progressCopy p g ∧
      (progressCopy p g).extractLsb' 120 8 = 0x50 ∧
      (progressCopy p g).extractLsb' 112 8 = (match p.state with | .dirty => 0 | .clean => 1 | .short => 2) ∧
      (progressCopy p g).extractLsb' 104 8 = p.postedAbandoned ∧
      (progressCopy p g).extractLsb' 96 8 = p.groupsAbandoned ∧ (progressCopy p g).extractLsb' 64 32 = g ∧
      (progressCopy p g).extractLsb' 32 32 = p.retiredThrough ∧
      (progressCopy p g).extractLsb' 0 32 = crc32 (bytesOf 12 ((progressCopy p g).extractLsb' 32 96)))

/-- The fields of a line record and of a commit record stand at their places (R43, R44), and each half of a record at its own
line of the journal area (R42). The scan accepts a record, whatever its bytes, by its kind, sequence byte, index, check byte,
valid set and line (R125), and finds a commit record sealed by its kind, sequence and complement, count and running check
(R126). So a line record as the journal engine builds it is accepted for its own sequence byte, at its own index and for a line
below capacity, and not otherwise; the commit record of those records is found sealed, and none with another count (R45).
The scan keeps an accepted record and goes on with the next position; at the candidate position it turns to REPLAY where the
commit record is sealed, and to FINAL PROGRESS where not, with 57/570 where records were found (R125, R126). A replay write
moves to the next record, and after the last one 56/560 is recorded and the copy that retires the group begins; its second line
clears journal-pending and begins the final copy (R127, R128). -/
def Obligations.JournalRecordsAreFoundAgain : Prop :=
  (∀ (q : Seq) (i : Nat) (e : Entry),
    let head := [0x31, q.setWidth 8, e.valid, BitVec.ofNat 8 i] ++ bytesOf 3 (e.line.setWidth 24)
    recordBytes (lineRecord q i e) = head ++ [xorBytes (head ++ bytesOf 8 e.data)] ++ bytesOf 8 e.data) ∧
  (∀ (q : Seq) (n : Nat) (cause : Option CloseCause) (check : BitVec 32),
    recordBytes (commitRecord q n cause check) =
      [0x3C, q.setWidth 8, BitVec.ofNat 8 n,
        (match cause with
        | none => 0 | some .boundary => 1 | some .command => 2 | some .limit => 3 | some .halt => 4 | some .mode => 5)] ++
      bytesOf 4 q ++ bytesOf 4 check ++ bytesOf 4 (~~~q)) ∧
  (∀ (base : Addr) (position : Nat),
    journalHalfLine base position .first = lineOf base + BitVec.ofNat 21 (2 * position) ∧
      journalHalfLine base position .second = lineOf base + BitVec.ofNat 21 (2 * position + 1)) ∧
  (∀ r : JournalRecord, (∀ n < 8, (recordBytes r)[n]? = some (byteOf r.first n)) ∧
    (∀ n < 8, (recordBytes r)[8 + n]? = some (byteOf r.second n)) ∧
    (∀ (sought : Seq) (j : Nat) (code : BitVec 8), acceptsLineRecord sought j code r = true ↔
      byteOf r.first 0 = 0x31 ∧ byteOf r.first 1 = sought.setWidth 8 ∧ byteOf r.first 3 = BitVec.ofNat 8 j ∧
        byteOf r.first 7 = xorBytes ((recordBytes r).eraseIdx 7) ∧ byteOf r.first 2 ≠ 0 ∧
        (r.first.extractLsb' 8 24).toNat < 8192 * 2 ^ code.toNat) ∧
    (∀ (sought : Seq) (n : Nat) (running : BitVec 32), sealedCommit sought n running r = true ↔
      byteOf r.first 0 = 0x3C ∧ r.first.extractLsb' 0 32 = sought ∧ byteOf r.first 1 = sought.setWidth 8 ∧
        r.second.extractLsb' 0 32 = ~~~sought ∧ byteOf r.first 2 = BitVec.ofNat 8 n ∧ 1 ≤ n ∧
        r.second.extractLsb' 32 32 = ~~~running)) ∧
  (∀ (q sought : Seq) (i j : Nat) (code : BitVec 8) (e : Entry), i < 24 → j < 24 → e.valid ≠ 0 →
    (acceptsLineRecord sought j code (lineRecord q i e) = true ↔
      sought.setWidth 8 = q.setWidth 8 ∧ j = i ∧ e.line.toNat < 8192 * 2 ^ code.toNat) ∧
      recordLine (lineRecord q i e) = e.line.setWidth 24 ∧ recordValid (lineRecord q i e) = e.valid ∧
      (lineRecord q i e).second = e.data) ∧
  (∀ (q : Seq) (n found : Nat) (cause : Option CloseCause) (records : List JournalRecord), 1 ≤ n → n ≤ 24 →
    found ≤ 24 →
    let bytes := records.flatMap recordBytes
    (sealedCommit q found (crc32Update crc32Initial bytes) (commitRecord q n cause (crc32 bytes)) = true ↔ found = n)) ∧
  (∀ (took : LineData) (s : State) (op : ArrayOp) (r : Recovery) (q : Seq) (n : Nat), s.powered = true →
    Completes s op → op.kind = .lineRead → s.control.mode = .recovering → s.recovery = some r → r.stage = .scan →
    op.requester = .scanRead q n →
    let line := s.mem.readLine op.line
    let final := progressOf (if r.path = .command ∨ s.layout.settings.autoRun = 1 then .dirty else .clean)
      s.writer.retiredThrough
    ∃ t, exec (.arrayReady took) s = .next t ∧ t.control = s.control ∧
      (r.firstLine = none → t.recovery = some { r with firstLine := some line } ∧ NoIncident s t ∧
        ∃ o, t.port.op = some o ∧ o.kind = .lineRead ∧
          o.line = lineOf s.layout.settings.journalBase + BitVec.ofNat 21 (2 * r.scanPosition) + 1) ∧
      ∀ l, r.firstLine = some l →
        let record : JournalRecord := { first := l, second := line }
        let accepted := r.found < 24 ∧
          acceptsLineRecord (r.base + 1) r.scanPosition s.layout.settings.capacityCode record = true
        let isSealed := sealedCommit (r.base + 1) r.found r.runningCheck record = true
        (accepted → NoIncident s t ∧ t.engine.journalPending = s.engine.journalPending ∧
          t.recovery = some
            { r with
              records := r.records ++ [record], found := r.found + 1, scanPosition := r.scanPosition + 1
              runningCheck := crc32Update r.runningCheck (recordBytes record), firstLine := none } ∧
          ∃ o, t.port.op = some o ∧ o.kind = .lineRead ∧
            o.line = lineOf s.layout.settings.journalBase + BitVec.ofNat 21 (2 * (r.scanPosition + 1))) ∧
        (¬accepted → isSealed → NoIncident s t ∧ t.engine.journalPending = true ∧
          t.recovery = some { r with stage := .replay, firstLine := none } ∧
          ∀ x, r.records[r.replayIndex]? = some x →
            ∃ o, t.port.op = some o ∧ o.kind = .verifiedWrite ∧ o.line = (recordLine x).setWidth 21 ∧
              o.data = x.second ∧ o.enables = recordValid x) ∧
        (¬accepted → ¬isSealed → t.engine.journalPending = false ∧
          t.recovery = some { r with stage := .finalProgress, firstLine := none } ∧ CopyBegun s t final ∧
          (r.found = 0 → NoIncident s t) ∧
          (1 ≤ r.found → Records s t
            { detail := .d570, sequence := some (r.base + 1), count := some (BitVec.ofNat 32 r.found)
              address := some s.layout.settings.journalBase } .none))) ∧
  (∀ (took : LineData) (s : State) (op : ArrayOp) (r : Recovery) (q : Seq) (n : Nat), s.powered = true →
    Completes s op → s.control.mode = .recovering → s.recovery = some r →
    (op.requester = .replayWrite q n → r.stage = .replay →
      ∃ t, exec (.arrayReady took) s = .next t ∧ t.control = s.control ∧
        (r.replayIndex + 1 < r.found → NoIncident s t ∧
          t.recovery = some { r with replayIndex := r.replayIndex + 1 }) ∧
        (r.found ≤ r.replayIndex + 1 →
          t.recovery = some { r with replayIndex := r.replayIndex + 1, stage := .replayProgress } ∧
          CopyBegun s t (progressOf .dirty (r.base + 1)) ∧
          Records s t
            { detail := .d560, sequence := some (r.base + 1), count := some (BitVec.ofNat 32 r.found) } .none)) ∧
    (∀ (w : CopyWrite) (p : ProgressContent), op.requester = .recoveryProgress q true n →
      s.writer.copyWrite = some w → w.content = .progress p → w.written = 1 →
      ∃ t v, exec (.arrayReady took) s = .next t ∧ t.control = s.control ∧ NoIncident s t ∧
        t.engine.journalPending = false ∧ t.writer.newestProgress = some w.target ∧
        t.writer.progressGeneration = w.generation ∧ t.writer.retiredThrough = p.retiredThrough ∧
        t.recovery = some { r with stage := .finalProgress } ∧ t.writer.copyWrite = some v ∧
        v.target ≠ w.target ∧ v.generation = w.generation + 1 ∧ v.written = 0 ∧
        v.content = .progress
          (progressOf (if r.path = .command ∨ s.layout.settings.autoRun = 1 then .dirty else .clean)
            p.retiredThrough)))

/-- In stage GROUP every OPEN and CLOSED group, one STALLED in JOURNALING, and one in JOURNALING or MARKING whose need
exceeds the budget less 2 are abandoned and counted, with their entries; the others are kept (R136). Under CONTINUE each
record line that completes advances the group until the commit record makes it durable (R137). A drain write that completes
removes its entry; with at least 3 on the budget the next POSTED entry follows, otherwise those left are freed and counted and
the final copy, CLEAN where nothing was abandoned and SHORT where something was, begins (R138, R139). The step in progress at
entry to SHUTDOWN ends its operation as completed, whatever its kind and with no compare (R89): it counts for its requester, and
in that handling follow ENDED or STARTING where the sequence has no more to do (R141 to R143), the final copy (R141), or the
group plan with the first operation it calls for (R135). That a line of a progress copy counts there while one of STORE_LAYOUT
or FORMAT does not, and that in SHUTDOWN, where R35 says that the engine holds no group, its items keep the group until the plan
abandons it, are the model's readings (logs 18 and 24). -/
def Obligations.ShutdownPlanDecidesEveryGroup : Prop :=
  (∀ s : State,
    let half := if s.engine.half = .second then 1 else 0
    let need (g : Group) (p : Phase) : Nat :=
      (if p = .journaling then 2 * (g.lineCount - g.journalPosition + 1) else 2) - half
    let lost (g : Group) : Prop :=
      g.state = .open ∨ g.state = .closed ∨ g.state = .stalled .journaling ∨
        ∃ p, g.state = .inPhase p ∧ (p = .journaling ∨ p = .marking) ∧ s.shutdown.budget < need g p + 2
    let t := planGroups s
    (∀ g, g ∈ t.groups.table ↔ g ∈ s.groups.table ∧ ¬lost g) ∧
      t.shutdown.groupsAbandoned + t.groups.table.length = s.groups.table.length ∧
      (∀ e, e ∈ t.queue.entries ↔
        e ∈ s.queue.entries ∧ ∀ g ∈ s.groups.table, lost g → e.group ≠ some g.sequence) ∧
      t.groups.flushTarget = none ∧ t.shutdown.budget = s.shutdown.budget ∧
      (t.shutdown.plan = some .continue ↔
        ∃ g ∈ t.groups.table, g.state = .inPhase .journaling ∨ g.state = .inPhase .marking)) ∧
  (∀ (took : LineData) (s : State) (op : ArrayOp) (q : Seq) (g : Group) (p : Phase), s.powered = true →
    s.control.mode = .shutdown → s.shutdown.stage = .group → s.port.op = some op → op.presented = true →
    op.requester = .shutdownRecord → Carries s q g p → g.journalPosition = s.engine.position →
    let next (t : State) : Prop :=
      t.shutdown.stage = .group ∧ t.shutdown.budget = s.shutdown.budget - 1 ∧
        ∃ o, t.port.op = some o ∧ o.requester = .shutdownRecord ∧ o.kind = .maskedWrite ∧ o.enables = 0xFF
    ∃ t, exec (.arrayReady took) s = .next t ∧ NoIncident s t ∧
      (s.engine.half = .first → p = .journaling → s.engine.position < (groupEntries s q).length →
        AtStep t q .journaling s.engine.position .second ∧ next t) ∧
      (s.engine.half = .first → p = .marking → AtStep t q .marking s.engine.position .second ∧ next t) ∧
      (s.engine.half = .second → p = .journaling →
        (s.engine.position + 1 < g.lineCount → AtStep t q .journaling (s.engine.position + 1) .first ∧
          (s.engine.position + 1 < (groupEntries s q).length → next t)) ∧
        (g.lineCount ≤ s.engine.position + 1 → AtStep t q .marking 0 .first ∧ next t ∧
          t.engine.runningCheck = ~~~s.engine.runningCheck)) ∧
      (s.engine.half = .second → p = .marking → AtStep t q .applying 0 .first ∧ t.engine.journalPending = true ∧
        (t.shutdown.stage = .drain ∨ t.shutdown.stage = .progress))) ∧
  (∀ (took : LineData) (s : State) (op : ArrayOp) (e : Entry) (w : WindowIndex) (i : Initiator), s.powered = true →
    Sound s → s.control.mode = .shutdown → s.shutdown.stage = .drain → s.port.op = some op → op.presented = true →
    op.requester = .shutdownDrain e.slot w i → e ∈ s.queue.entries → e.group = none → e.state = .writing →
    let left := s.queue.entries.filter (fun x => decide (x.slot ≠ e.slot) && x.group.isNone)
    (∀ x ∈ left, x.state = .ready) →
    ∃ t, exec (.arrayReady took) s = .next t ∧ NoIncident s t ∧ t.shutdown.budget = s.shutdown.budget - 1 ∧
      (∀ x ∈ t.queue.entries, x.slot ≠ e.slot) ∧
      (3 ≤ s.shutdown.budget → left ≠ [] → t.shutdown.stage = .drain ∧
        ∃ y o, y ∈ left ∧ drainChoice (freeEntries s (fun x => x.slot == e.slot)) = some y ∧ t.port.op = some o ∧
          o.requester = .shutdownDrain y.slot y.window y.lastWriter ∧ o.kind = .maskedWrite ∧ o.line = y.line ∧
          o.data = y.data ∧ o.enables = y.valid) ∧
      (s.shutdown.budget < 3 ∨ left = [] →
        (∀ x ∈ t.queue.entries, x.group.isSome = true) ∧ t.shutdown.postedAbandoned = left.length ∧
        FinalCopyBegun s t
          { state := if left.length = 0 ∧ s.shutdown.groupsAbandoned = 0 then .clean else .short
            postedAbandoned := BitVec.ofNat 8 left.length
            groupsAbandoned := BitVec.ofNat 8 s.shutdown.groupsAbandoned
            retiredThrough := s.writer.retiredThrough })) ∧
  (∀ (took : LineData) (s : State) (op : ArrayOp), s.powered = true → s.control.mode = .shutdown →
    s.shutdown.stage = .finishing → s.port.op = some op → op.presented = true → s.access.held = none →
    s.recovery = none → s.writer.format = none →
    (s.shutdown.origin = .full → worksInRun op.requester = true → (s.groups.table.map Group.sequence).Nodup →
      ∃ t u, exec (.arrayReady took) s = .next t ∧ NoIncident s t ∧ StepCounts s op u ∧ PlanFollows u t) ∧
    (s.shutdown.origin = .config → s.writer.copyWrite = none →
      (∃ n, op.requester = .storeLayoutLine n ∨ op.requester = .formatLine n) →
      ∃ t, exec (.arrayReady took) s = .next t ∧
        (s.writer.formatIncomplete = true ∨ s.shutdown.budget < 2 → supplyGood s = false →
          EndedAtRest t ∧ NoIncident s t ∧ t.writer = s.writer) ∧
        (s.writer.formatIncomplete = true ∨ s.shutdown.budget < 2 → supplyGood s = true →
          t = (startedFrom s s.pins.mselN true s.session).setMem t.mem) ∧
        (s.writer.formatIncomplete = false → 2 ≤ s.shutdown.budget → NoIncident s t ∧
          t.shutdown.budget = s.shutdown.budget - 1 ∧
          FinalCopyBegun s t
            { state := if s.shutdown.postedAbandoned = 0 ∧ s.shutdown.groupsAbandoned = 0 then .clean else .short
              postedAbandoned := BitVec.ofNat 8 s.shutdown.postedAbandoned
              groupsAbandoned := BitVec.ofNat 8 s.shutdown.groupsAbandoned
              retiredThrough := s.writer.retiredThrough })) ∧
    (s.shutdown.origin = .none →
      (∃ n, op.requester = .startRead n) ∨ (∃ q n, op.requester = .scanRead q n ∨ op.requester = .replayWrite q n) ∨
        (∃ q b n, op.requester = .recoveryProgress q b n) ∨ (∃ n, op.requester = .formatLine n) →
      ∃ t, exec (.arrayReady took) s = .next t ∧
        (supplyGood s = true → t = (startedFrom s s.pins.mselN true s.session).setMem t.mem) ∧
        (supplyGood s = false → EndedAtRest t ∧ NoIncident s t ∧
          ((∀ q b n, op.requester ≠ .recoveryProgress q b n) →
            t.writer = { s.writer with copyWrite := none } ∧ t.engine.journalPending = s.engine.journalPending) ∧
          (∀ q replay n c p, op.requester = .recoveryProgress q replay n → s.writer.copyWrite = some c →
            c.content = .progress p →
            (c.written = 0 → t.writer = { s.writer with copyWrite := none } ∧
              t.engine.journalPending = s.engine.journalPending) ∧
            (c.written = 1 → t.writer.newestProgress = some c.target ∧ t.writer.progressGeneration = c.generation ∧
              t.writer.retiredThrough = p.retiredThrough ∧
              t.engine.journalPending = (if replay then false else s.engine.journalPending))))))
end

