-- ==== Sys2Proof/Laws/Bits.lean ====
section
/-! SUPPORT. Lines byte by byte: two lines with equal bytes are equal; masks, merges and read-outs act on each byte by
itself. -/

namespace Sys2Proof.Machine

theorem extract_append_high {w v : Nat} (x : BitVec w) (y : BitVec v) {start len : Nat} (h : v ≤ start) :
    (x ++ y).extractLsb' start len = x.extractLsb' (start - v) len := by
  apply BitVec.eq_of_getLsbD_eq
  intro i hi
  have : ¬start + i < v := by omega
  have e : start + i - v = start - v + i := by omega
  simp only [BitVec.getLsbD_extractLsb', BitVec.getLsbD_append, this, if_false, e]

theorem extract_append_low {w v : Nat} (x : BitVec w) (y : BitVec v) {start len : Nat} (h : start + len ≤ v) :
    (x ++ y).extractLsb' start len = y.extractLsb' start len := by
  apply BitVec.eq_of_getLsbD_eq
  intro i hi
  have : start + i < v := by omega
  simp only [BitVec.getLsbD_extractLsb', BitVec.getLsbD_append, this, if_true]

/-- Eight bytes one after another, byte 0 most significant: byte `n` of the line they make. -/
theorem byteOf_join (b : Nat → Byte) {n : Nat} (hn : n < 8) :
    byteOf (b 0 ++ b 1 ++ b 2 ++ b 3 ++ b 4 ++ b 5 ++ b 6 ++ b 7) n = b n := by
  have key : (b 0 ++ b 1 ++ b 2 ++ b 3 ++ b 4 ++ b 5 ++ b 6 ++ b 7).extractLsb' (56 - 8 * n) 8 = b n := by
    have whole : ∀ x : Byte, x.extractLsb' 0 8 = x := fun x => BitVec.extractLsb'_eq_self
    interval_cases n <;>
    · iterate 7 try first
        | rw [extract_append_low _ _ (by omega)]
        | rw [extract_append_high _ _ (by omega)]
      exact whole _
  exact key

theorem eq_of_byteOf {x y : LineData} (h : ∀ n, n < 8 → byteOf x n = byteOf y n) : x = y := by
  apply BitVec.eq_of_getLsbD_eq
  intro i hi
  have := congrArg (fun b : Byte => b.getLsbD (i % 8)) (h (7 - i / 8) (by omega))
  simp only [byteOf, BitVec.getLsbD_extractLsb'] at this
  have e : 56 - 8 * (7 - i / 8) + i % 8 = i := by omega
  have l : i % 8 < 8 := Nat.mod_lt _ (by omega)
  simpa [e, l] using this

theorem byteOf_and (x y : LineData) (n : Nat) : byteOf (x &&& y) n = byteOf x n &&& byteOf y n := by
  unfold byteOf
  apply BitVec.eq_of_getLsbD_eq
  intro j hj
  simp [hj]

theorem byteOf_or (x y : LineData) (n : Nat) : byteOf (x ||| y) n = byteOf x n ||| byteOf y n := by
  unfold byteOf
  apply BitVec.eq_of_getLsbD_eq
  intro j hj
  simp [hj]

theorem byteOf_not (x : LineData) {n : Nat} (hn : n < 8) : byteOf (~~~x) n = ~~~(byteOf x n) := by
  unfold byteOf
  apply BitVec.eq_of_getLsbD_eq
  intro j hj
  have : 56 - 8 * n + j < 64 := by omega
  simp [hj, this]

theorem byteOf_zero (n : Nat) : byteOf 0 n = 0 := by
  unfold byteOf
  apply BitVec.eq_of_getLsbD_eq
  intro j hj
  simp

theorem byteOf_laneMask (v : ByteSet) {n : Nat} (hn : n < 8) :
    byteOf (laneMask v) n = if v.getLsbD n then 0xFF else 0x00 := by
  unfold laneMask
  exact byteOf_join (fun n => if v.getLsbD n then 0xFF else 0x00) hn

/-- A merge takes the new byte at the bytes of the set and keeps the old byte elsewhere (R5). -/
theorem byteOf_mergeBytes (old new : LineData) (v : ByteSet) {n : Nat} (hn : n < 8) :
    byteOf (mergeBytes old new v) n = if v.getLsbD n then byteOf new n else byteOf old n := by
  unfold mergeBytes
  rw [byteOf_or, byteOf_and, byteOf_and, byteOf_not _ hn, byteOf_laneMask _ hn]
  have hz : ∀ b : Byte, b &&& 0#8 = 0#8 := fun b => BitVec.and_zero
  have hf : ∀ b : Byte, b &&& 255#8 = b := fun b => by
    apply BitVec.eq_of_getLsbD_eq
    intro j hj
    interval_cases j <;> simp
  split
  · rw [show ~~~(0xFF : Byte) = 0#8 from by decide]
    simp [hf]
  · rw [show ~~~(0x00 : Byte) = 255#8 from by decide]
    simp [hf]

/-- Outside a set of bytes the line is zero: what it means byte by byte (R2). -/
theorem outside_zero_iff {d : LineData} {v : ByteSet} :
    d &&& ~~~(laneMask v) = 0 ↔ ∀ n, n < 8 → v.getLsbD n = false → byteOf d n = 0 := by
  have hf : ∀ b : Byte, b &&& 255#8 = b := fun b => by
    apply BitVec.eq_of_getLsbD_eq
    intro j hj
    interval_cases j <;> simp
  constructor
  · intro h n hn hv
    have := congrArg (fun x => byteOf x n) h
    simp only [byteOf_and, byteOf_not _ hn, byteOf_laneMask _ hn, byteOf_zero, hv] at this
    simpa [hf, show ~~~(0x00 : Byte) = 255#8 from by decide] using this
  · intro h
    apply eq_of_byteOf
    intro n hn
    rw [byteOf_and, byteOf_not _ hn, byteOf_laneMask _ hn, byteOf_zero]
    cases hv : v.getLsbD n with
    | true => simp
    | false => simp [h n hn hv]

theorem mergeBytes_outside {old new : LineData} {v w : ByteSet} (hv : old &&& ~~~(laneMask v) = 0) :
    mergeBytes old new w &&& ~~~(laneMask (v ||| w)) = 0 := by
  rw [outside_zero_iff] at hv ⊢
  intro n hn ho
  rw [BitVec.getLsbD_or, Bool.or_eq_false_iff] at ho
  rw [byteOf_mergeBytes _ _ _ hn, ho.2]
  exact hv n hn ho.1

/-- The bytes of a line as read from the memory (R80). -/
theorem byteOf_readLine (m : Memory) (line : LineNo) {n : Nat} (hn : n < 8) :
    byteOf (m.readLine line) n = m.read (byteAddress line n) := by
  unfold Memory.readLine
  exact byteOf_join (fun n => m.read (byteAddress line n)) hn

/-- Data shifted to its byte numbers has no bit outside them. -/
theorem shifted_outside {w : Nat} (d : BitVec w) {len k n j sh : Nat} (hw : w ≤ 8 * len) (hk : k + len ≤ 8)
    (hs : sh + 8 * k = 64 - 8 * len) (hn : n < 8) (hj : j < 8) (ho : n < k ∨ k + len ≤ n) :
    (d.setWidth 64 <<< sh).getLsbD (56 - 8 * n + j) = false := by
  rw [BitVec.getLsbD_shiftLeft, BitVec.getLsbD_setWidth]
  rcases ho with ho | ho
  · rw [BitVec.getLsbD_of_ge d _ (by omega)]
    simp
  · have : 56 - 8 * n + j < sh := by omega
    simp [this]

/-- A byte number outside a run of `len` ones from bit `k`. -/
theorem ones_outside {ones : ByteSet} {len k n : Nat} (hones : ∀ i, i < 8 → (ones.getLsbD i = false → len ≤ i))
    (hn : n < 8) (hv : (ones <<< k).getLsbD n = false) : n < k ∨ k + len ≤ n := by
  rw [BitVec.getLsbD_shiftLeft] at hv
  by_cases h : n < k
  · exact Or.inl h
  · have := hones (n - k) (by omega) (by simpa [h, hn] using hv)
    exact Or.inr (by omega)

/-- The written bytes of an aligned access lie at its byte numbers, and every other byte of its data is 0x00 (R5). -/
theorem accessData_outside {a : Access} (h : aligned a = true) :
    accessData a &&& ~~~(laneMask (accessBytes a)) = 0 := by
  obtain ⟨i, address, op⟩ := a
  have hlt : lineOffset address < 8 := (address.extractLsb' 0 3).isLt
  have hmod : lineOffset address = address.toNat % 8 := by
    unfold lineOffset
    rw [BitVec.extractLsb'_toNat]
    simp
  rw [outside_zero_iff]
  intro n hn hv
  simp only [aligned, opBytes, beq_iff_eq] at h
  unfold byteOf
  apply BitVec.eq_of_getLsbD_eq
  intro j hj
  rw [BitVec.getLsbD_extractLsb']
  cases op with
  | read z => simp [accessData]
  | write8 d =>
    simp only [accessBytes, opBytes, accessData] at hv ⊢
    rw [shifted_outside (len := 1) d (by omega) (by omega) (by omega) hn hj
      (ones_outside (by decide) hn hv)]
    simp
  | write16 d =>
    simp only at h
    simp only [accessBytes, opBytes, accessData] at hv ⊢
    rw [shifted_outside (len := 2) d (by omega) (by omega) (by omega) hn hj
      (ones_outside (by decide) hn hv)]
    simp
  | write32 d =>
    simp only at h
    simp only [accessBytes, opBytes, accessData] at hv ⊢
    rw [shifted_outside (len := 4) d (by omega) (by omega) (by omega) hn hj
      (ones_outside (by decide) hn hv)]
    simp

end Sys2Proof.Machine
end

