-- ==== Sys2Proof/Laws/Copies.lean ====
section
/-! SUPPORT. The copies of the control area: a composed copy is valid, and its lines joined are the copy. -/

namespace Sys2Proof.Laws

open Sys2Proof Sys2Proof.Machine

/-- One more line joined below the upper lines of a value. -/
theorem join_step {w : Nat} (x : BitVec w) (m : Nat) :
    ((x >>> (64 * (m + 1))) <<< 64) ||| (x.extractLsb' (64 * m) 64).setWidth w = x >>> (64 * m) := by
  apply BitVec.eq_of_getLsbD_eq
  intro i hi
  simp only [BitVec.getLsbD_or, BitVec.getLsbD_shiftLeft, BitVec.getLsbD_ushiftRight, BitVec.getLsbD_setWidth,
    BitVec.getLsbD_extractLsb', hi, decide_true, Bool.true_and]
  by_cases h64 : i < 64
  · simp [h64]
  · have e : 64 * (m + 1) + (i - 64) = 64 * m + i := by omega
    simp [h64, e]

/-- The lines of a value, the most significant first, joined are the value. -/
theorem joinLines_lines (n : Nat) (x : BitVec (64 * n)) :
    joinLines (64 * n) ((List.range n).map (fun i => x.extractLsb' (64 * (n - 1 - i)) 64)) = x := by
  have key : ∀ k, k ≤ n →
      joinLines (64 * n) ((List.range k).map (fun i => x.extractLsb' (64 * (n - 1 - i)) 64)) =
        x >>> (64 * (n - k)) := by
    intro k
    induction k with
    | zero =>
      intro _
      apply BitVec.eq_of_getLsbD_eq
      intro i hi
      simp [joinLines]
    | succ k ih =>
      intro hk
      have step := join_step x (n - 1 - k)
      have e1 : n - 1 - k + 1 = n - k := by omega
      have e2 : n - 1 - k = n - (k + 1) := by omega
      rw [e1] at step
      rw [List.range_succ, List.map_append]
      simp only [joinLines, List.foldl_append, List.map_cons, List.map_nil, List.foldl_cons, List.foldl_nil] at ih ⊢
      rw [ih (by omega), step, e2]
  simpa using key n (le_refl n)

/-- The sixteen lines of a layout copy are the copy. -/
theorem joinLines_layoutCopyLine (l : Layout) (g : BitVec 32) :
    joinLines 1024 ((List.range 16).map (layoutCopyLine l g)) = layoutCopy l g :=
  joinLines_lines 16 (layoutCopy l g)

/-- The two lines of a progress copy are the copy. -/
theorem joinLines_progressCopyLine (p : ProgressContent) (g : BitVec 32) :
    joinLines 128 ((List.range 2).map (progressCopyLine p g)) = progressCopy p g :=
  joinLines_lines 2 (progressCopy p g)

/-- A composed layout copy ends with the check of its body. -/
theorem layoutCopy_check (l : Layout) (g : BitVec 32) :
    (layoutCopy l g).extractLsb' 0 32 = crc32 (bytesOf 124 ((layoutCopy l g).extractLsb' 32 992)) := by
  have body : (layoutCopy l g).extractLsb' 32 992 = layoutBody l g := BitVec.extractLsb'_append_eq_left
  rw [body]
  exact BitVec.extractLsb'_append_eq_right

/-- A composed progress copy ends with the check of its body. -/
theorem progressCopy_check (p : ProgressContent) (g : BitVec 32) :
    (progressCopy p g).extractLsb' 0 32 = crc32 (bytesOf 12 ((progressCopy p g).extractLsb' 32 96)) := by
  have body : (progressCopy p g).extractLsb' 32 96 = progressBody p g := BitVec.extractLsb'_append_eq_left
  rw [body]
  exact BitVec.extractLsb'_append_eq_right

/-- A composed layout copy is valid. -/
theorem layoutValid_layoutCopy (l : Layout) (g : BitVec 32) : layoutValid (layoutCopy l g) = true := by
  have kind : (layoutCopy l g).extractLsb' 1008 16 = 0x4C59 := by
    simp only [layoutCopy, layoutBody]
    rw [extract_append_high _ _ (by omega)]
    repeat rw [extract_append_high _ _ (by omega)]
    rfl
  have version : (layoutCopy l g).extractLsb' 1000 8 = 1 := by
    simp only [layoutCopy, layoutBody]
    rw [extract_append_high _ _ (by omega)]
    repeat rw [extract_append_high _ _ (by omega)]
    rw [extract_append_low _ _ (by omega)]
    rfl
  unfold layoutValid
  rw [kind, version, ← layoutCopy_check]
  simp

/-- A composed progress copy is valid. -/
theorem progressValid_progressCopy (p : ProgressContent) (g : BitVec 32) : progressValid (progressCopy p g) = true := by
  have kind : (progressCopy p g).extractLsb' 120 8 = 0x50 := by
    simp only [progressCopy, progressBody]
    rw [extract_append_high _ _ (by omega)]
    repeat rw [extract_append_high _ _ (by omega)]
    rfl
  unfold progressValid
  rw [kind, ← progressCopy_check]
  simp

end Sys2Proof.Laws
end

