-- ==== Sys2Proof/Laws/State.lean ====
section
/-! SUPPORT. One lemma per field per update of State, all true by rfl. -/

namespace Sys2Proof.Machine

@[simp] theorem State.setPowered_powered (s : State) (v : Bool) : (s.setPowered v).powered = v := rfl
@[simp] theorem State.setPowered_pins (s : State) (v : Bool) : (s.setPowered v).pins = s.pins := rfl
@[simp] theorem State.setPowered_mem (s : State) (v : Bool) : (s.setPowered v).mem = s.mem := rfl
@[simp] theorem State.setPowered_layout (s : State) (v : Bool) : (s.setPowered v).layout = s.layout := rfl
@[simp] theorem State.setPowered_access (s : State) (v : Bool) : (s.setPowered v).access = s.access := rfl
@[simp] theorem State.setPowered_queue (s : State) (v : Bool) : (s.setPowered v).queue = s.queue := rfl
@[simp] theorem State.setPowered_groups (s : State) (v : Bool) : (s.setPowered v).groups = s.groups := rfl
@[simp] theorem State.setPowered_engine (s : State) (v : Bool) : (s.setPowered v).engine = s.engine := rfl
@[simp] theorem State.setPowered_port (s : State) (v : Bool) : (s.setPowered v).port = s.port := rfl
@[simp] theorem State.setPowered_writer (s : State) (v : Bool) : (s.setPowered v).writer = s.writer := rfl
@[simp] theorem State.setPowered_control (s : State) (v : Bool) : (s.setPowered v).control = s.control := rfl
@[simp] theorem State.setPowered_start (s : State) (v : Bool) : (s.setPowered v).start = s.start := rfl
@[simp] theorem State.setPowered_recovery (s : State) (v : Bool) : (s.setPowered v).recovery = s.recovery := rfl
@[simp] theorem State.setPowered_shutdown (s : State) (v : Bool) : (s.setPowered v).shutdown = s.shutdown := rfl
@[simp] theorem State.setPowered_confinement (s : State) (v : Bool) : (s.setPowered v).confinement = s.confinement := rfl
@[simp] theorem State.setPowered_recorder (s : State) (v : Bool) : (s.setPowered v).recorder = s.recorder := rfl
@[simp] theorem State.setPowered_session (s : State) (v : Bool) : (s.setPowered v).session = s.session := rfl
@[simp] theorem State.setPowered_lineBefore (s : State) (v : Bool) : (s.setPowered v).lineBefore = s.lineBefore := rfl
@[simp] theorem State.setPowered_free (s : State) (v : Bool) : (s.setPowered v).free = s.free := rfl
@[simp] theorem State.setPowered_pending (s : State) (v : Bool) : (s.setPowered v).pending = s.pending := rfl

@[simp] theorem State.setPins_powered (s : State) (v : Pins) : (s.setPins v).powered = s.powered := rfl
@[simp] theorem State.setPins_pins (s : State) (v : Pins) : (s.setPins v).pins = v := rfl
@[simp] theorem State.setPins_mem (s : State) (v : Pins) : (s.setPins v).mem = s.mem := rfl
@[simp] theorem State.setPins_layout (s : State) (v : Pins) : (s.setPins v).layout = s.layout := rfl
@[simp] theorem State.setPins_access (s : State) (v : Pins) : (s.setPins v).access = s.access := rfl
@[simp] theorem State.setPins_queue (s : State) (v : Pins) : (s.setPins v).queue = s.queue := rfl
@[simp] theorem State.setPins_groups (s : State) (v : Pins) : (s.setPins v).groups = s.groups := rfl
@[simp] theorem State.setPins_engine (s : State) (v : Pins) : (s.setPins v).engine = s.engine := rfl
@[simp] theorem State.setPins_port (s : State) (v : Pins) : (s.setPins v).port = s.port := rfl
@[simp] theorem State.setPins_writer (s : State) (v : Pins) : (s.setPins v).writer = s.writer := rfl
@[simp] theorem State.setPins_control (s : State) (v : Pins) : (s.setPins v).control = s.control := rfl
@[simp] theorem State.setPins_start (s : State) (v : Pins) : (s.setPins v).start = s.start := rfl
@[simp] theorem State.setPins_recovery (s : State) (v : Pins) : (s.setPins v).recovery = s.recovery := rfl
@[simp] theorem State.setPins_shutdown (s : State) (v : Pins) : (s.setPins v).shutdown = s.shutdown := rfl
@[simp] theorem State.setPins_confinement (s : State) (v : Pins) : (s.setPins v).confinement = s.confinement := rfl
@[simp] theorem State.setPins_recorder (s : State) (v : Pins) : (s.setPins v).recorder = s.recorder := rfl
@[simp] theorem State.setPins_session (s : State) (v : Pins) : (s.setPins v).session = s.session := rfl
@[simp] theorem State.setPins_lineBefore (s : State) (v : Pins) : (s.setPins v).lineBefore = s.lineBefore := rfl
@[simp] theorem State.setPins_free (s : State) (v : Pins) : (s.setPins v).free = s.free := rfl
@[simp] theorem State.setPins_pending (s : State) (v : Pins) : (s.setPins v).pending = s.pending := rfl

@[simp] theorem State.setMem_powered (s : State) (v : Memory) : (s.setMem v).powered = s.powered := rfl
@[simp] theorem State.setMem_pins (s : State) (v : Memory) : (s.setMem v).pins = s.pins := rfl
@[simp] theorem State.setMem_mem (s : State) (v : Memory) : (s.setMem v).mem = v := rfl
@[simp] theorem State.setMem_layout (s : State) (v : Memory) : (s.setMem v).layout = s.layout := rfl
@[simp] theorem State.setMem_access (s : State) (v : Memory) : (s.setMem v).access = s.access := rfl
@[simp] theorem State.setMem_queue (s : State) (v : Memory) : (s.setMem v).queue = s.queue := rfl
@[simp] theorem State.setMem_groups (s : State) (v : Memory) : (s.setMem v).groups = s.groups := rfl
@[simp] theorem State.setMem_engine (s : State) (v : Memory) : (s.setMem v).engine = s.engine := rfl
@[simp] theorem State.setMem_port (s : State) (v : Memory) : (s.setMem v).port = s.port := rfl
@[simp] theorem State.setMem_writer (s : State) (v : Memory) : (s.setMem v).writer = s.writer := rfl
@[simp] theorem State.setMem_control (s : State) (v : Memory) : (s.setMem v).control = s.control := rfl
@[simp] theorem State.setMem_start (s : State) (v : Memory) : (s.setMem v).start = s.start := rfl
@[simp] theorem State.setMem_recovery (s : State) (v : Memory) : (s.setMem v).recovery = s.recovery := rfl
@[simp] theorem State.setMem_shutdown (s : State) (v : Memory) : (s.setMem v).shutdown = s.shutdown := rfl
@[simp] theorem State.setMem_confinement (s : State) (v : Memory) : (s.setMem v).confinement = s.confinement := rfl
@[simp] theorem State.setMem_recorder (s : State) (v : Memory) : (s.setMem v).recorder = s.recorder := rfl
@[simp] theorem State.setMem_session (s : State) (v : Memory) : (s.setMem v).session = s.session := rfl
@[simp] theorem State.setMem_lineBefore (s : State) (v : Memory) : (s.setMem v).lineBefore = s.lineBefore := rfl
@[simp] theorem State.setMem_free (s : State) (v : Memory) : (s.setMem v).free = s.free := rfl
@[simp] theorem State.setMem_pending (s : State) (v : Memory) : (s.setMem v).pending = s.pending := rfl

@[simp] theorem State.setLayout_powered (s : State) (v : Layout) : (s.setLayout v).powered = s.powered := rfl
@[simp] theorem State.setLayout_pins (s : State) (v : Layout) : (s.setLayout v).pins = s.pins := rfl
@[simp] theorem State.setLayout_mem (s : State) (v : Layout) : (s.setLayout v).mem = s.mem := rfl
@[simp] theorem State.setLayout_layout (s : State) (v : Layout) : (s.setLayout v).layout = v := rfl
@[simp] theorem State.setLayout_access (s : State) (v : Layout) : (s.setLayout v).access = s.access := rfl
@[simp] theorem State.setLayout_queue (s : State) (v : Layout) : (s.setLayout v).queue = s.queue := rfl
@[simp] theorem State.setLayout_groups (s : State) (v : Layout) : (s.setLayout v).groups = s.groups := rfl
@[simp] theorem State.setLayout_engine (s : State) (v : Layout) : (s.setLayout v).engine = s.engine := rfl
@[simp] theorem State.setLayout_port (s : State) (v : Layout) : (s.setLayout v).port = s.port := rfl
@[simp] theorem State.setLayout_writer (s : State) (v : Layout) : (s.setLayout v).writer = s.writer := rfl
@[simp] theorem State.setLayout_control (s : State) (v : Layout) : (s.setLayout v).control = s.control := rfl
@[simp] theorem State.setLayout_start (s : State) (v : Layout) : (s.setLayout v).start = s.start := rfl
@[simp] theorem State.setLayout_recovery (s : State) (v : Layout) : (s.setLayout v).recovery = s.recovery := rfl
@[simp] theorem State.setLayout_shutdown (s : State) (v : Layout) : (s.setLayout v).shutdown = s.shutdown := rfl
@[simp] theorem State.setLayout_confinement (s : State) (v : Layout) : (s.setLayout v).confinement = s.confinement := rfl
@[simp] theorem State.setLayout_recorder (s : State) (v : Layout) : (s.setLayout v).recorder = s.recorder := rfl
@[simp] theorem State.setLayout_session (s : State) (v : Layout) : (s.setLayout v).session = s.session := rfl
@[simp] theorem State.setLayout_lineBefore (s : State) (v : Layout) : (s.setLayout v).lineBefore = s.lineBefore := rfl
@[simp] theorem State.setLayout_free (s : State) (v : Layout) : (s.setLayout v).free = s.free := rfl
@[simp] theorem State.setLayout_pending (s : State) (v : Layout) : (s.setLayout v).pending = s.pending := rfl

@[simp] theorem State.setAccess_powered (s : State) (v : AccessUnit) : (s.setAccess v).powered = s.powered := rfl
@[simp] theorem State.setAccess_pins (s : State) (v : AccessUnit) : (s.setAccess v).pins = s.pins := rfl
@[simp] theorem State.setAccess_mem (s : State) (v : AccessUnit) : (s.setAccess v).mem = s.mem := rfl
@[simp] theorem State.setAccess_layout (s : State) (v : AccessUnit) : (s.setAccess v).layout = s.layout := rfl
@[simp] theorem State.setAccess_access (s : State) (v : AccessUnit) : (s.setAccess v).access = v := rfl
@[simp] theorem State.setAccess_queue (s : State) (v : AccessUnit) : (s.setAccess v).queue = s.queue := rfl
@[simp] theorem State.setAccess_groups (s : State) (v : AccessUnit) : (s.setAccess v).groups = s.groups := rfl
@[simp] theorem State.setAccess_engine (s : State) (v : AccessUnit) : (s.setAccess v).engine = s.engine := rfl
@[simp] theorem State.setAccess_port (s : State) (v : AccessUnit) : (s.setAccess v).port = s.port := rfl
@[simp] theorem State.setAccess_writer (s : State) (v : AccessUnit) : (s.setAccess v).writer = s.writer := rfl
@[simp] theorem State.setAccess_control (s : State) (v : AccessUnit) : (s.setAccess v).control = s.control := rfl
@[simp] theorem State.setAccess_start (s : State) (v : AccessUnit) : (s.setAccess v).start = s.start := rfl
@[simp] theorem State.setAccess_recovery (s : State) (v : AccessUnit) : (s.setAccess v).recovery = s.recovery := rfl
@[simp] theorem State.setAccess_shutdown (s : State) (v : AccessUnit) : (s.setAccess v).shutdown = s.shutdown := rfl
@[simp] theorem State.setAccess_confinement (s : State) (v : AccessUnit) : (s.setAccess v).confinement = s.confinement := rfl
@[simp] theorem State.setAccess_recorder (s : State) (v : AccessUnit) : (s.setAccess v).recorder = s.recorder := rfl
@[simp] theorem State.setAccess_session (s : State) (v : AccessUnit) : (s.setAccess v).session = s.session := rfl
@[simp] theorem State.setAccess_lineBefore (s : State) (v : AccessUnit) : (s.setAccess v).lineBefore = s.lineBefore := rfl
@[simp] theorem State.setAccess_free (s : State) (v : AccessUnit) : (s.setAccess v).free = s.free := rfl
@[simp] theorem State.setAccess_pending (s : State) (v : AccessUnit) : (s.setAccess v).pending = s.pending := rfl

@[simp] theorem State.setQueue_powered (s : State) (v : PostingQueue) : (s.setQueue v).powered = s.powered := rfl
@[simp] theorem State.setQueue_pins (s : State) (v : PostingQueue) : (s.setQueue v).pins = s.pins := rfl
@[simp] theorem State.setQueue_mem (s : State) (v : PostingQueue) : (s.setQueue v).mem = s.mem := rfl
@[simp] theorem State.setQueue_layout (s : State) (v : PostingQueue) : (s.setQueue v).layout = s.layout := rfl
@[simp] theorem State.setQueue_access (s : State) (v : PostingQueue) : (s.setQueue v).access = s.access := rfl
@[simp] theorem State.setQueue_queue (s : State) (v : PostingQueue) : (s.setQueue v).queue = v := rfl
@[simp] theorem State.setQueue_groups (s : State) (v : PostingQueue) : (s.setQueue v).groups = s.groups := rfl
@[simp] theorem State.setQueue_engine (s : State) (v : PostingQueue) : (s.setQueue v).engine = s.engine := rfl
@[simp] theorem State.setQueue_port (s : State) (v : PostingQueue) : (s.setQueue v).port = s.port := rfl
@[simp] theorem State.setQueue_writer (s : State) (v : PostingQueue) : (s.setQueue v).writer = s.writer := rfl
@[simp] theorem State.setQueue_control (s : State) (v : PostingQueue) : (s.setQueue v).control = s.control := rfl
@[simp] theorem State.setQueue_start (s : State) (v : PostingQueue) : (s.setQueue v).start = s.start := rfl
@[simp] theorem State.setQueue_recovery (s : State) (v : PostingQueue) : (s.setQueue v).recovery = s.recovery := rfl
@[simp] theorem State.setQueue_shutdown (s : State) (v : PostingQueue) : (s.setQueue v).shutdown = s.shutdown := rfl
@[simp] theorem State.setQueue_confinement (s : State) (v : PostingQueue) : (s.setQueue v).confinement = s.confinement := rfl
@[simp] theorem State.setQueue_recorder (s : State) (v : PostingQueue) : (s.setQueue v).recorder = s.recorder := rfl
@[simp] theorem State.setQueue_session (s : State) (v : PostingQueue) : (s.setQueue v).session = s.session := rfl
@[simp] theorem State.setQueue_lineBefore (s : State) (v : PostingQueue) : (s.setQueue v).lineBefore = s.lineBefore := rfl
@[simp] theorem State.setQueue_free (s : State) (v : PostingQueue) : (s.setQueue v).free = s.free := rfl
@[simp] theorem State.setQueue_pending (s : State) (v : PostingQueue) : (s.setQueue v).pending = s.pending := rfl

@[simp] theorem State.setGroups_powered (s : State) (v : GroupTracker) : (s.setGroups v).powered = s.powered := rfl
@[simp] theorem State.setGroups_pins (s : State) (v : GroupTracker) : (s.setGroups v).pins = s.pins := rfl
@[simp] theorem State.setGroups_mem (s : State) (v : GroupTracker) : (s.setGroups v).mem = s.mem := rfl
@[simp] theorem State.setGroups_layout (s : State) (v : GroupTracker) : (s.setGroups v).layout = s.layout := rfl
@[simp] theorem State.setGroups_access (s : State) (v : GroupTracker) : (s.setGroups v).access = s.access := rfl
@[simp] theorem State.setGroups_queue (s : State) (v : GroupTracker) : (s.setGroups v).queue = s.queue := rfl
@[simp] theorem State.setGroups_groups (s : State) (v : GroupTracker) : (s.setGroups v).groups = v := rfl
@[simp] theorem State.setGroups_engine (s : State) (v : GroupTracker) : (s.setGroups v).engine = s.engine := rfl
@[simp] theorem State.setGroups_port (s : State) (v : GroupTracker) : (s.setGroups v).port = s.port := rfl
@[simp] theorem State.setGroups_writer (s : State) (v : GroupTracker) : (s.setGroups v).writer = s.writer := rfl
@[simp] theorem State.setGroups_control (s : State) (v : GroupTracker) : (s.setGroups v).control = s.control := rfl
@[simp] theorem State.setGroups_start (s : State) (v : GroupTracker) : (s.setGroups v).start = s.start := rfl
@[simp] theorem State.setGroups_recovery (s : State) (v : GroupTracker) : (s.setGroups v).recovery = s.recovery := rfl
@[simp] theorem State.setGroups_shutdown (s : State) (v : GroupTracker) : (s.setGroups v).shutdown = s.shutdown := rfl
@[simp] theorem State.setGroups_confinement (s : State) (v : GroupTracker) : (s.setGroups v).confinement = s.confinement := rfl
@[simp] theorem State.setGroups_recorder (s : State) (v : GroupTracker) : (s.setGroups v).recorder = s.recorder := rfl
@[simp] theorem State.setGroups_session (s : State) (v : GroupTracker) : (s.setGroups v).session = s.session := rfl
@[simp] theorem State.setGroups_lineBefore (s : State) (v : GroupTracker) : (s.setGroups v).lineBefore = s.lineBefore := rfl
@[simp] theorem State.setGroups_free (s : State) (v : GroupTracker) : (s.setGroups v).free = s.free := rfl
@[simp] theorem State.setGroups_pending (s : State) (v : GroupTracker) : (s.setGroups v).pending = s.pending := rfl

@[simp] theorem State.setEngine_powered (s : State) (v : JournalEngine) : (s.setEngine v).powered = s.powered := rfl
@[simp] theorem State.setEngine_pins (s : State) (v : JournalEngine) : (s.setEngine v).pins = s.pins := rfl
@[simp] theorem State.setEngine_mem (s : State) (v : JournalEngine) : (s.setEngine v).mem = s.mem := rfl
@[simp] theorem State.setEngine_layout (s : State) (v : JournalEngine) : (s.setEngine v).layout = s.layout := rfl
@[simp] theorem State.setEngine_access (s : State) (v : JournalEngine) : (s.setEngine v).access = s.access := rfl
@[simp] theorem State.setEngine_queue (s : State) (v : JournalEngine) : (s.setEngine v).queue = s.queue := rfl
@[simp] theorem State.setEngine_groups (s : State) (v : JournalEngine) : (s.setEngine v).groups = s.groups := rfl
@[simp] theorem State.setEngine_engine (s : State) (v : JournalEngine) : (s.setEngine v).engine = v := rfl
@[simp] theorem State.setEngine_port (s : State) (v : JournalEngine) : (s.setEngine v).port = s.port := rfl
@[simp] theorem State.setEngine_writer (s : State) (v : JournalEngine) : (s.setEngine v).writer = s.writer := rfl
@[simp] theorem State.setEngine_control (s : State) (v : JournalEngine) : (s.setEngine v).control = s.control := rfl
@[simp] theorem State.setEngine_start (s : State) (v : JournalEngine) : (s.setEngine v).start = s.start := rfl
@[simp] theorem State.setEngine_recovery (s : State) (v : JournalEngine) : (s.setEngine v).recovery = s.recovery := rfl
@[simp] theorem State.setEngine_shutdown (s : State) (v : JournalEngine) : (s.setEngine v).shutdown = s.shutdown := rfl
@[simp] theorem State.setEngine_confinement (s : State) (v : JournalEngine) : (s.setEngine v).confinement = s.confinement := rfl
@[simp] theorem State.setEngine_recorder (s : State) (v : JournalEngine) : (s.setEngine v).recorder = s.recorder := rfl
@[simp] theorem State.setEngine_session (s : State) (v : JournalEngine) : (s.setEngine v).session = s.session := rfl
@[simp] theorem State.setEngine_lineBefore (s : State) (v : JournalEngine) : (s.setEngine v).lineBefore = s.lineBefore := rfl
@[simp] theorem State.setEngine_free (s : State) (v : JournalEngine) : (s.setEngine v).free = s.free := rfl
@[simp] theorem State.setEngine_pending (s : State) (v : JournalEngine) : (s.setEngine v).pending = s.pending := rfl

@[simp] theorem State.setPort_powered (s : State) (v : ArrayPort) : (s.setPort v).powered = s.powered := rfl
@[simp] theorem State.setPort_pins (s : State) (v : ArrayPort) : (s.setPort v).pins = s.pins := rfl
@[simp] theorem State.setPort_mem (s : State) (v : ArrayPort) : (s.setPort v).mem = s.mem := rfl
@[simp] theorem State.setPort_layout (s : State) (v : ArrayPort) : (s.setPort v).layout = s.layout := rfl
@[simp] theorem State.setPort_access (s : State) (v : ArrayPort) : (s.setPort v).access = s.access := rfl
@[simp] theorem State.setPort_queue (s : State) (v : ArrayPort) : (s.setPort v).queue = s.queue := rfl
@[simp] theorem State.setPort_groups (s : State) (v : ArrayPort) : (s.setPort v).groups = s.groups := rfl
@[simp] theorem State.setPort_engine (s : State) (v : ArrayPort) : (s.setPort v).engine = s.engine := rfl
@[simp] theorem State.setPort_port (s : State) (v : ArrayPort) : (s.setPort v).port = v := rfl
@[simp] theorem State.setPort_writer (s : State) (v : ArrayPort) : (s.setPort v).writer = s.writer := rfl
@[simp] theorem State.setPort_control (s : State) (v : ArrayPort) : (s.setPort v).control = s.control := rfl
@[simp] theorem State.setPort_start (s : State) (v : ArrayPort) : (s.setPort v).start = s.start := rfl
@[simp] theorem State.setPort_recovery (s : State) (v : ArrayPort) : (s.setPort v).recovery = s.recovery := rfl
@[simp] theorem State.setPort_shutdown (s : State) (v : ArrayPort) : (s.setPort v).shutdown = s.shutdown := rfl
@[simp] theorem State.setPort_confinement (s : State) (v : ArrayPort) : (s.setPort v).confinement = s.confinement := rfl
@[simp] theorem State.setPort_recorder (s : State) (v : ArrayPort) : (s.setPort v).recorder = s.recorder := rfl
@[simp] theorem State.setPort_session (s : State) (v : ArrayPort) : (s.setPort v).session = s.session := rfl
@[simp] theorem State.setPort_lineBefore (s : State) (v : ArrayPort) : (s.setPort v).lineBefore = s.lineBefore := rfl
@[simp] theorem State.setPort_free (s : State) (v : ArrayPort) : (s.setPort v).free = s.free := rfl
@[simp] theorem State.setPort_pending (s : State) (v : ArrayPort) : (s.setPort v).pending = s.pending := rfl

@[simp] theorem State.setWriter_powered (s : State) (v : ControlWriter) : (s.setWriter v).powered = s.powered := rfl
@[simp] theorem State.setWriter_pins (s : State) (v : ControlWriter) : (s.setWriter v).pins = s.pins := rfl
@[simp] theorem State.setWriter_mem (s : State) (v : ControlWriter) : (s.setWriter v).mem = s.mem := rfl
@[simp] theorem State.setWriter_layout (s : State) (v : ControlWriter) : (s.setWriter v).layout = s.layout := rfl
@[simp] theorem State.setWriter_access (s : State) (v : ControlWriter) : (s.setWriter v).access = s.access := rfl
@[simp] theorem State.setWriter_queue (s : State) (v : ControlWriter) : (s.setWriter v).queue = s.queue := rfl
@[simp] theorem State.setWriter_groups (s : State) (v : ControlWriter) : (s.setWriter v).groups = s.groups := rfl
@[simp] theorem State.setWriter_engine (s : State) (v : ControlWriter) : (s.setWriter v).engine = s.engine := rfl
@[simp] theorem State.setWriter_port (s : State) (v : ControlWriter) : (s.setWriter v).port = s.port := rfl
@[simp] theorem State.setWriter_writer (s : State) (v : ControlWriter) : (s.setWriter v).writer = v := rfl
@[simp] theorem State.setWriter_control (s : State) (v : ControlWriter) : (s.setWriter v).control = s.control := rfl
@[simp] theorem State.setWriter_start (s : State) (v : ControlWriter) : (s.setWriter v).start = s.start := rfl
@[simp] theorem State.setWriter_recovery (s : State) (v : ControlWriter) : (s.setWriter v).recovery = s.recovery := rfl
@[simp] theorem State.setWriter_shutdown (s : State) (v : ControlWriter) : (s.setWriter v).shutdown = s.shutdown := rfl
@[simp] theorem State.setWriter_confinement (s : State) (v : ControlWriter) : (s.setWriter v).confinement = s.confinement := rfl
@[simp] theorem State.setWriter_recorder (s : State) (v : ControlWriter) : (s.setWriter v).recorder = s.recorder := rfl
@[simp] theorem State.setWriter_session (s : State) (v : ControlWriter) : (s.setWriter v).session = s.session := rfl
@[simp] theorem State.setWriter_lineBefore (s : State) (v : ControlWriter) : (s.setWriter v).lineBefore = s.lineBefore := rfl
@[simp] theorem State.setWriter_free (s : State) (v : ControlWriter) : (s.setWriter v).free = s.free := rfl
@[simp] theorem State.setWriter_pending (s : State) (v : ControlWriter) : (s.setWriter v).pending = s.pending := rfl

@[simp] theorem State.setControl_powered (s : State) (v : ModeController) : (s.setControl v).powered = s.powered := rfl
@[simp] theorem State.setControl_pins (s : State) (v : ModeController) : (s.setControl v).pins = s.pins := rfl
@[simp] theorem State.setControl_mem (s : State) (v : ModeController) : (s.setControl v).mem = s.mem := rfl
@[simp] theorem State.setControl_layout (s : State) (v : ModeController) : (s.setControl v).layout = s.layout := rfl
@[simp] theorem State.setControl_access (s : State) (v : ModeController) : (s.setControl v).access = s.access := rfl
@[simp] theorem State.setControl_queue (s : State) (v : ModeController) : (s.setControl v).queue = s.queue := rfl
@[simp] theorem State.setControl_groups (s : State) (v : ModeController) : (s.setControl v).groups = s.groups := rfl
@[simp] theorem State.setControl_engine (s : State) (v : ModeController) : (s.setControl v).engine = s.engine := rfl
@[simp] theorem State.setControl_port (s : State) (v : ModeController) : (s.setControl v).port = s.port := rfl
@[simp] theorem State.setControl_writer (s : State) (v : ModeController) : (s.setControl v).writer = s.writer := rfl
@[simp] theorem State.setControl_control (s : State) (v : ModeController) : (s.setControl v).control = v := rfl
@[simp] theorem State.setControl_start (s : State) (v : ModeController) : (s.setControl v).start = s.start := rfl
@[simp] theorem State.setControl_recovery (s : State) (v : ModeController) : (s.setControl v).recovery = s.recovery := rfl
@[simp] theorem State.setControl_shutdown (s : State) (v : ModeController) : (s.setControl v).shutdown = s.shutdown := rfl
@[simp] theorem State.setControl_confinement (s : State) (v : ModeController) : (s.setControl v).confinement = s.confinement := rfl
@[simp] theorem State.setControl_recorder (s : State) (v : ModeController) : (s.setControl v).recorder = s.recorder := rfl
@[simp] theorem State.setControl_session (s : State) (v : ModeController) : (s.setControl v).session = s.session := rfl
@[simp] theorem State.setControl_lineBefore (s : State) (v : ModeController) : (s.setControl v).lineBefore = s.lineBefore := rfl
@[simp] theorem State.setControl_free (s : State) (v : ModeController) : (s.setControl v).free = s.free := rfl
@[simp] theorem State.setControl_pending (s : State) (v : ModeController) : (s.setControl v).pending = s.pending := rfl

@[simp] theorem State.setStart_powered (s : State) (v : StartSequence) : (s.setStart v).powered = s.powered := rfl
@[simp] theorem State.setStart_pins (s : State) (v : StartSequence) : (s.setStart v).pins = s.pins := rfl
@[simp] theorem State.setStart_mem (s : State) (v : StartSequence) : (s.setStart v).mem = s.mem := rfl
@[simp] theorem State.setStart_layout (s : State) (v : StartSequence) : (s.setStart v).layout = s.layout := rfl
@[simp] theorem State.setStart_access (s : State) (v : StartSequence) : (s.setStart v).access = s.access := rfl
@[simp] theorem State.setStart_queue (s : State) (v : StartSequence) : (s.setStart v).queue = s.queue := rfl
@[simp] theorem State.setStart_groups (s : State) (v : StartSequence) : (s.setStart v).groups = s.groups := rfl
@[simp] theorem State.setStart_engine (s : State) (v : StartSequence) : (s.setStart v).engine = s.engine := rfl
@[simp] theorem State.setStart_port (s : State) (v : StartSequence) : (s.setStart v).port = s.port := rfl
@[simp] theorem State.setStart_writer (s : State) (v : StartSequence) : (s.setStart v).writer = s.writer := rfl
@[simp] theorem State.setStart_control (s : State) (v : StartSequence) : (s.setStart v).control = s.control := rfl
@[simp] theorem State.setStart_start (s : State) (v : StartSequence) : (s.setStart v).start = v := rfl
@[simp] theorem State.setStart_recovery (s : State) (v : StartSequence) : (s.setStart v).recovery = s.recovery := rfl
@[simp] theorem State.setStart_shutdown (s : State) (v : StartSequence) : (s.setStart v).shutdown = s.shutdown := rfl
@[simp] theorem State.setStart_confinement (s : State) (v : StartSequence) : (s.setStart v).confinement = s.confinement := rfl
@[simp] theorem State.setStart_recorder (s : State) (v : StartSequence) : (s.setStart v).recorder = s.recorder := rfl
@[simp] theorem State.setStart_session (s : State) (v : StartSequence) : (s.setStart v).session = s.session := rfl
@[simp] theorem State.setStart_lineBefore (s : State) (v : StartSequence) : (s.setStart v).lineBefore = s.lineBefore := rfl
@[simp] theorem State.setStart_free (s : State) (v : StartSequence) : (s.setStart v).free = s.free := rfl
@[simp] theorem State.setStart_pending (s : State) (v : StartSequence) : (s.setStart v).pending = s.pending := rfl

@[simp] theorem State.setRecovery_powered (s : State) (v : Option Recovery) : (s.setRecovery v).powered = s.powered := rfl
@[simp] theorem State.setRecovery_pins (s : State) (v : Option Recovery) : (s.setRecovery v).pins = s.pins := rfl
@[simp] theorem State.setRecovery_mem (s : State) (v : Option Recovery) : (s.setRecovery v).mem = s.mem := rfl
@[simp] theorem State.setRecovery_layout (s : State) (v : Option Recovery) : (s.setRecovery v).layout = s.layout := rfl
@[simp] theorem State.setRecovery_access (s : State) (v : Option Recovery) : (s.setRecovery v).access = s.access := rfl
@[simp] theorem State.setRecovery_queue (s : State) (v : Option Recovery) : (s.setRecovery v).queue = s.queue := rfl
@[simp] theorem State.setRecovery_groups (s : State) (v : Option Recovery) : (s.setRecovery v).groups = s.groups := rfl
@[simp] theorem State.setRecovery_engine (s : State) (v : Option Recovery) : (s.setRecovery v).engine = s.engine := rfl
@[simp] theorem State.setRecovery_port (s : State) (v : Option Recovery) : (s.setRecovery v).port = s.port := rfl
@[simp] theorem State.setRecovery_writer (s : State) (v : Option Recovery) : (s.setRecovery v).writer = s.writer := rfl
@[simp] theorem State.setRecovery_control (s : State) (v : Option Recovery) : (s.setRecovery v).control = s.control := rfl
@[simp] theorem State.setRecovery_start (s : State) (v : Option Recovery) : (s.setRecovery v).start = s.start := rfl
@[simp] theorem State.setRecovery_recovery (s : State) (v : Option Recovery) : (s.setRecovery v).recovery = v := rfl
@[simp] theorem State.setRecovery_shutdown (s : State) (v : Option Recovery) : (s.setRecovery v).shutdown = s.shutdown := rfl
@[simp] theorem State.setRecovery_confinement (s : State) (v : Option Recovery) : (s.setRecovery v).confinement = s.confinement := rfl
@[simp] theorem State.setRecovery_recorder (s : State) (v : Option Recovery) : (s.setRecovery v).recorder = s.recorder := rfl
@[simp] theorem State.setRecovery_session (s : State) (v : Option Recovery) : (s.setRecovery v).session = s.session := rfl
@[simp] theorem State.setRecovery_lineBefore (s : State) (v : Option Recovery) : (s.setRecovery v).lineBefore = s.lineBefore := rfl
@[simp] theorem State.setRecovery_free (s : State) (v : Option Recovery) : (s.setRecovery v).free = s.free := rfl
@[simp] theorem State.setRecovery_pending (s : State) (v : Option Recovery) : (s.setRecovery v).pending = s.pending := rfl

@[simp] theorem State.setShutdown_powered (s : State) (v : ShutdownSequencer) : (s.setShutdown v).powered = s.powered := rfl
@[simp] theorem State.setShutdown_pins (s : State) (v : ShutdownSequencer) : (s.setShutdown v).pins = s.pins := rfl
@[simp] theorem State.setShutdown_mem (s : State) (v : ShutdownSequencer) : (s.setShutdown v).mem = s.mem := rfl
@[simp] theorem State.setShutdown_layout (s : State) (v : ShutdownSequencer) : (s.setShutdown v).layout = s.layout := rfl
@[simp] theorem State.setShutdown_access (s : State) (v : ShutdownSequencer) : (s.setShutdown v).access = s.access := rfl
@[simp] theorem State.setShutdown_queue (s : State) (v : ShutdownSequencer) : (s.setShutdown v).queue = s.queue := rfl
@[simp] theorem State.setShutdown_groups (s : State) (v : ShutdownSequencer) : (s.setShutdown v).groups = s.groups := rfl
@[simp] theorem State.setShutdown_engine (s : State) (v : ShutdownSequencer) : (s.setShutdown v).engine = s.engine := rfl
@[simp] theorem State.setShutdown_port (s : State) (v : ShutdownSequencer) : (s.setShutdown v).port = s.port := rfl
@[simp] theorem State.setShutdown_writer (s : State) (v : ShutdownSequencer) : (s.setShutdown v).writer = s.writer := rfl
@[simp] theorem State.setShutdown_control (s : State) (v : ShutdownSequencer) : (s.setShutdown v).control = s.control := rfl
@[simp] theorem State.setShutdown_start (s : State) (v : ShutdownSequencer) : (s.setShutdown v).start = s.start := rfl
@[simp] theorem State.setShutdown_recovery (s : State) (v : ShutdownSequencer) : (s.setShutdown v).recovery = s.recovery := rfl
@[simp] theorem State.setShutdown_shutdown (s : State) (v : ShutdownSequencer) : (s.setShutdown v).shutdown = v := rfl
@[simp] theorem State.setShutdown_confinement (s : State) (v : ShutdownSequencer) : (s.setShutdown v).confinement = s.confinement := rfl
@[simp] theorem State.setShutdown_recorder (s : State) (v : ShutdownSequencer) : (s.setShutdown v).recorder = s.recorder := rfl
@[simp] theorem State.setShutdown_session (s : State) (v : ShutdownSequencer) : (s.setShutdown v).session = s.session := rfl
@[simp] theorem State.setShutdown_lineBefore (s : State) (v : ShutdownSequencer) : (s.setShutdown v).lineBefore = s.lineBefore := rfl
@[simp] theorem State.setShutdown_free (s : State) (v : ShutdownSequencer) : (s.setShutdown v).free = s.free := rfl
@[simp] theorem State.setShutdown_pending (s : State) (v : ShutdownSequencer) : (s.setShutdown v).pending = s.pending := rfl

@[simp] theorem State.setConfinement_powered (s : State) (v : Vector InitiatorRecord 4) : (s.setConfinement v).powered = s.powered := rfl
@[simp] theorem State.setConfinement_pins (s : State) (v : Vector InitiatorRecord 4) : (s.setConfinement v).pins = s.pins := rfl
@[simp] theorem State.setConfinement_mem (s : State) (v : Vector InitiatorRecord 4) : (s.setConfinement v).mem = s.mem := rfl
@[simp] theorem State.setConfinement_layout (s : State) (v : Vector InitiatorRecord 4) : (s.setConfinement v).layout = s.layout := rfl
@[simp] theorem State.setConfinement_access (s : State) (v : Vector InitiatorRecord 4) : (s.setConfinement v).access = s.access := rfl
@[simp] theorem State.setConfinement_queue (s : State) (v : Vector InitiatorRecord 4) : (s.setConfinement v).queue = s.queue := rfl
@[simp] theorem State.setConfinement_groups (s : State) (v : Vector InitiatorRecord 4) : (s.setConfinement v).groups = s.groups := rfl
@[simp] theorem State.setConfinement_engine (s : State) (v : Vector InitiatorRecord 4) : (s.setConfinement v).engine = s.engine := rfl
@[simp] theorem State.setConfinement_port (s : State) (v : Vector InitiatorRecord 4) : (s.setConfinement v).port = s.port := rfl
@[simp] theorem State.setConfinement_writer (s : State) (v : Vector InitiatorRecord 4) : (s.setConfinement v).writer = s.writer := rfl
@[simp] theorem State.setConfinement_control (s : State) (v : Vector InitiatorRecord 4) : (s.setConfinement v).control = s.control := rfl
@[simp] theorem State.setConfinement_start (s : State) (v : Vector InitiatorRecord 4) : (s.setConfinement v).start = s.start := rfl
@[simp] theorem State.setConfinement_recovery (s : State) (v : Vector InitiatorRecord 4) : (s.setConfinement v).recovery = s.recovery := rfl
@[simp] theorem State.setConfinement_shutdown (s : State) (v : Vector InitiatorRecord 4) : (s.setConfinement v).shutdown = s.shutdown := rfl
@[simp] theorem State.setConfinement_confinement (s : State) (v : Vector InitiatorRecord 4) : (s.setConfinement v).confinement = v := rfl
@[simp] theorem State.setConfinement_recorder (s : State) (v : Vector InitiatorRecord 4) : (s.setConfinement v).recorder = s.recorder := rfl
@[simp] theorem State.setConfinement_session (s : State) (v : Vector InitiatorRecord 4) : (s.setConfinement v).session = s.session := rfl
@[simp] theorem State.setConfinement_lineBefore (s : State) (v : Vector InitiatorRecord 4) : (s.setConfinement v).lineBefore = s.lineBefore := rfl
@[simp] theorem State.setConfinement_free (s : State) (v : Vector InitiatorRecord 4) : (s.setConfinement v).free = s.free := rfl
@[simp] theorem State.setConfinement_pending (s : State) (v : Vector InitiatorRecord 4) : (s.setConfinement v).pending = s.pending := rfl

@[simp] theorem State.setRecorder_powered (s : State) (v : IncidentRecorder) : (s.setRecorder v).powered = s.powered := rfl
@[simp] theorem State.setRecorder_pins (s : State) (v : IncidentRecorder) : (s.setRecorder v).pins = s.pins := rfl
@[simp] theorem State.setRecorder_mem (s : State) (v : IncidentRecorder) : (s.setRecorder v).mem = s.mem := rfl
@[simp] theorem State.setRecorder_layout (s : State) (v : IncidentRecorder) : (s.setRecorder v).layout = s.layout := rfl
@[simp] theorem State.setRecorder_access (s : State) (v : IncidentRecorder) : (s.setRecorder v).access = s.access := rfl
@[simp] theorem State.setRecorder_queue (s : State) (v : IncidentRecorder) : (s.setRecorder v).queue = s.queue := rfl
@[simp] theorem State.setRecorder_groups (s : State) (v : IncidentRecorder) : (s.setRecorder v).groups = s.groups := rfl
@[simp] theorem State.setRecorder_engine (s : State) (v : IncidentRecorder) : (s.setRecorder v).engine = s.engine := rfl
@[simp] theorem State.setRecorder_port (s : State) (v : IncidentRecorder) : (s.setRecorder v).port = s.port := rfl
@[simp] theorem State.setRecorder_writer (s : State) (v : IncidentRecorder) : (s.setRecorder v).writer = s.writer := rfl
@[simp] theorem State.setRecorder_control (s : State) (v : IncidentRecorder) : (s.setRecorder v).control = s.control := rfl
@[simp] theorem State.setRecorder_start (s : State) (v : IncidentRecorder) : (s.setRecorder v).start = s.start := rfl
@[simp] theorem State.setRecorder_recovery (s : State) (v : IncidentRecorder) : (s.setRecorder v).recovery = s.recovery := rfl
@[simp] theorem State.setRecorder_shutdown (s : State) (v : IncidentRecorder) : (s.setRecorder v).shutdown = s.shutdown := rfl
@[simp] theorem State.setRecorder_confinement (s : State) (v : IncidentRecorder) : (s.setRecorder v).confinement = s.confinement := rfl
@[simp] theorem State.setRecorder_recorder (s : State) (v : IncidentRecorder) : (s.setRecorder v).recorder = v := rfl
@[simp] theorem State.setRecorder_session (s : State) (v : IncidentRecorder) : (s.setRecorder v).session = s.session := rfl
@[simp] theorem State.setRecorder_lineBefore (s : State) (v : IncidentRecorder) : (s.setRecorder v).lineBefore = s.lineBefore := rfl
@[simp] theorem State.setRecorder_free (s : State) (v : IncidentRecorder) : (s.setRecorder v).free = s.free := rfl
@[simp] theorem State.setRecorder_pending (s : State) (v : IncidentRecorder) : (s.setRecorder v).pending = s.pending := rfl

@[simp] theorem State.setSession_powered (s : State) (v : Session) : (s.setSession v).powered = s.powered := rfl
@[simp] theorem State.setSession_pins (s : State) (v : Session) : (s.setSession v).pins = s.pins := rfl
@[simp] theorem State.setSession_mem (s : State) (v : Session) : (s.setSession v).mem = s.mem := rfl
@[simp] theorem State.setSession_layout (s : State) (v : Session) : (s.setSession v).layout = s.layout := rfl
@[simp] theorem State.setSession_access (s : State) (v : Session) : (s.setSession v).access = s.access := rfl
@[simp] theorem State.setSession_queue (s : State) (v : Session) : (s.setSession v).queue = s.queue := rfl
@[simp] theorem State.setSession_groups (s : State) (v : Session) : (s.setSession v).groups = s.groups := rfl
@[simp] theorem State.setSession_engine (s : State) (v : Session) : (s.setSession v).engine = s.engine := rfl
@[simp] theorem State.setSession_port (s : State) (v : Session) : (s.setSession v).port = s.port := rfl
@[simp] theorem State.setSession_writer (s : State) (v : Session) : (s.setSession v).writer = s.writer := rfl
@[simp] theorem State.setSession_control (s : State) (v : Session) : (s.setSession v).control = s.control := rfl
@[simp] theorem State.setSession_start (s : State) (v : Session) : (s.setSession v).start = s.start := rfl
@[simp] theorem State.setSession_recovery (s : State) (v : Session) : (s.setSession v).recovery = s.recovery := rfl
@[simp] theorem State.setSession_shutdown (s : State) (v : Session) : (s.setSession v).shutdown = s.shutdown := rfl
@[simp] theorem State.setSession_confinement (s : State) (v : Session) : (s.setSession v).confinement = s.confinement := rfl
@[simp] theorem State.setSession_recorder (s : State) (v : Session) : (s.setSession v).recorder = s.recorder := rfl
@[simp] theorem State.setSession_session (s : State) (v : Session) : (s.setSession v).session = v := rfl
@[simp] theorem State.setSession_lineBefore (s : State) (v : Session) : (s.setSession v).lineBefore = s.lineBefore := rfl
@[simp] theorem State.setSession_free (s : State) (v : Session) : (s.setSession v).free = s.free := rfl
@[simp] theorem State.setSession_pending (s : State) (v : Session) : (s.setSession v).pending = s.pending := rfl

@[simp] theorem State.setLineBefore_powered (s : State) (v : LineData) : (s.setLineBefore v).powered = s.powered := rfl
@[simp] theorem State.setLineBefore_pins (s : State) (v : LineData) : (s.setLineBefore v).pins = s.pins := rfl
@[simp] theorem State.setLineBefore_mem (s : State) (v : LineData) : (s.setLineBefore v).mem = s.mem := rfl
@[simp] theorem State.setLineBefore_layout (s : State) (v : LineData) : (s.setLineBefore v).layout = s.layout := rfl
@[simp] theorem State.setLineBefore_access (s : State) (v : LineData) : (s.setLineBefore v).access = s.access := rfl
@[simp] theorem State.setLineBefore_queue (s : State) (v : LineData) : (s.setLineBefore v).queue = s.queue := rfl
@[simp] theorem State.setLineBefore_groups (s : State) (v : LineData) : (s.setLineBefore v).groups = s.groups := rfl
@[simp] theorem State.setLineBefore_engine (s : State) (v : LineData) : (s.setLineBefore v).engine = s.engine := rfl
@[simp] theorem State.setLineBefore_port (s : State) (v : LineData) : (s.setLineBefore v).port = s.port := rfl
@[simp] theorem State.setLineBefore_writer (s : State) (v : LineData) : (s.setLineBefore v).writer = s.writer := rfl
@[simp] theorem State.setLineBefore_control (s : State) (v : LineData) : (s.setLineBefore v).control = s.control := rfl
@[simp] theorem State.setLineBefore_start (s : State) (v : LineData) : (s.setLineBefore v).start = s.start := rfl
@[simp] theorem State.setLineBefore_recovery (s : State) (v : LineData) : (s.setLineBefore v).recovery = s.recovery := rfl
@[simp] theorem State.setLineBefore_shutdown (s : State) (v : LineData) : (s.setLineBefore v).shutdown = s.shutdown := rfl
@[simp] theorem State.setLineBefore_confinement (s : State) (v : LineData) : (s.setLineBefore v).confinement = s.confinement := rfl
@[simp] theorem State.setLineBefore_recorder (s : State) (v : LineData) : (s.setLineBefore v).recorder = s.recorder := rfl
@[simp] theorem State.setLineBefore_session (s : State) (v : LineData) : (s.setLineBefore v).session = s.session := rfl
@[simp] theorem State.setLineBefore_lineBefore (s : State) (v : LineData) : (s.setLineBefore v).lineBefore = v := rfl
@[simp] theorem State.setLineBefore_free (s : State) (v : LineData) : (s.setLineBefore v).free = s.free := rfl
@[simp] theorem State.setLineBefore_pending (s : State) (v : LineData) : (s.setLineBefore v).pending = s.pending := rfl

@[simp] theorem State.setFree_powered (s : State) (v : Nat) : (s.setFree v).powered = s.powered := rfl
@[simp] theorem State.setFree_pins (s : State) (v : Nat) : (s.setFree v).pins = s.pins := rfl
@[simp] theorem State.setFree_mem (s : State) (v : Nat) : (s.setFree v).mem = s.mem := rfl
@[simp] theorem State.setFree_layout (s : State) (v : Nat) : (s.setFree v).layout = s.layout := rfl
@[simp] theorem State.setFree_access (s : State) (v : Nat) : (s.setFree v).access = s.access := rfl
@[simp] theorem State.setFree_queue (s : State) (v : Nat) : (s.setFree v).queue = s.queue := rfl
@[simp] theorem State.setFree_groups (s : State) (v : Nat) : (s.setFree v).groups = s.groups := rfl
@[simp] theorem State.setFree_engine (s : State) (v : Nat) : (s.setFree v).engine = s.engine := rfl
@[simp] theorem State.setFree_port (s : State) (v : Nat) : (s.setFree v).port = s.port := rfl
@[simp] theorem State.setFree_writer (s : State) (v : Nat) : (s.setFree v).writer = s.writer := rfl
@[simp] theorem State.setFree_control (s : State) (v : Nat) : (s.setFree v).control = s.control := rfl
@[simp] theorem State.setFree_start (s : State) (v : Nat) : (s.setFree v).start = s.start := rfl
@[simp] theorem State.setFree_recovery (s : State) (v : Nat) : (s.setFree v).recovery = s.recovery := rfl
@[simp] theorem State.setFree_shutdown (s : State) (v : Nat) : (s.setFree v).shutdown = s.shutdown := rfl
@[simp] theorem State.setFree_confinement (s : State) (v : Nat) : (s.setFree v).confinement = s.confinement := rfl
@[simp] theorem State.setFree_recorder (s : State) (v : Nat) : (s.setFree v).recorder = s.recorder := rfl
@[simp] theorem State.setFree_session (s : State) (v : Nat) : (s.setFree v).session = s.session := rfl
@[simp] theorem State.setFree_lineBefore (s : State) (v : Nat) : (s.setFree v).lineBefore = s.lineBefore := rfl
@[simp] theorem State.setFree_free (s : State) (v : Nat) : (s.setFree v).free = v := rfl
@[simp] theorem State.setFree_pending (s : State) (v : Nat) : (s.setFree v).pending = s.pending := rfl

@[simp] theorem State.setPending_powered (s : State) (v : List Instr) : (s.setPending v).powered = s.powered := rfl
@[simp] theorem State.setPending_pins (s : State) (v : List Instr) : (s.setPending v).pins = s.pins := rfl
@[simp] theorem State.setPending_mem (s : State) (v : List Instr) : (s.setPending v).mem = s.mem := rfl
@[simp] theorem State.setPending_layout (s : State) (v : List Instr) : (s.setPending v).layout = s.layout := rfl
@[simp] theorem State.setPending_access (s : State) (v : List Instr) : (s.setPending v).access = s.access := rfl
@[simp] theorem State.setPending_queue (s : State) (v : List Instr) : (s.setPending v).queue = s.queue := rfl
@[simp] theorem State.setPending_groups (s : State) (v : List Instr) : (s.setPending v).groups = s.groups := rfl
@[simp] theorem State.setPending_engine (s : State) (v : List Instr) : (s.setPending v).engine = s.engine := rfl
@[simp] theorem State.setPending_port (s : State) (v : List Instr) : (s.setPending v).port = s.port := rfl
@[simp] theorem State.setPending_writer (s : State) (v : List Instr) : (s.setPending v).writer = s.writer := rfl
@[simp] theorem State.setPending_control (s : State) (v : List Instr) : (s.setPending v).control = s.control := rfl
@[simp] theorem State.setPending_start (s : State) (v : List Instr) : (s.setPending v).start = s.start := rfl
@[simp] theorem State.setPending_recovery (s : State) (v : List Instr) : (s.setPending v).recovery = s.recovery := rfl
@[simp] theorem State.setPending_shutdown (s : State) (v : List Instr) : (s.setPending v).shutdown = s.shutdown := rfl
@[simp] theorem State.setPending_confinement (s : State) (v : List Instr) : (s.setPending v).confinement = s.confinement := rfl
@[simp] theorem State.setPending_recorder (s : State) (v : List Instr) : (s.setPending v).recorder = s.recorder := rfl
@[simp] theorem State.setPending_session (s : State) (v : List Instr) : (s.setPending v).session = s.session := rfl
@[simp] theorem State.setPending_lineBefore (s : State) (v : List Instr) : (s.setPending v).lineBefore = s.lineBefore := rfl
@[simp] theorem State.setPending_free (s : State) (v : List Instr) : (s.setPending v).free = s.free := rfl
@[simp] theorem State.setPending_pending (s : State) (v : List Instr) : (s.setPending v).pending = v := rfl

end Sys2Proof.Machine
end

