-- ==== Sys2Proof/Laws/Ending.lean ====
section
/-! SUPPORT. How works end: what `endWork` and `endShutdown` leave, the reaction SHUTDOWN shows, the completion of a FLUSH
and of the handover, and the detail of a failed operation. -/

namespace Sys2Proof.Machine

@[simp] theorem endWork_engine (s : State) : (endWork s).engine = JournalEngine.idle s.engine.journalPending := rfl
@[simp] theorem endWork_writer (s : State) : (endWork s).writer = { s.writer with copyWrite := none } := rfl
@[simp] theorem endWork_port (s : State) : (endWork s).port = s.port := rfl
@[simp] theorem endWork_pins (s : State) : (endWork s).pins = s.pins := rfl
@[simp] theorem endWork_queue (s : State) : (endWork s).queue = s.queue := rfl
@[simp] theorem endWork_groups (s : State) : (endWork s).groups = s.groups := rfl
@[simp] theorem endWork_control (s : State) : (endWork s).control = s.control := rfl
@[simp] theorem endWork_recorder (s : State) : (endWork s).recorder = s.recorder := rfl

/-- The state that `endShutdown` reaches in SHUTDOWN before it looks at the supply lines. -/
theorem endShutdown_eq {s : State} (mode : s.control.mode = .shutdown) :
    endShutdown s =
      (let t := raise (((endWork s).setShutdown { s.shutdown with stage := .done }).setControl
        { s.control with mode := .ended }) .mode
       if supplyGood s then enterStarting t else t) := by
  have h : ((endWork s).setShutdown { s.shutdown with stage := .done }).control.mode ≠ .ended := by
    show s.control.mode ≠ .ended
    simp [mode]
  unfold endShutdown changeMode
  simp only [h, if_false]
  rfl

/-- `endShutdown` with a supply line low: ENDED with nothing in the engine or the writer (R58, R101, R143). -/
theorem endShutdown_rests {s : State} (mode : s.control.mode = .shutdown) (low : supplyGood s = false)
    (free : s.port.op = none) : EndedAtRest (endShutdown s) := by
  rw [endShutdown_eq mode, low]
  exact ⟨rfl, rfl, rfl, free, rfl, rfl, rfl⟩

/-- Every incident but a notice shows RECORD in SHUTDOWN (R140, log 15). -/
theorem reactionTaken_shutdown {s : State} {d : Detail} (mode : s.control.mode = .shutdown)
    (incident : isNotice d = false) : reactionTaken s d = .record := by
  unfold reactionTaken shownAsRecord
  simp [mode, incident]

/-- The detail a requester records, in the words of the statements. -/
theorem failureDetail_eq (f : Failure) (timeout miscompare : Detail) :
    failureDetail f timeout miscompare = f.detail timeout miscompare := by
  cases f <;> rfl

/-- A FLUSH with both parts complete completes (R119). -/
theorem flushCheck_completes {s : State} (mode : serving s = true) (flush : s.control.longCommand = some .flush)
    (posted : s.queue.outstanding = 0) (groups : s.groups.flushTarget = none) :
    flushCheck s = completeLong s (if s.queue.lossNote then .doneWithLoss else .done) := by
  unfold flushCheck
  rw [if_pos ⟨mode, flush, posted, groups⟩]

/-- What the end of a handover leaves (R114, R115). -/
theorem enterConfig_completes {s : State} (mode : serving s = true) (loss : Bool) :
    HandoverCompleted s (enterConfig s (if loss then .doneWithLoss else .done)) loss := by
  have h : s.control.mode ≠ .config := by
    intro e
    simp [serving, e] at mode
  unfold enterConfig changeMode
  simp only [State.setControl_control, h, if_false]
  cases held : s.access.held with
  | none =>
    refine ⟨?_, ?_, ?_, ⟨?_, ?_, ?_⟩, ?_, ?_, ?_⟩ <;>
      simp [refuseHeld, completeLong, raise, held, readyOut, serving, EventSet.put]
  | some a =>
    refine ⟨?_, ?_, ?_, ⟨?_, ?_, ?_⟩, ?_, ?_, ?_⟩ <;>
      simp [refuseHeld, completeLong, raise, held, readyOut, serving, EventSet.put, finishAccess]

end Sys2Proof.Machine
end

