-- ==== Sys2Proof/Laws/Memory.lean ====
section
/-! SUPPORT. The memory keeps its canonical form, and a read after a write gives the byte written there and the old byte
elsewhere. -/

namespace Sys2Proof.Machine

theorem Memory.wfFrom_mono {low low' : Nat} {m : Memory} (hl : low' ≤ low) (h : Memory.wfFrom low m = true) :
    Memory.wfFrom low' m = true := by
  cases m with
  | nil => rfl
  | cons c rest =>
    simp only [Memory.wfFrom, Bool.and_eq_true, decide_eq_true_eq] at h ⊢
    exact ⟨⟨⟨hl.trans h.1.1.1, h.1.1.2⟩, h.1.2⟩, h.2⟩

theorem Memory.write_wfFrom {low : Nat} {m : Memory} {a : Addr} {v : Byte} (h : Memory.wfFrom low m = true)
    (ha : low ≤ a.toNat) : Memory.wfFrom low (m.write a v) = true := by
  induction m generalizing low with
  | nil =>
    unfold Memory.write
    have := a.isLt
    split <;> simp_all [Memory.wfFrom]
  | cons c rest ih =>
    have hlt := a.isLt
    simp only [Memory.wfFrom, Bool.and_eq_true, decide_eq_true_eq, bne_iff_ne] at h
    obtain ⟨⟨⟨h1, h2⟩, h3⟩, h4⟩ := h
    have cell : ∀ {lo : Nat} {k : Nat} {b : Byte} {r : Memory}, lo ≤ k → k < 2 ^ 24 → b ≠ Memory.blank →
        Memory.wfFrom (k + 1) r = true → Memory.wfFrom lo ((k, b) :: r) = true := by
      intro lo k b r hlo hk hb hr
      simp only [Memory.wfFrom, Bool.and_eq_true, decide_eq_true_eq, bne_iff_ne]
      exact ⟨⟨⟨hlo, hk⟩, hb⟩, hr⟩
    unfold Memory.write
    split
    · exact cell h1 h2 h3 (ih h4 (by omega))
    · split
      · split
        · exact Memory.wfFrom_mono (by omega) h4
        · exact cell h1 h2 (by assumption) h4
      · split
        · exact cell h1 h2 h3 h4
        · exact cell ha hlt (by assumption) (cell (by omega) h2 h3 h4)

theorem Memory.wf_write {m : Memory} {a : Addr} {v : Byte} (h : m.wf = true) : (m.write a v).wf = true :=
  Memory.write_wfFrom h (Nat.zero_le _)

theorem Memory.wf_writeLane {m : Memory} {line : LineNo} {data : LineData} {enables : ByteSet} {n : Nat}
    (h : m.wf = true) : (Memory.writeLane line data enables m n).wf = true := by
  unfold Memory.writeLane
  split
  · exact Memory.wf_write h
  · exact h

theorem Memory.wf_writeLine {m : Memory} {line : LineNo} {data : LineData} {enables : ByteSet} (h : m.wf = true) :
    (m.writeLine line data enables).wf = true := by
  unfold Memory.writeLine
  simp only [List.foldl]
  exact Memory.wf_writeLane (Memory.wf_writeLane (Memory.wf_writeLane (Memory.wf_writeLane (Memory.wf_writeLane
    (Memory.wf_writeLane (Memory.wf_writeLane (Memory.wf_writeLane h)))))))

theorem Memory.wf_takeStep {m : Memory} {line : LineNo} {data : LineData} {enables : ByteSet} {took : LineData}
    (h : m.wf = true) : (m.takeStep line data enables took).wf = true :=
  Memory.wf_writeLine h

theorem Memory.wf_spoilLine {m : Memory} {line : LineNo} {new old took : LineData} (h : m.wf = true) :
    (m.spoilLine line new old took).wf = true := by
  unfold Memory.spoilLine
  dsimp only
  split
  · split
    · exact Memory.wf_writeLine (Memory.wf_writeLine h)
    · exact Memory.wf_writeLine h
  · exact h

/-- A grant changes `lineBefore` at most, before it marks what the requester is granted. -/
theorem keepLine_eq (s : State) (op : ArrayOp) : ∃ v, keepLine s op = s.setLineBefore v := by
  unfold keepLine
  split
  · exact ⟨_, rfl⟩
  · exact ⟨s.lineBefore, rfl⟩

/-- A failed copy write changes the memory at most, and keeps its canonical form. -/
theorem spoilCopy_eq (s : State) (op : ArrayOp) (took : LineData) :
    ∃ m, spoilCopy s op took = s.setMem m ∧ (s.mem.wf = true → m.wf = true) := by
  unfold spoilCopy
  split
  · exact ⟨_, rfl, Memory.wf_spoilLine⟩
  · exact ⟨s.mem, rfl, id⟩

/-- Nothing below `low` is listed. -/
theorem Memory.read_of_lt {low : Nat} {m : Memory} {a : Addr} (h : Memory.wfFrom low m = true) (ha : a.toNat < low) :
    m.read a = Memory.blank := by
  induction m generalizing low with
  | nil => rfl
  | cons c rest ih =>
    simp only [Memory.wfFrom, Bool.and_eq_true, decide_eq_true_eq] at h
    unfold Memory.read
    have hne : c.1 ≠ a.toNat := by omega
    simp only [hne, if_false]
    exact ih h.2 (by omega)

theorem Memory.read_write_from {low : Nat} {m : Memory} {a b : Addr} {v : Byte} (h : Memory.wfFrom low m = true) :
    (m.write a v).read b = if a = b then v else m.read b := by
  induction m generalizing low with
  | nil =>
    unfold Memory.write
    by_cases hv : v = Memory.blank
    · simp [hv, Memory.read]
    · by_cases hab : a = b
      · simp [hv, hab, Memory.read]
      · have : a.toNat ≠ b.toNat := fun e => hab (BitVec.eq_of_toNat_eq e)
        simp [hv, hab, this, Memory.read]
  | cons c rest ih =>
    simp only [Memory.wfFrom, Bool.and_eq_true, decide_eq_true_eq] at h
    obtain ⟨⟨⟨h1, h2⟩, h3⟩, h4⟩ := h
    have hr : ∀ {x : Addr}, x.toNat ≤ c.1 → Memory.read rest x = Memory.blank := fun hx =>
      Memory.read_of_lt h4 (by omega)
    unfold Memory.write
    by_cases hlt : c.1 < a.toNat
    · simp only [hlt, if_true]
      rw [Memory.read, ih h4]
      conv_rhs => rw [Memory.read]
      by_cases hab : a = b
      · subst hab
        have : c.1 ≠ a.toNat := by omega
        simp [this]
      · simp [hab]
    · simp only [hlt, if_false]
      by_cases heq : c.1 = a.toNat
      · simp only [heq, if_true]
        by_cases hv : v = Memory.blank
        · simp only [hv, if_true]
          by_cases hab : a = b
          · subst hab
            simp [hr (x := a) (by omega)]
          · have : a.toNat ≠ b.toNat := fun e => hab (BitVec.eq_of_toNat_eq e)
            simp [hab, Memory.read, heq, this]
        · simp only [hv, if_false]
          by_cases hab : a = b
          · simp [hab, Memory.read]
          · have : a.toNat ≠ b.toNat := fun e => hab (BitVec.eq_of_toNat_eq e)
            simp [hab, Memory.read, heq, this]
      · simp only [heq, if_false]
        by_cases hv : v = Memory.blank
        · simp only [hv, if_true]
          by_cases hab : a = b
          · subst hab
            rw [Memory.read]
            simp [heq, hr (x := a) (by omega)]
          · simp [hab]
        · simp only [hv, if_false]
          rw [Memory.read]
          by_cases hab : a = b
          · simp [hab]
          · have : a.toNat ≠ b.toNat := fun e => hab (BitVec.eq_of_toNat_eq e)
            simp [hab, this]

/-- Reading after writing one byte. -/
theorem Memory.read_write {m : Memory} {a b : Addr} {v : Byte} (h : m.wf = true) :
    (m.write a v).read b = if a = b then v else m.read b :=
  Memory.read_write_from h

theorem byteAddress_eq_iff {line line' : LineNo} {i j : Nat} (hi : i < 8) (hj : j < 8) :
    byteAddress line i = byteAddress line' j ↔ line = line' ∧ i = j := by
  have hval : ∀ (l : LineNo) (n : Nat), n < 8 → (byteAddress l n).toNat = 8 * l.toNat + n := by
    intro l n hn
    unfold byteAddress
    rw [BitVec.toNat_append, BitVec.toNat_ofNat, Nat.mod_eq_of_lt (by omega), Nat.shiftLeft_eq]
    rw [← Nat.shiftLeft_eq, ← Nat.shiftLeft_add_eq_or_of_lt (by omega), Nat.shiftLeft_eq]
    omega
  constructor
  · intro h
    have := congrArg BitVec.toNat h
    rw [hval _ _ hi, hval _ _ hj] at this
    exact ⟨BitVec.eq_of_toNat_eq (by omega), by omega⟩
  · rintro ⟨rfl, rfl⟩
    rfl

theorem Memory.read_writeLane {m : Memory} {line line' : LineNo} {data : LineData} {enables : ByteSet} {n k : Nat}
    (h : m.wf = true) (hn : n < 8) (hk : k < 8) :
    (Memory.writeLane line data enables m n).read (byteAddress line' k) =
      if line = line' ∧ n = k ∧ enables.getLsbD n = true then byteOf data n
      else m.read (byteAddress line' k) := by
  unfold Memory.writeLane
  split
  · rename_i he
    rw [Memory.read_write h]
    simp [byteAddress_eq_iff hn hk, he]
  · rename_i he
    simp [he]

/-- After a masked line write, an enabled byte of the line reads as the data gives it, and every other byte as before
(R80). -/
theorem Memory.read_writeLine {m : Memory} {line line' : LineNo} {data : LineData} {enables : ByteSet} {k : Nat}
    (h : m.wf = true) (hk : k < 8) :
    (m.writeLine line data enables).read (byteAddress line' k) =
      if line = line' ∧ enables.getLsbD k = true then byteOf data k else m.read (byteAddress line' k) := by
  unfold Memory.writeLine
  simp only [List.foldl]
  have w {m : Memory} {n : Nat} (h : m.wf = true) : (Memory.writeLane line data enables m n).wf = true :=
    Memory.wf_writeLane h
  rw [Memory.read_writeLane (w (w (w (w (w (w (w h))))))) (by omega) hk,
    Memory.read_writeLane (w (w (w (w (w (w h)))))) (by omega) hk,
    Memory.read_writeLane (w (w (w (w (w h))))) (by omega) hk,
    Memory.read_writeLane (w (w (w (w h)))) (by omega) hk, Memory.read_writeLane (w (w (w h))) (by omega) hk,
    Memory.read_writeLane (w (w h)) (by omega) hk, Memory.read_writeLane (w h) (by omega) hk,
    Memory.read_writeLane h (by omega) hk]
  interval_cases k <;> by_cases hl : line = line' <;> simp [hl]

/-- Every address is a byte of its line. -/
theorem byteAddress_lineOf (a : Addr) : byteAddress (lineOf a) (lineOffset a) = a := by
  unfold byteAddress lineOf lineOffset
  rw [BitVec.ofNat_toNat, BitVec.setWidth_eq]
  ext i hi
  simp only [BitVec.getElem_append, BitVec.getElem_extractLsb']
  split
  · simp [BitVec.getLsbD_eq_getElem hi]
  · have : 3 + (i - 3) = i := by omega
    simp [this, BitVec.getLsbD_eq_getElem hi]

theorem lineOffset_lt (a : Addr) : lineOffset a < 8 :=
  (a.extractLsb' 0 3).isLt

end Sys2Proof.Machine
end

