-- ==== Sys2Proof/Laws/FailedCopies.lean ====
section
/-! SUPPORT. A copy whose line fails is not valid after the failure (R101, R103): the check of a copy finds every single bit
that differs, so that what `Memory.spoilLine` leaves of a line whose bytes change is no valid copy. -/

namespace Sys2Proof.Machine

/-! ## The check finds a single bit (R1) -/

theorem crc32Bit_inj {a b : BitVec 32} (h : crc32Bit a = crc32Bit b) : a = b := by
  have form : ∀ c : BitVec 32, crc32Bit c = (c <<< 1) ^^^ (if c.msb then 0x04C11DB7 else 0) := by
    intro c
    unfold crc32Bit
    split <;> simp
  have low : ∀ c : BitVec 32, (crc32Bit c).getLsbD 0 = c.msb := by
    intro c
    rw [form]
    cases c.msb <;> simp
  have hm : a.msb = b.msb := by rw [← low a, ← low b, h]
  have hs : a <<< 1 = b <<< 1 := by
    rw [form a, form b, hm] at h
    have := congrArg (· ^^^ (if b.msb then (0x04C11DB7 : BitVec 32) else 0)) h
    simpa [BitVec.xor_assoc] using this
  apply BitVec.eq_of_getLsbD_eq
  intro i hi
  by_cases h31 : i = 31
  · subst h31
    simpa [BitVec.msb_eq_getLsbD_last] using hm
  · have := congrArg (fun x : BitVec 32 => x.getLsbD (i + 1)) hs
    have hi' : i + 1 < 32 := by omega
    simpa only [BitVec.getLsbD_shiftLeft, hi', decide_true, Bool.true_and, Nat.not_lt.mpr (Nat.le_add_left 1 i),
      decide_false, Bool.not_false, Nat.add_sub_cancel] using this

theorem crc32Byte_inj {a b : BitVec 32} {x y : Byte} (h : crc32Byte a x = crc32Byte b y) :
    a ^^^ (x.setWidth 32 <<< 24) = b ^^^ (y.setWidth 32 <<< 24) := by
  unfold crc32Byte at h
  have key : ∀ (n : Nat) (c d : BitVec 32), Nat.repeat crc32Bit n c = Nat.repeat crc32Bit n d → c = d := by
    intro n
    induction n with
    | zero => intro c d e; exact e
    | succ n ih => intro c d e; exact ih c d (crc32Bit_inj e)
  exact key 8 _ _ h

theorem crc32Byte_inj_state {a b : BitVec 32} {x : Byte} (h : crc32Byte a x = crc32Byte b x) : a = b := by
  have := congrArg (· ^^^ (x.setWidth 32 <<< 24)) (crc32Byte_inj h)
  simpa [BitVec.xor_assoc] using this

theorem crc32Byte_inj_byte {a : BitVec 32} {x y : Byte} (h : crc32Byte a x = crc32Byte a y) : x = y := by
  have hs : x.setWidth 32 <<< 24 = y.setWidth 32 <<< 24 := by
    have := congrArg (a ^^^ ·) (crc32Byte_inj h)
    simpa [← BitVec.xor_assoc] using this
  apply BitVec.eq_of_getLsbD_eq
  intro i hi
  have := congrArg (fun z : BitVec 32 => z.getLsbD (24 + i)) hs
  have h2 : 24 + i < 32 := by omega
  have h3 : i < 32 := by omega
  simpa [BitVec.getLsbD_shiftLeft, h2, h3] using this

/-- One byte that differs among `n` changes the running check. -/
theorem crc32Update_ne {f g : Nat → Byte} {k n : Nat} (hk : k < n) (hne : f k ≠ g k)
    (heq : ∀ i, i < n → i ≠ k → f i = g i) (c : BitVec 32) :
    crc32Update c ((List.range n).map f) ≠ crc32Update c ((List.range n).map g) := by
  induction n with
  | zero => omega
  | succ n ih =>
    simp only [crc32Update, List.range_succ, List.map_append, List.map_cons, List.map_nil, List.foldl_append,
      List.foldl_cons, List.foldl_nil]
    intro h
    by_cases hn : k = n
    · subst hn
      have same : (List.range k).map f = (List.range k).map g :=
        List.map_congr_left (fun i hi => by
          have := List.mem_range.mp hi
          exact heq i (by omega) (by omega))
      rw [same] at h
      exact hne (crc32Byte_inj_byte h)
    · rw [heq n (by omega) (fun e => hn e.symm)] at h
      exact ih (by omega) (fun i hi => heq i (by omega)) (crc32Byte_inj_state h)

/-- Of two values that differ in one bit, not both end with the check of the bytes before it. -/
theorem check_ne {n p : Nat} {x y : BitVec (8 * n + 32)} (hp : p < 8 * n + 32)
    (hd : ∀ i, i < 8 * n + 32 → (x.getLsbD i = y.getLsbD i ↔ i ≠ p))
    (hx : x.extractLsb' 0 32 = crc32 (bytesOf n (x.extractLsb' 32 (8 * n)))) :
    y.extractLsb' 0 32 ≠ crc32 (bytesOf n (y.extractLsb' 32 (8 * n))) := by
  intro hy
  by_cases h32 : p < 32
  · have body : x.extractLsb' 32 (8 * n) = y.extractLsb' 32 (8 * n) := by
      apply BitVec.eq_of_getLsbD_eq
      intro i hi
      simp only [BitVec.getLsbD_extractLsb', hi, decide_true, Bool.true_and]
      exact (hd _ (by omega)).mpr (by omega)
    rw [body, ← hy] at hx
    have := congrArg (fun z : BitVec 32 => z.getLsbD p) hx
    simp only [BitVec.getLsbD_extractLsb', h32, decide_true, Bool.true_and, Nat.zero_add] at this
    exact (hd p hp).mp this rfl
  · have low : x.extractLsb' 0 32 = y.extractLsb' 0 32 := by
      apply BitVec.eq_of_getLsbD_eq
      intro i hi
      simp only [BitVec.getLsbD_extractLsb', hi, decide_true, Bool.true_and, Nat.zero_add]
      exact (hd _ (by omega)).mpr (by omega)
    rw [hx, hy] at low
    have update := congrArg (~~~ ·) low
    simp only [crc32, BitVec.not_not, bytesOf] at update
    refine crc32Update_ne (k := n - 1 - (p - 32) / 8) (by omega) ?_ ?_ _ update
    · intro e
      have := congrArg (fun z : Byte => z.getLsbD ((p - 32) % 8)) e
      have h8 : (p - 32) % 8 < 8 := Nat.mod_lt _ (by omega)
      have hb : 8 * (n - 1 - (n - 1 - (p - 32) / 8)) + (p - 32) % 8 < 8 * n := by omega
      have hs : 32 + (8 * (n - 1 - (n - 1 - (p - 32) / 8)) + (p - 32) % 8) = p := by omega
      simp only [BitVec.getLsbD_extractLsb', h8, hb, hs, decide_true, Bool.true_and] at this
      exact (hd p hp).mp this rfl
    · intro i hin hi
      apply BitVec.eq_of_getLsbD_eq
      intro j hj
      have hb : 8 * (n - 1 - i) + j < 8 * n := by omega
      simp only [BitVec.getLsbD_extractLsb', hj, hb, decide_true, Bool.true_and]
      exact (hd _ (by omega)).mpr (by omega)

/-! ## Lines and copies in the memory -/

/-- What a line reads after a write of a whole line (R80). -/
theorem readLine_writeLine {m : Memory} (h : m.wf = true) (line line' : LineNo) (v : LineData) :
    (m.writeLine line v 0xFF).readLine line' = if line = line' then v else m.readLine line' := by
  have full : ∀ n, n < 8 → (0xFF : ByteSet).getLsbD n = true := by decide
  split
  · rename_i e
    apply eq_of_byteOf
    intro n hn
    rw [byteOf_readLine _ _ hn, Memory.read_writeLine h hn, if_pos ⟨e, full n hn⟩]
  · rename_i e
    apply eq_of_byteOf
    intro n hn
    rw [byteOf_readLine _ _ hn, byteOf_readLine _ _ hn, Memory.read_writeLine h hn, if_neg (fun c => e c.1)]

/-- The bits of lines one after another. -/
theorem getLsbD_joinLines {w : Nat} (f : Nat → LineData) (n : Nat) {i : Nat} (hi : i < w) :
    (joinLines w ((List.range n).map f)).getLsbD i =
      (decide (i < 64 * n) && (f (n - 1 - i / 64)).getLsbD (i % 64)) := by
  induction n generalizing i with
  | zero => simp [joinLines]
  | succ n ih =>
    have step : joinLines w ((List.range (n + 1)).map f) =
        (joinLines w ((List.range n).map f)) <<< 64 ||| (f n).setWidth w := by
      simp [joinLines, List.range_succ]
    rw [step, BitVec.getLsbD_or, BitVec.getLsbD_shiftLeft, BitVec.getLsbD_setWidth]
    by_cases h : i < 64
    · have h1 : i / 64 = 0 := by omega
      have h2 : i % 64 = i := by omega
      have h3 : i < 64 * (n + 1) := by omega
      simp [h, hi, h1, h2, h3]
    · rw [ih (i := i - 64) (by omega)]
      have h1 : n - 1 - (i - 64) / 64 = n - i / 64 := by omega
      have h2 : (i - 64) % 64 = i % 64 := by omega
      have h3 : (i - 64 < 64 * n) = (i < 64 * (n + 1)) := by
        apply propext
        omega
      have h4 : (f n).getLsbD i = false := BitVec.getLsbD_of_ge _ _ (by omega)
      simp [h, hi, h1, h2, h3, h4]

/-- A copy of `count` lines after one bit of one of its lines is written the other way: the one bit differs. -/
theorem readLines_flip {m : Memory} (h : m.wf = true) {first line : LineNo} {count j k : Nat} (hj : j < count)
    (hk : k < 64) (hc : 64 * count < 2 ^ 21) (hl : first + BitVec.ofNat 21 j = line) (v : LineData) {i : Nat}
    (hi : i < 64 * count) :
    let left := m.writeLine line v 0xFF
    let after := left.writeLine line (v ^^^ BitVec.twoPow 64 k) 0xFF
    ((joinLines (64 * count) (left.readLines first count)).getLsbD i =
      (joinLines (64 * count) (after.readLines first count)).getLsbD i) ↔ i ≠ 64 * (count - 1 - j) + k := by
  intro left after
  have hw : left.wf = true := Memory.wf_writeLine h
  have here : ∀ n, n < count → (line = first + BitVec.ofNat 21 n ↔ n = j) := by
    intro n hn
    rw [← hl]
    constructor
    · intro e
      have e' := (BitVec.add_right_inj first).mp e
      have := congrArg BitVec.toNat e'
      simp only [BitVec.toNat_ofNat] at this
      omega
    · rintro rfl
      rfl
  have hn : count - 1 - i / 64 < count := by omega
  simp only [Memory.readLines, getLsbD_joinLines _ _ hi, hi, decide_true, Bool.true_and]
  have ra : after.readLine (first + BitVec.ofNat 21 (count - 1 - i / 64)) =
      if count - 1 - i / 64 = j then v ^^^ BitVec.twoPow 64 k
      else left.readLine (first + BitVec.ofNat 21 (count - 1 - i / 64)) := by
    rw [readLine_writeLine hw]
    simp only [here _ hn]
  have rl : left.readLine (first + BitVec.ofNat 21 (count - 1 - i / 64)) =
      if count - 1 - i / 64 = j then v else m.readLine (first + BitVec.ofNat 21 (count - 1 - i / 64)) := by
    rw [readLine_writeLine h]
    simp only [here _ hn]
  rw [ra]
  by_cases e : count - 1 - i / 64 = j
  · rw [rl, if_pos e, if_pos e, BitVec.getLsbD_xor, BitVec.getLsbD_twoPow]
    by_cases hb : k = i % 64
    · have hp : ¬i ≠ 64 * (count - 1 - j) + k := by omega
      refine iff_of_false ?_ hp
      rw [← hb]
      cases v.getLsbD k <;> simp [hk]
    · have hp : i ≠ 64 * (count - 1 - j) + k := by omega
      refine iff_of_true ?_ hp
      simp [hb]
  · rw [if_neg e]
    exact iff_of_true rfl (by omega)

theorem firstDifference_eq (x y : LineData) : ∃ k, k < 64 ∧ firstDifference x y = BitVec.twoPow 64 k := by
  unfold firstDifference
  cases h : (List.range 64).find? (fun k => (x ^^^ y).getLsbD k) with
  | none => exact ⟨0, by decide, rfl⟩
  | some k => exact ⟨k, List.mem_range.mp (List.mem_of_find?_eq_some h), rfl⟩

/-- A layout copy and the same with one bit the other way are not both valid (R96). -/
theorem layoutValid_ne {x y : BitVec 1024} {p : Nat} (hp : p < 1024)
    (hd : ∀ i, i < 1024 → (x.getLsbD i = y.getLsbD i ↔ i ≠ p)) (hx : layoutValid x = true) : layoutValid y = false := by
  rw [Bool.eq_false_iff]
  intro hy
  unfold layoutValid at hx hy
  simp only [Bool.and_eq_true, beq_iff_eq] at hx hy
  exact check_ne (n := 124) hp hd hx.2 hy.2

/-- A progress copy and the same with one bit the other way are not both valid (R96). -/
theorem progressValid_ne {x y : BitVec 128} {p : Nat} (hp : p < 128)
    (hd : ∀ i, i < 128 → (x.getLsbD i = y.getLsbD i ↔ i ≠ p)) (hx : progressValid x = true) :
    progressValid y = false := by
  rw [Bool.eq_false_iff]
  intro hy
  unfold progressValid at hx hy
  simp only [Bool.and_eq_true, beq_iff_eq] at hx hy
  exact check_ne (n := 12) hp hd hx.2 hy.2

/-- A line of a copy with one bit the other way: a valid copy is not valid any more. -/
theorem copyValid_flip {m : Memory} (h : m.wf = true) {line : LineNo} {v : LineData} {k : Nat} (hk : k < 64)
    (hv : (m.writeLine line v 0xFF).copyValid line = true) :
    ((m.writeLine line v 0xFF).writeLine line (v ^^^ BitVec.twoPow 64 k) 0xFF).copyValid line = false := by
  have place : ∀ (b : LineNo) (n : Nat), b.toNat ≤ line.toNat → line.toNat = b.toNat + n →
      b + BitVec.ofNat 21 n = line := by
    intro b n _ hn
    apply BitVec.eq_of_toNat_eq
    have := line.isLt
    rw [BitVec.toNat_add, BitVec.toNat_ofNat]
    omega
  unfold Memory.copyValid at hv ⊢
  dsimp only at hv ⊢
  split
  · rename_i h1
    rw [if_pos h1] at hv
    exact layoutValid_ne (p := 64 * (16 - 1 - line.toNat) + k) (by omega)
      (fun i hi => readLines_flip h (count := 16) h1 hk (by decide) (place 0 _ (by simp) (by simp)) v hi) hv
  · rename_i h1
    rw [if_neg h1] at hv
    split
    · rename_i h2
      rw [if_pos h2] at hv
      exact layoutValid_ne (p := 64 * (16 - 1 - (line.toNat - 16)) + k) (by omega)
        (fun i hi => readLines_flip h (count := 16) (by omega) hk (by decide)
          (place 0x10 _ (by simp; omega) (by simp; omega)) v hi) hv
    · rename_i h2
      rw [if_neg h2] at hv
      split
      · rename_i h3
        rw [if_pos h3] at hv
        exact progressValid_ne (p := 64 * (2 - 1 - (line.toNat - 32)) + k) (by omega)
          (fun i hi => readLines_flip h (count := 2) (by omega) hk (by decide)
            (place 0x20 _ (by simp; omega) (by simp; omega)) v hi) hv
      · rename_i h3
        rw [if_neg h3] at hv
        split
        · rename_i h4
          rw [if_pos h4] at hv
          exact progressValid_ne (p := 64 * (2 - 1 - (line.toNat - 34)) + k) (by omega)
            (fun i hi => readLines_flip h (count := 2) (by omega) hk (by decide)
              (place 0x22 _ (by simp; omega) (by simp; omega)) v hi) hv
        · rfl

/-- The copy of a line that `spoilLine` has handled is not valid, in every canonical memory, unless the line held the new
bytes already (R101). -/
theorem copyValid_spoilLine {m : Memory} (h : m.wf = true) {line : LineNo} {new old : LineData} (hne : new ≠ old)
    (took : LineData) : (m.spoilLine line new old took).copyValid line = false := by
  unfold Memory.spoilLine
  dsimp only
  split
  · split
    · rename_i hv
      obtain ⟨k, hk, e⟩ := firstDifference_eq new old
      rw [e]
      exact copyValid_flip h hk hv
    · rename_i hv
      simpa using hv
  · rename_i hv
    simpa [hne] using hv

/-- A line that held the new bytes stays as it is (R83). -/
theorem spoilLine_same (m : Memory) (line : LineNo) (new took : LineData) : m.spoilLine line new new took = m := by
  unfold Memory.spoilLine
  simp

/-- A copy that is not valid stays as it is. -/
theorem spoilLine_of_not {m : Memory} {line : LineNo} (h : m.copyValid line = false) (new old took : LineData) :
    m.spoilLine line new old took = m := by
  unfold Memory.spoilLine
  simp [h]

/-- `spoilLine` reaches no byte outside its line. -/
theorem read_spoilLine {m : Memory} (h : m.wf = true) {line : LineNo} (new old took : LineData) {x : Addr}
    (hx : lineOf x ≠ line) : (m.spoilLine line new old took).read x = m.read x := by
  have other : ∀ {n : Memory} (v : LineData), n.wf = true → (n.writeLine line v 0xFF).read x = n.read x := by
    intro n v hn
    have := Memory.read_writeLine (line := line) (line' := lineOf x) (data := v) (enables := 0xFF) hn (lineOffset_lt x)
    rw [byteAddress_lineOf] at this
    rw [this, if_neg (fun c => hx c.1.symm)]
  unfold Memory.spoilLine
  dsimp only
  split
  · split
    · rw [other _ (Memory.wf_writeLine h), other _ h]
    · rw [other _ h]
  · rfl

/-! ## In the words of the statements -/

theorem writesCopy_iff (r : Requester) : writesCopy r = true ↔ CopyRequester r := by
  unfold CopyRequester
  cases r <;> simp [writesCopy]

theorem copyNotValid_iff (m : Memory) (line : LineNo) : CopyNotValid m line ↔ m.copyValid line = false := by
  have zero : ∀ n, m.readLines (layoutCopyBase .a) n = (List.range n).map (fun i => m.readLine (BitVec.ofNat 21 (0 + i))) := by
    intro n
    simp [Memory.readLines, layoutCopyBase]
  have from16 : ∀ (f n : Nat), m.readLines (BitVec.ofNat 21 f) n =
      (List.range n).map (fun i => m.readLine (BitVec.ofNat 21 (f + i))) := by
    intro f n
    unfold Memory.readLines
    refine List.map_congr_left (fun i _ => ?_)
    rw [BitVec.ofNat_add]
  unfold CopyNotValid Memory.copyValid
  dsimp only
  rw [zero, show layoutCopyBase .b = BitVec.ofNat 21 16 from rfl, show progressCopyBase .a = BitVec.ofNat 21 32 from rfl,
    show progressCopyBase .b = BitVec.ofNat 21 34 from rfl, from16, from16, from16]
  split
  · rename_i h
    have h2 : ¬16 ≤ line.toNat := by omega
    have h3 : ¬32 ≤ line.toNat := by omega
    have h4 : ¬34 ≤ line.toNat := by omega
    simp only [h, h2, h3, h4, true_implies, false_and, false_implies, and_true]
  · rename_i h1
    split
    · rename_i h
      have h2 : 16 ≤ line.toNat := by omega
      have h3 : ¬32 ≤ line.toNat := by omega
      have h4 : ¬34 ≤ line.toNat := by omega
      simp only [h, h1, h2, h3, h4, true_and, true_implies, false_and, false_implies, and_true]
    · rename_i h2
      split
      · rename_i h
        have h3 : 32 ≤ line.toNat := by omega
        have h4 : ¬34 ≤ line.toNat := by omega
        simp only [h, h1, h2, h3, h4, true_and, and_false, true_implies, false_and, false_implies, and_true]
      · rename_i h3
        split
        · rename_i h
          have h4 : 34 ≤ line.toNat := by omega
          simp only [h, h1, h2, h3, h4, true_and, and_false, true_implies, false_implies]
        · rename_i h4
          simp only [h1, h2, h3, h4, and_false, false_implies, and_self]

/-- A failed operation of a copy write leaves the copy not valid (R101), unless the line held the new bytes already. -/
theorem spoilCopy_notValid {s : State} (h : s.mem.wf = true) {op : ArrayOp} (hr : CopyRequester op.requester)
    (hc : s.lineBefore = op.data → CopyNotValid s.mem op.line) (took : LineData) :
    CopyNotValid (spoilCopy s op took).mem op.line := by
  unfold spoilCopy
  rw [if_pos ((writesCopy_iff _).mpr hr)]
  by_cases e : s.lineBefore = op.data
  · rw [e, spoilLine_same]
    exact hc e
  · rw [copyNotValid_iff]
    exact copyValid_spoilLine h (fun c => e c.symm) _

/-- A failed operation of another kind changes nothing here. -/
theorem spoilCopy_other {s : State} {op : ArrayOp} (hr : ¬CopyRequester op.requester) (took : LineData) :
    spoilCopy s op took = s := by
  unfold spoilCopy
  rw [if_neg (fun e => hr ((writesCopy_iff _).mp e))]

/-- The bits of a line that `spoilLine` has handled are those of the new bytes, of the old bytes, or of the line as it
stood (R83). -/
theorem bits_spoilLine {m : Memory} (h : m.wf = true) {line : LineNo} (new old took : LineData) {i : Nat} (hi : i < 64) :
    let after := ((m.spoilLine line new old took).readLine line).getLsbD i
    after = new.getLsbD i ∨ after = old.getLsbD i ∨ after = (m.readLine line).getLsbD i := by
  have mixed : ((new &&& took) ||| (old &&& ~~~took)).getLsbD i = new.getLsbD i ∨
      ((new &&& took) ||| (old &&& ~~~took)).getLsbD i = old.getLsbD i := by
    simp only [BitVec.getLsbD_or, BitVec.getLsbD_and, BitVec.getLsbD_not, hi, decide_true, Bool.true_and]
    cases took.getLsbD i <;> simp
  intro after
  by_cases hv : (m.copyValid line && new != old) = true
  · by_cases hl : (m.writeLine line ((new &&& took) ||| (old &&& ~~~took)) 0xFF).copyValid line = true
    · have e : after =
          (((new &&& took) ||| (old &&& ~~~took)) ^^^ firstDifference new old).getLsbD i := by
        simp only [after, Memory.spoilLine, hv, hl, if_true]
        rw [readLine_writeLine (Memory.wf_writeLine h), if_pos rfl]
      rw [e, BitVec.getLsbD_xor]
      by_cases hd : (firstDifference new old).getLsbD i = true
      · have differ : new.getLsbD i = !old.getLsbD i := by
          unfold firstDifference at hd
          cases hf : (List.range 64).find? (fun k => (new ^^^ old).getLsbD k) with
          | none =>
            refine absurd ?_ (show new ≠ old by simpa using (Bool.and_eq_true_iff.mp hv).2)
            apply BitVec.eq_of_getLsbD_eq
            intro k hk
            have := List.find?_eq_none.mp hf k (List.mem_range.mpr hk)
            simp only [BitVec.getLsbD_xor, Bool.not_eq_true, bne_eq_false_iff_eq] at this
            exact this
          | some k =>
            rw [hf] at hd
            have hk : k = i := by
              simp only [Option.getD_some, BitVec.getLsbD_twoPow, Bool.and_eq_true, decide_eq_true_eq] at hd
              exact hd.2
            have := List.find?_some hf
            rw [hk, BitVec.getLsbD_xor] at this
            cases hn : new.getLsbD i <;> cases ho : old.getLsbD i <;> simp_all
        rw [hd, differ]
        cases old.getLsbD i <;> cases ((new &&& took) ||| (old &&& ~~~took)).getLsbD i <;> simp
      · simp only [Bool.not_eq_true] at hd
        rw [hd, Bool.xor_false]
        exact mixed.elim Or.inl (fun e => Or.inr (Or.inl e))
    · have e : after = ((new &&& took) ||| (old &&& ~~~took)).getLsbD i := by
        simp only [after, Memory.spoilLine, hv, hl, if_true, Bool.false_eq_true, if_false]
        rw [readLine_writeLine h, if_pos rfl]
      rw [e]
      exact mixed.elim Or.inl (fun e => Or.inr (Or.inl e))
  · refine Or.inr (Or.inr ?_)
    simp only [after, Memory.spoilLine, hv, Bool.false_eq_true, if_false]

/-- `spoilCopy` reaches no byte outside the line of the operation. -/
theorem read_spoilCopy {s : State} (h : s.mem.wf = true) {op : ArrayOp} (took : LineData) {x : Addr}
    (hx : lineOf x ≠ op.line) : (spoilCopy s op took).mem.read x = s.mem.read x := by
  unfold spoilCopy
  split
  · exact read_spoilLine h _ _ _ hx
  · rfl

/-- A copy that is not valid stays as it is. -/
theorem spoilCopy_of_not {s : State} {op : ArrayOp} (h : CopyNotValid s.mem op.line) (took : LineData) :
    spoilCopy s op took = s := by
  unfold spoilCopy
  split
  · rw [spoilLine_of_not ((copyNotValid_iff _ _).mp h)]
    rfl
  · rfl

/-- Whether a copy is valid depends on the bytes alone (R96). -/
theorem copyNotValid_congr {m n : Memory} (h : ∀ x, m.read x = n.read x) (line : LineNo) :
    CopyNotValid m line ↔ CopyNotValid n line := by
  have same : m.readLine = n.readLine := by
    funext k
    unfold Memory.readLine
    simp only [h]
  unfold CopyNotValid
  rw [same]

/-! ## What a step leaves in the memory -/

/-- A write step leaves at its enabled bytes the new data in the bits of `took`; any other step leaves every byte (R80). -/
theorem read_landStep {s : State} (h : s.mem.wf = true) (op : ArrayOp) (took : LineData) (x : Addr) :
    (landStep s op took).mem.read x =
      if op.step = .write ∧ lineOf x = op.line ∧ op.enables.getLsbD (lineOffset x) = true then
        (byteOf op.data (lineOffset x) &&& byteOf took (lineOffset x)) |||
          (s.mem.read x &&& ~~~(byteOf took (lineOffset x)))
      else s.mem.read x := by
  unfold landStep
  cases op.step with
  | read => simp
  | readBack => simp
  | write =>
    have hw := Memory.read_writeLine (line := op.line) (line' := lineOf x)
      (data := (op.data &&& took) ||| (s.mem.readLine op.line &&& ~~~took)) (enables := op.enables) h (lineOffset_lt x)
    rw [byteAddress_lineOf] at hw
    dsimp only [State.setMem_mem, Memory.takeStep]
    rw [hw]
    by_cases hl : lineOf x = op.line
    · have hr := byteOf_readLine s.mem op.line (lineOffset_lt x)
      rw [← hl, byteAddress_lineOf] at hr
      simp only [hl, true_and]
      rw [byteOf_or, byteOf_and, byteOf_and, byteOf_not _ (lineOffset_lt x)]
      rw [hl] at hr
      rw [hr]
    · have hl' : ¬op.line = lineOf x := fun e => hl e.symm
      simp [hl, hl']

/-- A write step over a line that holds the data leaves every byte. -/
theorem read_landStep_same {s : State} (h : s.mem.wf = true) {op : ArrayOp} (hl : s.mem.readLine op.line = op.data)
    (took : LineData) (x : Addr) : (landStep s op took).mem.read x = s.mem.read x := by
  rw [read_landStep h]
  split
  · rename_i c
    have e := byteOf_readLine s.mem op.line (lineOffset_lt x)
    rw [hl, ← c.2.1, byteAddress_lineOf] at e
    rw [e]
    apply BitVec.eq_of_getLsbD_eq
    intro i hi
    simp only [BitVec.getLsbD_or, BitVec.getLsbD_and, BitVec.getLsbD_not, hi, decide_true, Bool.true_and]
    cases (byteOf took (lineOffset x)).getLsbD i <;> simp
  · rfl

theorem landStep_wf {s : State} (h : s.mem.wf = true) (op : ArrayOp) (took : LineData) :
    (landStep s op took).mem.wf = true := by
  unfold landStep
  split
  · exact Memory.wf_takeStep h
  · exact h
  · exact h

/-- A read-back differs where an enabled byte reads otherwise than it was written (R81). -/
theorem readBackMatches_false_iff (op : ArrayOp) (m : Memory) : readBackMatches op (m.readLine op.line) = false ↔
    ∃ n < 8, op.enables.getLsbD n = true ∧ m.read (byteAddress op.line n) ≠ byteOf op.data n := by
  have ones : ∀ b : Byte, b &&& 255#8 = b := by decide
  have byteOf_xor : ∀ (x y : LineData) (n : Nat), byteOf (x ^^^ y) n = byteOf x n ^^^ byteOf y n := by
    intro x y n
    unfold byteOf
    apply BitVec.eq_of_getLsbD_eq
    intro j hj
    simp [hj]
  rw [← Bool.not_eq_true, ← not_iff_comm]
  unfold readBackMatches
  rw [beq_iff_eq]
  constructor
  · intro h
    push Not at h
    apply eq_of_byteOf
    intro n hn
    rw [byteOf_and, byteOf_xor, byteOf_readLine _ _ hn, byteOf_laneMask _ hn, byteOf_zero]
    by_cases he : op.enables.getLsbD n = true
    · rw [h n hn he]
      simp
    · simp [he]
  · rintro h ⟨n, hn, he, hne⟩
    have := congrArg (fun x => byteOf x n) h
    simp only [byteOf_and, byteOf_xor, byteOf_readLine _ _ hn, byteOf_laneMask _ hn, byteOf_zero, he, if_true] at this
    rw [show (0xFF : Byte) = 255#8 from rfl, ones] at this
    exact hne (by simpa using this)

end Sys2Proof.Machine
end

