-- ==== Sys2Proof/Laws/Frame.lean ====
section
/-! SUPPORT. What no shared operation touches: the memory, the session of the management port, the levels of the
lines but for the array's ready input, and the queue of commands. -/

set_option linter.unusedTactic false
set_option linter.unreachableTactic false

namespace Sys2Proof.Machine

/-- The part of State that the blocks' operations leave alone. -/
def outer (s : State) : Memory × Session × List Instr × Bool × Bool × Bool :=
  (s.mem, s.session, s.pending, s.pins.pfwN, s.pins.crstN, s.pins.mselN)

@[simp] theorem State.setPowered_outer (s : State) (v : Bool) : outer (s.setPowered v) = outer s := rfl
@[simp] theorem State.setLayout_outer (s : State) (v : Layout) : outer (s.setLayout v) = outer s := rfl
@[simp] theorem State.setAccess_outer (s : State) (v : AccessUnit) : outer (s.setAccess v) = outer s := rfl
@[simp] theorem State.setQueue_outer (s : State) (v : PostingQueue) : outer (s.setQueue v) = outer s := rfl
@[simp] theorem State.setGroups_outer (s : State) (v : GroupTracker) : outer (s.setGroups v) = outer s := rfl
@[simp] theorem State.setEngine_outer (s : State) (v : JournalEngine) : outer (s.setEngine v) = outer s := rfl
@[simp] theorem State.setPort_outer (s : State) (v : ArrayPort) : outer (s.setPort v) = outer s := rfl
@[simp] theorem State.setWriter_outer (s : State) (v : ControlWriter) : outer (s.setWriter v) = outer s := rfl
@[simp] theorem State.setControl_outer (s : State) (v : ModeController) : outer (s.setControl v) = outer s := rfl
@[simp] theorem State.setStart_outer (s : State) (v : StartSequence) : outer (s.setStart v) = outer s := rfl
@[simp] theorem State.setRecovery_outer (s : State) (v : Option Recovery) : outer (s.setRecovery v) = outer s := rfl
@[simp] theorem State.setShutdown_outer (s : State) (v : ShutdownSequencer) : outer (s.setShutdown v) = outer s := rfl
@[simp] theorem State.setConfinement_outer (s : State) (v : Vector InitiatorRecord 4) :
    outer (s.setConfinement v) = outer s := rfl
@[simp] theorem State.setRecorder_outer (s : State) (v : IncidentRecorder) : outer (s.setRecorder v) = outer s := rfl
@[simp] theorem State.setLineBefore_outer (s : State) (v : LineData) : outer (s.setLineBefore v) = outer s := rfl
@[simp] theorem State.setFree_outer (s : State) (v : Nat) : outer (s.setFree v) = outer s := rfl
@[simp] theorem State.setReady_outer (s : State) (b : Bool) :
    outer (s.setPins { pfwN := s.pins.pfwN, crstN := s.pins.crstN, mselN := s.pins.mselN, arrayReady := b }) = outer s := rfl

@[simp] theorem raise_outer (s : State) (e : Event) : outer (raise s e) = outer s := by
  unfold raise
  try dsimp only
  repeat' first | (simp; done) | split

@[simp] theorem changeMode_outer (s : State) (m : Mode) : outer (changeMode s m) = outer s := by
  unfold changeMode
  try dsimp only
  repeat' first | (simp; done) | split

@[simp] theorem completeLong_outer (s : State) (r : LongResult) : outer (completeLong s r) = outer s := by
  unfold completeLong
  try dsimp only
  repeat' first | (simp; done) | split

@[simp] theorem recordIncident_outer (s : State) (r : Report) : outer (recordIncident s r) = outer s := by
  unfold recordIncident
  try dsimp only
  repeat' first | (simp; done) | split

@[simp] theorem copyReported_outer (s : State) : outer (copyReported s) = outer s := by
  unfold copyReported
  try dsimp only
  repeat' first | (simp; done) | split

@[simp] theorem judgeChange_outer (s : State) (i : Initiator) (old new : Standing) :
    outer (judgeChange s i old new) = outer s := by
  unfold judgeChange
  try dsimp only
  repeat' first | (simp; done) | split

@[simp] theorem setStanding_outer (s : State) (i : Initiator) (counter : Nat) (state : Standing) :
    outer (setStanding s i counter state) = outer s := by
  unfold setStanding
  try dsimp only
  repeat' first | (simp; done) | split

@[simp] theorem changeCounter_outer (s : State) (i : Initiator) (counter : Nat) :
    outer (changeCounter s i counter) = outer s := by
  unfold changeCounter
  try dsimp only
  repeat' first | (simp; done) | split

@[simp] theorem countRefusal_outer (s : State) (i : Initiator) (write : Bool) :
    outer (countRefusal s i write) = outer s := by
  unfold countRefusal
  try dsimp only
  repeat' first | (simp; done) | split

@[simp] theorem countAccepted_outer (s : State) (i : Initiator) : outer (countAccepted s i) = outer s := by
  unfold countAccepted
  try dsimp only
  repeat' first | (simp; done) | split

@[simp] theorem fenceInitiator_outer (s : State) (i : Initiator) : outer (fenceInitiator s i) = outer s := by
  unfold fenceInitiator
  try dsimp only
  repeat' first | (simp; done) | split

@[simp] theorem finishAccess_outer (s : State) (a : Answer) : outer (finishAccess s a) = outer s := by
  unfold finishAccess
  try dsimp only
  repeat' first | (simp; done) | split

@[simp] theorem holdAccess_outer (s : State) (h : Held) : outer (holdAccess s h) = outer s := by
  unfold holdAccess
  try dsimp only
  repeat' first | (simp; done) | split

@[simp] theorem finishWrite_outer (s : State) (i : Initiator) : outer (finishWrite s i) = outer s := by
  unfold finishWrite
  try dsimp only
  repeat' first | (simp; done) | split

@[simp] theorem refuseHeld_outer (s : State) : outer (refuseHeld s) = outer s := by
  unfold refuseHeld
  try dsimp only
  repeat' first | (simp; done) | split

@[simp] theorem refuseHeldWrite_outer (s : State) : outer (refuseHeldWrite s) = outer s := by
  unfold refuseHeldWrite
  try dsimp only
  repeat' first | (simp; done) | split

@[simp] theorem changeEntries_outer (s : State) (p : Entry → Bool) (f : Entry → Entry) :
    outer (changeEntries s p f) = outer s := by
  unfold changeEntries
  try dsimp only
  repeat' first | (simp; done) | split

@[simp] theorem setEntryState_outer (s : State) (slot : Fin 32) (st : EntryState) :
    outer (setEntryState s slot st) = outer s := by
  unfold setEntryState
  try dsimp only
  repeat' first | (simp; done) | split

@[simp] theorem freeEntries_outer (s : State) (p : Entry → Bool) : outer (freeEntries s p) = outer s := by
  unfold freeEntries
  try dsimp only
  repeat' first | (simp; done) | split

@[simp] theorem clearFlushMarks_outer (s : State) : outer (clearFlushMarks s) = outer s := by
  unfold clearFlushMarks
  try dsimp only
  repeat' first | (simp; done) | split

@[simp] theorem changeGroup_outer (s : State) (sequence : Seq) (f : Group → Group) :
    outer (changeGroup s sequence f) = outer s := by
  unfold changeGroup
  try dsimp only
  repeat' first | (simp; done) | split

@[simp] theorem closeOpen_outer (s : State) (cause : CloseCause) : outer (closeOpen s cause) = outer s := by
  unfold closeOpen
  try dsimp only
  repeat' first | (simp; done) | split

@[simp] theorem releaseEngine_outer (s : State) : outer (releaseEngine s) = outer s := by
  unfold releaseEngine
  try dsimp only
  repeat' first | (simp; done) | split

@[simp] theorem enterHalted_outer (s : State) (d : Detail) : outer (enterHalted s d) = outer s := by
  unfold enterHalted
  try dsimp only
  repeat' first | (simp; done) | split

@[simp] theorem enterConfig_outer (s : State) (r : LongResult) : outer (enterConfig s r) = outer s := by
  unfold enterConfig
  try dsimp only
  repeat' first | (simp; done) | split

@[simp] theorem abandonPath_outer (s : State) : outer (abandonPath s) = outer s := by
  unfold abandonPath
  try dsimp only
  repeat' first | (simp; done) | split

@[simp] theorem haltReaction_outer (s : State) (d : Detail) : outer (haltReaction s d) = outer s := by
  unfold haltReaction
  try dsimp only
  repeat' first | (simp; done) | split

@[simp] theorem carryOut_outer (s : State) (reaction : Reaction) (r : Report) :
    outer (carryOut s reaction r) = outer s := by
  unfold carryOut
  try dsimp only
  repeat' first | (simp; done) | split

@[simp] theorem reportIncident_outer (s : State) (r : Report) : outer (reportIncident s r) = outer s := by
  unfold reportIncident
  try dsimp only
  repeat' first | (simp; done) | split

@[simp] theorem beginProgress_outer (s : State) (p : ProgressContent) : outer (beginProgress s p) = outer s := by
  unfold beginProgress
  try dsimp only
  repeat' first | (simp; done) | split

@[simp] theorem beginLayout_outer (s : State) : outer (beginLayout s) = outer s := by
  unfold beginLayout
  try dsimp only
  repeat' first | (simp; done) | split

@[simp] theorem endCopyWrite_outer (s : State) : outer (endCopyWrite s) = outer s := by
  unfold endCopyWrite
  try dsimp only
  repeat' first | (simp; done) | split

@[simp] theorem copyLineWritten_outer (s : State) : outer (copyLineWritten s) = outer s := by
  unfold copyLineWritten
  try dsimp only
  repeat' first | (simp; done) | split

@[simp] theorem beginStep_outer (s : State) (op : ArrayOp) : outer (beginStep s op) = outer s := by
  unfold beginStep
  try dsimp only
  repeat' first | (simp; done) | split

@[simp] theorem spendBudget_outer (s : State) : outer (spendBudget s) = outer s := by
  unfold spendBudget
  try dsimp only
  repeat' first | (simp; done) | split

@[simp] theorem markGranted_outer (s : State) (r : Requester) : outer (markGranted s r) = outer s := by
  unfold markGranted
  try dsimp only
  repeat' first | (simp; done) | split

@[simp] theorem keepLine_outer (s : State) (op : ArrayOp) : outer (keepLine s op) = outer s := by
  unfold keepLine
  split <;> rfl

@[simp] theorem startOp_outer (s : State) (op : ArrayOp) : outer (startOp s op) = outer s := by
  unfold startOp
  try dsimp only
  repeat' first | (simp; done) | split

@[simp] theorem createEntry_outer (s : State) (h : Held) (slot : Fin 32) (group : Option Seq) :
    outer (createEntry s h slot group) = outer s := by
  unfold createEntry
  try dsimp only
  repeat' first | (simp; done) | split

@[simp] theorem mergeInto_outer (s : State) (slot : Fin 32) (a : Access) : outer (mergeInto s slot a) = outer s := by
  unfold mergeInto
  try dsimp only
  repeat' first | (simp; done) | split

@[simp] theorem takePosted_outer (s : State) (h : Held) : outer (takePosted s h) = outer s := by
  unfold takePosted
  try dsimp only
  repeat' first | (simp; done) | split

@[simp] theorem openGroupWith_outer (s : State) (h : Held) (slot : Fin 32) :
    outer (openGroupWith s h slot) = outer s := by
  unfold openGroupWith
  try dsimp only
  repeat' first | (simp; done) | split

@[simp] theorem takeInNewGroup_outer (s : State) (h : Held) : outer (takeInNewGroup s h) = outer s := by
  unfold takeInNewGroup
  try dsimp only
  repeat' first | (simp; done) | split

@[simp] theorem takeInOpenGroup_outer (s : State) (h : Held) (g : Group) :
    outer (takeInOpenGroup s h g) = outer s := by
  unfold takeInOpenGroup
  try dsimp only
  repeat' first | (simp; done) | split

@[simp] theorem takeGrouped_outer (s : State) (h : Held) : outer (takeGrouped s h) = outer s := by
  unfold takeGrouped
  try dsimp only
  repeat' first | (simp; done) | split

@[simp] theorem takeWrite_outer (s : State) (h : Held) : outer (takeWrite s h) = outer s := by
  unfold takeWrite
  try dsimp only
  repeat' first | (simp; done) | split

@[simp] theorem takeRead_outer (s : State) (h : Held) : outer (takeRead s h) = outer s := by
  unfold takeRead
  try dsimp only
  repeat' first | (simp; done) | split

@[simp] theorem answerRead_outer (s : State) (a : Access) (data : LineData) :
    outer (answerRead s a data) = outer s := by
  unfold answerRead
  try dsimp only
  repeat' first | (simp; done) | split

@[simp] theorem removeDrained_outer (s : State) (slot : Fin 32) (failed : Bool) :
    outer (removeDrained s slot failed) = outer s := by
  unfold removeDrained
  try dsimp only
  repeat' first | (simp; done) | split

@[simp] theorem changeCommitGroup_outer (s : State) (f : Group → Group) :
    outer (changeCommitGroup s f) = outer s := by
  unfold changeCommitGroup
  try dsimp only
  repeat' first | (simp; done) | split

@[simp] theorem enterPhase_outer (s : State) (p : Phase) : outer (enterPhase s p) = outer s := by
  unfold enterPhase
  try dsimp only
  repeat' first | (simp; done) | split

@[simp] theorem setPosition_outer (s : State) (n : Nat) (half : Half) : outer (setPosition s n half) = outer s := by
  unfold setPosition
  try dsimp only
  repeat' first | (simp; done) | split

@[simp] theorem composeRecord_outer (s : State) : outer (composeRecord s) = outer s := by
  unfold composeRecord
  try dsimp only
  repeat' first | (simp; done) | split

@[simp] theorem startJournaling_outer (s : State) : outer (startJournaling s) = outer s := by
  unfold startJournaling
  try dsimp only
  repeat' first | (simp; done) | split

@[simp] theorem startRetiring_outer (s : State) : outer (startRetiring s) = outer s := by
  unfold startRetiring
  try dsimp only
  repeat' first | (simp; done) | split

@[simp] theorem takeNextGroup_outer (s : State) : outer (takeNextGroup s) = outer s := by
  unfold takeNextGroup
  try dsimp only
  repeat' first | (simp; done) | split

@[simp] theorem setCommitEntries_outer (s : State) (p : EntryState → Bool) (st : EntryState) :
    outer (setCommitEntries s p st) = outer s := by
  unfold setCommitEntries
  try dsimp only
  repeat' first | (simp; done) | split

@[simp] theorem sealGroup_outer (s : State) : outer (sealGroup s) = outer s := by
  unfold sealGroup
  try dsimp only
  repeat' first | (simp; done) | split

@[simp] theorem recordWritten_outer (s : State) : outer (recordWritten s) = outer s := by
  unfold recordWritten
  try dsimp only
  repeat' first | (simp; done) | split

@[simp] theorem recordLineWritten_outer (s : State) : outer (recordLineWritten s) = outer s := by
  unfold recordLineWritten
  try dsimp only
  repeat' first | (simp; done) | split

@[simp] theorem entryApplied_outer (s : State) (slot : Fin 32) : outer (entryApplied s slot) = outer s := by
  unfold entryApplied
  try dsimp only
  repeat' first | (simp; done) | split

@[simp] theorem retireGroup_outer (s : State) : outer (retireGroup s) = outer s := by
  unfold retireGroup
  try dsimp only
  repeat' first | (simp; done) | split

@[simp] theorem retiringLineWritten_outer (s : State) : outer (retiringLineWritten s) = outer s := by
  unfold retiringLineWritten
  try dsimp only
  repeat' first | (simp; done) | split

@[simp] theorem stallGroup_outer (s : State) : outer (stallGroup s) = outer s := by
  unfold stallGroup
  try dsimp only
  repeat' first | (simp; done) | split

@[simp] theorem commitFailed_outer (s : State) (r : Report) : outer (commitFailed s r) = outer s := by
  unfold commitFailed
  try dsimp only
  repeat' first | (simp; done) | split

@[simp] theorem restartPhase_outer (s : State) (p : Phase) : outer (restartPhase s p) = outer s := by
  unfold restartPhase
  try dsimp only
  repeat' first | (simp; done) | split

@[simp] theorem storeLineWritten_outer (s : State) : outer (storeLineWritten s) = outer s := by
  unfold storeLineWritten
  try dsimp only
  repeat' first | (simp; done) | split

@[simp] theorem storeLineFailed_outer (s : State) (r : Report) : outer (storeLineFailed s r) = outer s := by
  unfold storeLineFailed
  try dsimp only
  repeat' first | (simp; done) | split

@[simp] theorem beginFormat_outer (s : State) : outer (beginFormat s) = outer s := by
  unfold beginFormat
  try dsimp only
  repeat' first | (simp; done) | split

@[simp] theorem formatComplete_outer (s : State) (image : Layout) : outer (formatComplete s image) = outer s := by
  unfold formatComplete
  try dsimp only
  repeat' first | (simp; done) | split

@[simp] theorem formatLineWritten_outer (s : State) : outer (formatLineWritten s) = outer s := by
  unfold formatLineWritten
  try dsimp only
  repeat' first | (simp; done) | split

@[simp] theorem formatLineFailed_outer (s : State) (r : Report) : outer (formatLineFailed s r) = outer s := by
  unfold formatLineFailed
  try dsimp only
  repeat' first | (simp; done) | split

@[simp] theorem endRecovery_outer (s : State) (m : Mode) : outer (endRecovery s m) = outer s := by
  unfold endRecovery
  try dsimp only
  repeat' first | (simp; done) | split

@[simp] theorem recoveryFails_outer (s : State) (path : RecoveryPath) : outer (recoveryFails s path) = outer s := by
  unfold recoveryFails
  try dsimp only
  repeat' first | (simp; done) | split

@[simp] theorem enterRecovery_outer (s : State) (path : RecoveryPath) : outer (enterRecovery s path) = outer s := by
  unfold enterRecovery
  try dsimp only
  repeat' first | (simp; done) | split

@[simp] theorem recordIncidents_outer (rs : List Report) (s : State) :
    outer (rs.foldl recordIncident s) = outer s := by
  induction rs generalizing s with
  | nil => rfl
  | cons r rs ih => rw [List.foldl_cons, ih, recordIncident_outer]

@[simp] theorem selectCopies_outer (s : State) (lines : List LineData) : outer (selectCopies s lines) = outer s := by
  unfold selectCopies
  try dsimp only
  repeat' first | (simp; done) | split

@[simp] theorem startReadDone_outer (s : State) (data : LineData) : outer (startReadDone s data) = outer s := by
  unfold startReadDone
  try dsimp only
  repeat' first | (simp; done) | split

@[simp] theorem startReadFailed_outer (s : State) (line : LineNo) (before : Nat) :
    outer (startReadFailed s line before) = outer s := by
  unfold startReadFailed
  try dsimp only
  repeat' first | (simp; done) | split

@[simp] theorem startFinalCopy_outer (s : State) (r : Recovery) : outer (startFinalCopy s r) = outer s := by
  unfold startFinalCopy
  try dsimp only
  repeat' first | (simp; done) | split

@[simp] theorem setJournalPending_outer (s : State) (b : Bool) : outer (setJournalPending s b) = outer s := by
  unfold setJournalPending
  try dsimp only
  repeat' first | (simp; done) | split

@[simp] theorem judgeCandidate_outer (s : State) (r : Recovery) (record : JournalRecord) :
    outer (judgeCandidate s r record) = outer s := by
  unfold judgeCandidate
  try dsimp only
  repeat' first | (simp; done) | split

@[simp] theorem positionRead_outer (s : State) (r : Recovery) (record : JournalRecord) :
    outer (positionRead s r record) = outer s := by
  unfold positionRead
  try dsimp only
  repeat' first | (simp; done) | split

@[simp] theorem scanLineRead_outer (s : State) (data : LineData) : outer (scanLineRead s data) = outer s := by
  unfold scanLineRead
  try dsimp only
  repeat' first | (simp; done) | split

@[simp] theorem replayWritten_outer (s : State) : outer (replayWritten s) = outer s := by
  unfold replayWritten
  try dsimp only
  repeat' first | (simp; done) | split

@[simp] theorem recoveryComplete_outer (s : State) (r : Recovery) : outer (recoveryComplete s r) = outer s := by
  unfold recoveryComplete
  try dsimp only
  repeat' first | (simp; done) | split

@[simp] theorem recoveryLineWritten_outer (s : State) (replay : Bool) :
    outer (recoveryLineWritten s replay) = outer s := by
  unfold recoveryLineWritten
  try dsimp only
  repeat' first | (simp; done) | split

@[simp] theorem recoveryOpFailed_outer (s : State) (report : Report) :
    outer (recoveryOpFailed s report) = outer s := by
  unfold recoveryOpFailed
  try dsimp only
  repeat' first | (simp; done) | split

@[simp] theorem abandonLong_outer (s : State) : outer (abandonLong s) = outer s := by
  unfold abandonLong
  try dsimp only
  repeat' first | (simp; done) | split

@[simp] theorem enterShutdown_outer (s : State) : outer (enterShutdown s) = outer s := by
  unfold enterShutdown
  try dsimp only
  repeat' first | (simp; done) | split

@[simp] theorem takeShutdownCause_outer (s : State) : outer (takeShutdownCause s) = outer s := by
  unfold takeShutdownCause
  try dsimp only
  repeat' first | (simp; done) | split

@[simp] theorem enterStarting_outer (s : State) : outer (enterStarting s) = outer s := by
  unfold enterStarting
  simp
  rfl

@[simp] theorem endWork_outer (s : State) : outer (endWork s) = outer s := rfl

@[simp] theorem endShutdown_outer (s : State) : outer (endShutdown s) = outer s := by
  unfold endShutdown
  try dsimp only
  repeat' first | (simp; done) | split

@[simp] theorem setStage_outer (s : State) (g : ShutdownStage) : outer (setStage s g) = outer s := by
  unfold setStage
  try dsimp only
  repeat' first | (simp; done) | split

@[simp] theorem finalProgressLine_outer (s : State) : outer (finalProgressLine s) = outer s := by
  unfold finalProgressLine
  try dsimp only
  repeat' first | (simp; done) | split

@[simp] theorem startFinalProgress_outer (s : State) : outer (startFinalProgress s) = outer s := by
  unfold startFinalProgress
  try dsimp only
  repeat' first | (simp; done) | split

@[simp] theorem abandonPosted_outer (s : State) : outer (abandonPosted s) = outer s := by
  unfold abandonPosted
  try dsimp only
  repeat' first | (simp; done) | split

@[simp] theorem drainStage_outer (s : State) : outer (drainStage s) = outer s := by
  unfold drainStage
  try dsimp only
  repeat' first | (simp; done) | split

@[simp] theorem planGroups_outer (s : State) : outer (planGroups s) = outer s := by
  unfold planGroups
  try dsimp only
  repeat' first | (simp; done) | split

@[simp] theorem continueGroup_outer (s : State) : outer (continueGroup s) = outer s := by
  unfold continueGroup
  try dsimp only
  repeat' first | (simp; done) | split

@[simp] theorem afterFinishing_outer (s : State) : outer (afterFinishing s) = outer s := by
  unfold afterFinishing
  try dsimp only
  repeat' first | (simp; done) | split

@[simp] theorem advanceShutdown_outer (s : State) : outer (advanceShutdown s) = outer s := by
  unfold advanceShutdown
  try dsimp only
  repeat' first | (simp; done) | split

@[simp] theorem finalLineWritten_outer (s : State) : outer (finalLineWritten s) = outer s := by
  unfold finalLineWritten
  try dsimp only
  repeat' first | (simp; done) | split

@[simp] theorem arbitrate_outer (s : State) : outer (arbitrate s) = outer s := by
  unfold arbitrate
  try dsimp only
  repeat' first | (simp; done) | split

@[simp] theorem clearPassOver_outer (s : State) : outer (clearPassOver s) = outer s := by
  unfold clearPassOver
  try dsimp only
  repeat' first | (simp; done) | split

@[simp] theorem drivePort_outer (s : State) : outer (drivePort s) = outer s := by
  unfold drivePort
  try dsimp only
  repeat' first | (simp; done) | split

@[simp] theorem flushCheck_outer (s : State) : outer (flushCheck s) = outer s := by
  unfold flushCheck
  try dsimp only
  repeat' first | (simp; done) | split

@[simp] theorem handoverCheck_outer (s : State) : outer (handoverCheck s) = outer s := by
  unfold handoverCheck
  try dsimp only
  repeat' first | (simp; done) | split

@[simp] theorem settle_outer (s : State) : outer (settle s) = outer s := by
  unfold settle
  try dsimp only
  repeat' first | (simp; done) | split

@[simp] theorem readCompleted_outer (s : State) (data : LineData) : outer (readCompleted s data) = outer s := by
  unfold readCompleted
  try dsimp only
  repeat' first | (simp; done) | split

@[simp] theorem throughCompleted_outer (s : State) : outer (throughCompleted s) = outer s := by
  unfold throughCompleted
  try dsimp only
  repeat' first | (simp; done) | split

@[simp] theorem opCompleted_outer (s : State) (op : ArrayOp) (data : LineData) :
    outer (opCompleted s op data) = outer s := by
  unfold opCompleted
  try dsimp only
  repeat' first | (simp; done) | split

@[simp] theorem readFailed_outer (s : State) (a : Access) (window : Option WindowIndex) :
    outer (readFailed s a window) = outer s := by
  unfold readFailed
  try dsimp only
  repeat' first | (simp; done) | split

@[simp] theorem throughFailed_outer (s : State) (f : Failure) (a : Access) (window : Option WindowIndex) :
    outer (throughFailed s f a window) = outer s := by
  unfold throughFailed
  try dsimp only
  repeat' first | (simp; done) | split

@[simp] theorem inPlaceFailed_outer (s : State) (f : Failure) (line : LineNo) (k : Fin 32) (window : WindowIndex) (writer : Initiator) :
    outer (inPlaceFailed s f line k window writer) = outer s := by
  unfold inPlaceFailed
  try dsimp only
  repeat' first | (simp; done) | split

@[simp] theorem opFailed_outer (s : State) (op : ArrayOp) (f : Failure) : outer (opFailed s op f) = outer s := by
  unfold opFailed
  try dsimp only
  repeat' first | (simp; done) | split

@[simp] theorem freePort_outer (s : State) : outer (freePort s) = outer s := by
  unfold freePort
  try dsimp only
  repeat' first | (simp; done) | split

@[simp] theorem compareReadBack_outer (s : State) (op : ArrayOp) (line took : LineData) :
    outer (compareReadBack s op line took) =
      outer (if readBackMatches op line = false ∧ 3 ≤ op.attempt then spoilCopy s op took else s) := by
  unfold compareReadBack
  by_cases h : readBackMatches op line = true
  · simp [h]
  · by_cases ha : op.attempt < 3
    · simp [h, ha, Nat.not_le.mpr ha]
    · simp [h, ha, Nat.not_lt.mp ha]

/-- The step that ends fails the operation by a miscompare: outside SHUTDOWN, the third read-back differs (R81, R89). -/
abbrev MiscompareEnds (s : State) (op : ArrayOp) : Prop :=
  s.control.mode ≠ .shutdown ∧ op.kind = .verifiedWrite ∧ op.step = .readBack ∧
    readBackMatches op (s.mem.readLine op.line) = false ∧ 3 ≤ op.attempt

/-- A step that ends changes the memory where it fails a copy write, and nowhere else. -/
theorem stepEnded_outer (s : State) (op : ArrayOp) (took : LineData) :
    outer (stepEnded s op took) = outer (if MiscompareEnds s op then spoilCopy s op took else s) := by
  unfold stepEnded MiscompareEnds
  dsimp only
  split
  · rename_i h
    simp [h]
  · rename_i h
    split <;> simp_all

@[simp] theorem retryStartReads_outer (s : State) : outer (retryStartReads s) = outer s := by
  unfold retryStartReads
  try dsimp only
  repeat' first | (simp; done) | split

@[simp] theorem refuseAccess_outer (s : State) (a : Access) (r : Report) : outer (refuseAccess s a r) = outer s := by
  unfold refuseAccess
  try dsimp only
  repeat' first | (simp; done) | split

@[simp] theorem takeAccess_outer (s : State) (h : Held) : outer (takeAccess s h) = outer s := by
  unfold takeAccess
  try dsimp only
  repeat' first | (simp; done) | split

@[simp] theorem takeAnew_outer (s : State) (write : Bool) : outer (takeAnew s write) = outer s := by
  unfold takeAnew
  try dsimp only
  repeat' first | (simp; done) | split

@[simp] theorem stallExpiry_outer (s : State) : outer (stallExpiry s) = outer s := by
  unfold stallExpiry
  try dsimp only
  repeat' first | (simp; done) | split

@[simp] theorem scanBoundary_outer (s : State) : outer (scanBoundary s) = outer s := by
  unfold scanBoundary
  try dsimp only
  repeat' first | (simp; done) | split

@[simp] theorem acceptLong_outer (s : State) (c : LongCommand) : outer (acceptLong s c) = outer s := by
  unfold acceptLong
  try dsimp only
  repeat' first | (simp; done) | split

@[simp] theorem clearEvent_outer (s : State) (e : Event) : outer (clearEvent s e) = outer s := by
  unfold clearEvent
  try dsimp only
  repeat' first | (simp; done) | split

@[simp] theorem ackFault_outer (s : State) : outer (ackFault s) = outer s := by
  unfold ackFault
  try dsimp only
  repeat' first | (simp; done) | split

@[simp] theorem ackConfinement_outer (s : State) : outer (ackConfinement s) = outer s := by
  unfold ackConfinement
  try dsimp only
  repeat' first | (simp; done) | split

@[simp] theorem acknowledge_outer (s : State) (e : EventSet) : outer (acknowledge s e) = outer s := by
  unfold acknowledge
  try dsimp only
  repeat' first | (simp; done) | split

@[simp] theorem release_outer (s : State) (i : Initiator) : outer (release s i) = outer s := by
  unfold release
  try dsimp only
  repeat' first | (simp; done) | split

@[simp] theorem markPosted_outer (s : State) : outer (markPosted s) = outer s := by
  unfold markPosted
  try dsimp only
  repeat' first | (simp; done) | split

@[simp] theorem targetGroups_outer (s : State) : outer (targetGroups s) = outer s := by
  unfold targetGroups
  try dsimp only
  repeat' first | (simp; done) | split

@[simp] theorem acceptFlush_outer (s : State) (all : Bool) : outer (acceptFlush s all) = outer s := by
  unfold acceptFlush
  try dsimp only
  repeat' first | (simp; done) | split

@[simp] theorem acceptConfig_outer (s : State) : outer (acceptConfig s) = outer s := by
  unfold acceptConfig
  try dsimp only
  repeat' first | (simp; done) | split

@[simp] theorem restartStalled_outer (s : State) : outer (restartStalled s) = outer s := by
  unfold restartStalled
  try dsimp only
  repeat' first | (simp; done) | split

@[simp] theorem resume_outer (s : State) : outer (resume s) = outer s := by
  unfold resume
  try dsimp only
  repeat' first | (simp; done) | split

@[simp] theorem putWindow_outer (s : State) (i : WindowIndex) (record : BitVec 64) :
    outer (putWindow s i record) = outer s := by
  unfold putWindow
  try dsimp only
  repeat' first | (simp; done) | split

@[simp] theorem putSettings_outer (s : State) (settings : BitVec 128) : outer (putSettings s settings) = outer s := by
  unfold putSettings
  try dsimp only
  repeat' first | (simp; done) | split

@[simp] theorem countStamp_outer (s : State) : outer (countStamp s) = outer s := by
  unfold countStamp
  try dsimp only
  repeat' first | (simp; done) | split

/-! ## The parts of `outer` -/

theorem mem_of_outer {s t : State} (h : outer t = outer s) : t.mem = s.mem :=
  congrArg (fun o => o.1) h

theorem session_of_outer {s t : State} (h : outer t = outer s) : t.session = s.session :=
  congrArg (fun o => o.2.1) h

theorem pending_of_outer {s t : State} (h : outer t = outer s) : t.pending = s.pending :=
  congrArg (fun o => o.2.2.1) h

theorem pfwN_of_outer {s t : State} (h : outer t = outer s) : t.pins.pfwN = s.pins.pfwN :=
  congrArg (fun o => o.2.2.2.1) h

theorem crstN_of_outer {s t : State} (h : outer t = outer s) : t.pins.crstN = s.pins.crstN :=
  congrArg (fun o => o.2.2.2.2.1) h

theorem mselN_of_outer {s t : State} (h : outer t = outer s) : t.pins.mselN = s.pins.mselN :=
  congrArg (fun o => o.2.2.2.2.2) h

/-- The state after the step in progress has landed in the memory and, where it fails, has left its copy not valid. -/
def landed (s : State) (took : LineData) (timedOut : Bool) : State :=
  match s.port.op with
  | none => s
  | some op =>
    if op.presented then
      let t := landStep s op took
      if timedOut ∨ MiscompareEnds t op then spoilCopy t op took else t
    else if timedOut then spoilCopy s op took else s

theorem landStep_mem_pins (s : State) (p : Pins) (op : ArrayOp) (took : LineData) :
    landStep (s.setPins p) op took = (landStep s op took).setPins p := by
  unfold landStep
  cases op.step <;> rfl

theorem spoilCopy_setPins (s : State) (p : Pins) (op : ArrayOp) (took : LineData) :
    spoilCopy (s.setPins p) op took = (spoilCopy s op took).setPins p := by
  unfold spoilCopy
  split <;> rfl

/-- The ready line changes the memory where a presented write step lands or a copy write fails, and nowhere else. -/
theorem readyAsserted_outer (s : State) (took : LineData) :
    outer (readyAsserted s took) = outer (landed s took false) := by
  unfold readyAsserted landed
  dsimp only [State.setPins_port]
  cases hp : s.port.op with
  | none => rfl
  | some op =>
    dsimp only
    split
    · rw [settle_outer, stepEnded_outer, landStep_mem_pins]
      have e : MiscompareEnds ((landStep s op took).setPins { s.pins with arrayReady := true }) op ↔
          MiscompareEnds (landStep s op took) op := Iff.rfl
      simp only [e, Bool.false_eq_true, false_or]
      split
      · rw [spoilCopy_setPins]
        have : (spoilCopy (landStep s op took) op took).pins = s.pins := by
          unfold spoilCopy landStep
          cases op.step <;> dsimp only <;> split <;> rfl
        rw [← this]
        rfl
      · unfold landStep
        cases op.step <;> rfl
    · rw [beginStep_outer]
      rfl

/-- A timeout changes the memory where a presented write step lands or a copy write fails, and nowhere else. -/
theorem stepTimedOut_outer (s : State) (took : LineData) :
    outer (stepTimedOut s took) = outer (landed s took true) := by
  unfold stepTimedOut landed
  cases hp : s.port.op with
  | none => rfl
  | some op =>
    dsimp only
    rw [settle_outer]
    repeat' first | (simp; done) | split

end Sys2Proof.Machine
end

