-- ==== Sys2Proof/Laws/Sound.lean ====
section
/-! SUPPORT. Every shared operation keeps the bounds that `Sound` names. -/

set_option linter.unusedTactic false
set_option linter.unreachableTactic false

namespace Sys2Proof.Machine

/-- Either branch of a choice. -/
theorem Sound.ite {c : Prop} [Decidable c] {s t : State} (hs : Sound s) (ht : Sound t) :
    Sound (if c then s else t) := by
  split
  · exact hs
  · exact ht

/-! ## Updates of one block -/

theorem Sound.setPowered {s : State} (h : Sound s) (v : Bool) : Sound (s.setPowered v) := { h with }
theorem Sound.setPins {s : State} (h : Sound s) (v : Pins) : Sound (s.setPins v) := { h with }
theorem Sound.setLayout {s : State} (h : Sound s) (v : Layout) : Sound (s.setLayout v) := { h with }
theorem Sound.setEngine {s : State} (h : Sound s) (v : JournalEngine) : Sound (s.setEngine v) := { h with }
theorem Sound.setWriter {s : State} (h : Sound s) (v : ControlWriter) : Sound (s.setWriter v) := { h with }
theorem Sound.setControl {s : State} (h : Sound s) (v : ModeController) : Sound (s.setControl v) := { h with }
theorem Sound.setSession {s : State} (h : Sound s) (v : Session) : Sound (s.setSession v) := { h with }
theorem Sound.setLineBefore {s : State} (h : Sound s) (v : LineData) : Sound (s.setLineBefore v) := { h with }
theorem Sound.setFree {s : State} (h : Sound s) (v : Nat) : Sound (s.setFree v) := { h with }
theorem Sound.setPending {s : State} (h : Sound s) (v : List Instr) : Sound (s.setPending v) := { h with }

theorem Sound.setMem {s : State} (h : Sound s) {v : Memory} (hv : v.wf = true) : Sound (s.setMem v) :=
  { h with mem := hv }

theorem Sound.setAccess {s : State} (h : Sound s) {v : AccessUnit} (hv : AccessOk v) : Sound (s.setAccess v) :=
  { h with access := hv }

theorem Sound.setQueue {s : State} (h : Sound s) {v : PostingQueue} (hv : QueueOk v) : Sound (s.setQueue v) :=
  { h with queue := hv }

theorem Sound.setGroups {s : State} (h : Sound s) {v : GroupTracker} (hv : v.table.length ≤ Config.groupRecords) :
    Sound (s.setGroups v) :=
  { h with groups := hv }

theorem Sound.setPort {s : State} (h : Sound s) {v : ArrayPort} (hv : PortOk v) : Sound (s.setPort v) :=
  { h with port := hv }

theorem Sound.setStart {s : State} (h : Sound s) {v : StartSequence} (hv : v.lines.length < Config.startReads) :
    Sound (s.setStart v) :=
  { h with start := hv }

theorem Sound.setRecovery {s : State} (h : Sound s) {v : Option Recovery} (hv : RecoveryOk v) :
    Sound (s.setRecovery v) :=
  { h with recovery := hv }

theorem Sound.setShutdown {s : State} (h : Sound s) {v : ShutdownSequencer} (hv : ShutdownOk v) :
    Sound (s.setShutdown v) :=
  { h with shutdown := hv }

theorem Sound.setConfinement {s : State} (h : Sound s) {v : Vector InitiatorRecord 4}
    (hv : ∀ i : Initiator, InitiatorOk v[i]) : Sound (s.setConfinement v) :=
  { h with initiators := hv }

theorem Sound.setRecorder {s : State} (h : Sound s) {v : IncidentRecorder}
    (hv : v.incidents.length ≤ Config.incidentRecords) : Sound (s.setRecorder v) :=
  { h with incidents := hv }

/-! ## Events, incidents, confinement -/

theorem raise_sound {s : State} {e : Event} (h : Sound s) : Sound (raise s e) :=
  h.setRecorder h.incidents

theorem recordIncident_sound {s : State} {r : Report} (h : Sound s) : Sound (recordIncident s r) := by
  have hi := h.incidents
  unfold recordIncident
  dsimp only
  apply raise_sound
  apply (h.setFree _).setRecorder
  split
  · rw [List.length_append, List.length_singleton]
    omega
  · exact hi

theorem recordIncidents_sound {rs : List Report} {s : State} (h : Sound s) : Sound (rs.foldl recordIncident s) := by
  induction rs generalizing s with
  | nil => exact h
  | cons r rs ih => exact ih (recordIncident_sound h)

theorem copyReported_sound {s : State} (h : Sound s) : Sound (copyReported s) := by
  apply h.setConfinement
  intro i
  have := h.initiators i
  simpa [InitiatorOk] using this

theorem setStanding_sound {s : State} {i : Initiator} {counter : Nat} {state : Standing} (h : Sound s)
    (hc : counter ≤ 511) (hs : state ≠ .fenced → state = standingOf counter) :
    Sound (setStanding s i counter state) := by
  apply h.setConfinement
  intro j
  by_cases hij : i = j
  · subst hij
    simpa [InitiatorOk, hc] using hs
  · have hne : i.val ≠ j.val := fun e => hij (Fin.ext e)
    have := h.initiators j
    simpa [hne] using this

theorem judgeChange_sound {s : State} {i : Initiator} {old new : Standing} (h : Sound s) :
    Sound (judgeChange s i old new) := by
  unfold judgeChange
  split
  · exact h
  · split
    · exact raise_sound (copyReported_sound h)
    · exact h

theorem changeCounter_sound {s : State} {i : Initiator} {counter : Nat} (h : Sound s) (hc : counter ≤ 511) :
    Sound (changeCounter s i counter) := by
  unfold changeCounter
  dsimp only
  split
  · exact h
  · split
    · exact setStanding_sound h hc (fun e => absurd rfl e)
    · have := judgeChange_sound (i := i) (old := s.confinement[i].state) (new := standingOf counter)
        (setStanding_sound (i := i) (counter := counter) h hc (fun _ => rfl))
      split
      · exact recordIncident_sound this
      · exact this

theorem countRefusal_sound {s : State} {i : Initiator} {write : Bool} (h : Sound s) :
    Sound (countRefusal s i write) :=
  changeCounter_sound h (Nat.min_le_left _ _)

theorem countAccepted_sound {s : State} {i : Initiator} (h : Sound s) : Sound (countAccepted s i) :=
  changeCounter_sound h (le_trans (Nat.sub_le _ _) (h.initiators i).1)

theorem fenceInitiator_sound {s : State} {i : Initiator} (h : Sound s) : Sound (fenceInitiator s i) := by
  unfold fenceInitiator
  split
  · exact h
  · exact recordIncident_sound (judgeChange_sound (setStanding_sound h (by omega) (fun e => absurd rfl e)))

/-! ## Accesses -/

theorem finishAccess_sound {s : State} {a : Answer} (h : Sound s) : Sound (finishAccess s a) := by
  apply h.setAccess
  intro x hx
  simp at hx

theorem holdAccess_sound {s : State} {x : Held} (h : Sound s) (hx : aligned x.access = true) :
    Sound (holdAccess s x) := by
  apply h.setAccess
  intro y hy
  simp only [Option.some.injEq] at hy
  subst hy
  exact hx

theorem refuseHeldWrite_sound {s : State} (h : Sound s) : Sound (refuseHeldWrite s) := by
  unfold refuseHeldWrite
  split
  · exact h
  · split
    · exact finishAccess_sound h
    · exact h

/-! ## Queue entries -/

theorem QueueOk.filter {q : PostingQueue} (h : QueueOk q) (p : Entry → Bool) :
    QueueOk { q with entries := q.entries.filter p } where
  slots := h.slots.sublist (List.Sublist.map _ List.filter_sublist)
  entries e he := h.entries e (List.mem_of_mem_filter he)
  outstanding := h.outstanding

theorem QueueOk.map {q : PostingQueue} (h : QueueOk q) (f : Entry → Entry) (hs : ∀ e, (f e).slot = e.slot)
    (hf : ∀ e, EntryOk e → EntryOk (f e)) : QueueOk { q with entries := q.entries.map f } where
  slots := by
    rw [List.map_map]
    have : Entry.slot ∘ f = Entry.slot := funext hs
    rw [this]
    exact h.slots
  entries e he := by
    obtain ⟨x, hx, rfl⟩ := List.mem_map.mp he
    exact hf x (h.entries x hx)
  outstanding := h.outstanding

theorem QueueOk.setOutstanding {q : PostingQueue} (h : QueueOk q) {n : Nat} (hn : n ≤ Config.slots) (b : Bool) :
    QueueOk { q with outstanding := n, lossNote := b } where
  slots := h.slots
  entries := h.entries
  outstanding := hn

/-- At most 32 entries are in the queue. -/
theorem QueueOk.length_le {q : PostingQueue} (h : QueueOk q) : q.entries.length ≤ Config.slots := by
  have := h.slots.length_le_card
  simpa [Config.slots] using this

theorem changeEntries_sound {s : State} {p : Entry → Bool} {f : Entry → Entry} (h : Sound s)
    (hs : ∀ e, (f e).slot = e.slot) (hf : ∀ e, EntryOk e → EntryOk (f e)) : Sound (changeEntries s p f) := by
  refine h.setQueue (h.queue.map (fun e => if p e = true then f e else e) ?_ ?_)
  · intro e
    split
    · exact hs e
    · rfl
  · intro e he
    split
    · exact hf e he
    · exact he

theorem setEntryState_sound {s : State} {slot : Fin 32} {st : EntryState} (h : Sound s) :
    Sound (setEntryState s slot st) :=
  changeEntries_sound h (fun _ => rfl) (fun _ he => he)

theorem freeEntries_sound {s : State} {p : Entry → Bool} (h : Sound s) : Sound (freeEntries s p) :=
  h.setQueue (h.queue.filter _)

theorem clearFlushMarks_sound {s : State} (h : Sound s) : Sound (clearFlushMarks s) := by
  have hm : QueueOk _ := h.queue.map (fun e => { e with flushMark := false }) (fun _ => rfl)
    (fun e he => ⟨he.1, he.2.1, fun hb => absurd hb (by simp)⟩)
  exact h.setQueue ⟨hm.slots, hm.entries, Nat.zero_le _⟩

/-! ## Group records -/

theorem changeGroup_sound {s : State} {q : Seq} {f : Group → Group} (h : Sound s) : Sound (changeGroup s q f) := by
  apply h.setGroups
  simpa using h.groups

theorem closeOpen_sound {s : State} {c : CloseCause} (h : Sound s) : Sound (closeOpen s c) := by
  apply h.setGroups
  simpa using h.groups

theorem dropGroups_sound {s : State} {p : Group → Bool} {target : Option Seq} (h : Sound s) :
    Sound (s.setGroups { s.groups with table := s.groups.table.filter p, flushTarget := target }) :=
  h.setGroups (le_trans (List.length_filter_le _ _) h.groups)

theorem setTarget_sound {s : State} {target : Option Seq} (h : Sound s) :
    Sound (s.setGroups { s.groups with flushTarget := target }) :=
  h.setGroups h.groups

theorem setNextSequence_sound {s : State} {q : Seq} (h : Sound s) :
    Sound (s.setGroups { s.groups with nextSequence := q }) :=
  h.setGroups h.groups

/-! ## Modes and reactions -/

theorem changeMode_sound {s : State} {m : Mode} (h : Sound s) : Sound (changeMode s m) := by
  unfold changeMode
  split
  · exact h
  · exact raise_sound (h.setControl _)

theorem completeLong_sound {s : State} {r : LongResult} (h : Sound s) : Sound (completeLong s r) :=
  raise_sound (h.setControl _)

theorem refuseHeld_sound {s : State} (h : Sound s) : Sound (refuseHeld s) := by
  unfold refuseHeld
  split
  · exact h
  · exact finishAccess_sound h

theorem enterHalted_sound {s : State} {d : Detail} (h : Sound s) : Sound (enterHalted s d) :=
  closeOpen_sound (refuseHeldWrite_sound (changeMode_sound (h.setControl _)))

theorem enterConfig_sound {s : State} {r : LongResult} (h : Sound s) : Sound (enterConfig s r) :=
  completeLong_sound (refuseHeld_sound (changeMode_sound (h.setControl _)))

theorem releaseEngine_sound {s : State} (h : Sound s) : Sound (releaseEngine s) :=
  h.setEngine _

theorem abandonPath_sound {s : State} (h : Sound s) : Sound (abandonPath s) := by
  unfold abandonPath
  refine enterConfig_sound (recordIncident_sound (recordIncident_sound ?_))
  refine Sound.setQueue (releaseEngine_sound (h.setGroups (Nat.zero_le _))) ?_
  exact ⟨List.nodup_nil, fun e he => absurd he (by simp), Nat.zero_le _⟩

theorem haltReaction_sound {s : State} {d : Detail} (h : Sound s) : Sound (haltReaction s d) := by
  unfold haltReaction
  split
  · split
    · exact abandonPath_sound h
    · exact enterHalted_sound h
  · split
    · exact abandonPath_sound h
    · exact h
  all_goals exact h

theorem carryOut_sound {s : State} {x : Reaction} {r : Report} (h : Sound s) : Sound (carryOut s x r) := by
  cases x with
  | record => exact h
  | none => exact h
  | halt => exact haltReaction_sound h
  | fence =>
    unfold carryOut
    dsimp only
    split
    · exact fenceInitiator_sound h
    · exact h

theorem reportIncident_sound {s : State} {r : Report} (h : Sound s) : Sound (reportIncident s r) :=
  carryOut_sound (recordIncident_sound h)

/-! ## Array operations -/

theorem freePort_sound {s : State} (h : Sound s) : Sound (freePort s) :=
  h.setPort ⟨h.port.passOver, fun op hop => absurd hop (by simp)⟩

theorem beginStep_sound {s : State} {op : ArrayOp} (h : Sound s) (ho : OpOk op) : Sound (beginStep s op) := by
  unfold beginStep
  split
  · refine (h.setPins _).setPort ⟨h.port.passOver, ?_⟩
    intro x hx
    simp only [Option.some.injEq] at hx
    subst hx
    exact ho
  · refine h.setPort ⟨h.port.passOver, ?_⟩
    intro x hx
    simp only [Option.some.injEq] at hx
    subst hx
    exact ho

theorem spendBudget_sound {s : State} (h : Sound s) : Sound (spendBudget s) :=
  h.setShutdown ⟨le_trans (Nat.sub_le _ _) h.shutdown.budget, h.shutdown.posted, h.shutdown.groups⟩

theorem markGranted_sound {s : State} {r : Requester} (h : Sound s) : Sound (markGranted s r) := by
  have granted : Sound (match s.access.held with
      | none => s
      | some x => s.setAccess { s.access with held := some { x with wait := .operation } }) := by
    split
    · exact h
    · rename_i x hx
      apply h.setAccess
      intro y hy
      simp only [Option.some.injEq] at hy
      subst hy
      exact h.access x hx
  unfold markGranted
  cases r with
  | shutdownDrain k w i => exact spendBudget_sound (setEntryState_sound h)
  | postedDrain k w i => exact setEntryState_sound h
  | inPlaceWrite k w i => exact setEntryState_sound h
  | controllerRead a w => exact granted
  | throughWrite a w => exact granted
  | shutdownRecord => exact spendBudget_sound h
  | shutdownProgress n => exact spendBudget_sound h
  | _ => exact h

theorem startOp_sound {s : State} {op : ArrayOp} (h : Sound s) (ho : OpOk op) : Sound (startOp s op) := by
  obtain ⟨v, hv⟩ := keepLine_eq s op
  unfold startOp
  rw [hv]
  exact beginStep_sound (markGranted_sound (h.setLineBefore v)) ho

theorem lineRead_ok (r : Requester) (line : LineNo) : OpOk (lineRead r line) :=
  ⟨Nat.le_refl _, (by decide : (1 : Nat) ≤ 3), fun hk => absurd rfl hk⟩

theorem lineWrite_ok {r : Requester} {v : Bool} {line : LineNo} {data : LineData} {enables : ByteSet}
    (he : enables ≠ 0) : OpOk (lineWrite r v line data enables) :=
  ⟨Nat.le_refl _, (by decide : (1 : Nat) ≤ 3), fun _ => he⟩

/-! ## Taking writes and reads -/

theorem accessBytes_ne_zero (a : Access) : accessBytes a ≠ 0 := by
  have hlt : lineOffset a.address < 8 := (a.address.extractLsb' 0 3).isLt
  unfold accessBytes
  dsimp only
  generalize lineOffset a.address = k at hlt
  split <;> interval_cases k <;> decide

theorem EntryOk.merge {e : Entry} {a : Access} (he : EntryOk e) : EntryOk (mergeEntry a e) := by
  refine ⟨?_, ?_, he.2.2⟩
  · intro h0
    exact he.1 (BitVec.or_eq_zero_iff.mp h0).1
  · exact mergeBytes_outside he.2.1

theorem mergeInto_sound {s : State} {slot : Fin 32} {a : Access} (h : Sound s) :
    Sound (mergeInto s slot a) :=
  changeEntries_sound h (fun _ => rfl) (fun _ he => he.merge)

theorem slotFree_iff {q : PostingQueue} {k : Nat} : slotFree q k = true ↔ ∀ e ∈ q.entries, e.slot.val ≠ k := by
  simp [slotFree]

/-- The lowest FREE slot is one that no entry holds. -/
theorem lowestFreeSlot_free {q : PostingQueue} {k : Fin 32} (h : lowestFreeSlot q = some k) :
    ∀ e ∈ q.entries, e.slot ≠ k := by
  unfold lowestFreeSlot at h
  obtain ⟨n, hn, rfl⟩ := Option.map_eq_some_iff.mp h
  have hm : n ∈ freeSlots q := List.mem_of_mem_head? hn
  unfold freeSlots at hm
  rw [List.mem_filter, List.mem_range] at hm
  intro e he hk
  apply slotFree_iff.mp hm.2 e he
  rw [hk]
  exact Nat.mod_eq_of_lt hm.1

theorem createEntry_sound {s : State} {x : Held} {slot : Fin 32} {group : Option Seq} (h : Sound s)
    (hx : aligned x.access = true) (hfree : lowestFreeSlot s.queue = some slot) :
    Sound (createEntry s x slot group) := by
  refine h.setQueue ⟨?_, ?_, h.queue.outstanding⟩
  · rw [List.map_append, List.map_singleton]
    refine List.Nodup.append h.queue.slots (List.nodup_singleton _) ?_
    rw [List.disjoint_singleton]
    intro hm
    obtain ⟨e, he, hs⟩ := List.mem_map.mp hm
    exact lowestFreeSlot_free hfree e he hs
  · intro e he
    rcases List.mem_append.mp he with he | he
    · exact h.queue.entries e he
    · rw [List.mem_singleton] at he
      subst he
      exact ⟨accessBytes_ne_zero _, accessData_outside hx, fun hb => absurd hb (by simp [newEntry])⟩

theorem finishWrite_sound {s : State} {i : Initiator} (h : Sound s) : Sound (finishWrite s i) :=
  countAccepted_sound (finishAccess_sound h)

theorem takePosted_sound {s : State} {x : Held} (h : Sound s) (hx : aligned x.access = true) :
    Sound (takePosted s x) := by
  unfold takePosted
  split
  · exact finishWrite_sound (mergeInto_sound h)
  · split
    · rename_i k hk
      exact finishWrite_sound (createEntry_sound h hx hk)
    · exact holdAccess_sound h hx

theorem takeInNewGroup_sound {s : State} {x : Held} (h : Sound s) (hx : aligned x.access = true) :
    Sound (takeInNewGroup s x) := by
  unfold takeInNewGroup
  split
  · rename_i hg
    split
    · rename_i k hk
      refine finishWrite_sound (createEntry_sound (h.setGroups ?_) hx hk)
      rw [List.length_append, List.length_singleton]
      exact hg
    · exact holdAccess_sound h hx
  · exact holdAccess_sound h hx

theorem takeInOpenGroup_sound {s : State} {x : Held} {g : Group} (h : Sound s) (hx : aligned x.access = true) :
    Sound (takeInOpenGroup s x g) := by
  unfold takeInOpenGroup
  split
  · rename_i k hk
    exact finishWrite_sound (createEntry_sound (changeGroup_sound h) hx hk)
  · exact holdAccess_sound h hx

theorem takeGrouped_sound {s : State} {x : Held} (h : Sound s) (hx : aligned x.access = true) :
    Sound (takeGrouped s x) := by
  unfold takeGrouped
  split
  · exact takeInNewGroup_sound h hx
  · split
    · exact finishWrite_sound (mergeInto_sound h)
    · split
      · exact takeInOpenGroup_sound h hx
      · exact carryOut_sound (takeInNewGroup_sound (recordIncident_sound (closeOpen_sound h)) hx)

theorem takeWrite_sound {s : State} {x : Held} (h : Sound s) (hx : aligned x.access = true) :
    Sound (takeWrite s x) := by
  unfold takeWrite
  split
  · exact takePosted_sound h hx
  · exact takeGrouped_sound h hx
  · exact holdAccess_sound h hx
  · exact h
  · exact h

theorem takeRead_sound {s : State} {x : Held} (h : Sound s) (hx : aligned x.access = true) :
    Sound (takeRead s x) := by
  unfold takeRead
  dsimp only
  split
  · exact finishAccess_sound h
  · split
    · exact holdAccess_sound h hx
    · exact holdAccess_sound h hx

theorem removeDrained_sound {s : State} {slot : Fin 32} {failed : Bool} (h : Sound s) :
    Sound (removeDrained s slot failed) := by
  unfold removeDrained
  split
  · exact h
  · rename_i e _
    have hq : ∀ n b, n ≤ Config.slots → QueueOk { s.queue with
        entries := s.queue.entries.filter (fun x => !(x.slot == slot)), outstanding := n, lossNote := b } :=
      fun n b hn => (h.queue.filter _).setOutstanding hn b
    have ho := h.queue.outstanding
    have hs : Sound (s.setQueue { s.queue with
        entries := s.queue.entries.filter (fun x => !(x.slot == slot))
        outstanding := if e.flushMark then s.queue.outstanding - 1 else s.queue.outstanding
        lossNote := s.queue.lossNote || (e.flushMark && failed) }) := by
      apply h.setQueue
      apply hq
      split
      · omega
      · exact ho
    exact Sound.ite (hs.setControl _) hs

end Sys2Proof.Machine
end

