-- ==== Sys2Proof/Laws/SoundStages.lean ====
section
/-! SUPPORT. `Sound` through the journal engine, the control area writer, recovery and the shutdown sequencer. -/

namespace Sys2Proof.Machine

/-! ## Journal engine -/

theorem changeCommitGroup_sound {s : State} {f : Group → Group} (h : Sound s) : Sound (changeCommitGroup s f) := by
  unfold changeCommitGroup
  split
  · exact changeGroup_sound h
  · exact h

theorem enterPhase_sound {s : State} {p : Phase} (h : Sound s) : Sound (enterPhase s p) :=
  (changeCommitGroup_sound h).setEngine _

theorem setPosition_sound {s : State} {n : Nat} {half : Half} (h : Sound s) : Sound (setPosition s n half) :=
  (changeCommitGroup_sound h).setEngine _

theorem composeRecord_sound {s : State} (h : Sound s) : Sound (composeRecord s) := by
  unfold composeRecord
  split
  · exact h
  · split
    · exact h
    · exact h.setEngine _

theorem startJournaling_sound {s : State} (h : Sound s) : Sound (startJournaling s) :=
  composeRecord_sound ((enterPhase_sound h).setEngine _)

theorem beginProgress_sound {s : State} {p : ProgressContent} (h : Sound s) : Sound (beginProgress s p) :=
  h.setWriter _

theorem beginLayout_sound {s : State} (h : Sound s) : Sound (beginLayout s) :=
  h.setWriter _

theorem endCopyWrite_sound {s : State} (h : Sound s) : Sound (endCopyWrite s) :=
  h.setWriter _

theorem copyLineWritten_sound {s : State} (h : Sound s) : Sound (copyLineWritten s) := by
  unfold copyLineWritten
  split
  · exact h
  · exact Sound.ite (h.setWriter _) (h.setWriter _)

theorem startRetiring_sound {s : State} (h : Sound s) : Sound (startRetiring s) := by
  have he : Sound (enterPhase s .retiring) := enterPhase_sound h
  unfold startRetiring
  dsimp only
  split
  · exact beginProgress_sound he
  · exact he

theorem takeNextGroup_sound {s : State} (h : Sound s) : Sound (takeNextGroup s) := by
  unfold takeNextGroup
  split
  · split
    · exact h
    · exact startJournaling_sound (h.setEngine _)
  · exact h

theorem setCommitEntries_sound {s : State} {p : EntryState → Bool} {st : EntryState} (h : Sound s) :
    Sound (setCommitEntries s p st) := by
  unfold setCommitEntries
  split
  · exact h
  · exact changeEntries_sound h (fun _ => rfl) (fun _ he => he)

theorem sealGroup_sound {s : State} (h : Sound s) : Sound (sealGroup s) := by
  unfold sealGroup
  exact setCommitEntries_sound ((enterPhase_sound h).setEngine _)

theorem recordWritten_sound {s : State} (h : Sound s) : Sound (recordWritten s) := by
  unfold recordWritten
  split
  · exact Sound.ite (composeRecord_sound (setPosition_sound h)) ((enterPhase_sound h).setEngine _)
  · exact sealGroup_sound h
  · exact h
  · exact h
  · exact h

theorem recordLineWritten_sound {s : State} (h : Sound s) : Sound (recordLineWritten s) := by
  unfold recordLineWritten
  split
  · exact h.setEngine _
  · exact recordWritten_sound (h.setEngine _)

theorem entryApplied_sound {s : State} {slot : Fin 32} (h : Sound s) : Sound (entryApplied s slot) :=
  Sound.ite (setPosition_sound (setEntryState_sound h)) (startRetiring_sound (setEntryState_sound h))

theorem retireGroup_sound {s : State} (h : Sound s) : Sound (retireGroup s) := by
  unfold retireGroup
  split
  · exact h
  · exact (freeEntries_sound (dropGroups_sound h)).setEngine _

theorem retiringLineWritten_sound {s : State} (h : Sound s) : Sound (retiringLineWritten s) := by
  have hc := copyLineWritten_sound h
  unfold retiringLineWritten
  dsimp only
  split
  · exact setPosition_sound hc
  · exact retireGroup_sound hc

theorem recordOp_ok {s : State} {r : Requester} {v : Bool} {op : ArrayOp} (ho : recordOp s r v = some op) :
    OpOk op := by
  unfold recordOp at ho
  split at ho
  · exact absurd ho (by simp)
  · dsimp only at ho
    split at ho
    · obtain ⟨e, -, rfl⟩ := Option.map_eq_some_iff.mp ho
      exact lineWrite_ok (by decide)
    · simp only [Option.some.injEq] at ho
      subst ho
      exact lineWrite_ok (by decide)
    all_goals exact absurd ho (by simp)

theorem copyOp_ok {s : State} {r : Nat → Requester} {v : Bool} {op : ArrayOp} (ho : copyOp s r v = some op) :
    OpOk op := by
  obtain ⟨c, -, rfl⟩ := Option.map_eq_some_iff.mp ho
  exact lineWrite_ok (by decide)

theorem nextInPlace_mem {s : State} {q : Seq} {e : Entry} (h : nextInPlace s q = some e) : e ∈ s.queue.entries :=
  List.mem_of_mem_filter (List.mem_of_find?_eq_some h)

theorem engineOp_ok {s : State} {op : ArrayOp} (h : Sound s) (ho : engineOp s = some op) : OpOk op := by
  unfold engineOp at ho
  split at ho
  · exact recordOp_ok ho
  · exact recordOp_ok ho
  · obtain ⟨q, -, hq⟩ := Option.bind_eq_some_iff.mp ho
    obtain ⟨e, he, rfl⟩ := Option.map_eq_some_iff.mp hq
    exact lineWrite_ok (h.queue.entries e (nextInPlace_mem he)).1
  · exact copyOp_ok ho
  · exact absurd ho (by simp)

theorem stallGroup_sound {s : State} (h : Sound s) : Sound (stallGroup s) := by
  unfold stallGroup
  split
  · exact h
  · exact endCopyWrite_sound ((changeCommitGroup_sound h).setEngine _)

theorem commitFailed_sound {s : State} {r : Report} (h : Sound s) : Sound (commitFailed s r) :=
  Sound.ite (reportIncident_sound h) (reportIncident_sound (stallGroup_sound h))

theorem restartPhase_sound {s : State} {p : Phase} (h : Sound s) : Sound (restartPhase s p) := by
  cases p with
  | journaling => exact startJournaling_sound h
  | marking => exact enterPhase_sound h
  | applying =>
    unfold restartPhase
    exact setCommitEntries_sound (enterPhase_sound h)
  | retiring => exact startRetiring_sound h

/-! ## Control area writer -/

theorem storeLineWritten_sound {s : State} (h : Sound s) : Sound (storeLineWritten s) := by
  have hc := copyLineWritten_sound h
  unfold storeLineWritten
  split
  · exact h
  · exact Sound.ite (completeLong_sound hc) hc

theorem storeLineFailed_sound {s : State} {r : Report} (h : Sound s) : Sound (storeLineFailed s r) := by
  unfold storeLineFailed
  split
  · exact reportIncident_sound h
  · exact completeLong_sound (reportIncident_sound (endCopyWrite_sound h))

theorem beginFormat_sound {s : State} (h : Sound s) : Sound (beginFormat s) :=
  h.setWriter _

theorem formatComplete_sound {s : State} {image : Layout} (h : Sound s) : Sound (formatComplete s image) :=
  completeLong_sound (changeMode_sound (setNextSequence_sound (Sound.setEngine (h.setWriter _) _)))

theorem formatLineWritten_sound {s : State} (h : Sound s) : Sound (formatLineWritten s) := by
  unfold formatLineWritten
  split
  · exact h
  · exact Sound.ite (h.setWriter _) (formatComplete_sound h)

theorem formatLineFailed_sound {s : State} {r : Report} (h : Sound s) : Sound (formatLineFailed s r) := by
  unfold formatLineFailed
  split
  · exact reportIncident_sound h
  · exact completeLong_sound (reportIncident_sound (h.setWriter _))

theorem formatLine_enables (f : FormatWork) (k : Nat) : (formatLine f k).2.2 ≠ 0 := by
  unfold formatLine
  repeat' split
  all_goals
    dsimp only
    decide

theorem formatOp_ok (f : FormatWork) : OpOk (formatOp f) :=
  lineWrite_ok (formatLine_enables f f.written)

theorem writerOp_ok {s : State} {op : ArrayOp} (ho : writerOp s = some op) : OpOk op := by
  unfold writerOp at ho
  split at ho
  · simp only [Option.some.injEq] at ho
    subst ho
    exact formatOp_ok _
  · split at ho
    · exact copyOp_ok ho
    · exact absurd ho (by simp)

/-! ## Start sequence and recovery -/

/-- The start values hold every item in its range. -/
theorem startValues_sound {pins : Pins} {mem : Memory} {session : Session} {free : Nat} {pending : List Instr}
    (hm : mem.wf = true) : Sound (State.startValues pins mem session free pending) where
  mem := hm
  access h hh := absurd hh (by simp [State.startValues])
  queue := ⟨List.nodup_nil, fun e he => absurd he (by simp [State.startValues]), Nat.zero_le _⟩
  groups := Nat.zero_le _
  port := ⟨Nat.zero_le _, fun op ho => absurd ho (by simp [State.startValues])⟩
  start := by simp [State.startValues, Config.startReads]
  recovery r hr := absurd hr (by simp [State.startValues])
  shutdown := ⟨Nat.zero_le _, Nat.zero_le _, Nat.zero_le _⟩
  initiators i := by simp [State.startValues, InitiatorOk, standingOf]
  incidents := Nat.zero_le _

theorem enterStarting_sound {s : State} (h : Sound s) : Sound (enterStarting s) :=
  startOp_sound (startValues_sound h.mem) (lineRead_ok _ _)

theorem recoveryOk_none : RecoveryOk none := fun _ h => absurd h (by simp)

theorem endRecovery_sound {s : State} {m : Mode} (h : Sound s) : Sound (endRecovery s m) :=
  changeMode_sound (setNextSequence_sound (h.setRecovery recoveryOk_none))

theorem recoveryFails_sound {s : State} {path : RecoveryPath} (h : Sound s) : Sound (recoveryFails s path) := by
  cases path with
  | start => exact endRecovery_sound (endCopyWrite_sound h)
  | command => exact completeLong_sound (endRecovery_sound (endCopyWrite_sound h))

theorem freshRecovery_ok (s : State) (path : RecoveryPath) : RecoveryOk (some (freshRecovery s path)) := by
  intro v hv
  simp only [Option.some.injEq] at hv
  subst hv
  exact ⟨rfl, Nat.zero_le _, fun x hx => absurd hx (by simp [freshRecovery])⟩

theorem enterRecovery_sound {s : State} {path : RecoveryPath} (h : Sound s) : Sound (enterRecovery s path) := by
  have hm : Sound (changeMode (s.setRecovery (some (freshRecovery s path))) .recovering) :=
    changeMode_sound (h.setRecovery (freshRecovery_ok s path))
  cases path with
  | command => exact hm
  | start => exact Sound.ite hm (recoveryFails_sound (recordIncident_sound hm))

theorem noStartLines : (([] : List LineData)).length < Config.startReads := by
  decide

theorem selectCopies_sound {s : State} {lines : List LineData} (h : Sound s) : Sound (selectCopies s lines) := by
  have hn := recordIncidents_sound
    (rs := startNotices (learnProgress (learnLayout s.writer (copiesOf lines)) (copiesOf lines)) (copiesOf lines))
    ((((h.setStart (v := { lines := [], waiting := false }) noStartLines)).setWriter
      (learnProgress (learnLayout s.writer (copiesOf lines)) (copiesOf lines))).setLayout
      ((learnProgress (learnLayout s.writer (copiesOf lines)) (copiesOf lines)).storedImage.getD s.layout))
  exact Sound.ite (enterRecovery_sound hn) (changeMode_sound hn)

theorem startReadDone_sound {s : State} {data : LineData} (h : Sound s) : Sound (startReadDone s data) := by
  unfold startReadDone
  split
  · dsimp only
    split
    · rename_i hl
      exact h.setStart hl
    · exact selectCopies_sound h
  · exact h

theorem startReadFailed_sound {s : State} {line : LineNo} {before : Nat} (h : Sound s) :
    Sound (startReadFailed s line before) :=
  Sound.ite ((reportIncident_sound h).setStart noStartLines) (reportIncident_sound h)

/-- Recovery with other values of the fields that `RecoveryOk` does not speak of. -/
theorem RecoveryOk.other {r : Recovery} (h : RecoveryOk (some r)) {v : Recovery} (hf : v.found = r.found)
    (hr : v.records = r.records) : RecoveryOk (some v) := by
  intro x hx
  simp only [Option.some.injEq] at hx
  subst hx
  rw [hf, hr]
  exact h r rfl

theorem startFinalCopy_sound {s : State} {r : Recovery} (h : Sound s) (hr : RecoveryOk (some r)) :
    Sound (startFinalCopy s r) :=
  beginProgress_sound (h.setRecovery (hr.other rfl rfl))

theorem setJournalPending_sound {s : State} {b : Bool} (h : Sound s) : Sound (setJournalPending s b) :=
  h.setEngine _

theorem judgeCandidate_sound {s : State} {r : Recovery} {record : JournalRecord} (h : Sound s)
    (hr : RecoveryOk (some r)) : Sound (judgeCandidate s r record) := by
  unfold judgeCandidate
  split
  · exact (setJournalPending_sound h).setRecovery (hr.other rfl rfl)
  · split
    · exact startFinalCopy_sound (setJournalPending_sound (recordIncident_sound h)) (hr.other rfl rfl)
    · exact startFinalCopy_sound (setJournalPending_sound h) (hr.other rfl rfl)

theorem acceptsLineRecord_valid {q : Seq} {k : Nat} {code : BitVec 8} {r : JournalRecord}
    (h : acceptsLineRecord q k code r = true) : recordValid r ≠ 0 := by
  simp only [acceptsLineRecord, Bool.and_eq_true, bne_iff_ne] at h
  exact h.1.2

theorem positionRead_sound {s : State} {r : Recovery} {record : JournalRecord} (h : Sound s)
    (hr : RecoveryOk (some r)) : Sound (positionRead s r record) := by
  unfold positionRead
  split
  · rename_i hc
    rw [Bool.and_eq_true, decide_eq_true_eq] at hc
    apply h.setRecovery
    intro v hv
    simp only [Option.some.injEq] at hv
    subst hv
    obtain ⟨h1, -, h3⟩ := hr r rfl
    refine ⟨?_, hc.1, ?_⟩
    · dsimp only
      rw [List.length_append, List.length_singleton, h1]
    · intro x hx
      rcases List.mem_append.mp hx with hx | hx
      · exact h3 x hx
      · rw [List.mem_singleton] at hx
        subst hx
        exact acceptsLineRecord_valid hc.2
  · exact judgeCandidate_sound h hr

theorem Sound.recovery_some {s : State} (h : Sound s) {r : Recovery} (hr : s.recovery = some r) :
    RecoveryOk (some r) :=
  hr ▸ h.recovery

theorem scanLineRead_sound {s : State} {data : LineData} (h : Sound s) : Sound (scanLineRead s data) := by
  unfold scanLineRead
  split
  · exact h
  · rename_i r hr
    have hk := h.recovery_some hr
    split
    · exact h.setRecovery (hk.other rfl rfl)
    · exact positionRead_sound h hk

theorem replayWritten_sound {s : State} (h : Sound s) : Sound (replayWritten s) := by
  unfold replayWritten
  split
  · exact h
  · rename_i r hr
    have hk := h.recovery_some hr
    exact Sound.ite (h.setRecovery (hk.other rfl rfl))
      (beginProgress_sound ((recordIncident_sound h).setRecovery (hk.other rfl rfl)))

theorem recoveryComplete_sound {s : State} {r : Recovery} (h : Sound s) : Sound (recoveryComplete s r) := by
  unfold recoveryComplete
  split
  · exact completeLong_sound ((endRecovery_sound h).setControl _)
  · exact Sound.ite ((endRecovery_sound h).setControl _) (endRecovery_sound h)

theorem recoveryLineWritten_sound {s : State} {replay : Bool} (h : Sound s) :
    Sound (recoveryLineWritten s replay) := by
  have hc := copyLineWritten_sound h
  unfold recoveryLineWritten
  dsimp only
  generalize copyLineWritten s = t at hc
  split
  · exact hc
  · have hp : Sound (if replay = true then setJournalPending t false else t) :=
      Sound.ite (setJournalPending_sound hc) hc
    generalize (if replay = true then setJournalPending t false else t) = u at hp
    split
    · exact hp
    · rename_i r hr
      exact Sound.ite (startFinalCopy_sound hp (hp.recovery_some hr)) (recoveryComplete_sound hp)

theorem recoveryOpFailed_sound {s : State} {r : Report} (h : Sound s) : Sound (recoveryOpFailed s r) := by
  have hr := reportIncident_sound (r := r) h
  unfold recoveryOpFailed
  dsimp only
  generalize reportIncident s r = t at hr
  split
  · exact hr
  · exact recoveryFails_sound hr

theorem recoveryOp_ok {s : State} {r : Recovery} {op : ArrayOp} (hr : RecoveryOk (some r))
    (ho : recoveryOp s r = some op) : OpOk op := by
  unfold recoveryOp at ho
  split at ho
  · simp only [Option.some.injEq] at ho
    subst ho
    exact lineRead_ok _ _
  · obtain ⟨x, hx, rfl⟩ := Option.map_eq_some_iff.mp ho
    exact lineWrite_ok ((hr r rfl).2.2 x (List.mem_of_getElem? hx))
  · exact copyOp_ok ho
  · exact copyOp_ok ho

/-! ## Shutdown sequencer -/

theorem abandonLong_sound {s : State} (h : Sound s) : Sound (abandonLong s) := by
  unfold abandonLong
  split
  · exact h
  · exact Sound.ite h (completeLong_sound h)

theorem enterShutdown_sound {s : State} (h : Sound s) : Sound (enterShutdown s) := by
  have h1 : Sound (abandonLong (refuseHeld (changeMode (s.setControl { s.control with configRequest := false })
      .shutdown))) := abandonLong_sound (refuseHeld_sound (changeMode_sound (h.setControl _)))
  unfold enterShutdown
  dsimp only
  generalize abandonLong (refuseHeld (changeMode (s.setControl { s.control with configRequest := false })
      .shutdown)) = t at h1
  have h2 := setTarget_sound (target := none) (clearFlushMarks_sound h1)
  have h3 := Sound.ite (c := originOf s.control.mode = .config) (endCopyWrite_sound h2) h2
  have hb : s.layout.settings.budget.toNat - (if writeInFlight s then 1 else 0) ≤ 65535 := by
    have := s.layout.settings.budget.isLt
    omega
  refine Sound.setShutdown (Sound.setPort (Sound.setStart (Sound.setRecovery (Sound.setWriter h3 _) recoveryOk_none)
    noStartLines) ?_) ⟨hb, Nat.zero_le _, Nat.zero_le _⟩
  exact ⟨Nat.zero_le _, h3.port.op⟩

theorem takeShutdownCause_sound {s : State} (h : Sound s) : Sound (takeShutdownCause s) := by
  have he := enterShutdown_sound h
  unfold takeShutdownCause
  split
  · exact h
  · exact h
  all_goals exact he

theorem endWork_sound {s : State} (h : Sound s) : Sound (endWork s) :=
  releaseEngine_sound (endCopyWrite_sound h)

theorem endShutdown_sound {s : State} (h : Sound s) : Sound (endShutdown s) := by
  have hm : Sound (changeMode ((endWork s).setShutdown { s.shutdown with stage := .done }) .ended) :=
    changeMode_sound ((endWork_sound h).setShutdown ⟨h.shutdown.budget, h.shutdown.posted, h.shutdown.groups⟩)
  exact Sound.ite (enterStarting_sound hm) hm

theorem setStage_sound {s : State} {g : ShutdownStage} (h : Sound s) : Sound (setStage s g) :=
  h.setShutdown ⟨h.shutdown.budget, h.shutdown.posted, h.shutdown.groups⟩

theorem finalProgressLine_sound {s : State} (h : Sound s) : Sound (finalProgressLine s) := by
  unfold finalProgressLine
  split
  · rename_i op ho
    exact startOp_sound h (copyOp_ok ho)
  · exact h

theorem startFinalProgress_sound {s : State} (h : Sound s) : Sound (startFinalProgress s) :=
  finalProgressLine_sound (beginProgress_sound (setStage_sound h))

theorem abandonPosted_sound {s : State} (h : Sound s) : Sound (abandonPosted s) :=
  (freeEntries_sound h).setShutdown
    ⟨h.shutdown.budget, le_trans (List.length_filter_le _ _) h.queue.length_le, h.shutdown.groups⟩

theorem eligibleAfter_mem {es : List Entry} {seen : List LineNo} {e : Entry} (h : e ∈ eligibleAfter seen es) :
    e ∈ es := by
  induction es generalizing seen with
  | nil => exact h
  | cons x xs ih =>
    unfold eligibleAfter at h
    split at h
    · exact List.mem_cons_of_mem _ (ih h)
    · split at h
      · rcases List.mem_cons.mp h with h | h
        · exact List.mem_cons.mpr (Or.inl h)
        · exact List.mem_cons_of_mem _ (ih h)
      · exact List.mem_cons_of_mem _ (ih h)

theorem lowestPriority_mem {s : State} {es : List Entry} {e : Entry} (h : lowestPriority s es = some e) : e ∈ es := by
  induction es with
  | nil => exact absurd h (by simp [lowestPriority])
  | cons x xs ih =>
    unfold lowestPriority at h
    split at h
    · simp only [Option.some.injEq] at h
      exact List.mem_cons.mpr (Or.inl h.symm)
    · rename_i b hb
      split at h
      · simp only [Option.some.injEq] at h
        subst h
        exact List.mem_cons_of_mem _ (ih hb)
      · simp only [Option.some.injEq] at h
        exact List.mem_cons.mpr (Or.inl h.symm)

/-- The drain chooses an entry of the queue. -/
theorem drainChoice_mem {s : State} {e : Entry} (h : drainChoice s = some e) : e ∈ s.queue.entries :=
  eligibleAfter_mem (lowestPriority_mem h)

theorem drainStage_sound {s : State} (h : Sound s) : Sound (drainStage s) := by
  have hs := setStage_sound (g := .drain) h
  unfold drainStage
  dsimp only
  generalize setStage s .drain = t at hs
  split
  · rename_i e he
    split at he
    · exact startOp_sound hs (lineWrite_ok (hs.queue.entries e (drainChoice_mem he)).1)
    · exact absurd he (by simp)
  · exact startFinalProgress_sound (abandonPosted_sound hs)

theorem planGroups_sound {s : State} (h : Sound s) : Sound (planGroups s) := by
  have hl : (s.groups.table.filter (groupAbandoned s)).length ≤ Config.groupRecords :=
    le_trans (List.length_filter_le _ _) h.groups
  have hd := freeEntries_sound
    (p := fun e => (s.groups.table.filter (groupAbandoned s)).any (fun g => e.group == some g.sequence))
    (dropGroups_sound (p := fun g => !groupAbandoned s g) (target := none) h)
  have hr := Sound.ite
    (c := (s.groups.table.filter (groupAbandoned s)).any (fun g => some g.sequence == s.engine.inCommit) = true)
    (releaseEngine_sound hd) hd
  exact hr.setShutdown ⟨hr.shutdown.budget, hr.shutdown.posted, hl⟩

theorem continueGroup_sound {s : State} (h : Sound s) : Sound (continueGroup s) := by
  unfold continueGroup
  split
  · rename_i op ho
    exact startOp_sound h (recordOp_ok ho)
  · exact drainStage_sound h

theorem afterFinishing_sound {s : State} (h : Sound s) : Sound (afterFinishing s) := by
  have he := endCopyWrite_sound h
  unfold afterFinishing
  dsimp only
  generalize endCopyWrite s = t at he
  split
  · exact endShutdown_sound he
  · exact Sound.ite (endShutdown_sound he) (startFinalProgress_sound he)
  · exact Sound.ite (continueGroup_sound (planGroups_sound he)) (drainStage_sound (planGroups_sound he))

theorem advanceShutdown_sound {s : State} (h : Sound s) : Sound (advanceShutdown s) := by
  unfold advanceShutdown
  split
  · exact afterFinishing_sound h
  · exact continueGroup_sound h
  · exact drainStage_sound h
  · exact finalProgressLine_sound h
  · exact h

theorem finalLineWritten_sound {s : State} (h : Sound s) : Sound (finalLineWritten s) :=
  Sound.ite (copyLineWritten_sound h) (endShutdown_sound (copyLineWritten_sound h))

end Sys2Proof.Machine
end

