-- ==== Sys2Proof/Laws/SoundPort.lean ====
section
/-! SUPPORT. `Sound` through the array port, the bus, the session and the management commands. -/

namespace Sys2Proof.Machine

/-! ## Requests and grants -/

theorem controllerOp_ok {s : State} {op : ArrayOp} (ho : controllerOp s = some op) : OpOk op := by
  unfold controllerOp at ho
  split at ho
  · exact absurd ho (by simp)
  · split at ho
    · split at ho
      · simp only [Option.some.injEq] at ho
        subst ho
        exact lineWrite_ok (accessBytes_ne_zero _)
      · simp only [Option.some.injEq] at ho
        subst ho
        exact lineRead_ok _ _
    · exact absurd ho (by simp)

theorem drainOp_ok {s : State} {op : ArrayOp} (h : Sound s) (ho : drainOp s = some op) : OpOk op := by
  obtain ⟨e, he, rfl⟩ := Option.map_eq_some_iff.mp ho
  exact lineWrite_ok (h.queue.entries e (drainChoice_mem he)).1

/-- Every request present is an operation that R80 and R81 allow. -/
theorem requestsOf_ok {s : State} (h : Sound s) :
    (∀ op, (requestsOf s).controller = some op → OpOk op) ∧ (∀ op, (requestsOf s).drain = some op → OpOk op) ∧
      (∀ op, (requestsOf s).engine = some op → OpOk op) ∧ (∀ op, (requestsOf s).writer = some op → OpOk op) := by
  refine ⟨fun op ho => controllerOp_ok ho, fun op ho => ?_, fun op ho => ?_, fun op ho => ?_⟩
  · unfold requestsOf at ho
    dsimp only at ho
    split at ho
    · exact drainOp_ok h ho
    · exact absurd ho (by simp)
  · unfold requestsOf at ho
    dsimp only at ho
    split at ho
    · exact engineOp_ok h ho
    · exact absurd ho (by simp)
  · unfold requestsOf at ho
    dsimp only at ho
    split at ho
    · exact writerOp_ok ho
    · exact absurd ho (by simp)

/-- The arbiter chooses one of the requests. -/
theorem arbiterChoice_mem {p f : Nat} {r : Requests} {op : ArrayOp} (h : arbiterChoice p f r = some op) :
    r.controller = some op ∨ r.drain = some op ∨ r.engine = some op ∨ r.writer = some op := by
  unfold arbiterChoice at h
  repeat' split at h
  all_goals simp only [h, true_or, or_true]

/-- What the drain requests is a drain operation. -/
theorem drainRequest_isDrain {s : State} {op : ArrayOp} (h : (requestsOf s).drain = some op) :
    isDrainOp op = true := by
  unfold requestsOf at h
  dsimp only at h
  split at h
  · obtain ⟨e, -, rfl⟩ := Option.map_eq_some_iff.mp h
    rfl
  · exact absurd h (by simp)

/-- A grant that passes the drain over finds the pass-over count below 8. -/
theorem passOverAfter_le {p f : Nat} {r : Requests} {op : ArrayOp} (hp : p ≤ Config.passOverLimit)
    (hd : ∀ o, r.drain = some o → isDrainOp o = true) (h : arbiterChoice p f r = some op) :
    passOverAfter p r op ≤ Config.passOverLimit := by
  unfold passOverAfter
  split
  · exact Nat.zero_le _
  · rename_i hn
    split
    · rename_i hs
      by_cases he : p = Config.passOverLimit
      · unfold arbiterChoice at h
        rw [hs, he] at h
        simp only [beq_self_eq_true, Bool.and_self, if_true] at h
        exact absurd (hd op h) hn
      · omega
    · exact hp

theorem arbitrate_sound {s : State} (h : Sound s) : Sound (arbitrate s) := by
  unfold arbitrate
  dsimp only
  split
  · exact h
  · rename_i op ho
    obtain ⟨h1, h2, h3, h4⟩ := requestsOf_ok h
    have hok : OpOk op := by
      rcases arbiterChoice_mem ho with hm | hm | hm | hm
      · exact h1 op hm
      · exact h2 op hm
      · exact h3 op hm
      · exact h4 op hm
    exact startOp_sound
      (h.setPort ⟨passOverAfter_le h.port.passOver (fun o hd => drainRequest_isDrain hd) ho, h.port.op⟩) hok

theorem clearPassOver_sound {s : State} (h : Sound s) : Sound (clearPassOver s) :=
  Sound.ite h (h.setPort ⟨Nat.zero_le _, h.port.op⟩)

theorem drivePort_sound {s : State} (h : Sound s) : Sound (drivePort s) := by
  have ha := arbitrate_sound h
  have hv := advanceShutdown_sound h
  have hs := startOp_sound h (lineRead_ok (.startRead s.start.lines.length) (BitVec.ofNat 21 s.start.lines.length))
  unfold drivePort
  split
  · exact h
  · split
    · exact Sound.ite h hs
    · split
      · rename_i op ho
        obtain ⟨r, hr, hop⟩ := Option.bind_eq_some_iff.mp ho
        exact startOp_sound h (recoveryOp_ok (h.recovery_some hr) hop)
      · exact h
    · exact Sound.ite h ha
    · exact Sound.ite h ha
    · exact Sound.ite h ha
    · exact Sound.ite h ha
    · exact hv
    · exact h

theorem flushCheck_sound {s : State} (h : Sound s) : Sound (flushCheck s) :=
  Sound.ite (completeLong_sound h) h

theorem handoverCheck_sound {s : State} (h : Sound s) : Sound (handoverCheck s) :=
  Sound.ite (enterConfig_sound h) h

/-- What every handling does last keeps every item in range. -/
theorem settle_sound {s : State} (h : Sound s) : Sound (settle s) :=
  drivePort_sound (clearPassOver_sound (handoverCheck_sound (flushCheck_sound (takeNextGroup_sound h))))

/-! ## Outcomes -/

theorem readCompleted_sound {s : State} {data : LineData} (h : Sound s) : Sound (readCompleted s data) := by
  unfold readCompleted
  split
  · exact finishAccess_sound h
  · exact h

theorem throughCompleted_sound {s : State} (h : Sound s) : Sound (throughCompleted s) := by
  unfold throughCompleted
  split
  · exact finishWrite_sound h
  · exact h

theorem opCompleted_sound {s : State} {op : ArrayOp} {data : LineData} (h : Sound s) :
    Sound (opCompleted s op data) := by
  unfold opCompleted
  split
  · exact readCompleted_sound h
  · exact throughCompleted_sound h
  · exact removeDrained_sound h
  · exact removeDrained_sound h
  · exact recordLineWritten_sound h
  · exact recordLineWritten_sound h
  · exact entryApplied_sound h
  · exact retiringLineWritten_sound h
  · exact storeLineWritten_sound h
  · exact formatLineWritten_sound h
  · exact startReadDone_sound h
  · exact scanLineRead_sound h
  · exact replayWritten_sound h
  · exact recoveryLineWritten_sound h
  · exact finalLineWritten_sound h

theorem readFailed_sound {s : State} {a : Access} {w : Option WindowIndex} (h : Sound s) :
    Sound (readFailed s a w) :=
  Sound.ite (reportIncident_sound (finishAccess_sound h)) h

theorem throughFailed_sound {s : State} {f : Failure} {a : Access} {w : Option WindowIndex} (h : Sound s) :
    Sound (throughFailed s f a w) :=
  reportIncident_sound (Sound.ite (finishAccess_sound h) h)

theorem inPlaceFailed_sound {s : State} {f : Failure} {line : LineNo} {k : Fin 32} {w : WindowIndex}
    {i : Initiator} (h : Sound s) : Sound (inPlaceFailed s f line k w i) :=
  commitFailed_sound (setEntryState_sound h)

theorem opFailed_sound {s : State} {op : ArrayOp} {f : Failure} (h : Sound s) : Sound (opFailed s op f) := by
  unfold opFailed
  split
  · exact readFailed_sound h
  · exact throughFailed_sound h
  · exact reportIncident_sound (removeDrained_sound h)
  · exact reportIncident_sound (removeDrained_sound h)
  · exact commitFailed_sound h
  · exact inPlaceFailed_sound h
  · exact commitFailed_sound (endCopyWrite_sound h)
  · exact storeLineFailed_sound h
  · exact formatLineFailed_sound h
  · exact startReadFailed_sound h
  · exact recoveryOpFailed_sound h
  · exact recoveryOpFailed_sound h
  · exact recoveryOpFailed_sound h
  · exact reportIncident_sound h
  · exact reportIncident_sound (endCopyWrite_sound h)

/-! ## Steps of the array side -/

theorem landStep_sound {s : State} {op : ArrayOp} {took : LineData} (h : Sound s) : Sound (landStep s op took) := by
  unfold landStep
  split
  · exact h.setMem (Memory.wf_takeStep h.mem)
  · exact h
  · exact h

theorem spoilCopy_sound {s : State} {op : ArrayOp} {took : LineData} (h : Sound s) : Sound (spoilCopy s op took) := by
  obtain ⟨m, hm, hw⟩ := spoilCopy_eq s op took
  rw [hm]
  exact h.setMem (hw h.mem)

theorem compareReadBack_sound {s : State} {op : ArrayOp} {line took : LineData} (h : Sound s) (ho : OpOk op) :
    Sound (compareReadBack s op line took) := by
  unfold compareReadBack
  split
  · exact opCompleted_sound (freePort_sound h)
  · split
    · rename_i ha
      exact beginStep_sound h ⟨Nat.le_add_left _ _, ha, ho.2.2⟩
    · exact opFailed_sound (freePort_sound (spoilCopy_sound h))

theorem stepEnded_sound {s : State} {op : ArrayOp} {took : LineData} (h : Sound s) (ho : OpOk op) :
    Sound (stepEnded s op took) := by
  have hc : Sound (opCompleted (freePort s) op (s.mem.readLine op.line)) := opCompleted_sound (freePort_sound h)
  unfold stepEnded
  dsimp only
  split
  · exact hc
  · split
    · exact beginStep_sound h ho
    · exact compareReadBack_sound h ho
    all_goals exact hc

theorem readyAsserted_sound {s : State} {took : LineData} (h : Sound s) : Sound (readyAsserted s took) := by
  have hp := h.setPins { s.pins with arrayReady := true }
  unfold readyAsserted
  dsimp only
  generalize s.setPins { s.pins with arrayReady := true } = t at hp
  split
  · exact hp
  · rename_i op hop
    have ho := hp.port.op op hop
    exact Sound.ite (settle_sound (stepEnded_sound (landStep_sound hp) ho)) (beginStep_sound hp ho)

theorem stepTimedOut_sound {s : State} {took : LineData} (h : Sound s) : Sound (stepTimedOut s took) := by
  unfold stepTimedOut
  split
  · exact h
  · rename_i op _
    have hl : Sound (if op.presented = true then landStep s op took else s) := Sound.ite (landStep_sound h) h
    have hf : Sound (opFailed (freePort (spoilCopy (if op.presented = true then landStep s op took else s) op took)) op
        .timeout) :=
      opFailed_sound (freePort_sound (spoilCopy_sound hl))
    exact settle_sound (Sound.ite (endShutdown_sound hf) hf)

theorem retryStartReads_sound {s : State} (h : Sound s) : Sound (retryStartReads s) :=
  Sound.ite (settle_sound (h.setStart noStartLines)) h

/-! ## Supply -/

theorem powerUp_sound {s : State} {pins : Pins} (h : Sound s) : Sound (powerUp s pins) := by
  have hv : Sound (State.startValues pins s.mem Session.idle s.free s.pending) := startValues_sound h.mem
  exact Sound.ite (startOp_sound hv (lineRead_ok _ _)) (settle_sound (takeShutdownCause_sound hv))

theorem setLine_sound {s : State} {line : SupplyLine} {level : Bool} (h : Sound s) :
    Sound (setLine s line level) := by
  cases line with
  | pfwN => exact h.setPins _
  | crstN => exact h.setPins _

theorem lineFall_sound {s : State} {line : SupplyLine} (h : Sound s) : Sound (lineFall s line) :=
  Sound.ite (settle_sound (takeShutdownCause_sound (setLine_sound h))) h

theorem lineRise_sound {s : State} {line : SupplyLine} (h : Sound s) : Sound (lineRise s line) :=
  Sound.ite h (Sound.ite (enterStarting_sound (setLine_sound h)) (setLine_sound h))

/-! ## Controller bus -/

/-- An access that the checks accept is aligned (R62, R64). -/
theorem checkAccess_aligned {s : State} {a : Access} {c : Classification} (h : checkAccess s a = .accepted c) :
    aligned a = true := by
  by_contra hn
  have hf : aligned a = false := by simpa using hn
  have hg : geometryFailure s.layout a = some (byDirection a .d271 .d272) := by
    unfold geometryFailure
    rw [hf]
    rfl
  unfold checkAccess at h
  rw [hg] at h
  split at h
  · exact absurd h (by simp)
  · exact absurd h (by simp)

theorem refuseAccess_sound {s : State} {a : Access} {r : Report} (h : Sound s) : Sound (refuseAccess s a r) :=
  carryOut_sound (Sound.ite (countRefusal_sound (recordIncident_sound (finishAccess_sound h)))
    (recordIncident_sound (finishAccess_sound h)))

theorem takeAccess_sound {s : State} {x : Held} (h : Sound s) (hx : aligned x.access = true) :
    Sound (takeAccess s x) :=
  Sound.ite (takeWrite_sound h hx) (takeRead_sound h hx)

theorem takeAnew_sound {s : State} {write : Bool} (h : Sound s) : Sound (takeAnew s write) := by
  unfold takeAnew
  split
  · exact h
  · rename_i x hx
    exact Sound.ite (settle_sound (takeAccess_sound h (h.access x hx))) h

theorem stallExpiry_sound {s : State} (h : Sound s) : Sound (stallExpiry s) := by
  unfold stallExpiry
  split
  · exact h
  · split
    · exact h
    · exact settle_sound (reportIncident_sound (finishAccess_sound h))

theorem scanBoundary_sound {s : State} (h : Sound s) : Sound (scanBoundary s) :=
  Sound.ite (settle_sound (closeOpen_sound h)) h

/-! ## Management commands -/

theorem takeCommand_sound {s : State} {code : Byte} {arguments : List Byte} {check : Byte}
    {run : State → State × Reply} (h : Sound s) (hr : Sound (run s).1) :
    Sound (takeCommand s code arguments check run) := by
  unfold takeCommand
  split
  · dsimp only
    split
    · exact hr.setSession _
    · exact h.setSession _
  · exact h

theorem clearEvent_sound {s : State} {e : Event} (h : Sound s) : Sound (clearEvent s e) :=
  h.setRecorder h.incidents

theorem ackFault_sound {s : State} (h : Sound s) : Sound (ackFault s) :=
  (clearEvent_sound h).setRecorder h.incidents

theorem ackConfinement_sound {s : State} (h : Sound s) : Sound (ackConfinement s) :=
  Sound.ite
    (Sound.ite (raise_sound (copyReported_sound (clearEvent_sound h))) (copyReported_sound (clearEvent_sound h))) h

theorem acknowledge_sound {s : State} {e : EventSet} (h : Sound s) : Sound (acknowledge s e) := by
  have h1 : Sound (if e.fault = true then ackFault s else s) := Sound.ite (ackFault_sound h) h
  unfold acknowledge
  dsimp only
  generalize (if e.fault = true then ackFault s else s) = t at h1
  have h2 : Sound (if e.confinement = true then ackConfinement t else t) := Sound.ite (ackConfinement_sound h1) h1
  generalize (if e.confinement = true then ackConfinement t else t) = u at h2
  have h3 : Sound (if e.mode = true then clearEvent u .mode else u) := Sound.ite (clearEvent_sound h2) h2
  exact Sound.ite (clearEvent_sound h3) h3

theorem ackEventsRun_sound {s : State} {b : Byte} (h : Sound s) : Sound (ackEventsRun b s).1 := by
  unfold ackEventsRun
  split
  · exact acknowledge_sound h
  · exact h

theorem setEventMaskRun_sound {s : State} {b : Byte} (h : Sound s) : Sound (setEventMaskRun b s).1 := by
  unfold setEventMaskRun
  split
  · exact h.setRecorder h.incidents
  · exact h

theorem takeIncidentRun_sound {s : State} (h : Sound s) : Sound (takeIncidentRun s).1 := by
  refine h.setRecorder (le_trans ?_ h.incidents)
  rw [List.length_tail]
  exact Nat.sub_le _ _

theorem readInitiatorRun_sound {s : State} {b : Byte} (h : Sound s) : Sound (readInitiatorRun b s).1 := by
  unfold readInitiatorRun
  split
  · exact h
  · exact h

theorem release_sound {s : State} {i : Initiator} (h : Sound s) : Sound (release s i) :=
  judgeChange_sound (setStanding_sound h (Nat.zero_le _) (fun _ => rfl))

theorem releaseFenceRun_sound {s : State} {b : Byte} (h : Sound s) : Sound (releaseFenceRun b s).1 := by
  unfold releaseFenceRun
  split
  · exact h
  · split
    · exact release_sound h
    · exact h

theorem readSlotRun_sound {s : State} {b : Byte} (h : Sound s) : Sound (readSlotRun b s).1 := by
  unfold readSlotRun
  split
  · exact h
  · exact h

theorem closeGroupRun_sound {s : State} (h : Sound s) : Sound (closeGroupRun s).1 :=
  settle_sound (closeOpen_sound h)

theorem acceptLong_sound {s : State} {c : LongCommand} (h : Sound s) : Sound (acceptLong s c) :=
  h.setControl _

theorem EntryOk.mark {e : Entry} (h : EntryOk e) : EntryOk (if e.group.isNone then { e with flushMark := true } else e) := by
  split
  · rename_i hg
    exact ⟨h.1, h.2.1, fun _ => by simpa using hg⟩
  · exact h

theorem markPosted_sound {s : State} (h : Sound s) : Sound (markPosted s) := by
  have hm : QueueOk _ := h.queue.map (fun e => if e.group.isNone then { e with flushMark := true } else e)
    (fun e => by split <;> rfl) (fun e he => he.mark)
  exact h.setQueue ⟨hm.slots, hm.entries, le_trans (List.length_filter_le _ _) h.queue.length_le⟩

theorem targetGroups_sound {s : State} (h : Sound s) : Sound (targetGroups s) :=
  setTarget_sound (closeOpen_sound h)

theorem acceptFlush_sound {s : State} {all : Bool} (h : Sound s) : Sound (acceptFlush s all) :=
  settle_sound (Sound.ite (targetGroups_sound (markPosted_sound (acceptLong_sound h)))
    (markPosted_sound (acceptLong_sound h)))

theorem flushRun_sound {s : State} {b : Byte} (h : Sound s) : Sound (flushRun b s).1 := by
  have h1 : Sound (acceptFlush s false) := acceptFlush_sound h
  have h2 : Sound (acceptFlush s true) := acceptFlush_sound h
  unfold flushRun
  split
  · exact h
  · split
    · exact h
    · split
      · exact h1
      · split
        · exact h2
        · exact h

theorem acceptConfig_sound {s : State} (h : Sound s) : Sound (acceptConfig s) := by
  have hc : Sound (closeOpen (refuseHeldWrite ((acceptLong s .requestConfig).setControl
      { (acceptLong s .requestConfig).control with configRequest := true, handoverLoss := false })) .mode) :=
    closeOpen_sound (refuseHeldWrite_sound ((acceptLong_sound h).setControl _))
  exact settle_sound (Sound.ite (abandonPath_sound hc) hc)

theorem requestConfigRun_sound {s : State} (h : Sound s) : Sound (requestConfigRun s).1 := by
  have ha := acceptConfig_sound h
  unfold requestConfigRun
  split
  · exact h
  · split
    · exact h
    · split
      · exact h
      · exact ha

theorem requestRunRun_sound {s : State} (h : Sound s) : Sound (requestRunRun s).1 := by
  have ha : Sound (settle (enterRecovery (acceptLong s .requestRun) .command)) :=
    settle_sound (enterRecovery_sound (acceptLong_sound h))
  unfold requestRunRun
  split
  · exact h
  · split
    · exact h
    · split
      · exact h
      · split
        · exact h
        · exact ha

theorem restartStalled_sound {s : State} (h : Sound s) : Sound (restartStalled s) := by
  unfold restartStalled
  split
  · exact h
  · exact restartPhase_sound h

theorem resume_sound {s : State} (h : Sound s) : Sound (resume s) :=
  settle_sound (restartStalled_sound (changeMode_sound (h.setControl _)))

theorem resumeRun_sound {s : State} (h : Sound s) : Sound (resumeRun s).1 := by
  have ha := resume_sound h
  unfold resumeRun
  split
  · exact ha
  · exact h

theorem readWindowRun_sound {s : State} {b : Byte} (h : Sound s) : Sound (readWindowRun b s).1 := by
  unfold readWindowRun
  split
  · exact h
  · exact h

theorem writeWindowRun_sound {s : State} {b : Byte} {v : BitVec 64} (h : Sound s) :
    Sound (writeWindowRun b v s).1 := by
  unfold writeWindowRun
  split
  · exact h
  · split
    · exact h
    · exact h.setLayout _

theorem writeSettingsRun_sound {s : State} {v : BitVec 128} (h : Sound s) : Sound (writeSettingsRun v s).1 := by
  unfold writeSettingsRun
  split
  · exact h.setLayout _
  · exact h

theorem storeLayoutRun_sound {s : State} (h : Sound s) : Sound (storeLayoutRun s).1 := by
  have ha : Sound (settle (beginLayout (acceptLong s .storeLayout))) :=
    settle_sound (beginLayout_sound (acceptLong_sound h))
  unfold storeLayoutRun
  split
  · exact h
  · split
    · exact h
    · split
      · exact h
      · exact ha

theorem formatRun_sound {s : State} (h : Sound s) : Sound (formatRun s).1 := by
  have ha : Sound (settle (beginFormat (acceptLong s .format))) :=
    settle_sound (beginFormat_sound (acceptLong_sound h))
  unfold formatRun
  split
  · exact h
  · split
    · exact h
    · split
      · exact h
      · exact ha

theorem restartRun_sound {s : State} (h : Sound s) : Sound (restartRun s).1 := by
  have ha : Sound (settle (takeShutdownCause (acceptLong s .restart))) :=
    settle_sound (takeShutdownCause_sound (acceptLong_sound h))
  unfold restartRun
  split
  · exact h
  · exact ha

/-! ## Session and time -/

theorem unknownCode_sound {s : State} {code : Byte} (h : Sound s) : Sound (unknownCode s code) :=
  Sound.ite (h.setSession _) h

theorem clockByte_sound {s : State} (h : Sound s) : Sound (clockByte s) := by
  unfold clockByte
  split
  · exact h
  · exact h
  · exact h.setSession _
  · exact h.setSession _

theorem countStamp_sound {s : State} (h : Sound s) : Sound (countStamp s) :=
  h.setRecorder h.incidents

end Sys2Proof.Machine
end

