-- ==== Sys2Proof/Laws/Modes.lean ====
section
/-! SUPPORT. The mode-dependent items (`ModeView`): which operations leave them as they are or only make them calmer, and
that the operations that change the mode keep `ModeView.Core`. -/

namespace Sys2Proof.Machine

/-! ## Updates of one block -/

@[simp] theorem setPowered_view (s : State) (v : Bool) : (s.setPowered v).modeView = s.modeView := rfl
@[simp] theorem setPins_view (s : State) (v : Pins) : (s.setPins v).modeView = s.modeView := rfl
@[simp] theorem setMem_view (s : State) (v : Memory) : (s.setMem v).modeView = s.modeView := rfl
@[simp] theorem setLayout_view (s : State) (v : Layout) : (s.setLayout v).modeView = s.modeView := rfl
@[simp] theorem setEngine_view (s : State) (v : JournalEngine) : (s.setEngine v).modeView = s.modeView := rfl
@[simp] theorem setStart_view (s : State) (v : StartSequence) : (s.setStart v).modeView = s.modeView := rfl
@[simp] theorem setConfinement_view (s : State) (v : Vector InitiatorRecord 4) :
    (s.setConfinement v).modeView = s.modeView := rfl
@[simp] theorem setRecorder_view (s : State) (v : IncidentRecorder) : (s.setRecorder v).modeView = s.modeView := rfl
@[simp] theorem setSession_view (s : State) (v : Session) : (s.setSession v).modeView = s.modeView := rfl
@[simp] theorem setLineBefore_view (s : State) (v : LineData) : (s.setLineBefore v).modeView = s.modeView := rfl
@[simp] theorem setFree_view (s : State) (v : Nat) : (s.setFree v).modeView = s.modeView := rfl
@[simp] theorem setPending_view (s : State) (v : List Instr) : (s.setPending v).modeView = s.modeView := rfl

/-! ## Calmer views -/

/-- `v'` differs from `v` at most by having less: no access held any more, no group, no entry, no target, no operation. -/
structure Calmer (v v' : ModeView) : Prop where
  mode : v'.mode = v.mode
  request : v'.request = v.request
  long : v'.long = v.long
  heldWrite : v'.heldWrite = none ∨ v'.heldWrite = v.heldWrite
  noGroups : v.noGroups = true → v'.noGroups = true
  noEntries : v.noEntries = true → v'.noEntries = true
  recovery : v'.recovery = v.recovery
  format : v'.format = v.format
  target : v'.target = true → v.target = true
  knowsNothing : v'.knowsNothing = v.knowsNothing
  copyWrite : v'.copyWrite = v.copyWrite
  requester : v'.requester = none ∨ v'.requester = v.requester
  stage : v'.stage = v.stage

theorem Calmer.refl (v : ModeView) : Calmer v v :=
  ⟨rfl, rfl, rfl, Or.inr rfl, id, id, rfl, rfl, id, rfl, rfl, Or.inr rfl, rfl⟩

theorem Calmer.of_eq {v v' : ModeView} (h : v' = v) : Calmer v v' :=
  h ▸ Calmer.refl v

theorem Calmer.trans {u v w : ModeView} (h : Calmer u v) (k : Calmer v w) : Calmer u w where
  mode := k.mode.trans h.mode
  request := k.request.trans h.request
  long := k.long.trans h.long
  heldWrite := by
    rcases k.heldWrite with e | e
    · exact Or.inl e
    · rw [e]
      exact h.heldWrite
  noGroups e := k.noGroups (h.noGroups e)
  noEntries e := k.noEntries (h.noEntries e)
  recovery := k.recovery.trans h.recovery
  format := k.format.trans h.format
  target e := h.target (k.target e)
  knowsNothing := k.knowsNothing.trans h.knowsNothing
  copyWrite := k.copyWrite.trans h.copyWrite
  requester := by
    rcases k.requester with e | e
    · exact Or.inl e
    · rw [e]
      exact h.requester
  stage := k.stage.trans h.stage

/-- Either branch of a choice. -/
theorem Calmer.ite {c : Prop} [Decidable c] {v : ModeView} {s t : State} (hs : Calmer v s.modeView)
    (ht : Calmer v t.modeView) : Calmer v (if c then s else t).modeView := by
  split
  · exact hs
  · exact ht

/-- Whether an operation fits depends on the mode, the stage and the long command alone. -/
theorem ModeView.opFits_congr {v v' : ModeView} (hm : v'.mode = v.mode) (hs : v'.stage = v.stage)
    (hl : v'.long = v.long) (r : Requester) : v'.opFits r ↔ v.opFits r := by
  cases r <;> simp [ModeView.opFits, ModeView.writes, hm, hs, hl]

/-- A calmer view keeps the core. -/
theorem ModeView.Core.calmer {v v' : ModeView} (h : v.Core) (c : Calmer v v') : v'.Core where
  held e := by
    rcases c.heldWrite with n | n
    · rw [n] at e
      exact absurd e (by simp)
    · rw [n] at e
      simpa [ModeView.serves, c.mode] using h.held e
  heldWrite e := by
    rcases c.heldWrite with n | n
    · rw [n] at e
      exact absurd e (by simp)
    · rw [n] at e
      rw [c.mode, c.request]
      exact h.heldWrite e
  request e := by
    rw [c.request] at e
    simpa [ModeView.serves, c.mode, c.long] using h.request e
  work e := by
    have := h.work (by simpa [ModeView.writes, c.mode] using e)
    exact ⟨c.noGroups this.1, c.noEntries this.2⟩
  recovery e := by
    rw [c.recovery] at e
    rw [c.mode]
    exact h.recovery e
  format e := by
    rw [c.format] at e
    simpa [ModeView.writes, c.mode, c.long] using h.format e
  target e := by simpa [ModeView.serves, c.mode, c.long] using h.target (c.target e)
  starting e := by
    rw [c.mode] at e
    rw [c.knowsNothing, c.copyWrite]
    exact h.starting e
  op r e := by
    rcases c.requester with n | n
    · rw [n] at e
      exact absurd e (by simp)
    · rw [n] at e
      exact (ModeView.opFits_congr c.mode c.stage c.long r).mpr (h.op r e)
  sequence e := by
    rw [c.mode] at e
    rw [c.stage, c.copyWrite]
    exact h.sequence e
  ended e := by
    rw [c.mode] at e
    rcases c.requester with n | n
    · exact n
    · rw [n]
      exact h.ended e

/-! ## Operations that leave the view as it is -/

@[simp] theorem raise_view (s : State) (e : Event) : (raise s e).modeView = s.modeView := rfl

@[simp] theorem recordIncident_view (s : State) (r : Report) : (recordIncident s r).modeView = s.modeView := rfl

theorem recordIncidents_view (rs : List Report) (s : State) : (rs.foldl recordIncident s).modeView = s.modeView := by
  induction rs generalizing s with
  | nil => rfl
  | cons r rs ih => rw [List.foldl_cons, ih, recordIncident_view]

@[simp] theorem copyReported_view (s : State) : (copyReported s).modeView = s.modeView := rfl

@[simp] theorem judgeChange_view (s : State) (i : Initiator) (o n : Standing) :
    (judgeChange s i o n).modeView = s.modeView := by
  unfold judgeChange
  split
  · rfl
  · split <;> rfl

@[simp] theorem setStanding_view (s : State) (i : Initiator) (c : Nat) (st : Standing) :
    (setStanding s i c st).modeView = s.modeView := rfl

@[simp] theorem changeCounter_view (s : State) (i : Initiator) (c : Nat) :
    (changeCounter s i c).modeView = s.modeView := by
  unfold changeCounter
  dsimp only
  split
  · rfl
  · split
    · rfl
    · split <;> simp

@[simp] theorem countRefusal_view (s : State) (i : Initiator) (w : Bool) :
    (countRefusal s i w).modeView = s.modeView :=
  changeCounter_view _ _ _

@[simp] theorem countAccepted_view (s : State) (i : Initiator) : (countAccepted s i).modeView = s.modeView :=
  changeCounter_view _ _ _

@[simp] theorem fenceInitiator_view (s : State) (i : Initiator) : (fenceInitiator s i).modeView = s.modeView := by
  unfold fenceInitiator
  split
  · rfl
  · simp

@[simp] theorem changeEntries_view (s : State) (p : Entry → Bool) (f : Entry → Entry) :
    (changeEntries s p f).modeView = s.modeView := by
  simp [changeEntries, State.modeView]

@[simp] theorem setEntryState_view (s : State) (k : Fin 32) (st : EntryState) :
    (setEntryState s k st).modeView = s.modeView :=
  changeEntries_view _ _ _

@[simp] theorem mergeInto_view (s : State) (k : Fin 32) (a : Access) : (mergeInto s k a).modeView = s.modeView :=
  changeEntries_view _ _ _

@[simp] theorem clearFlushMarks_view (s : State) : (clearFlushMarks s).modeView = s.modeView := by
  simp [clearFlushMarks, State.modeView]

@[simp] theorem changeGroup_view (s : State) (q : Seq) (f : Group → Group) :
    (changeGroup s q f).modeView = s.modeView := by
  simp [changeGroup, State.modeView]

@[simp] theorem closeOpen_view (s : State) (c : CloseCause) : (closeOpen s c).modeView = s.modeView := by
  simp [closeOpen, State.modeView]

@[simp] theorem releaseEngine_view (s : State) : (releaseEngine s).modeView = s.modeView := rfl

@[simp] theorem spendBudget_view (s : State) : (spendBudget s).modeView = s.modeView := rfl

@[simp] theorem changeCommitGroup_view (s : State) (f : Group → Group) :
    (changeCommitGroup s f).modeView = s.modeView := by
  unfold changeCommitGroup
  split <;> simp

@[simp] theorem enterPhase_view (s : State) (p : Phase) : (enterPhase s p).modeView = s.modeView := by
  simp [enterPhase]

@[simp] theorem setPosition_view (s : State) (n : Nat) (x : Half) : (setPosition s n x).modeView = s.modeView := by
  simp [setPosition]

@[simp] theorem composeRecord_view (s : State) : (composeRecord s).modeView = s.modeView := by
  unfold composeRecord
  split
  · rfl
  · split <;> rfl

@[simp] theorem startJournaling_view (s : State) : (startJournaling s).modeView = s.modeView := by
  simp [startJournaling]

@[simp] theorem takeNextGroup_view (s : State) : (takeNextGroup s).modeView = s.modeView := by
  unfold takeNextGroup
  split
  · split
    · rfl
    · simp
  · rfl

@[simp] theorem setCommitEntries_view (s : State) (p : EntryState → Bool) (st : EntryState) :
    (setCommitEntries s p st).modeView = s.modeView := by
  unfold setCommitEntries
  split
  · rfl
  · simp

@[simp] theorem sealGroup_view (s : State) : (sealGroup s).modeView = s.modeView := by
  simp [sealGroup]

@[simp] theorem recordWritten_view (s : State) : (recordWritten s).modeView = s.modeView := by
  unfold recordWritten
  split
  · split <;> simp
  all_goals simp

@[simp] theorem recordLineWritten_view (s : State) : (recordLineWritten s).modeView = s.modeView := by
  unfold recordLineWritten
  split <;> simp

@[simp] theorem setJournalPending_view (s : State) (b : Bool) : (setJournalPending s b).modeView = s.modeView := rfl

@[simp] theorem landStep_view (s : State) (op : ArrayOp) (took : LineData) :
    (landStep s op took).modeView = s.modeView := by
  unfold landStep
  split <;> rfl

@[simp] theorem spoilCopy_view (s : State) (op : ArrayOp) (took : LineData) :
    (spoilCopy s op took).modeView = s.modeView := by
  unfold spoilCopy
  split <;> rfl

@[simp] theorem keepLine_view (s : State) (op : ArrayOp) : (keepLine s op).modeView = s.modeView := by
  unfold keepLine
  split <;> rfl

@[simp] theorem markPosted_view (s : State) : (markPosted s).modeView = s.modeView := by
  simp [markPosted, State.modeView]

@[simp] theorem clearPassOver_view (s : State) : (clearPassOver s).modeView = s.modeView := by
  unfold clearPassOver
  split <;> rfl

/-! ## Operations that make the view calmer -/

theorem finishAccess_calmer (s : State) (a : Answer) : Calmer s.modeView (finishAccess s a).modeView :=
  ⟨rfl, rfl, rfl, Or.inl rfl, id, id, rfl, rfl, id, rfl, rfl, Or.inr rfl, rfl⟩

theorem finishWrite_calmer (s : State) (i : Initiator) : Calmer s.modeView (finishWrite s i).modeView := by
  unfold finishWrite
  rw [countAccepted_view]
  exact finishAccess_calmer s _

theorem refuseHeld_calmer (s : State) : Calmer s.modeView (refuseHeld s).modeView := by
  unfold refuseHeld
  split
  · exact Calmer.refl _
  · exact finishAccess_calmer s _

theorem refuseHeldWrite_calmer (s : State) : Calmer s.modeView (refuseHeldWrite s).modeView := by
  unfold refuseHeldWrite
  split
  · exact Calmer.refl _
  · split
    · exact finishAccess_calmer s _
    · exact Calmer.refl _

theorem freeEntries_calmer (s : State) (p : Entry → Bool) : Calmer s.modeView (freeEntries s p).modeView := by
  refine ⟨rfl, rfl, rfl, Or.inr rfl, id, fun h => ?_, rfl, rfl, id, rfl, rfl, Or.inr rfl, rfl⟩
  simp only [State.modeView, List.isEmpty_iff] at h
  simp [freeEntries, State.modeView, h]

theorem dropGroups_calmer (s : State) (p : Group → Bool) (x : Option Seq) (hx : x = none ∨ x = s.groups.flushTarget) :
    Calmer s.modeView (s.setGroups { s.groups with table := s.groups.table.filter p, flushTarget := x }).modeView := by
  refine ⟨rfl, rfl, rfl, Or.inr rfl, fun h => ?_, id, rfl, rfl, fun h => ?_, rfl, rfl, Or.inr rfl, rfl⟩
  · simp only [State.modeView, List.isEmpty_iff] at h
    simp [State.modeView, h]
  · rcases hx with rfl | rfl
    · exact absurd h (by simp [State.modeView])
    · exact h

theorem freePort_calmer (s : State) : Calmer s.modeView (freePort s).modeView :=
  ⟨rfl, rfl, rfl, Or.inr rfl, id, id, rfl, rfl, id, rfl, rfl, Or.inl rfl, rfl⟩

theorem removeDrained_calmer (s : State) (k : Fin 32) (f : Bool) :
    Calmer s.modeView (removeDrained s k f).modeView := by
  unfold removeDrained
  split
  · exact Calmer.refl _
  · rename_i e _
    have h : ∀ (n : Nat) (b : Bool), Calmer s.modeView (s.setQueue { s.queue with
        entries := s.queue.entries.filter (fun x => !(x.slot == k)), outstanding := n, lossNote := b }).modeView := by
      intro n b
      refine ⟨rfl, rfl, rfl, Or.inr rfl, id, fun h => ?_, rfl, rfl, id, rfl, rfl, Or.inr rfl, rfl⟩
      simp only [State.modeView, List.isEmpty_iff] at h
      simp [State.modeView, h]
    exact Calmer.ite (h _ _) (h _ _)

theorem retireGroup_calmer (s : State) : Calmer s.modeView (retireGroup s).modeView := by
  unfold retireGroup
  split
  · exact Calmer.refl _
  · dsimp only
    rw [setEngine_view]
    refine Calmer.trans (dropGroups_calmer s _ _ ?_) (freeEntries_calmer _ _)
    split
    · exact Or.inl rfl
    · exact Or.inr rfl

end Sys2Proof.Machine
end

