-- ==== Sys2Proof/Laws/ModeChanges.lean ====
section
/-! SUPPORT. Every operation of a handling keeps `ModeView.Core`: the changes of the mode, the long commands, the outcomes of
array operations, and what every handling does last. -/

namespace Sys2Proof.Machine

/-- The core of the mode-dependent items of a state. -/
abbrev CoreOf (s : State) : Prop :=
  s.modeView.Core

theorem CoreOf.ite {c : Prop} [Decidable c] {s t : State} (hs : c → CoreOf s) (ht : ¬c → CoreOf t) :
    CoreOf (if c then s else t) := by
  split
  · exact hs ‹_›
  · exact ht ‹_›

theorem CoreOf.of_eq {s t : State} (h : CoreOf s) (e : t.modeView = s.modeView) : CoreOf t := by
  unfold CoreOf
  rw [e]
  exact h

/-! ## Changes of the view -/

/-- An operation that fits outside SHUTDOWN and outside the modes of the control area writer fits in every other mode but
STARTING. -/
theorem ModeView.opFits_leave {v v' : ModeView} {r : Requester} (h : v.opFits r) (hm : v.mode ≠ .shutdown)
    (hw : ¬v.writes) (hm' : v'.mode ≠ .shutdown ∧ v'.mode ≠ .starting) : v'.opFits r := by
  cases r <;> simp_all [ModeView.opFits, ModeView.writes]

/-- An operation that fits outside SHUTDOWN fits on entry to it. -/
theorem ModeView.opFits_shutdown {v v' : ModeView} {r : Requester} (h : v.opFits r) (hm : v.mode ≠ .shutdown)
    (hm' : v'.mode = .shutdown) (hs : v'.stage = .finishing) : v'.opFits r := by
  cases r <;> simp_all [ModeView.opFits]

@[simp] theorem changeMode_view (s : State) (m : Mode) :
    (changeMode s m).modeView = { s.modeView with mode := m } := by
  unfold changeMode
  split
  · rename_i h
    rw [← h]
    rfl
  · rfl

@[simp] theorem completeLong_view (s : State) (r : LongResult) :
    (completeLong s r).modeView = { s.modeView with long := none } := rfl

@[simp] theorem acceptLong_view (s : State) (c : LongCommand) :
    (acceptLong s c).modeView = { s.modeView with long := some c } := rfl

@[simp] theorem setHaltCause_view (s : State) (d : Option Detail) :
    (s.setControl { s.control with haltCause := d }).modeView = s.modeView := rfl

@[simp] theorem refuseHeld_view (s : State) :
    (refuseHeld s).modeView = { s.modeView with heldWrite := none } := by
  unfold refuseHeld
  split
  · rename_i h
    simp [State.modeView, h]
  · rfl

@[simp] theorem refuseHeldWrite_view (s : State) :
    (refuseHeldWrite s).modeView =
      { s.modeView with heldWrite := if s.modeView.heldWrite = some true then none else s.modeView.heldWrite } := by
  unfold refuseHeldWrite
  split
  · rename_i h
    simp [State.modeView, h]
  · rename_i x h
    by_cases hw : opIsWrite x.access.op = true
    · rw [if_pos hw]
      simp [State.modeView, h, hw, finishAccess]
    · rw [if_neg hw]
      simp [State.modeView, h, hw]

/-! ## HALTED and CONFIG -/

theorem ModeView.Core.toHalted {v : ModeView} (h : v.Core) (hm : v.mode = .run) :
    ({ v with
        mode := .halted
        heldWrite := if v.heldWrite = some true then none else v.heldWrite } : ModeView).Core where
  held _ := Or.inr rfl
  heldWrite e := by
    dsimp only at e
    split at e <;> simp_all
  request e := ⟨Or.inr rfl, (h.request e).2⟩
  work e := by simp [ModeView.writes] at e
  recovery e := by
    have := h.recovery e
    simp_all
  format e := by
    have := h.format e
    simp_all [ModeView.writes]
  target e := ⟨Or.inr rfl, (h.target e).2⟩
  starting e := by simp at e
  op r e := ModeView.opFits_leave (h.op r e) (by simp [hm]) (by simp [ModeView.writes, hm]) (by simp)
  sequence e := by simp at e
  ended e := by simp at e

theorem enterHalted_core {s : State} {d : Detail} (h : CoreOf s) (hm : s.control.mode = .run) :
    CoreOf (enterHalted s d) := by
  unfold enterHalted
  dsimp only
  unfold CoreOf
  rw [closeOpen_view, refuseHeldWrite_view, changeMode_view, setHaltCause_view]
  exact h.toHalted hm

theorem ModeView.Core.toConfig {v : ModeView} (h : v.Core) (hs : v.serves) (ht : v.target = false)
    (hg : v.noGroups = true) (he : v.noEntries = true) :
    ({ v with mode := .config, request := false, heldWrite := none, long := none } : ModeView).Core where
  held e := by simp at e
  heldWrite e := by simp at e
  request e := by simp at e
  work _ := ⟨hg, he⟩
  recovery e := by
    have := h.recovery e
    simp_all [ModeView.serves]
  format e := by
    have := h.format e
    rcases hs with hs | hs <;> simp_all [ModeView.writes]
  target e := by simp_all
  starting e := by simp at e
  op r e := by
    refine ModeView.opFits_leave (h.op r e) ?_ ?_ (by simp) <;>
      rcases hs with hs | hs <;> simp [hs, ModeView.writes]
  sequence e := by simp at e
  ended e := by simp at e

@[simp] theorem enterConfig_view (s : State) (r : LongResult) :
    (enterConfig s r).modeView =
      { s.modeView with mode := .config, request := false, heldWrite := none, long := none } := by
  unfold enterConfig
  dsimp only
  rw [completeLong_view, refuseHeld_view, changeMode_view]
  rfl

theorem abandonPath_view (s : State) :
    (abandonPath s).modeView =
      { s.modeView with
        mode := .config, request := false, heldWrite := none, long := none, noGroups := true, noEntries := true
        target := false } := by
  unfold abandonPath
  dsimp only
  rw [enterConfig_view, recordIncident_view, recordIncident_view]
  rfl

theorem ModeView.Core.abandoned {v : ModeView} (h : v.Core) (hs : v.serves) :
    ({ v with
        mode := .config, request := false, heldWrite := none, long := none, noGroups := true, noEntries := true
        target := false } : ModeView).Core := by
  have hc : Calmer v { v with noGroups := true, noEntries := true, target := false } :=
    ⟨rfl, rfl, rfl, Or.inr rfl, fun _ => rfl, fun _ => rfl, rfl, rfl, fun e => absurd e (by simp), rfl, rfl, Or.inr rfl,
      rfl⟩
  exact (h.calmer hc).toConfig hs rfl rfl rfl

theorem abandonPath_core {s : State} (h : CoreOf s) (hr : s.control.configRequest = true) : CoreOf (abandonPath s) := by
  unfold CoreOf
  rw [abandonPath_view]
  exact h.abandoned (h.request hr).1

theorem haltReaction_core {s : State} {d : Detail} (h : CoreOf s) : CoreOf (haltReaction s d) := by
  unfold haltReaction
  split
  · rename_i hm
    refine CoreOf.ite (fun hc => ?_) (fun _ => enterHalted_core h hm)
    rw [Bool.and_eq_true] at hc
    exact abandonPath_core h hc.1
  · refine CoreOf.ite (fun hc => ?_) (fun _ => h)
    rw [Bool.and_eq_true] at hc
    exact abandonPath_core h hc.1
  all_goals exact h

theorem carryOut_core {s : State} {x : Reaction} {r : Report} (h : CoreOf s) : CoreOf (carryOut s x r) := by
  cases x with
  | record => exact h
  | none => exact h
  | halt => exact haltReaction_core h
  | fence =>
    unfold carryOut
    dsimp only
    split
    · exact h.of_eq (fenceInitiator_view _ _)
    · exact h

theorem reportIncident_core {s : State} {r : Report} (h : CoreOf s) : CoreOf (reportIncident s r) :=
  carryOut_core (h.of_eq (recordIncident_view _ _))

/-- Outside RUN and HALTED an incident leaves the view as it is. -/
theorem reportIncident_view {s : State} {r : Report} (h : serving s = false) :
    (reportIncident s r).modeView = s.modeView := by
  have hm : s.control.mode ≠ .run ∧ s.control.mode ≠ .halted := by
    simpa [serving] using h
  unfold reportIncident carryOut
  split
  · simp
  · simp
  · split
    · simp
    · simp
  · unfold haltReaction
    have : (recordIncident s r).control.mode = s.control.mode := rfl
    rw [this]
    split <;> simp_all

/-! ## Taking accesses -/

theorem ModeView.Core.serving {v : ModeView} (h : v.Core) (hs : v.serves) {v' : ModeView} (hm : v'.mode = v.mode)
    (hr : v'.request = v.request) (hl : v'.long = v.long)
    (hh : v'.heldWrite = some true → v.mode = .run ∧ v.request = false) (hrec : v'.recovery = v.recovery)
    (hf : v'.format = v.format) (ht : v'.target = v.target) (ho : v'.requester = v.requester) : v'.Core where
  held _ := by simpa [ModeView.serves, hm] using hs
  heldWrite e := by
    rw [hm, hr]
    exact hh e
  request e := by
    rw [hr] at e
    simpa [ModeView.serves, hm, hl] using h.request e
  work e := by
    rcases hs with hs | hs <;> simp [ModeView.writes, hm, hs] at e
  recovery e := by
    rw [hrec] at e
    rw [hm]
    exact h.recovery e
  format e := by
    rw [hf] at e
    simpa [ModeView.writes, hm, hl] using h.format e
  target e := by
    rw [ht] at e
    simpa [ModeView.serves, hm, hl] using h.target e
  starting e := by rcases hs with hs | hs <;> simp [hm, hs] at e
  op r e := by
    rw [ho] at e
    refine ModeView.opFits_leave (h.op r e) ?_ ?_ ?_ <;> rcases hs with hs | hs <;>
      simp [hs, hm, ModeView.writes]
  sequence e := by rcases hs with hs | hs <;> simp [hm, hs] at e
  ended e := by rcases hs with hs | hs <;> simp [hm, hs] at e

/-- The mode lets the access be taken: reads in RUN and HALTED, writes in RUN with no configuration request. -/
def MayTake (s : State) (h : Held) : Prop :=
  s.modeView.serves ∧ (opIsWrite h.access.op = true → s.control.mode = .run ∧ s.control.configRequest = false)

theorem MayTake.of_eq {s t : State} {x : Held} (h : MayTake s x) (e : t.modeView = s.modeView) : MayTake t x := by
  have hm : t.control.mode = s.control.mode := congrArg ModeView.mode e
  have hr : t.control.configRequest = s.control.configRequest := congrArg ModeView.request e
  unfold MayTake
  rw [e, hm, hr]
  exact h

theorem holdAccess_core {s : State} {x : Held} (h : CoreOf s) (m : MayTake s x) : CoreOf (holdAccess s x) := by
  refine ModeView.Core.serving h m.1 rfl rfl rfl (fun e => m.2 ?_) rfl rfl rfl rfl
  simpa [holdAccess, State.modeView] using e

theorem finishWrite_core {s : State} {i : Initiator} (h : CoreOf s) : CoreOf (finishWrite s i) :=
  h.calmer (finishWrite_calmer s i)

theorem finishAccess_core {s : State} {a : Answer} (h : CoreOf s) : CoreOf (finishAccess s a) :=
  h.calmer (finishAccess_calmer s a)

/-- In RUN and HALTED the queue and the group table may change freely. -/
theorem setWork_core {s : State} (h : CoreOf s) (hs : s.modeView.serves) (q : PostingQueue) (g : GroupTracker)
    (ht : g.flushTarget = s.groups.flushTarget) : CoreOf ((s.setGroups g).setQueue q) := by
  refine ModeView.Core.serving h hs rfl rfl rfl (fun e => h.heldWrite e) rfl rfl ?_ rfl
  simp [State.modeView, ht]

theorem createEntry_core {s : State} {x : Held} {k : Fin 32} {g : Option Seq} (h : CoreOf s)
    (hs : s.modeView.serves) : CoreOf (createEntry s x k g) :=
  setWork_core h hs _ s.groups rfl

theorem takePosted_core {s : State} {x : Held} (h : CoreOf s) (m : MayTake s x) : CoreOf (takePosted s x) := by
  unfold takePosted
  split
  · exact finishWrite_core (h.of_eq (mergeInto_view _ _ _))
  · split
    · exact finishWrite_core (createEntry_core h m.1)
    · exact holdAccess_core h m

theorem takeInNewGroup_core {s : State} {x : Held} (h : CoreOf s) (m : MayTake s x) :
    CoreOf (takeInNewGroup s x) := by
  unfold takeInNewGroup
  split
  · split
    · unfold openGroupWith
      exact finishWrite_core (setWork_core h m.1 _ _ rfl)
    · exact holdAccess_core h m
  · exact holdAccess_core h m

theorem takeInOpenGroup_core {s : State} {x : Held} {g : Group} (h : CoreOf s) (m : MayTake s x) :
    CoreOf (takeInOpenGroup s x g) := by
  unfold takeInOpenGroup
  split
  · dsimp only
    refine finishWrite_core (createEntry_core (h.of_eq (changeGroup_view _ _ _)) ?_)
    rw [changeGroup_view]
    exact m.1
  · exact holdAccess_core h m

theorem takeGrouped_core {s : State} {x : Held} (h : CoreOf s) (m : MayTake s x) : CoreOf (takeGrouped s x) := by
  unfold takeGrouped
  split
  · exact takeInNewGroup_core h m
  · split
    · exact finishWrite_core (h.of_eq (mergeInto_view _ _ _))
    · split
      · exact takeInOpenGroup_core h m
      · have e : (recordIncident (closeOpen s .limit) (limitReport s x ‹Group›)).modeView = s.modeView := by
          rw [recordIncident_view, closeOpen_view]
        exact carryOut_core (takeInNewGroup_core (h.of_eq e) (m.of_eq e))

theorem takeWrite_core {s : State} {x : Held} (h : CoreOf s) (m : MayTake s x) : CoreOf (takeWrite s x) := by
  unfold takeWrite
  split
  · exact takePosted_core h m
  · exact takeGrouped_core h m
  · exact holdAccess_core h m
  · exact h
  · exact h

theorem takeRead_core {s : State} {x : Held} (h : CoreOf s) (m : MayTake s x) : CoreOf (takeRead s x) := by
  unfold takeRead
  dsimp only
  split
  · exact finishAccess_core h
  · split
    · exact holdAccess_core h m
    · exact holdAccess_core h m

theorem takeAccess_core {s : State} {x : Held} (h : CoreOf s) (m : MayTake s x) : CoreOf (takeAccess s x) :=
  CoreOf.ite (fun _ => takeWrite_core h m) (fun _ => takeRead_core h m)

theorem refuseAccess_core {s : State} {a : Access} {r : Report} (h : CoreOf s) : CoreOf (refuseAccess s a r) := by
  have hf := finishAccess_core (a := .refuse) h
  refine carryOut_core (CoreOf.ite (fun _ => ?_) (fun _ => ?_))
  · exact hf.of_eq (by rw [countRefusal_view, recordIncident_view])
  · exact hf.of_eq (recordIncident_view _ _)

end Sys2Proof.Machine
end

