-- ==== Sys2Proof/Laws/ModeOutcomes.lean ====
section
/-! SUPPORT. `ModeView.Core` through the outcomes of array operations, the start sequence, recovery and the shutdown
sequencer, and what `settle` leaves. -/

namespace Sys2Proof.Machine

/-! ## Views of the operations that begin and end copies and phases -/

@[simp] theorem beginProgress_view (s : State) (p : ProgressContent) :
    (beginProgress s p).modeView = { s.modeView with copyWrite := true } := rfl

@[simp] theorem beginLayout_view (s : State) :
    (beginLayout s).modeView = { s.modeView with copyWrite := true } := rfl

@[simp] theorem endCopyWrite_view (s : State) :
    (endCopyWrite s).modeView = { s.modeView with copyWrite := false } := rfl

@[simp] theorem setStage_view (s : State) (g : ShutdownStage) :
    (setStage s g).modeView = { s.modeView with stage := g } := rfl

@[simp] theorem beginStep_view (s : State) (op : ArrayOp) :
    (beginStep s op).modeView = { s.modeView with requester := some op.requester } := by
  unfold beginStep
  split <;> rfl

@[simp] theorem markGranted_view (s : State) (r : Requester) : (markGranted s r).modeView = s.modeView := by
  have held : (match s.access.held with
      | none => s
      | some h => s.setAccess { s.access with held := some { h with wait := .operation } }).modeView =
        s.modeView := by
    split
    · rfl
    · rename_i h e
      simp [State.modeView, e]
  cases r with
  | controllerRead a w => exact held
  | throughWrite a w => exact held
  | _ => simp [markGranted]

@[simp] theorem startOp_view (s : State) (op : ArrayOp) :
    (startOp s op).modeView = { s.modeView with requester := some op.requester } := by
  unfold startOp
  rw [beginStep_view, markGranted_view, keepLine_view]

/-- Copy writes and the writer's knowledge are free outside STARTING and outside stage PROGRESS of SHUTDOWN. -/
theorem ModeView.Core.copies {v : ModeView} (h : v.Core) (hm : v.mode ≠ .starting)
    (hs : v.mode = .shutdown → v.stage ≠ .progress) (k c : Bool) :
    ({ v with knowsNothing := k, copyWrite := c } : ModeView).Core where
  held e := h.held e
  heldWrite e := h.heldWrite e
  request e := h.request e
  work e := h.work e
  recovery e := h.recovery e
  format e := h.format e
  target e := h.target e
  starting e := absurd e hm
  op r e := (ModeView.opFits_congr rfl rfl rfl r).mpr (h.op r e)
  sequence e := ⟨(h.sequence e).1, fun p => absurd p (hs e)⟩
  ended e := h.ended e

theorem copyLineWritten_view (s : State) :
    ∃ k c, (copyLineWritten s).modeView = { s.modeView with knowsNothing := k, copyWrite := c } := by
  unfold copyLineWritten
  split
  · exact ⟨_, _, rfl⟩
  · rename_i c _
    split
    · exact ⟨_, _, rfl⟩
    · unfold recordCopy
      split
      · exact ⟨_, _, rfl⟩
      · exact ⟨_, _, rfl⟩

/-- A line of a copy write that is not the final one of SHUTDOWN completes. -/
theorem copyLineWritten_core {s : State} (h : CoreOf s) (hm : s.control.mode ≠ .starting)
    (hs : s.control.mode = .shutdown → s.shutdown.stage ≠ .progress) : CoreOf (copyLineWritten s) := by
  obtain ⟨k, c, e⟩ := copyLineWritten_view s
  unfold CoreOf
  rw [e]
  exact ModeView.Core.copies h hm hs k c

theorem startOp_core {s : State} {op : ArrayOp} (h : CoreOf s) (hf : s.modeView.opFits op.requester)
    (he : s.control.mode ≠ .ended) : CoreOf (startOp s op) := by
  unfold CoreOf
  rw [startOp_view]
  exact
    { held := h.held
      heldWrite := h.heldWrite
      request := h.request
      work := h.work
      recovery := h.recovery
      format := h.format
      target := h.target
      starting := h.starting
      op := fun r e => by
        simp only [Option.some.injEq] at e
        subst e
        exact (ModeView.opFits_congr rfl rfl rfl _).mpr hf
      sequence := h.sequence
      ended := fun e => absurd e he }

/-! ## Long commands -/

/-- A long command is accepted while none is in flight. -/
theorem ModeView.Core.accept {v : ModeView} (h : v.Core) (hl : v.long = none) (c : LongCommand) :
    ({ v with long := some c } : ModeView).Core where
  held e := h.held e
  heldWrite e := h.heldWrite e
  request e := by
    have := (h.request e).2
    simp_all
  work e := h.work e
  recovery e := h.recovery e
  format e := by
    have := (h.format e).2
    simp_all
  target e := by
    have := (h.target e).2
    simp_all
  starting e := h.starting e
  op r e := by
    have := h.op r e
    cases r <;> simp_all [ModeView.opFits, ModeView.writes]
  sequence e := h.sequence e
  ended e := h.ended e

/-- The long command completes while no other item rests on it. -/
theorem ModeView.Core.complete {v : ModeView} (h : v.Core) (hr : v.request = false) (hf : v.format = false)
    (ht : v.target = false) (ho : ∀ r, v.requester = some r → ¬v.writes) :
    ({ v with long := none } : ModeView).Core where
  held e := h.held e
  heldWrite e := h.heldWrite e
  request e := by simp_all
  work e := h.work e
  recovery e := h.recovery e
  format e := by simp_all
  target e := by simp_all
  starting e := h.starting e
  op r e := by
    have h1 := h.op r e
    have h2 := ho r e
    cases r <;> simp_all [ModeView.opFits, ModeView.writes]
  sequence e := h.sequence e
  ended e := h.ended e

theorem acceptLong_core {s : State} {c : LongCommand} (h : CoreOf s) (hl : s.control.longCommand = none) :
    CoreOf (acceptLong s c) :=
  ModeView.Core.accept h hl c

/-! ## Recovery and the start sequence -/

/-- Recovery's end: what holds of a state in RECOVERING with its recovery dropped, in RUN or CONFIG. -/
theorem ModeView.Core.fromRecovering {v : ModeView} (h : v.Core) (hm : v.mode = .recovering) {m : Mode}
    (hm' : m = .run ∨ m = .config) : ({ v with mode := m, recovery := false } : ModeView).Core where
  held e := by
    have := h.held e
    simp_all [ModeView.serves]
  heldWrite e := by
    have := h.heldWrite e
    simp_all
  request e := by
    have := (h.request e).1
    simp_all [ModeView.serves]
  work _ := h.work (Or.inr (Or.inl hm))
  recovery e := by simp at e
  format e := by
    have := (h.format e).1
    simp_all [ModeView.writes]
  target e := by
    have := (h.target e).1
    simp_all [ModeView.serves]
  starting e := by rcases hm' with rfl | rfl <;> simp at e
  op r e := by
    refine ModeView.opFits_leave (h.op r e) (by simp [hm]) (by simp [ModeView.writes, hm]) ?_
    rcases hm' with rfl | rfl <;> simp
  sequence e := by rcases hm' with rfl | rfl <;> simp at e
  ended e := by rcases hm' with rfl | rfl <;> simp at e

theorem endRecovery_view (s : State) (m : Mode) :
    (endRecovery s m).modeView = { s.modeView with mode := m, recovery := false } := by
  unfold endRecovery
  dsimp only
  rw [changeMode_view]
  rfl

theorem endRecovery_core {s : State} {m : Mode} (h : CoreOf s) (hm : s.control.mode = .recovering)
    (hm' : m = .run ∨ m = .config) : CoreOf (endRecovery s m) := by
  unfold CoreOf
  rw [endRecovery_view]
  exact h.fromRecovering hm hm'

/-- In RECOVERING no request, image or target rests on the long command. -/
theorem completeInRecovering {s : State} {m : Mode} {r : LongResult} (h : CoreOf s)
    (hm : s.control.mode = .recovering) (hm' : m = .run ∨ m = .config)
    (ho : m = .config → s.port.op = none) : CoreOf (completeLong (endRecovery s m) r) := by
  have hc := endRecovery_core h hm hm'
  unfold CoreOf at hc ⊢
  rw [completeLong_view]
  rw [endRecovery_view] at hc ⊢
  refine hc.complete ?_ ?_ ?_ ?_
  · cases hr : s.modeView.request with
    | false => rfl
    | true =>
      have := (h.request hr).1
      simp_all [ModeView.serves, State.modeView]
  · cases hr : s.modeView.format with
    | false => rfl
    | true =>
      have := (h.format hr).1
      simp_all [ModeView.writes, State.modeView]
  · cases hr : s.modeView.target with
    | false => rfl
    | true =>
      have := (h.target hr).1
      simp_all [ModeView.serves, State.modeView]
  · intro r e hw
    rcases hm' with rfl | rfl
    · simp [ModeView.writes] at hw
    · have := ho rfl
      simp [State.modeView, this] at e

theorem recoveryFails_core {s : State} {path : RecoveryPath} (h : CoreOf s) (hm : s.control.mode = .recovering)
    (ho : s.port.op = none) : CoreOf (recoveryFails s path) := by
  have he : CoreOf (endCopyWrite s) := by
    refine ModeView.Core.copies h ?_ ?_ s.modeView.knowsNothing false
    · simp [State.modeView, hm]
    · simp [State.modeView, hm]
  cases path with
  | start => exact endRecovery_core he hm (Or.inr rfl)
  | command => exact completeInRecovering he hm (Or.inr rfl) (fun _ => ho)

theorem setRecovery_core {s : State} {r : Recovery} (h : CoreOf s) (hm : s.control.mode = .recovering) :
    CoreOf (s.setRecovery (some r)) where
  held e := h.held e
  heldWrite e := h.heldWrite e
  request e := h.request e
  work e := h.work e
  recovery _ := hm
  format e := h.format e
  target e := h.target e
  starting e := h.starting e
  op r e := (ModeView.opFits_congr rfl rfl rfl r).mpr (h.op r e)
  sequence e := h.sequence e
  ended e := h.ended e

theorem beginProgress_core {s : State} {p : ProgressContent} (h : CoreOf s) (hm : s.control.mode ≠ .starting)
    (hs : s.control.mode = .shutdown → s.shutdown.stage ≠ .progress) : CoreOf (beginProgress s p) :=
  ModeView.Core.copies h hm hs s.modeView.knowsNothing true

theorem startFinalCopy_core {s : State} {r : Recovery} (h : CoreOf s) (hm : s.control.mode = .recovering) :
    CoreOf (startFinalCopy s r) := by
  have hr := setRecovery_core (r := { r with stage := .finalProgress }) h hm
  refine beginProgress_core hr ?_ ?_
  · exact fun e => absurd (hm.symm.trans e) (by simp)
  · exact fun e => absurd (hm.symm.trans e) (by simp)

theorem judgeCandidate_core {s : State} {r : Recovery} {x : JournalRecord} (h : CoreOf s)
    (hm : s.control.mode = .recovering) : CoreOf (judgeCandidate s r x) := by
  unfold judgeCandidate
  split
  · exact setRecovery_core (h.of_eq (setJournalPending_view _ _)) hm
  · split
    · exact startFinalCopy_core (s := setJournalPending (recordIncident s _) false) (h.of_eq rfl) hm
    · exact startFinalCopy_core (s := setJournalPending s false) (h.of_eq rfl) hm

theorem positionRead_core {s : State} {r : Recovery} {x : JournalRecord} (h : CoreOf s)
    (hm : s.control.mode = .recovering) : CoreOf (positionRead s r x) := by
  unfold positionRead
  split
  · exact setRecovery_core h hm
  · exact judgeCandidate_core h hm

/-- A state that has recovery is in RECOVERING. -/
theorem recovering_of_some {s : State} {r : Recovery} (h : CoreOf s) (hr : s.recovery = some r) :
    s.control.mode = .recovering :=
  h.recovery (by simp [State.modeView, hr])

theorem scanLineRead_core {s : State} {d : LineData} (h : CoreOf s) : CoreOf (scanLineRead s d) := by
  unfold scanLineRead
  split
  · exact h
  · rename_i r hr
    have hm := recovering_of_some h hr
    split
    · exact setRecovery_core h hm
    · exact positionRead_core h hm

theorem replayWritten_core {s : State} (h : CoreOf s) : CoreOf (replayWritten s) := by
  unfold replayWritten
  split
  · exact h
  · rename_i r hr
    have hm := recovering_of_some h hr
    dsimp only
    split
    · exact setRecovery_core h hm
    · refine beginProgress_core (setRecovery_core (s := recordIncident s _) (h.of_eq rfl) hm) ?_ ?_
      · exact fun e => absurd (hm.symm.trans e) (by simp)
      · exact fun e => absurd (hm.symm.trans e) (by simp)

theorem recoveryComplete_core {s : State} {r : Recovery} (h : CoreOf s) (hm : s.control.mode = .recovering) :
    CoreOf (recoveryComplete s r) := by
  unfold recoveryComplete
  split
  · exact completeInRecovering (m := .run) (r := .done) h hm (Or.inl rfl) (fun e => absurd e (by simp))
  · split
    · exact endRecovery_core (m := .run) h hm (Or.inl rfl)
    · exact endRecovery_core (m := .config) h hm (Or.inr rfl)

theorem recoveryLineWritten_core {s : State} {replay : Bool} (h : CoreOf s) (hm : s.control.mode ≠ .starting)
    (hs : s.control.mode = .shutdown → s.shutdown.stage ≠ .progress) : CoreOf (recoveryLineWritten s replay) := by
  have hc := copyLineWritten_core h hm hs
  unfold recoveryLineWritten
  dsimp only
  generalize copyLineWritten s = t at hc
  split
  · exact hc
  · have hp : CoreOf (if replay = true then setJournalPending t false else t) :=
      CoreOf.ite (fun _ => hc.of_eq rfl) (fun _ => hc)
    generalize (if replay = true then setJournalPending t false else t) = u at hp
    split
    · exact hp
    · rename_i r hr
      have hm' := recovering_of_some hp hr
      exact CoreOf.ite (fun _ => startFinalCopy_core hp hm') (fun _ => recoveryComplete_core hp hm')

theorem recoveryOpFailed_core {s : State} {r : Report} (h : CoreOf s) (ho : s.port.op = none) :
    CoreOf (recoveryOpFailed s r) := by
  have hr := reportIncident_core (r := r) h
  unfold recoveryOpFailed
  dsimp only
  cases hv : s.recovery with
  | none =>
    have : (reportIncident s r).recovery = none ∨ (reportIncident s r).recovery ≠ none := by tauto
    generalize hg : reportIncident s r = t at hr this
    rcases this with hn | hn
    · rw [hn]
      exact hr
    · obtain ⟨x, hx⟩ := Option.ne_none_iff_exists'.mp hn
      have hm := recovering_of_some hr hx
      have hs : serving s = false := by
        by_contra hcon
        have hcon : serving s = true := by simpa using hcon
        have hmode : t.modeView.recovery = s.modeView.recovery := by
          rw [← hg]
          unfold reportIncident carryOut
          split
          · simp
          · simp
          · split <;> simp
          · unfold haltReaction
            split
            · split
              · rw [abandonPath_view]
                simp
              · unfold enterHalted
                dsimp only
                rw [closeOpen_view, refuseHeldWrite_view, changeMode_view]
                rfl
            · split
              · rw [abandonPath_view]
                simp
              · simp
            all_goals simp
        simp [State.modeView, hx, hv] at hmode
      have hview := reportIncident_view (r := r) hs
      rw [hg] at hview
      have := congrArg ModeView.recovery hview
      simp [State.modeView, hx, hv] at this
  | some v =>
    have hm := recovering_of_some h hv
    have hs : serving s = false := by simp [serving, hm]
    have hview := reportIncident_view (r := r) hs
    generalize reportIncident s r = t at hr hview
    have hmt : t.control.mode = .recovering := (congrArg ModeView.mode hview).trans hm
    have hot : t.port.op = none := by
      have := congrArg ModeView.requester hview
      simp only [State.modeView, ho, Option.map_none, Option.map_eq_none_iff] at this
      exact this
    split
    · exact hr
    · exact recoveryFails_core hr hmt hot

theorem ModeView.Core.fromStarting {v : ModeView} (h : v.Core) (hm : v.mode = .starting) (ho : v.requester = none)
    {m : Mode} (hm' : m = .recovering ∨ m = .unformatted ∨ m = .config) (k rec : Bool)
    (hrec : rec = true → m = .recovering) :
    ({ v with mode := m, knowsNothing := k, recovery := rec } : ModeView).Core where
  held e := by
    have := h.held e
    simp_all [ModeView.serves]
  heldWrite e := by
    have := h.heldWrite e
    simp_all
  request e := by
    have := (h.request e).1
    simp_all [ModeView.serves]
  work _ := h.work (Or.inl hm)
  recovery e := hrec e
  format e := by
    have := (h.format e).1
    simp_all [ModeView.writes]
  target e := by
    have := (h.target e).1
    simp_all [ModeView.serves]
  starting e := by rcases hm' with rfl | rfl | rfl <;> simp at e
  op r e := by
    dsimp only at e
    rw [ho] at e
    exact absurd e (by simp)
  sequence e := by rcases hm' with rfl | rfl | rfl <;> simp at e
  ended e := by rcases hm' with rfl | rfl | rfl <;> simp at e

theorem enterRecovery_view (s : State) :
    (enterRecovery s .start).modeView = { s.modeView with mode := .recovering, recovery := true } ∨
      (enterRecovery s .start).modeView = { s.modeView with mode := .config, recovery := false, copyWrite := false } := by
  unfold enterRecovery
  dsimp only
  split
  · left
    rw [changeMode_view]
    rfl
  · right
    unfold recoveryFails
    dsimp only
    rw [endRecovery_view, endCopyWrite_view, recordIncident_view, changeMode_view]
    rfl

theorem selectCopies_core {s : State} {lines : List LineData} (h : CoreOf s) (hm : s.control.mode = .starting)
    (ho : s.port.op = none) : CoreOf (selectCopies s lines) := by
  have hreq : s.modeView.requester = none := by simp [State.modeView, ho]
  unfold selectCopies
  dsimp only
  generalize hw : learnProgress (learnLayout s.writer (copiesOf lines)) (copiesOf lines) = w
  have hcopy : w.copyWrite = s.writer.copyWrite ∧ w.format = s.writer.format := by
    rw [← hw]
    unfold learnProgress learnLayout
    split <;> split <;> exact ⟨rfl, rfl⟩
  have hview : ∀ rs : List Report, ∃ k,
      (rs.foldl recordIncident
        (((s.setStart { lines := [], waiting := false }).setWriter w).setLayout
          (w.storedImage.getD s.layout))).modeView = { s.modeView with knowsNothing := k } := by
    intro rs
    refine ⟨w.newestLayout.isNone && w.newestProgress.isNone && w.storedImage.isNone, ?_⟩
    rw [recordIncidents_view]
    simp [State.modeView, hcopy.1, hcopy.2]
  obtain ⟨k, hk⟩ := hview (startNotices w (copiesOf lines))
  have hstart := h.starting hm
  refine CoreOf.ite (fun _ => ?_) (fun _ => ?_)
  · unfold CoreOf
    rcases enterRecovery_view (List.foldl recordIncident
        (((s.setStart { lines := [], waiting := false }).setWriter w).setLayout (w.storedImage.getD s.layout))
        (startNotices w (copiesOf lines))) with e | e
    · erw [e, hk]
      exact ModeView.Core.fromStarting h hm hreq (Or.inl rfl) k true (fun _ => rfl)
    · erw [e, hk]
      have := ModeView.Core.fromStarting h hm hreq (m := .config) (Or.inr (Or.inr rfl)) k false (by simp)
      have hcw : s.modeView.copyWrite = false := hstart.2
      have hv : s.modeView = { s.modeView with copyWrite := false } := by rw [← hcw]
      rw [hv] at this
      exact this
  · unfold CoreOf
    erw [changeMode_view, hk]
    have hrecf : s.modeView.recovery = false := by
      cases hr : s.modeView.recovery with
      | false => rfl
      | true =>
        have := h.recovery hr
        simp [State.modeView, hm] at this
    have := ModeView.Core.fromStarting h hm hreq (m := .unformatted) (Or.inr (Or.inl rfl)) k false (by simp)
    rw [← hrecf] at this
    exact this

theorem startReadDone_core {s : State} {d : LineData} (h : CoreOf s) (ho : s.port.op = none) :
    CoreOf (startReadDone s d) := by
  unfold startReadDone
  split
  · rename_i hm
    dsimp only
    split
    · exact h.of_eq rfl
    · exact selectCopies_core h hm ho
  · exact h

theorem startReadFailed_core {s : State} {line : LineNo} {n : Nat} (h : CoreOf s) :
    CoreOf (startReadFailed s line n) :=
  CoreOf.ite (fun _ => (reportIncident_core h).of_eq rfl) (fun _ => reportIncident_core h)

/-- The start values hold the core (R120). -/
theorem startValues_core (pins : Pins) (mem : Memory) (session : Session) (free : Nat) (pending : List Instr) :
    CoreOf (State.startValues pins mem session free pending) where
  held e := by simp [State.startValues, State.modeView] at e
  heldWrite e := by simp [State.startValues, State.modeView] at e
  request e := by simp [State.startValues, State.modeView] at e
  work _ := ⟨rfl, rfl⟩
  recovery e := by simp [State.startValues, State.modeView] at e
  format e := by simp [State.startValues, State.modeView] at e
  target e := by simp [State.startValues, State.modeView] at e
  starting _ := ⟨rfl, rfl⟩
  op r e := by simp [State.startValues, State.modeView] at e
  sequence e := by simp [State.startValues, State.modeView] at e
  ended e := by simp [State.startValues, State.modeView] at e

theorem enterStarting_core (s : State) : CoreOf (enterStarting s) := by
  unfold enterStarting
  exact startOp_core (startValues_core _ _ _ _ _) (fun e => absurd e (by simp [State.startValues, State.modeView]))
    (by simp [State.startValues])

/-! ## Shutdown sequencer -/

/-- In SHUTDOWN nothing is held, requested, recovered, formatted or aimed at. -/
theorem ModeView.Core.quiet {v : ModeView} (h : v.Core) (hm : v.mode = .shutdown) :
    v.heldWrite = none ∧ v.request = false ∧ v.recovery = false ∧ v.format = false ∧ v.target = false := by
  refine ⟨?_, ?_, ?_, ?_, ?_⟩
  · cases hv : v.heldWrite with
    | none => rfl
    | some b =>
      have := h.held (by simp [hv])
      simp_all [ModeView.serves]
  · cases hv : v.request with
    | false => rfl
    | true =>
      have := (h.request hv).1
      simp_all [ModeView.serves]
  · cases hv : v.recovery with
    | false => rfl
    | true =>
      have := h.recovery hv
      simp_all
  · cases hv : v.format with
    | false => rfl
    | true =>
      have := (h.format hv).1
      simp_all [ModeView.writes]
  · cases hv : v.target with
    | false => rfl
    | true =>
      have := (h.target hv).1
      simp_all [ModeView.serves]

/-- With the port free, SHUTDOWN may move to any stage but DONE, PROGRESS only with a copy write in flight. -/
theorem ModeView.Core.shutdownStage {v : ModeView} (h : v.Core) (hm : v.mode = .shutdown) (ho : v.requester = none)
    (g : ShutdownStage) (c k : Bool) (hg : g ≠ .done) (hc : g = .progress → c = true) :
    ({ v with stage := g, copyWrite := c, knowsNothing := k } : ModeView).Core where
  held e := h.held e
  heldWrite e := h.heldWrite e
  request e := h.request e
  work e := h.work e
  recovery e := h.recovery e
  format e := h.format e
  target e := h.target e
  starting e := by simp_all
  op r e := by
    dsimp only at e
    rw [ho] at e
    exact absurd e (by simp)
  sequence _ := ⟨hg, hc⟩
  ended e := by simp_all

/-- The sequence ends from SHUTDOWN, whatever its stage and its copy write, with the port free. -/
theorem ModeView.Core.toEnded {v : ModeView} (h : v.Core) (hm : v.mode = .shutdown) (ho : v.requester = none)
    (c : Bool) : ({ v with mode := .ended, stage := .done, copyWrite := c } : ModeView).Core := by
  obtain ⟨h1, h2, h3, h4, h5⟩ := h.quiet hm
  exact
    { held := fun e => by simp_all
      heldWrite := fun e => by simp_all
      request := fun e => by simp_all
      work := fun e => by simp [ModeView.writes] at e
      recovery := fun e => by simp_all
      format := fun e => by simp_all
      target := fun e => by simp_all
      starting := fun e => by simp at e
      op := fun r e => by simp_all
      sequence := fun e => by simp at e
      ended := fun _ => ho }

theorem endShutdown_core {s : State} {v : ModeView} (h : v.Core) (hm : v.mode = .shutdown)
    (ho : v.requester = none) {g : ShutdownStage} {c k : Bool}
    (e : s.modeView = { v with stage := g, copyWrite := c, knowsNothing := k }) : CoreOf (endShutdown s) := by
  unfold endShutdown
  dsimp only
  refine CoreOf.ite (fun _ => enterStarting_core _) (fun _ => ?_)
  unfold CoreOf
  rw [changeMode_view]
  have hs : ((endWork s).setShutdown { s.shutdown with stage := .done }).modeView =
      { s.modeView with stage := .done, copyWrite := false } := rfl
  rw [hs, e]
  have hk := h.shutdownStage hm ho .finishing c k (by simp) (by simp)
  exact ModeView.Core.toEnded hk hm ho false

end Sys2Proof.Machine
end

