-- ==== Sys2Proof/Laws/ModePort.lean ====
section
/-! SUPPORT. `ModeView.Core` through the outcomes of array operations and the shutdown sequencer, and `ModesAgree` after
`settle`. -/

namespace Sys2Proof.Machine

/-! ## What an incident leaves of the view -/

/-- An incident and its reaction never touch the operation in flight, recovery, the copy write or the stage. -/
theorem reportIncident_keeps (s : State) (r : Report) :
    (reportIncident s r).modeView.requester = s.modeView.requester ∧
      (reportIncident s r).modeView.recovery = s.modeView.recovery := by
  unfold reportIncident carryOut
  split
  · simp
  · simp
  · split <;> simp
  · unfold haltReaction
    split
    · split
      · rw [abandonPath_view]
        simp
      · unfold enterHalted
        dsimp only
        rw [closeOpen_view, refuseHeldWrite_view, changeMode_view]
        exact ⟨rfl, rfl⟩
    · split
      · rw [abandonPath_view]
        simp
      · simp
    all_goals simp

/-! ## Outcomes that complete -/

theorem startRetiring_core {s : State} (h : CoreOf s) (hm : s.control.mode ≠ .starting)
    (hs : s.control.mode = .shutdown → s.shutdown.stage ≠ .progress) : CoreOf (startRetiring s) := by
  unfold startRetiring
  dsimp only
  have he : CoreOf (enterPhase s .retiring) := h.of_eq (enterPhase_view _ _)
  have e1 : (enterPhase s .retiring).control.mode = s.control.mode := congrArg ModeView.mode (enterPhase_view _ _)
  have e2 : (enterPhase s .retiring).shutdown.stage = s.shutdown.stage := congrArg ModeView.stage (enterPhase_view _ _)
  split
  · refine beginProgress_core he ?_ ?_
    · rw [e1]
      exact hm
    · rw [e1, e2]
      exact hs
  · exact he

theorem entryApplied_core {s : State} {k : Fin 32} (h : CoreOf s) (hm : s.control.mode ≠ .starting)
    (hs : s.control.mode = .shutdown → s.shutdown.stage ≠ .progress) : CoreOf (entryApplied s k) := by
  have he : CoreOf (setEntryState s k .applied) := h.of_eq (setEntryState_view _ _ _)
  unfold entryApplied
  dsimp only
  exact CoreOf.ite (fun _ => he.of_eq (setPosition_view _ _ _)) (fun _ => startRetiring_core he hm hs)

theorem retiringLineWritten_core {s : State} (h : CoreOf s) (hm : s.control.mode ≠ .starting)
    (hs : s.control.mode = .shutdown → s.shutdown.stage ≠ .progress) : CoreOf (retiringLineWritten s) := by
  have hc := copyLineWritten_core h hm hs
  unfold retiringLineWritten
  dsimp only
  split
  · exact hc.of_eq (setPosition_view _ _ _)
  · exact hc.calmer (retireGroup_calmer _)

/-- With the port free and STORE_LAYOUT in flight, or in SHUTDOWN, the long command may complete. -/
theorem ModeView.Core.completeCopy {v : ModeView} (h : v.Core) (ho : v.requester = none)
    (hm : v.mode = .shutdown ∨ (v.writes ∧ v.long = some .storeLayout)) :
    ({ v with long := none } : ModeView).Core := by
  have hq : v.request = false ∧ v.format = false ∧ v.target = false := by
    rcases hm with hm | ⟨hw, hl⟩
    · have := h.quiet hm
      exact ⟨this.2.1, this.2.2.2.1, this.2.2.2.2⟩
    · refine ⟨?_, ?_, ?_⟩
      · cases hv : v.request with
        | false => rfl
        | true =>
          have := (h.request hv).2
          simp_all
      · cases hv : v.format with
        | false => rfl
        | true =>
          have := (h.format hv).2
          simp_all
      · cases hv : v.target with
        | false => rfl
        | true =>
          have := (h.target hv).2
          simp_all
  exact h.complete hq.1 hq.2.1 hq.2.2 (fun r e => by simp_all)

theorem opFits_storeLine {v : ModeView} {n : Nat} (hf : v.opFits (.storeLayoutLine n)) :
    v.mode = .shutdown ∨ (v.writes ∧ v.long = some .storeLayout) := by
  simp only [ModeView.opFits] at hf
  tauto

theorem opFits_quietStage {v : ModeView} {n : Nat} (hf : v.opFits (.storeLayoutLine n)) :
    v.mode ≠ .starting ∧ (v.mode = .shutdown → v.stage ≠ .progress) := by
  simp only [ModeView.opFits, ModeView.writes] at hf
  rcases hf with ⟨h1, h2⟩ | ⟨h1 | h1, _⟩ <;> simp [h1]
  simp [h2]

theorem storeLineWritten_core {s : State} {n : Nat} (h : CoreOf s) (ho : s.port.op = none)
    (hf : s.modeView.opFits (.storeLayoutLine n)) : CoreOf (storeLineWritten s) := by
  unfold storeLineWritten
  split
  · exact h
  · dsimp only
    have hq := opFits_quietStage hf
    have hc := copyLineWritten_core h hq.1 hq.2
    refine CoreOf.ite (fun _ => ?_) (fun _ => hc)
    unfold CoreOf
    rw [completeLong_view]
    obtain ⟨k, c, e⟩ := copyLineWritten_view s
    unfold CoreOf at hc
    rw [e] at hc ⊢
    refine hc.completeCopy ?_ (opFits_storeLine (n := n) hf)
    simp [State.modeView, ho]

theorem formatComplete_core {s : State} {image : Layout} (h : CoreOf s) (ho : s.port.op = none)
    (hw : s.modeView.writes) : CoreOf (formatComplete s image) := by
  have hv : (formatComplete s image).modeView =
      { s.modeView with mode := .config, long := none, format := false, knowsNothing := false } := by
    unfold formatComplete
    dsimp only
    rw [completeLong_view, changeMode_view]
    simp [State.modeView]
  unfold CoreOf
  rw [hv]
  have hwork := h.work (Or.inr (Or.inr hw))
  have hs : ¬s.modeView.serves := by
    rcases hw with e | e <;> simp [ModeView.serves, e]
  exact
    { held := fun e => absurd (h.held e) hs
      heldWrite := fun e => absurd (h.held (by rw [e]; rfl)) hs
      request := fun e => absurd (h.request e).1 hs
      work := fun _ => hwork
      recovery := fun e => by
        have := h.recovery e
        rcases hw with e | e <;> simp_all
      format := fun e => by simp at e
      target := fun e => absurd (h.target e).1 hs
      starting := fun e => by simp at e
      op := fun r e => by simp [State.modeView, ho] at e
      sequence := fun e => by simp at e
      ended := fun e => by simp at e }

theorem opFits_formatLine {v : ModeView} {n : Nat} (h : v.Core) (hf : v.opFits (.formatLine n))
    (hv : v.format = true) : v.writes ∧ v.long = some .format := by
  simp only [ModeView.opFits] at hf
  rcases hf with ⟨h1, _⟩ | h1
  · have := (h.quiet h1).2.2.2.1
    simp_all
  · exact h1

theorem formatLineWritten_core {s : State} {n : Nat} (h : CoreOf s) (ho : s.port.op = none)
    (hf : s.modeView.opFits (.formatLine n)) : CoreOf (formatLineWritten s) := by
  unfold formatLineWritten
  split
  · exact h
  · rename_i f hfm
    have hv : s.modeView.format = true := by simp [State.modeView, hfm]
    refine CoreOf.ite (fun _ => h.of_eq ?_) (fun _ => formatComplete_core h ho (opFits_formatLine h hf hv).1)
    simp [State.modeView, hfm]

theorem finalLineWritten_core {s : State} (h : CoreOf s) (ho : s.port.op = none)
    (hm : s.control.mode = .shutdown) : CoreOf (finalLineWritten s) := by
  obtain ⟨k, c, e⟩ := copyLineWritten_view s
  have hreq : s.modeView.requester = none := by simp [State.modeView, ho]
  unfold finalLineWritten
  dsimp only
  refine CoreOf.ite (fun hc => ?_) (fun _ => ?_)
  · have hct : c = true := by
      have := congrArg ModeView.copyWrite e
      simpa [State.modeView, hc] using this.symm
    unfold CoreOf
    rw [e]
    have := ModeView.Core.shutdownStage h hm hreq s.modeView.stage c k (h.sequence hm).1 (fun _ => hct)
    exact this
  · exact endShutdown_core (g := s.modeView.stage) (c := c) (k := k) h hm hreq e

theorem opCompleted_core {s : State} {op : ArrayOp} {d : LineData} (h : CoreOf s) (ho : s.port.op = none)
    (hf : s.modeView.opFits op.requester) : CoreOf (opCompleted s op d) := by
  have later : s.modeView.mode ≠ .starting ∧ (s.modeView.mode = .shutdown → s.modeView.stage = .finishing) →
      s.control.mode ≠ .starting ∧ (s.control.mode = .shutdown → s.shutdown.stage ≠ .progress) := by
    intro hr
    refine ⟨hr.1, fun hm hp => ?_⟩
    have := hr.2 hm
    rw [show s.modeView.stage = s.shutdown.stage from rfl, hp] at this
    exact absurd this (by simp)
  unfold opCompleted
  split <;> rename_i hr <;> rw [hr] at hf
  · unfold readCompleted
    split
    · exact finishAccess_core h
    · exact h
  · unfold throughCompleted
    split
    · exact finishWrite_core h
    · exact h
  · exact h.calmer (removeDrained_calmer _ _ _)
  · exact h.calmer (removeDrained_calmer _ _ _)
  · exact h.of_eq (recordLineWritten_view _)
  · exact h.of_eq (recordLineWritten_view _)
  · obtain ⟨h1, h2⟩ := later hf
    exact entryApplied_core h h1 h2
  · obtain ⟨h1, h2⟩ := later hf
    exact retiringLineWritten_core h h1 h2
  · exact storeLineWritten_core h ho hf
  · exact formatLineWritten_core h ho hf
  · exact startReadDone_core h ho
  · exact scanLineRead_core h
  · exact replayWritten_core h
  · obtain ⟨h1, h2⟩ := later hf
    exact recoveryLineWritten_core h h1 h2
  · exact finalLineWritten_core h ho hf.1

/-! ## Outcomes that fail -/

theorem endCopyWrite_core {s : State} (h : CoreOf s) (hm : s.control.mode ≠ .starting)
    (hs : s.control.mode = .shutdown → s.shutdown.stage ≠ .progress) : CoreOf (endCopyWrite s) :=
  ModeView.Core.copies h hm hs s.modeView.knowsNothing false

theorem stallGroup_core {s : State} (h : CoreOf s) (hm : s.control.mode ≠ .starting)
    (hs : s.control.mode ≠ .shutdown) : CoreOf (stallGroup s) := by
  unfold stallGroup
  split
  · exact h
  · dsimp only
    rename_i p _
    have he : (((changeCommitGroup s (fun g => { g with state := .stalled p })).setEngine
        { (changeCommitGroup s (fun g => { g with state := .stalled p })).engine with phase := none })).modeView =
        s.modeView := by
      rw [setEngine_view, changeCommitGroup_view]
    have h1 := congrArg ModeView.mode he
    refine endCopyWrite_core (h.of_eq he) ?_ ?_
    · intro e
      exact hm (h1.symm.trans e)
    · intro e
      exact absurd (h1.symm.trans e) hs

theorem commitFailed_core {s : State} {r : Report} (h : CoreOf s) (hm : s.control.mode ≠ .starting) :
    CoreOf (commitFailed s r) :=
  CoreOf.ite (fun _ => reportIncident_core h) (fun hs => reportIncident_core (stallGroup_core h hm hs))

theorem storeLineFailed_core {s : State} {r : Report} {n : Nat} (h : CoreOf s) (ho : s.port.op = none)
    (hf : s.modeView.opFits (.storeLayoutLine n)) : CoreOf (storeLineFailed s r) := by
  unfold storeLineFailed
  split
  · exact reportIncident_core h
  · have hq := opFits_quietStage hf
    have hc := endCopyWrite_core h hq.1 hq.2
    have hserve : serving (endCopyWrite s) = false := by
      have hm := opFits_storeLine hf
      simp only [ModeView.writes] at hm
      have : (endCopyWrite s).control.mode = s.control.mode := rfl
      simp only [serving, this]
      have e : s.modeView.mode = s.control.mode := rfl
      rw [← e]
      rcases hm with e | ⟨e | e, _⟩ <;> simp [e]
    unfold CoreOf
    rw [completeLong_view, reportIncident_view hserve]
    refine ModeView.Core.completeCopy hc ?_ (opFits_storeLine (v := s.modeView) (n := n) hf)
    simp [State.modeView, endCopyWrite, ho]

theorem formatLineFailed_core {s : State} {r : Report} {n : Nat} (h : CoreOf s) (ho : s.port.op = none)
    (hf : s.modeView.opFits (.formatLine n)) : CoreOf (formatLineFailed s r) := by
  unfold formatLineFailed
  split
  · exact reportIncident_core h
  · rename_i f hfm
    have hw := opFits_formatLine h hf (by simp [State.modeView, hfm])
    have hserve : serving (s.setWriter { s.writer with format := none }) = false := by
      have e : (s.setWriter { s.writer with format := none }).control.mode = s.modeView.mode := rfl
      simp only [serving, e]
      rcases hw.1 with e | e <;> simp [e]
    unfold CoreOf
    rw [completeLong_view, reportIncident_view hserve]
    have hs : ¬s.modeView.serves := by
      rcases hw.1 with e | e <;> simp [ModeView.serves, e]
    have hwork := h.work (Or.inr (Or.inr hw.1))
    exact
      { held := fun e => absurd (h.held e) hs
        heldWrite := fun e => absurd (h.held (by rw [show s.modeView.heldWrite = some true from e]; rfl)) hs
        request := fun e => absurd (h.request e).1 hs
        work := fun _ => hwork
        recovery := fun e => h.recovery e
        format := fun e => by simp [State.modeView] at e
        target := fun e => absurd (h.target e).1 hs
        starting := fun e => h.starting e
        op := fun r e => by simp [State.modeView, ho] at e
        sequence := fun e => h.sequence e
        ended := fun e => h.ended e }

/-- The final progress copy of SHUTDOWN alone is left out: its failure ends the sequence. -/
theorem opFailed_core {s : State} {op : ArrayOp} {f : Failure} (h : CoreOf s) (ho : s.port.op = none)
    (hf : s.modeView.opFits op.requester) (hp : ∀ n, op.requester ≠ .shutdownProgress n) :
    CoreOf (opFailed s op f) := by
  unfold opFailed
  split <;> rename_i hr <;> rw [hr] at hf
  · exact CoreOf.ite (fun _ => reportIncident_core (finishAccess_core h)) (fun _ => h)
  · exact reportIncident_core (CoreOf.ite (fun _ => finishAccess_core h) (fun _ => h))
  · exact reportIncident_core (h.calmer (removeDrained_calmer _ _ _))
  · exact reportIncident_core (h.calmer (removeDrained_calmer _ _ _))
  · exact commitFailed_core h hf.1
  · unfold inPlaceFailed
    exact commitFailed_core (h.of_eq (setEntryState_view _ _ _)) hf.1
  · exact commitFailed_core (endCopyWrite_core h hf.1 (fun e p => by
      have := hf.2 e
      simp [State.modeView, p] at this)) hf.1
  · exact storeLineFailed_core h ho hf
  · exact formatLineFailed_core h ho hf
  · exact startReadFailed_core h
  · exact recoveryOpFailed_core h ho
  · exact recoveryOpFailed_core h ho
  · exact recoveryOpFailed_core h ho
  · exact reportIncident_core h
  · exact absurd hr (hp _)

end Sys2Proof.Machine
end

