-- ==== Sys2Proof/Laws/ModeSettle.lean ====
section
/-! SUPPORT. What drives the free port keeps `ModeView.Core`, and `settle` leaves `ModesAgree`. -/

namespace Sys2Proof.Machine

/-! ## The operations that each owner of the port starts -/

theorem recordOp_requester {s : State} {r : Requester} {v : Bool} {op : ArrayOp} (h : recordOp s r v = some op) :
    op.requester = r := by
  unfold recordOp at h
  split at h
  · simp at h
  · dsimp only at h
    split at h
    · rw [Option.map_eq_some_iff] at h
      obtain ⟨e, _, rfl⟩ := h
      rfl
    · rw [Option.some.injEq] at h
      rw [← h]
      rfl
    all_goals simp at h

theorem copyOp_requester {s : State} {r : Nat → Requester} {v : Bool} {op : ArrayOp} (h : copyOp s r v = some op) :
    ∃ n, op.requester = r n := by
  unfold copyOp at h
  rw [Option.map_eq_some_iff] at h
  obtain ⟨c, _, rfl⟩ := h
  exact ⟨_, rfl⟩

/-! ## The shutdown sequencer drives the port -/

/-- The core, and in SHUTDOWN an operation in flight. -/
structure Driven (s : State) : Prop where
  core : CoreOf s
  busy : s.control.mode = .shutdown → s.port.op.isSome = true

theorem startOp_busy (s : State) (op : ArrayOp) : (startOp s op).port.op.isSome = true := by
  have := congrArg ModeView.requester (startOp_view s op)
  simp only [State.modeView] at this
  cases h : (startOp s op).port.op with
  | none => simp [h] at this
  | some _ => rfl

theorem startOp_driven {s : State} {op : ArrayOp} (h : CoreOf s) (hf : s.modeView.opFits op.requester)
    (he : s.control.mode ≠ .ended) : Driven (startOp s op) :=
  ⟨startOp_core h hf he, fun _ => startOp_busy s op⟩

theorem Driven.idle {s : State} (h : CoreOf s) (hm : s.control.mode ≠ .shutdown) : Driven s :=
  ⟨h, fun e => absurd e hm⟩

theorem Driven.ite {c : Prop} [Decidable c] {s t : State} (hs : c → Driven s) (ht : ¬c → Driven t) :
    Driven (if c then s else t) := by
  split
  · exact hs ‹_›
  · exact ht ‹_›

theorem changeMode_mode (s : State) (m : Mode) : (changeMode s m).control.mode = m :=
  congrArg ModeView.mode (changeMode_view s m)

theorem startOp_mode (s : State) (op : ArrayOp) : (startOp s op).control.mode = s.control.mode :=
  congrArg ModeView.mode (startOp_view s op)

theorem endShutdown_mode (s : State) : (endShutdown s).control.mode = .starting ∨ (endShutdown s).control.mode = .ended := by
  unfold endShutdown
  dsimp only
  split
  · left
    unfold enterStarting
    dsimp only
    rw [startOp_mode]
    rfl
  · right
    rw [changeMode_mode]

/-- In SHUTDOWN with the port free. -/
structure AtRest (s : State) : Prop where
  core : CoreOf s
  mode : s.control.mode = .shutdown
  free : s.port.op = none

theorem AtRest.requester {s : State} (h : AtRest s) : s.modeView.requester = none := by
  simp [State.modeView, h.free]

theorem AtRest.of_view {s t : State} (h : AtRest s) (c : CoreOf t) (hm : t.modeView.mode = s.modeView.mode)
    (hr : t.modeView.requester = none) : AtRest t :=
  ⟨c, hm.trans h.mode, by simpa [State.modeView] using hr⟩

theorem AtRest.calmer {s t : State} (h : AtRest s) (c : Calmer s.modeView t.modeView) : AtRest t := by
  refine h.of_view (h.core.calmer c) c.mode ?_
  rcases c.requester with e | e
  · exact e
  · rw [e, h.requester]

/-- A change of the stage, of the copy write and of the writer's knowledge. -/
theorem AtRest.stage {s t : State} (h : AtRest s) {g : ShutdownStage} {c k : Bool}
    (e : t.modeView = { s.modeView with stage := g, copyWrite := c, knowsNothing := k }) (hg : g ≠ .done)
    (hc : g = .progress → c = true) : AtRest t := by
  refine h.of_view ?_ ?_ ?_
  · unfold CoreOf
    rw [e]
    exact ModeView.Core.shutdownStage h.core h.mode h.requester g c k hg hc
  · rw [e]
  · rw [e]
    exact h.requester

/-- What the sequencer leaves: the core, an operation in flight where the part is still in SHUTDOWN, no request. -/
structure Onward (s : State) : Prop extends Driven s where
  request : s.control.configRequest = false

theorem Onward.ite {c : Prop} [Decidable c] {s t : State} (hs : c → Onward s) (ht : ¬c → Onward t) :
    Onward (if c then s else t) := by
  split
  · exact hs ‹_›
  · exact ht ‹_›

theorem startOp_onward {s : State} {op : ArrayOp} (h : AtRest s) (hf : s.modeView.opFits op.requester) :
    Onward (startOp s op) := by
  refine ⟨startOp_driven h.core hf (by simp [h.mode]), ?_⟩
  exact (congrArg ModeView.request (startOp_view s op)).trans (h.core.quiet h.mode).2.1

theorem enterStarting_request (s : State) : (enterStarting s).control.configRequest = false := by
  unfold enterStarting
  dsimp only
  exact (congrArg ModeView.request (startOp_view _ _)).trans rfl

theorem endShutdown_onward {s : State} (h : AtRest s) : Onward (endShutdown s) := by
  refine ⟨⟨?_, fun e => ?_⟩, ?_⟩
  · exact endShutdown_core (g := s.modeView.stage) (c := s.modeView.copyWrite) (k := s.modeView.knowsNothing) h.core
      h.mode h.requester rfl
  · rcases endShutdown_mode s with m | m <;> simp [m] at e
  · unfold endShutdown
    dsimp only
    split
    · exact enterStarting_request _
    · exact (congrArg ModeView.request (changeMode_view _ _)).trans (h.core.quiet h.mode).2.1

theorem finalProgressLine_onward {s : State} (h : AtRest s) (hg : s.shutdown.stage = .progress) :
    Onward (finalProgressLine s) := by
  unfold finalProgressLine
  split
  · rename_i op ho
    obtain ⟨n, e⟩ := copyOp_requester ho
    refine startOp_onward h ?_
    rw [e]
    exact ⟨h.mode, hg⟩
  · rename_i ho
    have := (h.core.sequence h.mode).2 hg
    unfold copyOp at ho
    simp only [State.modeView] at this
    rw [Option.map_eq_none_iff] at ho
    simp [ho] at this

theorem startFinalProgress_onward {s : State} (h : AtRest s) : Onward (startFinalProgress s) := by
  unfold startFinalProgress
  dsimp only
  refine finalProgressLine_onward (h.stage (g := .progress) (c := true) (k := s.modeView.knowsNothing) ?_ (by simp)
    (fun _ => rfl)) rfl
  rw [beginProgress_view, setStage_view]

theorem setShutdown_view {s : State} {d : ShutdownSequencer} (h : d.stage = s.shutdown.stage) :
    (s.setShutdown d).modeView = s.modeView := by
  simp [State.modeView, h]

theorem abandonPosted_calmer (s : State) : Calmer s.modeView (abandonPosted s).modeView := by
  unfold abandonPosted
  dsimp only
  exact Calmer.trans (freeEntries_calmer s (fun e => e.group.isNone)) (Calmer.of_eq (setShutdown_view rfl))

theorem drainStage_onward {s : State} (h : AtRest s) : Onward (drainStage s) := by
  have hd : AtRest (setStage s .drain) :=
    h.stage (g := .drain) (c := s.modeView.copyWrite) (k := s.modeView.knowsNothing) (by rw [setStage_view])
      (by simp) (by simp)
  unfold drainStage
  dsimp only
  split
  · refine startOp_onward hd ?_
    exact ⟨h.mode, Or.inr rfl⟩
  · exact startFinalProgress_onward (hd.calmer (abandonPosted_calmer _))

theorem continueGroup_onward {s : State} (h : AtRest s) (hg : s.shutdown.stage = .group) :
    Onward (continueGroup s) := by
  unfold continueGroup
  split
  · rename_i op ho
    refine startOp_onward h ?_
    rw [recordOp_requester ho]
    exact ⟨h.mode, Or.inl hg⟩
  · exact drainStage_onward h

theorem planGroups_rest {s : State} (h : AtRest s) : AtRest (planGroups s) ∧ (planGroups s).shutdown.stage = .group := by
  refine ⟨?_, rfl⟩
  unfold planGroups
  dsimp only
  generalize s.groups.table.filter (groupAbandoned s) = lost
  have h1 := h.calmer (dropGroups_calmer s (fun g => !groupAbandoned s g) none (Or.inl rfl))
  have h2 := h1.calmer (freeEntries_calmer _ (fun e => lost.any (fun g => e.group == some g.sequence)))
  generalize freeEntries _ (fun e => lost.any (fun g => e.group == some g.sequence)) = t at h2 ⊢
  have h3 : AtRest (if (lost.any (fun g => some g.sequence == s.engine.inCommit)) = true then releaseEngine t else t) := by
    split
    · exact h2.calmer (Calmer.of_eq (releaseEngine_view _))
    · exact h2
  refine h3.stage (g := .group) (c := _) (k := _) rfl (by simp) (by simp)

theorem afterFinishing_onward {s : State} (h : AtRest s) (hg : s.shutdown.stage = .finishing) :
    Onward (afterFinishing s) := by
  have he : AtRest (endCopyWrite s) :=
    h.stage (g := s.modeView.stage) (c := false) (k := s.modeView.knowsNothing) rfl
      (by rw [show s.modeView.stage = .finishing from hg]; simp)
      (fun e => by
        rw [show s.modeView.stage = .finishing from hg] at e
        simp at e)
  unfold afterFinishing
  dsimp only
  split
  · exact endShutdown_onward he
  · exact Onward.ite (fun _ => endShutdown_onward he) (fun _ => startFinalProgress_onward he)
  · have hp := planGroups_rest he
    exact Onward.ite (fun _ => continueGroup_onward hp.1 hp.2) (fun _ => drainStage_onward hp.1)

theorem advanceShutdown_onward {s : State} (h : AtRest s) : Onward (advanceShutdown s) := by
  unfold advanceShutdown
  split
  · exact afterFinishing_onward h ‹_›
  · exact continueGroup_onward h ‹_›
  · exact drainStage_onward h
  · exact finalProgressLine_onward h ‹_›
  · rename_i hg
    exact absurd hg (h.core.sequence h.mode).1

/-! ## The arbiter -/

theorem serves_fits {v : ModeView} (hs : v.serves) :
    v.mode ≠ .starting ∧ (v.mode = .shutdown → v.stage = .finishing) := by
  rcases hs with e | e <;> simp [e]

theorem engineOp_fits {s : State} {op : ArrayOp} (hs : s.modeView.serves) (ho : engineOp s = some op) :
    s.modeView.opFits op.requester := by
  have hf := serves_fits hs
  unfold engineOp at ho
  split at ho
  · rw [recordOp_requester ho]
    exact hf
  · rw [recordOp_requester ho]
    exact hf
  · rw [Option.bind_eq_some_iff] at ho
    obtain ⟨q, _, ho⟩ := ho
    rw [Option.map_eq_some_iff] at ho
    obtain ⟨e, _, rfl⟩ := ho
    exact hf
  · obtain ⟨_, e⟩ := copyOp_requester ho
    rw [e]
    exact hf
  · simp at ho

theorem controllerOp_fits {s : State} {op : ArrayOp} (h : CoreOf s) (ho : controllerOp s = some op) :
    s.modeView.opFits op.requester ∧ s.modeView.serves := by
  unfold controllerOp at ho
  split at ho
  · simp at ho
  · rename_i x hx
    have hs : s.modeView.serves := h.held (by simp [State.modeView, hx])
    refine ⟨?_, hs⟩
    have hf := serves_fits hs
    split at ho
    · split at ho
      · rw [Option.some.injEq] at ho
        rw [← ho]
        exact hf
      · rw [Option.some.injEq] at ho
        rw [← ho]
        exact hf
    · simp at ho

theorem writerOp_fits {s : State} {op : ArrayOp} (h : CoreOf s) (hw : writerWorks s = true)
    (ho : writerOp s = some op) : s.modeView.opFits op.requester := by
  have hw' : s.modeView.writes := by
    simpa [writerWorks, ModeView.writes, State.modeView] using hw
  unfold writerOp at ho
  split at ho
  · rename_i f hf
    rw [Option.some.injEq] at ho
    rw [← ho]
    exact Or.inr (h.format (by simp [State.modeView, hf]))
  · split at ho
    · rename_i hl
      obtain ⟨_, e⟩ := copyOp_requester ho
      rw [e]
      exact Or.inr ⟨hw', hl⟩
    · simp at ho

theorem serving_serves {s : State} (h : serving s = true) : s.modeView.serves := by
  simpa [serving, ModeView.serves, State.modeView] using h

theorem arbiterChoice_fits {s : State} {op : ArrayOp} (h : CoreOf s)
    (ho : arbiterChoice s.port.passOver (freeSlotCount s.queue) (requestsOf s) = some op) :
    s.modeView.opFits op.requester ∧ s.control.mode ≠ .ended := by
  have serve : s.modeView.serves → s.control.mode ≠ .ended := by
    intro hs
    have e : s.modeView.mode = s.control.mode := rfl
    rw [← e]
    rcases hs with e | e <;> simp [e]
  have hm := arbiterChoice_mem ho
  unfold requestsOf at hm
  dsimp only at hm
  rcases hm with hm | hm | hm | hm
  · have := controllerOp_fits h hm
    exact ⟨this.1, serve this.2⟩
  · split at hm
    · rename_i hs
      have hs := serving_serves hs
      unfold drainOp at hm
      rw [Option.map_eq_some_iff] at hm
      obtain ⟨e, _, rfl⟩ := hm
      exact ⟨serves_fits hs, serve hs⟩
    · simp at hm
  · split at hm
    · rename_i hs
      have hs := serving_serves hs
      exact ⟨engineOp_fits hs hm, serve hs⟩
    · simp at hm
  · split at hm
    · rename_i hw
      refine ⟨writerOp_fits h hw hm, ?_⟩
      intro e
      simp [writerWorks, e] at hw
    · simp at hm

theorem recoveryOp_fits {s : State} {r : Recovery} {op : ArrayOp} (hm : s.control.mode = .recovering)
    (ho : recoveryOp s r = some op) : s.modeView.opFits op.requester := by
  have hf : s.modeView.mode ≠ .starting ∧ (s.modeView.mode = .shutdown → s.modeView.stage = .finishing) := by
    have e : s.modeView.mode = .recovering := hm
    simp [e]
  unfold recoveryOp at ho
  split at ho
  · rw [Option.some.injEq] at ho
    rw [← ho]
    exact hf
  · rw [Option.map_eq_some_iff] at ho
    obtain ⟨e, _, rfl⟩ := ho
    exact hf
  · obtain ⟨_, e⟩ := copyOp_requester ho
    rw [e]
    exact hf
  · obtain ⟨_, e⟩ := copyOp_requester ho
    rw [e]
    exact hf

/-! ## `settle` -/

theorem arbitrate_driven {s : State} (h : CoreOf s) (hm : s.control.mode ≠ .shutdown) : Driven (arbitrate s) := by
  unfold arbitrate
  dsimp only
  split
  · exact Driven.idle h hm
  · rename_i op ho
    have hf := arbiterChoice_fits h ho
    exact startOp_driven (s := s.setPort _) (h.of_eq rfl) hf.1 hf.2

theorem drivePort_driven {s : State} (h : CoreOf s) : Driven (drivePort s) := by
  unfold drivePort
  split
  · rename_i op ho
    exact ⟨h, fun _ => by simp [ho]⟩
  · rename_i ho
    split
    · rename_i hm
      refine Driven.ite (fun _ => Driven.idle h (by simp [hm])) (fun _ => startOp_driven h ?_ (by simp [hm]))
      intro e
      exact absurd (hm.symm.trans e) (by simp)
    · rename_i hm
      split
      · rename_i op hop
        rw [Option.bind_eq_some_iff] at hop
        obtain ⟨r, _, hop⟩ := hop
        exact startOp_driven h (recoveryOp_fits hm hop) (by simp [hm])
      · exact Driven.idle h (by simp [hm])
    · rename_i hm
      exact Driven.ite (fun _ => Driven.idle h (by simp [hm])) (fun _ => arbitrate_driven h (by simp [hm]))
    · rename_i hm
      exact Driven.ite (fun _ => Driven.idle h (by simp [hm])) (fun _ => arbitrate_driven h (by simp [hm]))
    · rename_i hm
      exact Driven.ite (fun _ => Driven.idle h (by simp [hm])) (fun _ => arbitrate_driven h (by simp [hm]))
    · rename_i hm
      exact Driven.ite (fun _ => Driven.idle h (by simp [hm])) (fun _ => arbitrate_driven h (by simp [hm]))
    · rename_i hm
      exact (advanceShutdown_onward ⟨h, hm, ho⟩).toDriven
    · rename_i hm
      exact Driven.idle h (by simp [hm])

theorem flushCheck_core {s : State} (h : CoreOf s) : CoreOf (flushCheck s) := by
  refine CoreOf.ite (fun hc => ?_) (fun _ => h)
  obtain ⟨hs, hl, _, ht⟩ := hc
  have hs := serving_serves hs
  unfold CoreOf
  rw [completeLong_view]
  refine h.complete ?_ ?_ ?_ ?_
  · cases hv : s.modeView.request with
    | false => rfl
    | true =>
      have := (h.request hv).2
      simp [State.modeView, hl] at this
  · cases hv : s.modeView.format with
    | false => rfl
    | true =>
      have := (h.format hv).2
      simp [State.modeView, hl] at this
  · simp [State.modeView, ht]
  · intro r _ hw
    rcases hs with e | e <;> simp [ModeView.writes, e] at hw

/-- With no handover left unfinished. -/
theorem handoverCheck_core {s : State} (h : CoreOf s) :
    CoreOf (handoverCheck s) ∧
      ((handoverCheck s).control.configRequest = true →
        (handoverCheck s).groups.table ≠ [] ∨ (handoverCheck s).queue.entries ≠ []) := by
  unfold handoverCheck
  split
  · rename_i hc
    obtain ⟨hs, hr, hg, he⟩ := hc
    refine ⟨?_, fun e => ?_⟩
    · unfold CoreOf
      rw [enterConfig_view]
      refine h.toConfig (serving_serves hs) ?_ ?_ ?_
      · cases hv : s.modeView.target with
        | false => rfl
        | true =>
          have h1 := (h.target hv).2
          have h2 := (h.request hr).2
          rw [h1] at h2
          simp at h2
      · simp [State.modeView, hg]
      · simp [State.modeView, he]
    · have := congrArg ModeView.request (enterConfig_view s (if s.control.handoverLoss = true then .doneWithLoss else .done))
      exact absurd (this.symm.trans e) (by simp)
  · rename_i hc
    refine ⟨h, fun e => ?_⟩
    by_contra hn
    have hs : serving s = true := by
      have := (h.request e).1
      simpa [serving, ModeView.serves, State.modeView] using this
    simp only [not_or, not_not] at hn
    exact hc ⟨hs, e, hn.1, hn.2⟩

/-- What drives the port leaves a handover as it is. -/
theorem drivePort_handover {s : State} (hs : s.modeView.serves) :
    ∃ r, (drivePort s).modeView = { s.modeView with requester := r } := by
  have hm : s.control.mode = .run ∨ s.control.mode = .halted := hs
  have ha : ∃ r, (arbitrate s).modeView = { s.modeView with requester := r } := by
    unfold arbitrate
    dsimp only
    split
    · exact ⟨_, rfl⟩
    · rw [startOp_view]
      exact ⟨_, rfl⟩
  unfold drivePort
  split
  · exact ⟨_, rfl⟩
  · rcases hm with e | e <;> rw [e] <;> dsimp only <;> split <;> first | exact ⟨_, rfl⟩ | exact ha

/-- The handover's condition in the view. -/
theorem handover_view {s : State} :
    (s.groups.table ≠ [] ∨ s.queue.entries ≠ []) ↔ (s.modeView.noGroups = false ∨ s.modeView.noEntries = false) := by
  simp [State.modeView]

/-- Outside RUN and HALTED no request is pending after the port is driven. -/
theorem drivePort_request {s : State} (h : CoreOf s) (hs : ¬s.modeView.serves) :
    (drivePort s).control.configRequest = false := by
  have hr : s.control.configRequest = false := by
    cases hv : s.control.configRequest with
    | false => rfl
    | true => exact absurd (h.request hv).1 hs
  have hstart : ∀ op, (startOp s op).control.configRequest = false := fun op =>
    (congrArg ModeView.request (startOp_view s op)).trans hr
  have ha : (arbitrate s).control.configRequest = false := by
    unfold arbitrate
    dsimp only
    split
    · exact hr
    · exact (congrArg ModeView.request (startOp_view _ _)).trans hr
  have hi : (if readDue s = true then s else arbitrate s).control.configRequest = false := by
    split
    · exact hr
    · exact ha
  unfold drivePort
  split
  · exact hr
  · rename_i ho
    split
    · split
      · exact hr
      · exact hstart _
    · split
      · exact hstart _
      · exact hr
    · exact hi
    · exact hi
    · exact hi
    · exact hi
    · exact (advanceShutdown_onward ⟨h, ‹_›, ho⟩).request
    · exact hr

theorem settle_agree {s : State} (h : CoreOf s) : ModesAgree (settle s) := by
  unfold settle
  have h1 := flushCheck_core (h.of_eq (takeNextGroup_view s))
  obtain ⟨h2, hh⟩ := handoverCheck_core h1
  generalize handoverCheck (flushCheck (takeNextGroup s)) = t at h2 hh ⊢
  have h3 : CoreOf (clearPassOver t) := h2.of_eq (clearPassOver_view t)
  have hv := clearPassOver_view t
  generalize clearPassOver t = u at h3 hv ⊢
  have hd := drivePort_driven h3
  refine ⟨hd.core, fun e => ?_, hd.busy⟩
  rw [handover_view]
  by_cases hs : u.modeView.serves
  · obtain ⟨r, er⟩ := drivePort_handover hs
    have hreq : t.control.configRequest = true := by
      have := congrArg ModeView.request er
      rw [hv] at this
      exact this.symm.trans e
    have := hh hreq
    rw [handover_view] at this
    rw [er, hv]
    exact this
  · exfalso
    have hreq := (drivePort_request h3 hs).symm.trans e
    exact absurd hreq (by simp)

end Sys2Proof.Machine
end

