-- ==== Sys2Proof/Laws/ModeCommands.lean ====
section
/-! SUPPORT. Every command's operation keeps `ModesAgree`: array steps, supply lines, the bus, the management port. -/

namespace Sys2Proof.Machine

/-! ## By the view -/

theorem ModesAgree.of_view {s t : State} (h : ModesAgree s) (e : t.modeView = s.modeView) : ModesAgree t := by
  refine ⟨h.core.calmer (Calmer.of_eq e), fun hr => ?_, fun hm => ?_⟩
  · rw [handover_view, e, ← handover_view]
    exact h.handover ((congrArg ModeView.request e).symm.trans hr)
  · have h1 := h.busy ((congrArg ModeView.mode e).symm.trans hm)
    have h2 := congrArg ModeView.requester e
    simp only [State.modeView] at h2
    cases ht : t.port.op with
    | some _ => rfl
    | none =>
      rw [ht] at h2
      cases hs : s.port.op with
      | none => simp [hs] at h1
      | some _ => simp [hs] at h2

theorem ModesAgree.ite {c : Prop} [Decidable c] {s t : State} (hs : c → ModesAgree s) (ht : ¬c → ModesAgree t) :
    ModesAgree (if c then s else t) := by
  split
  · exact hs ‹_›
  · exact ht ‹_›

/-! ## Array steps -/

/-- An operation stays in flight with its requester. -/
theorem beginStep_agree {s : State} {op op' : ArrayOp} (h : ModesAgree s) (ho : s.port.op = some op)
    (hr : op'.requester = op.requester) : ModesAgree (beginStep s op') := by
  refine h.of_view ?_
  rw [beginStep_view, hr]
  simp [State.modeView, ho]

theorem freePort_core {s : State} (h : CoreOf s) : CoreOf (freePort s) :=
  h.calmer (freePort_calmer s)

theorem opOf_fits {s : State} {op : ArrayOp} (h : CoreOf s) (ho : s.port.op = some op) :
    (freePort s).modeView.opFits op.requester :=
  (ModeView.opFits_congr (v := s.modeView) rfl rfl rfl _).mpr (h.op _ (by simp [State.modeView, ho]))

theorem completedAlone_core {s : State} {op : ArrayOp} {d : LineData} (h : CoreOf s) (ho : s.port.op = some op) :
    CoreOf (opCompleted (freePort s) op d) :=
  opCompleted_core (freePort_core h) rfl (opOf_fits h ho)

theorem spoilCopy_op (s : State) (op : ArrayOp) (took : LineData) : (spoilCopy s op took).port.op = s.port.op := by
  unfold spoilCopy
  split <;> rfl

/-- The outcome of a step before `settle`: the core, or the operation goes on. -/
theorem compareReadBack_settled {s : State} {op : ArrayOp} {line took : LineData} (h : CoreOf s)
    (ho : s.port.op = some op) (hm : s.control.mode ≠ .shutdown) : CoreOf (compareReadBack s op line took) := by
  unfold compareReadBack
  split
  · exact completedAlone_core h ho
  · split
    · refine h.of_eq ?_
      rw [beginStep_view]
      simp [State.modeView, ho]
    · have hs : CoreOf (spoilCopy s op took) := CoreOf.of_eq h (spoilCopy_view _ _ _)
      refine opFailed_core (freePort_core hs) rfl (opOf_fits hs ((spoilCopy_op _ _ _).trans ho)) (fun n e => ?_)
      have := opOf_fits h ho
      rw [e] at this
      exact hm this.1

theorem stepEnded_core {s : State} {op : ArrayOp} {took : LineData} (h : CoreOf s) (ho : s.port.op = some op) :
    CoreOf (stepEnded s op took) := by
  have hc : CoreOf (opCompleted (freePort s) op (s.mem.readLine op.line)) := completedAlone_core h ho
  unfold stepEnded
  dsimp only
  split
  · exact hc
  · rename_i hm
    split
    · refine h.of_eq ?_
      rw [beginStep_view]
      simp [State.modeView, ho]
    · exact compareReadBack_settled h ho hm
    all_goals exact hc

theorem landStep_op (s : State) (op : ArrayOp) (took : LineData) : (landStep s op took).port.op = s.port.op := by
  unfold landStep
  split <;> rfl

theorem readyAsserted_agree {s : State} {took : LineData} (h : ModesAgree s) : ModesAgree (readyAsserted s took) := by
  have hp : ModesAgree (s.setPins { s.pins with arrayReady := true }) := h.of_view rfl
  unfold readyAsserted
  dsimp only
  split
  · exact hp
  · rename_i op ho
    split
    · have hl : CoreOf (landStep (s.setPins { s.pins with arrayReady := true }) op took) :=
        CoreOf.of_eq hp.core (landStep_view _ _ _)
      exact settle_agree (stepEnded_core hl ((landStep_op _ _ _).trans ho))
    · exact beginStep_agree hp ho rfl

theorem removeDrained_requester (s : State) (k : Fin 32) (b : Bool) :
    (removeDrained s k b).modeView.requester = s.modeView.requester := by
  unfold removeDrained
  split
  · rfl
  · dsimp only
    split <;> split <;> rfl

theorem stallGroup_requester (s : State) : (stallGroup s).modeView.requester = s.modeView.requester := by
  unfold stallGroup
  split
  · rfl
  · dsimp only
    rw [endCopyWrite_view, setEngine_view, changeCommitGroup_view]

theorem commitFailed_requester (s : State) (r : Report) :
    (commitFailed s r).modeView.requester = s.modeView.requester := by
  unfold commitFailed
  split
  · exact (reportIncident_keeps s r).1
  · rw [(reportIncident_keeps _ r).1, stallGroup_requester]

theorem recoveryOpFailed_requester (s : State) (r : Report) :
    (recoveryOpFailed s r).modeView.requester = s.modeView.requester := by
  unfold recoveryOpFailed
  dsimp only
  split
  · exact (reportIncident_keeps s r).1
  · unfold recoveryFails
    dsimp only
    split
    · rw [endRecovery_view, endCopyWrite_view]
      exact (reportIncident_keeps s r).1
    · rw [completeLong_view, endRecovery_view, endCopyWrite_view]
      exact (reportIncident_keeps s r).1

theorem formatLineFailed_requester (s : State) (r : Report) :
    (formatLineFailed s r).modeView.requester = s.modeView.requester := by
  unfold formatLineFailed
  split
  · exact (reportIncident_keeps _ _).1
  · rw [completeLong_view]
    exact (reportIncident_keeps _ _).1

/-- A failure starts nothing and frees nothing on the port. -/
theorem opFailed_requester (s : State) (op : ArrayOp) (f : Failure) :
    (opFailed s op f).modeView.requester = s.modeView.requester := by
  unfold opFailed
  split
  · unfold readFailed
    split
    · exact (reportIncident_keeps _ _).1
    · rfl
  · unfold throughFailed
    dsimp only
    rw [(reportIncident_keeps _ _).1]
    split <;> rfl
  · rw [(reportIncident_keeps _ _).1, removeDrained_requester]
  · rw [(reportIncident_keeps _ _).1, removeDrained_requester]
  · exact commitFailed_requester _ _
  · unfold inPlaceFailed
    dsimp only
    rw [commitFailed_requester, setEntryState_view]
  · rw [commitFailed_requester]
    rfl
  · unfold storeLineFailed
    split
    · exact (reportIncident_keeps _ _).1
    · rw [completeLong_view]
      exact (reportIncident_keeps _ _).1
  · exact formatLineFailed_requester _ _
  · unfold startReadFailed
    dsimp only
    split
    · exact (reportIncident_keeps _ _).1
    · exact (reportIncident_keeps _ _).1
  · exact recoveryOpFailed_requester _ _
  · exact recoveryOpFailed_requester _ _
  · exact recoveryOpFailed_requester _ _
  · exact (reportIncident_keeps _ _).1
  · exact (reportIncident_keeps _ _).1

/-- In SHUTDOWN a timeout ends the sequence (R140). -/
theorem timedOut_core {s : State} {op : ArrayOp} (h : CoreOf s) (ho : s.port.op = some op) :
    CoreOf (if (opFailed (freePort s) op .timeout).control.mode = .shutdown then
      endShutdown (opFailed (freePort s) op .timeout) else opFailed (freePort s) op .timeout) := by
  have hf := opOf_fits h ho
  have hc := freePort_core h
  have hreq : (opFailed (freePort s) op .timeout).modeView.requester = none := opFailed_requester _ _ _
  by_cases hp : ∀ n, op.requester ≠ .shutdownProgress n
  · have hcf := opFailed_core (f := .timeout) hc rfl hf hp
    exact CoreOf.ite (fun hm => endShutdown_core
      (g := (opFailed (freePort s) op .timeout).modeView.stage)
      (c := (opFailed (freePort s) op .timeout).modeView.copyWrite)
      (k := (opFailed (freePort s) op .timeout).modeView.knowsNothing) hcf hm hreq rfl) (fun _ => hcf)
  · push Not at hp
    obtain ⟨n, hn⟩ := hp
    rw [hn] at hf
    have hm : s.control.mode = .shutdown := hf.1
    have hserve : serving (endCopyWrite (freePort s)) = false := by
      have : (endCopyWrite (freePort s)).control.mode = s.control.mode := rfl
      simp [serving, this, hm]
    have hv : (opFailed (freePort s) op .timeout).modeView = { (freePort s).modeView with copyWrite := false } := by
      unfold opFailed
      rw [hn]
      exact reportIncident_view hserve
    have hmode : (opFailed (freePort s) op .timeout).control.mode = .shutdown :=
      (congrArg ModeView.mode hv).trans hm
    rw [if_pos hmode]
    exact endShutdown_core (v := (freePort s).modeView) (g := (freePort s).modeView.stage) (c := false)
      (k := (freePort s).modeView.knowsNothing) hc hm rfl hv

theorem stepTimedOut_agree {s : State} {took : LineData} (h : ModesAgree s) : ModesAgree (stepTimedOut s took) := by
  unfold stepTimedOut
  split
  · exact h
  · rename_i op ho
    dsimp only
    have hl : CoreOf (if op.presented = true then landStep s op took else s) ∧
        (if op.presented = true then landStep s op took else s).port.op = some op := by
      split
      · exact ⟨CoreOf.of_eq h.core (landStep_view _ _ _), (landStep_op _ _ _).trans ho⟩
      · exact ⟨h.core, ho⟩
    exact settle_agree (timedOut_core (CoreOf.of_eq hl.1 (spoilCopy_view _ _ _)) ((spoilCopy_op _ _ _).trans hl.2))

theorem retryStartReads_agree {s : State} (h : ModesAgree s) : ModesAgree (retryStartReads s) :=
  ModesAgree.ite (fun _ => settle_agree (CoreOf.of_eq (s := s) h.core rfl)) (fun _ => h)

/-! ## Supply lines -/

theorem enterStarting_agree (s : State) : ModesAgree (enterStarting s) := by
  refine ⟨enterStarting_core s, fun e => ?_, fun e => ?_⟩
  · exact absurd ((enterStarting_request s).symm.trans e) (by simp)
  · unfold enterStarting at e
    dsimp only at e
    rw [startOp_mode] at e
    simp [State.startValues] at e

/-- Entry to SHUTDOWN. -/
theorem ModeView.Core.toShutdown {v : ModeView} (h : v.Core) (hm : v.mode ≠ .shutdown ∧ v.mode ≠ .ended)
    (l : Option LongCommand) (c : Bool) :
    ({ v with
        mode := .shutdown, request := false, long := l, heldWrite := none, recovery := false, format := false
        target := false, copyWrite := c, stage := .finishing } : ModeView).Core where
  held e := by simp at e
  heldWrite e := by simp at e
  request e := by simp at e
  work e := by simp [ModeView.writes] at e
  recovery e := by simp at e
  format e := by simp at e
  target e := by simp at e
  starting e := by simp at e
  op r e := ModeView.opFits_shutdown (h.op r e) hm.1 rfl rfl
  sequence _ := ⟨by simp, by simp⟩
  ended e := by simp at e

theorem abandonLong_view (s : State) : ∃ l, (abandonLong s).modeView = { s.modeView with long := l } := by
  unfold abandonLong
  split
  · exact ⟨_, rfl⟩
  · split
    · exact ⟨_, rfl⟩
    · exact ⟨none, completeLong_view _ _⟩

theorem enterShutdown_view (s : State) :
    ∃ l c, (enterShutdown s).modeView =
      { s.modeView with
        mode := .shutdown, request := false, long := l, heldWrite := none, recovery := false, format := false
        target := false, copyWrite := c, stage := .finishing } := by
  unfold enterShutdown
  dsimp only
  generalize ht : refuseHeld (changeMode (s.setControl { s.control with configRequest := false }) .shutdown) = t
  have hv : t.modeView = { s.modeView with mode := .shutdown, request := false, heldWrite := none } := by
    rw [← ht, refuseHeld_view, changeMode_view]
    rfl
  obtain ⟨l, hl⟩ := abandonLong_view t
  generalize abandonLong t = u at hl
  rw [hv] at hl
  have eg : u.groups.table.isEmpty = s.groups.table.isEmpty := congrArg ModeView.noGroups hl
  have hn : (clearFlushMarks u).modeView = u.modeView := clearFlushMarks_view u
  generalize clearFlushMarks u = w at hn
  rw [hl] at hn
  by_cases ho : originOf s.control.mode = .config
  · refine ⟨l, false, ?_⟩
    rw [if_pos ho]
    have e := hn
    simp only [State.modeView, ModeView.mk.injEq] at e
    simp [State.modeView, e, eg, endCopyWrite]
  · refine ⟨l, s.modeView.copyWrite, ?_⟩
    rw [if_neg ho]
    have e := hn
    simp only [State.modeView, ModeView.mk.injEq] at e
    simp [State.modeView, e, eg]

theorem enterShutdown_core {s : State} (h : CoreOf s) (hm : s.control.mode ≠ .shutdown ∧ s.control.mode ≠ .ended) :
    CoreOf (enterShutdown s) := by
  obtain ⟨l, c, e⟩ := enterShutdown_view s
  unfold CoreOf
  rw [e]
  exact h.toShutdown hm l c

theorem takeShutdownCause_core {s : State} (h : CoreOf s) : CoreOf (takeShutdownCause s) := by
  unfold takeShutdownCause
  split
  · exact h
  · exact h
  all_goals exact enterShutdown_core h (by simp [*])

theorem powerUp_agree {s : State} {pins : Pins} : ModesAgree (powerUp s pins) := by
  have hc := startValues_core pins s.mem Session.idle s.free s.pending
  unfold powerUp
  dsimp only
  split
  · exact enterStarting_agree (State.startValues pins s.mem Session.idle s.free s.pending)
  · exact settle_agree (takeShutdownCause_core hc)

theorem setLine_view (s : State) (line : SupplyLine) (b : Bool) : (setLine s line b).modeView = s.modeView := by
  cases line <;> rfl

theorem lineFall_agree {s : State} {line : SupplyLine} (h : ModesAgree s) : ModesAgree (lineFall s line) :=
  ModesAgree.ite
    (fun _ => settle_agree (takeShutdownCause_core (CoreOf.of_eq h.core (setLine_view s line false)))) (fun _ => h)

theorem lineRise_agree {s : State} {line : SupplyLine} (h : ModesAgree s) : ModesAgree (lineRise s line) :=
  ModesAgree.ite (fun _ => h) (fun _ =>
    ModesAgree.ite (fun _ => enterStarting_agree _) (fun _ => h.of_view (setLine_view s line true)))

/-! ## The bus -/

theorem modePasses_may {s : State} {x : Held} (h : modePasses s (opIsWrite x.access.op) = true) : MayTake s x := by
  unfold modePasses at h
  unfold MayTake ModeView.serves
  have e : s.modeView.mode = s.control.mode := rfl
  rw [e]
  split at h
  · rename_i hm
    exact ⟨Or.inl hm, fun hw => ⟨hm, by simpa [hw] using h⟩⟩
  · rename_i hm
    refine ⟨Or.inr hm, fun hw => ?_⟩
    simp [hw] at h
  all_goals simp at h

theorem checkAccess_mode {s : State} {a : Access} {c : Classification} (h : checkAccess s a = .accepted c) :
    modePasses s (opIsWrite a.op) = true := by
  unfold checkAccess at h
  split at h
  · simp at h
  · rename_i hm
    simpa using hm

/-- An access refused by the mode leaves the view as it is where none is held. -/
theorem finishAccess_agree {s : State} {a : Answer} (h : ModesAgree s) (hn : s.access.held = none) :
    ModesAgree (finishAccess s a) :=
  h.of_view (by simp [State.modeView, finishAccess, hn])

theorem acceptedAccess_agree {s : State} {a : Access} {c : Classification} (h : ModesAgree s)
    (hc : checkAccess s a = .accepted c) : ModesAgree (settle (takeAccess s (arriving s a c))) :=
  settle_agree (takeAccess_core h.core (modePasses_may (checkAccess_mode hc)))

theorem refusedAccess_agree {s : State} {a : Access} {r : Report} (h : ModesAgree s) :
    ModesAgree (settle (refuseAccess s a r)) :=
  settle_agree (refuseAccess_core h.core)

theorem heldMayTake {s : State} {x : Held} (h : CoreOf s) (hx : s.access.held = some x) : MayTake s x := by
  refine ⟨h.held (by simp [State.modeView, hx]), fun hw => ?_⟩
  have := h.heldWrite (by simp [State.modeView, hx, hw])
  exact this

theorem takeAnew_agree {s : State} {write : Bool} (h : ModesAgree s) : ModesAgree (takeAnew s write) := by
  unfold takeAnew
  split
  · exact h
  · rename_i x hx
    exact ModesAgree.ite (fun _ => settle_agree (takeAccess_core h.core (heldMayTake h.core hx))) (fun _ => h)

theorem stallExpiry_agree {s : State} (h : ModesAgree s) : ModesAgree (stallExpiry s) := by
  unfold stallExpiry
  split
  · exact h
  · split
    · exact h
    · exact settle_agree (reportIncident_core (finishAccess_core h.core))

theorem scanBoundary_agree {s : State} (h : ModesAgree s) : ModesAgree (scanBoundary s) :=
  ModesAgree.ite (fun _ => settle_agree (CoreOf.of_eq h.core (closeOpen_view s _))) (fun _ => h)

/-! ## The management port -/

theorem respond_agree {s : State} {q : List Byte} {r : Reply} (h : ModesAgree s) : ModesAgree (respond s q r) :=
  h.of_view rfl

theorem takeCommand_agree {s : State} {code : Byte} {arguments : List Byte} {check : Byte}
    {run : State → State × Reply} (h : ModesAgree s) (hr : ModesAgree (run s).1) :
    ModesAgree (takeCommand s code arguments check run) := by
  unfold takeCommand
  dsimp only
  exact ModesAgree.ite (fun _ => ModesAgree.ite (fun _ => respond_agree hr) (fun _ => respond_agree h)) (fun _ => h)

theorem acknowledge_view (s : State) (e : EventSet) : (acknowledge s e).modeView = s.modeView := by
  have ack : ∀ t : State, (ackConfinement t).modeView = t.modeView := by
    intro t
    unfold ackConfinement
    dsimp only
    split
    · split <;> rfl
    · rfl
  have hf : ∀ (b : Bool) (f : State → State) (t : State), (∀ u, (f u).modeView = u.modeView) →
      (if b = true then f t else t).modeView = t.modeView := by
    intro b f t h
    split
    · exact h t
    · rfl
  unfold acknowledge
  dsimp only
  refine (hf e.commandDone (fun t => clearEvent t .commandDone) _ (fun _ => rfl)).trans ?_
  refine (hf e.mode (fun t => clearEvent t .mode) _ (fun _ => rfl)).trans ?_
  refine (hf e.confinement ackConfinement _ ack).trans ?_
  exact hf e.fault ackFault s (fun _ => rfl)

theorem ackEventsRun_agree {s : State} {b : Byte} (h : ModesAgree s) : ModesAgree (ackEventsRun b s).1 := by
  unfold ackEventsRun
  split
  · exact h.of_view (acknowledge_view s _)
  · exact h

theorem setEventMaskRun_agree {s : State} {b : Byte} (h : ModesAgree s) : ModesAgree (setEventMaskRun b s).1 := by
  unfold setEventMaskRun
  split
  · exact h.of_view rfl
  · exact h

theorem takeIncidentRun_agree {s : State} (h : ModesAgree s) : ModesAgree (takeIncidentRun s).1 :=
  h.of_view rfl

theorem readInitiatorRun_agree {s : State} {b : Byte} (h : ModesAgree s) : ModesAgree (readInitiatorRun b s).1 := by
  unfold readInitiatorRun
  split <;> exact h

theorem releaseFenceRun_agree {s : State} {b : Byte} (h : ModesAgree s) : ModesAgree (releaseFenceRun b s).1 := by
  unfold releaseFenceRun
  split
  · exact h
  · split
    · exact h.of_view ((judgeChange_view _ _ _ _).trans (setStanding_view _ _ _ _))
    · exact h

theorem readSlotRun_agree {s : State} {b : Byte} (h : ModesAgree s) : ModesAgree (readSlotRun b s).1 := by
  unfold readSlotRun
  split <;> exact h

theorem closeGroupRun_agree {s : State} (h : ModesAgree s) : ModesAgree (closeGroupRun s).1 :=
  settle_agree (CoreOf.of_eq h.core (closeOpen_view s _))

/-- A flush target may be set while FLUSH is in flight. -/
theorem ModeView.Core.aim {v : ModeView} (h : v.Core) (hs : v.serves) (hl : v.long = some .flush) (b : Bool) :
    ({ v with target := b } : ModeView).Core where
  held e := h.held e
  heldWrite e := h.heldWrite e
  request e := h.request e
  work e := h.work e
  recovery e := h.recovery e
  format e := h.format e
  target _ := ⟨hs, hl⟩
  starting e := h.starting e
  op r e := (ModeView.opFits_congr rfl rfl rfl r).mpr (h.op r e)
  sequence e := h.sequence e
  ended e := h.ended e

theorem acceptFlush_agree {s : State} {all : Bool} (h : ModesAgree s) (hs : serving s = true)
    (hl : s.control.longCommand = none) : ModesAgree (acceptFlush s all) := by
  have hm : CoreOf (markPosted (acceptLong s .flush)) := (acceptLong_core h.core hl).of_eq (markPosted_view _)
  have hv : (markPosted (acceptLong s .flush)).modeView = { s.modeView with long := some .flush } := by
    rw [markPosted_view, acceptLong_view]
  unfold acceptFlush
  dsimp only
  refine settle_agree (CoreOf.ite (fun _ => ?_) (fun _ => hm))
  generalize markPosted (acceptLong s .flush) = t at hm hv
  have ht : ∃ b, (targetGroups t).modeView = { t.modeView with target := b } := by
    refine ⟨(closeOpen t .command).groups.table.getLast?.map (fun g => g.sequence) |>.isSome, ?_⟩
    have := closeOpen_view t .command
    unfold targetGroups
    dsimp only
    simp only [State.modeView, ModeView.mk.injEq] at this ⊢
    simp_all
  obtain ⟨b, ht⟩ := ht
  unfold CoreOf
  rw [ht]
  refine ModeView.Core.aim hm ?_ ?_ b
  · rw [hv]
    exact serving_serves hs
  · rw [hv]

theorem flushRun_agree {s : State} {b : Byte} (h : ModesAgree s) : ModesAgree (flushRun b s).1 := by
  unfold flushRun
  split
  · exact h
  · rename_i hs
    split
    · exact h
    · rename_i hl
      have hs : serving s = true := by simpa using hs
      have hl : s.control.longCommand = none := by simpa using hl
      split
      · exact acceptFlush_agree h hs hl
      · split
        · exact acceptFlush_agree h hs hl
        · exact h

/-- A configuration request is accepted: it is pending, and no write is held any more. -/
theorem ModeView.Core.asked {v : ModeView} (h : v.Core) (hs : v.serves) (hl : v.long = none) :
    ({ v with
        request := true, long := some .requestConfig
        heldWrite := if v.heldWrite = some true then none else v.heldWrite } : ModeView).Core := by
  have ht : v.target = false := by
    cases hv : v.target with
    | false => rfl
    | true =>
      have := (h.target hv).2
      simp_all
  have hf : v.format = false := by
    cases hv : v.format with
    | false => rfl
    | true =>
      have := (h.format hv).2
      simp_all
  exact
    { held := fun _ => hs
      heldWrite := fun e => by
        dsimp only at e
        split at e <;> simp_all
      request := fun _ => ⟨hs, rfl⟩
      work := fun e => h.work e
      recovery := fun e => h.recovery e
      format := fun e => by simp_all
      target := fun e => by simp_all
      starting := fun e => h.starting e
      op := fun r e => by
        refine ModeView.opFits_leave (h.op r e) ?_ ?_ ?_ <;> rcases hs with e | e <;> simp [e, ModeView.writes]
      sequence := fun e => h.sequence e
      ended := fun e => h.ended e }

theorem acceptConfig_agree {s : State} (h : ModesAgree s) (hs : serving s = true)
    (hl : s.control.longCommand = none) : ModesAgree (acceptConfig s) := by
  unfold acceptConfig
  dsimp only
  generalize hu : closeOpen (refuseHeldWrite ((acceptLong s .requestConfig).setControl
    { (acceptLong s .requestConfig).control with configRequest := true, handoverLoss := false })) .mode = u
  have hv : u.modeView =
      { s.modeView with
        request := true, long := some .requestConfig
        heldWrite := if s.modeView.heldWrite = some true then none else s.modeView.heldWrite } := by
    rw [← hu, closeOpen_view, refuseHeldWrite_view]
    rfl
  have hc : CoreOf u := by
    unfold CoreOf
    rw [hv]
    exact ModeView.Core.asked h.core (serving_serves hs) hl
  have hr : u.control.configRequest = true := congrArg ModeView.request hv
  exact settle_agree (CoreOf.ite (fun _ => abandonPath_core hc hr) (fun _ => hc))

theorem requestConfigRun_agree {s : State} (h : ModesAgree s) : ModesAgree (requestConfigRun s).1 := by
  unfold requestConfigRun
  split
  · exact h
  · split
    · exact h
    · rename_i hs
      split
      · exact h
      · rename_i hl
        exact acceptConfig_agree h (by simpa using hs) (by simpa using hl)

/-- From CONFIG with no long command in flight the part may enter RECOVERING. -/
theorem ModeView.Core.toRecovering {v : ModeView} (h : v.Core) (hm : v.mode = .config) (hl : v.long = none) :
    ({ v with mode := .recovering, long := some .requestRun, recovery := true } : ModeView).Core where
  held e := by
    have := h.held e
    simp_all [ModeView.serves]
  heldWrite e := by
    have := h.heldWrite e
    simp_all
  request e := by
    have := h.request e
    simp_all
  work _ := h.work (Or.inr (Or.inr (Or.inl hm)))
  recovery _ := rfl
  format e := by
    have := h.format e
    simp_all
  target e := by
    have := h.target e
    simp_all
  starting e := by simp at e
  op r e := by
    have := h.op r e
    cases r <;> simp_all [ModeView.opFits, ModeView.writes]
  sequence e := by simp at e
  ended e := by simp at e

theorem requestRunRun_agree {s : State} (h : ModesAgree s) : ModesAgree (requestRunRun s).1 := by
  unfold requestRunRun
  split
  · exact h
  · rename_i hm
    split
    · exact h
    · rename_i hl
      split
      · exact h
      · split
        · exact h
        · have hm : s.control.mode = .config := by simpa using hm
          have hl : s.control.longCommand = none := by simpa using hl
          refine settle_agree ?_
          unfold CoreOf enterRecovery
          dsimp only
          rw [changeMode_view]
          exact ModeView.Core.toRecovering (v := s.modeView) h.core hm hl

theorem restartPhase_core {s : State} {p : Phase} (h : CoreOf s) (hm : s.control.mode = .run) :
    CoreOf (restartPhase s p) := by
  unfold restartPhase
  split
  · exact h.of_eq (startJournaling_view s)
  · exact h.of_eq (enterPhase_view s _)
  · exact h.of_eq ((setCommitEntries_view _ _ _).trans (enterPhase_view s _))
  · exact startRetiring_core h (by simp [hm]) (by simp [hm])

/-- RESUME takes HALTED to RUN. -/
theorem ModeView.Core.toRun {v : ModeView} (h : v.Core) (hm : v.mode = .halted) :
    ({ v with mode := .run } : ModeView).Core where
  held _ := Or.inl rfl
  heldWrite e := by
    have := h.heldWrite e
    simp_all
  request e := ⟨Or.inl rfl, (h.request e).2⟩
  work e := by simp [ModeView.writes] at e
  recovery e := by
    have := h.recovery e
    simp_all
  format e := by
    have := h.format e
    simp_all [ModeView.writes]
  target e := ⟨Or.inl rfl, (h.target e).2⟩
  starting e := by simp at e
  op r e := ModeView.opFits_leave (h.op r e) (by simp [hm]) (by simp [ModeView.writes, hm]) (by simp)
  sequence e := by simp at e
  ended e := by simp at e

theorem resume_agree {s : State} (h : ModesAgree s) (hm : s.control.mode = .halted) : ModesAgree (resume s) := by
  have hc : CoreOf (changeMode (s.setControl { s.control with haltCause := none }) .run) := by
    unfold CoreOf
    rw [changeMode_view]
    exact ModeView.Core.toRun h.core hm
  have hr : (changeMode (s.setControl { s.control with haltCause := none }) .run).control.mode = .run :=
    changeMode_mode _ _
  unfold resume
  dsimp only
  generalize changeMode (s.setControl { s.control with haltCause := none }) .run = t at hc hr
  refine settle_agree ?_
  unfold restartStalled
  split
  · exact hc
  · exact restartPhase_core hc hr

theorem resumeRun_agree {s : State} (h : ModesAgree s) : ModesAgree (resumeRun s).1 := by
  by_cases hm : s.control.mode = .halted
  · have e : (resumeRun s).1 = resume s := by rw [resumeRun, if_pos hm]
    rw [e]
    exact resume_agree h hm
  · have e : (resumeRun s).1 = s := by rw [resumeRun, if_neg hm, refuseCommand]
    rw [e]
    exact h

theorem readWindowRun_agree {s : State} {b : Byte} (h : ModesAgree s) : ModesAgree (readWindowRun b s).1 := by
  unfold readWindowRun
  split <;> exact h

theorem writeWindowRun_agree {s : State} {b : Byte} {v : BitVec 64} (h : ModesAgree s) :
    ModesAgree (writeWindowRun b v s).1 := by
  unfold writeWindowRun
  split
  · exact h
  · split
    · exact h
    · exact h.of_view rfl

theorem writeSettingsRun_agree {s : State} {v : BitVec 128} (h : ModesAgree s) :
    ModesAgree (writeSettingsRun v s).1 := by
  unfold writeSettingsRun
  split
  · exact h.of_view rfl
  · exact h

theorem storeLayoutRun_agree {s : State} (h : ModesAgree s) : ModesAgree (storeLayoutRun s).1 := by
  unfold storeLayoutRun
  split
  · exact h
  · rename_i hm
    split
    · exact h
    · rename_i hl
      split
      · exact h
      · have hm : s.control.mode = .config := by
          simp only [ne_eq, Bool.or_eq_true, decide_eq_true_eq, not_or, not_not] at hm
          exact hm.1
        have hl : s.control.longCommand = none := by simpa using hl
        refine settle_agree ?_
        have ha := acceptLong_core (c := .storeLayout) h.core hl
        exact ModeView.Core.copies ha (by simp [State.modeView, acceptLong, hm]) (by simp [State.modeView, acceptLong, hm])
          (acceptLong s .storeLayout).modeView.knowsNothing true

/-- FORMAT is accepted. -/
theorem ModeView.Core.formats {v : ModeView} (h : v.Core) (hw : v.writes) (hl : v.long = none) :
    ({ v with long := some .format, format := true, knowsNothing := true } : ModeView).Core where
  held e := h.held e
  heldWrite e := h.heldWrite e
  request e := by
    have := (h.request e).2
    simp_all
  work e := h.work e
  recovery e := h.recovery e
  format _ := ⟨hw, rfl⟩
  target e := by
    have := (h.target e).2
    simp_all
  starting e := by rcases hw with m | m <;> simp [m] at e
  op r e := by
    have := h.op r e
    cases r <;> simp_all [ModeView.opFits, ModeView.writes]
  sequence e := by rcases hw with m | m <;> simp [m] at e
  ended e := h.ended e

theorem formatRun_agree {s : State} (h : ModesAgree s) : ModesAgree (formatRun s).1 := by
  unfold formatRun
  split
  · exact h
  · rename_i hm
    split
    · exact h
    · rename_i hl
      split
      · exact h
      · have hw : s.modeView.writes := by
          have hm : layoutWritable s = true := by simpa using hm
          simpa [layoutWritable, ModeView.writes, State.modeView] using hm
        have hl : s.control.longCommand = none := by simpa using hl
        exact settle_agree (ModeView.Core.formats h.core hw hl)

theorem restartRun_agree {s : State} (h : ModesAgree s) : ModesAgree (restartRun s).1 := by
  unfold restartRun
  split
  · exact h
  · rename_i hl
    have hl : s.control.longCommand = none := by simpa using hl
    exact settle_agree (takeShutdownCause_core (acceptLong_core h.core hl))

theorem unknownCode_agree {s : State} {code : Byte} (h : ModesAgree s) : ModesAgree (unknownCode s code) :=
  ModesAgree.ite (fun _ => h.of_view rfl) (fun _ => h)

theorem clockByte_agree {s : State} (h : ModesAgree s) : ModesAgree (clockByte s) := by
  unfold clockByte
  split
  · exact h
  · exact h
  · exact h.of_view rfl
  · exact h.of_view rfl

theorem countStamp_agree {s : State} (h : ModesAgree s) : ModesAgree (countStamp s) :=
  h.of_view rfl

end Sys2Proof.Machine
end

