-- ==== Sys2Proof/Laws/Settle.lean ====
section
/-! SUPPORT. What the end of a handling (`settle`) leaves alone in the modes in which the arbiter works, and how a
management command is taken. -/

namespace Sys2Proof.Machine

/-- What `settle` leaves alone in UNFORMATTED, CONFIG, RUN and HALTED; entries apart from their states, group records
apart from their states and positions. -/
structure Served where
  layout : Layout
  writer : ControlWriter
  recovery : Option Recovery
  start : StartSequence
  shutdown : ShutdownSequencer
  confinement : Vector InitiatorRecord 4
  incidents : List Incident
  overflow : Bool
  fault : Bool
  confinementEvent : Bool
  mask : EventSet
  stamp : Stamp
  arrivalCounter : BitVec 32
  lossNote : Bool
  outstanding : Nat
  entries : List Entry
  records : List Group
  nextSequence : Seq
  flushTarget : Option Seq
  journalPending : Bool
  haltCause : Option Detail
  free : Nat
  powered : Bool

/-- The entry apart from its state. -/
def Entry.still (e : Entry) : Entry :=
  { e with state := .ready }

/-- The group record apart from its state and position. -/
def Group.still (g : Group) : Group :=
  { g with state := .open, journalPosition := 0 }

/-- The items of a state that `settle` leaves alone. -/
def served (s : State) : Served :=
  { layout := s.layout, writer := s.writer, recovery := s.recovery, start := s.start, shutdown := s.shutdown
    confinement := s.confinement, incidents := s.recorder.incidents, overflow := s.recorder.overflow
    fault := s.recorder.pendingEvents.fault, confinementEvent := s.recorder.pendingEvents.confinement
    mask := s.recorder.mask, stamp := s.recorder.stamp
    arrivalCounter := s.queue.arrivalCounter, lossNote := s.queue.lossNote, outstanding := s.queue.outstanding
    entries := s.queue.entries.map Entry.still, records := s.groups.table.map Group.still
    nextSequence := s.groups.nextSequence, flushTarget := s.groups.flushTarget
    journalPending := s.engine.journalPending, haltCause := s.control.haltCause, free := s.free
    powered := s.powered }

/-! ## The operations that `settle` is made of -/

@[simp] theorem setAccess_served (s : State) (v : AccessUnit) : served (s.setAccess v) = served s := rfl
@[simp] theorem setPort_served (s : State) (v : ArrayPort) : served (s.setPort v) = served s := rfl
@[simp] theorem setPins_served (s : State) (v : Pins) : served (s.setPins v) = served s := rfl
@[simp] theorem setSession_served (s : State) (v : Session) : served (s.setSession v) = served s := rfl

theorem changeMode_served (s : State) (m : Mode) : served (changeMode s m) = served s := by
  unfold changeMode
  split <;> rfl

theorem completeLong_served (s : State) (r : LongResult) : served (completeLong s r) = served s := rfl

theorem refuseHeld_served (s : State) : served (refuseHeld s) = served s := by
  unfold refuseHeld
  split <;> rfl

theorem enterConfig_served (s : State) (r : LongResult) : served (enterConfig s r) = served s := by
  unfold enterConfig
  rw [completeLong_served, refuseHeld_served, changeMode_served]
  rfl

/-- Entries that change their states alone. -/
theorem changeEntries_served (s : State) (p : Entry → Bool) (st : EntryState) :
    served (changeEntries s p (fun e => { e with state := st })) = served s := by
  have : (s.queue.entries.map (fun e => if p e then { e with state := st } else e)).map Entry.still =
      s.queue.entries.map Entry.still := by
    rw [List.map_map]
    apply List.map_congr_left
    intro e _
    by_cases h : p e = true <;> simp [h, Entry.still]
  exact congrArg (fun es => { served s with entries := es }) this

theorem setEntryState_served (s : State) (k : Fin 32) (st : EntryState) : served (setEntryState s k st) = served s :=
  changeEntries_served s _ st

/-- Group records that change their states and positions alone. -/
theorem changeGroup_served (s : State) (q : Seq) (f : Group → Group) (h : ∀ g, (f g).still = g.still) :
    served (changeGroup s q f) = served s := by
  have : (s.groups.table.map (fun g => if g.sequence == q then f g else g)).map Group.still =
      s.groups.table.map Group.still := by
    rw [List.map_map]
    apply List.map_congr_left
    intro g _
    dsimp only [Function.comp]
    split
    · exact h g
    · rfl
  exact congrArg (fun gs => { served s with records := gs }) this

theorem changeCommitGroup_served (s : State) (f : Group → Group) (h : ∀ g, (f g).still = g.still) :
    served (changeCommitGroup s f) = served s := by
  unfold changeCommitGroup
  split
  · exact changeGroup_served s _ f h
  · rfl

theorem enterPhase_served (s : State) (p : Phase) : served (enterPhase s p) = served s := by
  unfold enterPhase
  exact changeCommitGroup_served s (fun g => { g with state := .inPhase p, journalPosition := 0 }) (fun _ => rfl)

theorem composeRecord_served (s : State) : served (composeRecord s) = served s := by
  unfold composeRecord
  split
  · rfl
  · split <;> rfl

theorem startJournaling_served (s : State) : served (startJournaling s) = served s := by
  unfold startJournaling
  rw [composeRecord_served]
  exact enterPhase_served s .journaling

theorem takeNextGroup_served (s : State) : served (takeNextGroup s) = served s := by
  unfold takeNextGroup
  split
  · split
    · rfl
    · exact startJournaling_served _
  · rfl

theorem flushCheck_served (s : State) : served (flushCheck s) = served s := by
  unfold flushCheck
  split
  · exact completeLong_served _ _
  · rfl

theorem handoverCheck_served (s : State) : served (handoverCheck s) = served s := by
  unfold handoverCheck
  split
  · exact enterConfig_served _ _
  · rfl

theorem clearPassOver_served (s : State) : served (clearPassOver s) = served s := by
  unfold clearPassOver
  split <;> rfl

/-- The requesters that the arbiter serves (R84). -/
def Requester.arbitrated : Requester → Prop
  | .controllerRead _ _ | .throughWrite _ _ | .postedDrain _ _ _ | .journalRecord | .inPlaceWrite _ _ _
  | .retiringProgress | .storeLayoutLine _ | .formatLine _ => True
  | .startRead _ | .scanRead _ _ | .replayWrite _ _ | .recoveryProgress _ _ _ | .shutdownRecord
  | .shutdownDrain _ _ _ | .shutdownProgress _ => False

theorem beginStep_served (s : State) (op : ArrayOp) : served (beginStep s op) = served s := by
  unfold beginStep
  split <;> rfl

theorem markGranted_served (s : State) {r : Requester} (h : r.arbitrated) :
    served (markGranted s r) = served s := by
  unfold markGranted
  cases r <;> simp only [Requester.arbitrated] at h
  case postedDrain k _ _ => exact setEntryState_served s k .writing
  case inPlaceWrite k _ _ => exact setEntryState_served s k .writing
  case controllerRead => dsimp only; split <;> rfl
  case throughWrite => dsimp only; split <;> rfl
  all_goals rfl

theorem startOp_served (s : State) {op : ArrayOp} (h : op.requester.arbitrated) :
    served (startOp s op) = served s := by
  unfold startOp
  rw [beginStep_served, markGranted_served _ h]
  unfold keepLine
  split <;> rfl

theorem controllerOp_served {s : State} {op : ArrayOp} (h : controllerOp s = some op) : op.requester.arbitrated := by
  unfold controllerOp at h
  split at h
  · cases h
  · split at h
    · split at h <;> cases h <;> trivial
    · cases h

theorem drainOp_served {s : State} {op : ArrayOp} (h : drainOp s = some op) : op.requester.arbitrated := by
  unfold drainOp at h
  obtain ⟨e, _, rfl⟩ := Option.map_eq_some_iff.mp h
  trivial

theorem engineOp_served {s : State} {op : ArrayOp} (h : engineOp s = some op) : op.requester.arbitrated := by
  unfold engineOp at h
  split at h
  · rw [recordOp_requester h]; trivial
  · rw [recordOp_requester h]; trivial
  · obtain ⟨q, _, hq⟩ := Option.bind_eq_some_iff.mp h
    obtain ⟨e, _, rfl⟩ := Option.map_eq_some_iff.mp hq
    trivial
  · obtain ⟨n, hn⟩ := copyOp_requester h
    rw [hn]; trivial
  · cases h

theorem writerOp_served {s : State} {op : ArrayOp} (h : writerOp s = some op) : op.requester.arbitrated := by
  unfold writerOp at h
  split at h
  · cases h; trivial
  · split at h
    · obtain ⟨n, hn⟩ := copyOp_requester h
      rw [hn]; trivial
    · cases h

theorem arbiterChoice_served {s : State} {p f : Nat} {op : ArrayOp} (h : arbiterChoice p f (requestsOf s) = some op) :
    op.requester.arbitrated := by
  have drain : (requestsOf s).drain = some op → op.requester.arbitrated := fun h => by
    simp only [requestsOf] at h
    split at h
    · exact drainOp_served h
    · cases h
  have engine : (requestsOf s).engine = some op → op.requester.arbitrated := fun h => by
    simp only [requestsOf] at h
    split at h
    · exact engineOp_served h
    · cases h
  have writer : (requestsOf s).writer = some op → op.requester.arbitrated := fun h => by
    simp only [requestsOf] at h
    split at h
    · exact writerOp_served h
    · cases h
  unfold arbiterChoice at h
  split at h
  · exact drain h
  · split at h
    · exact controllerOp_served h
    · split at h
      · exact drain h
      · split at h
        · exact engine h
        · split at h
          · exact drain h
          · exact writer h

theorem arbitrate_served (s : State) : served (arbitrate s) = served s := by
  unfold arbitrate
  dsimp only
  split
  · rfl
  · rename_i op h
    exact startOp_served _ (arbiterChoice_served h)

/-- The modes in which the free port is the arbiter's. -/
def arbiterWorks (s : State) : Prop :=
  s.control.mode = .unformatted ∨ s.control.mode = .config ∨ s.control.mode = .run ∨ s.control.mode = .halted

theorem drivePort_served {s : State} (h : arbiterWorks s) : served (drivePort s) = served s := by
  unfold drivePort
  split
  · rfl
  · rcases h with h | h | h | h <;> rw [h] <;> dsimp only <;> split <;> first | rfl | exact arbitrate_served s

/-! ## The end of a handling -/

theorem takeNextGroup_control (s : State) : (takeNextGroup s).control = s.control := by
  have phase (s : State) (p : Phase) : (enterPhase s p).control = s.control := by
    unfold enterPhase changeCommitGroup
    cases s.engine.inCommit <;> rfl
  have compose (s : State) : (composeRecord s).control = s.control := by
    unfold composeRecord
    split
    · rfl
    · split <;> rfl
  unfold takeNextGroup
  split
  · split
    · rfl
    · unfold startJournaling
      rw [compose]
      exact phase _ _
  · rfl

theorem flushCheck_mode (s : State) : (flushCheck s).control.mode = s.control.mode := by
  unfold flushCheck
  split <;> rfl

theorem arbiterWorks_handoverCheck {s : State} (h : arbiterWorks s) : arbiterWorks (handoverCheck s) := by
  unfold handoverCheck
  split
  · refine .inr (.inl ?_)
    unfold enterConfig refuseHeld
    dsimp only
    split
    · exact changeMode_mode _ _
    · exact changeMode_mode _ _
  · exact h

/-- In UNFORMATTED, CONFIG, RUN and HALTED the end of a handling changes no item of `served`. -/
theorem settle_served {s : State} (h : arbiterWorks s) : served (settle s) = served s := by
  have h1 : arbiterWorks (flushCheck (takeNextGroup s)) := by
    unfold arbiterWorks
    rw [flushCheck_mode, takeNextGroup_control]
    exact h
  have h2 : arbiterWorks (clearPassOver (handoverCheck (flushCheck (takeNextGroup s)))) := by
    have := arbiterWorks_handoverCheck h1
    unfold clearPassOver
    split
    · exact this
    · exact this
  unfold settle
  rw [drivePort_served h2, clearPassOver_served, handoverCheck_served, flushCheck_served, takeNextGroup_served]

/-- The slots of the entries stay as they are. -/
theorem settle_slots {s : State} (h : arbiterWorks s) :
    (settle s).queue.entries.map Entry.slot = s.queue.entries.map Entry.slot := by
  have := congrArg (List.map Entry.slot) (congrArg Served.entries (settle_served h))
  simpa [served, Entry.still, Function.comp_def] using this

/-- The sequences of the group records stay as they are. -/
theorem settle_sequences {s : State} (h : arbiterWorks s) :
    (settle s).groups.table.map Group.sequence = s.groups.table.map Group.sequence := by
  have := congrArg (List.map Group.sequence) (congrArg Served.records (settle_served h))
  simpa [served, Group.still, Function.comp_def] using this

/-- The close causes of the group records stay as they are. -/
theorem settle_causes {s : State} (h : arbiterWorks s) :
    (settle s).groups.table.map Group.closeCause = s.groups.table.map Group.closeCause := by
  have := congrArg (List.map Group.closeCause) (congrArg Served.records (settle_served h))
  simpa [served, Group.still, Function.comp_def] using this

/-! ## Steps and management commands -/

/-- A step takes the command at the front. -/
theorem step_cons (c : Instr) (rest : List Instr) (s : State) :
    step (s.setPending (c :: rest)) = exec c (s.setPending rest) := rfl

/-- A step on an empty queue. -/
theorem step_nil {s : State} (h : s.pending = []) : step s = .next (tick s) := by
  unfold step
  rw [h]

/-- A listening part takes a request with a matching check byte: its run, then the composed response. -/
theorem command_taken {s : State} (h : Listening s) (code : Byte) (arguments : List Byte)
    (run : State → State × Reply) :
    command s code arguments (crc8 (code :: arguments)) run =
      .next (respond (run s).1 (code :: arguments ++ [crc8 (code :: arguments)]) (run s).2) := by
  obtain ⟨hp, hs, hb⟩ := h
  simp [command, handle, takeCommand, requestOpen, hp, hs, hb]

/-- A listening part that receives another check byte: no effect, BAD_CHECK. -/
theorem command_badCheck {s : State} (h : Listening s) {code check : Byte} {arguments : List Byte}
    (hc : check ≠ crc8 (code :: arguments)) (run : State → State × Reply) :
    command s code arguments check run =
      .next (respond s (code :: arguments ++ [check]) (Reply.bare .badCheck)) := by
  obtain ⟨hp, hs, hb⟩ := h
  simp [command, handle, takeCommand, requestOpen, hp, hs, hb, hc]

/-- A part that is not listening leaves a request without effect. -/
theorem command_ignored {s : State} (h : ¬Listening s) (code : Byte) (arguments : List Byte) (check : Byte)
    (run : State → State × Reply) : command s code arguments check run = .next s := by
  have : s.powered = true → requestOpen s = false := fun hp => by
    by_contra hr
    simp only [requestOpen, Bool.not_eq_false, Bool.and_eq_true, beq_iff_eq] at hr
    exact h ⟨hp, hr.1, hr.2⟩
  unfold command handle
  split
  · rename_i hp
    simp [takeCommand, this hp]
  · rfl

/-- The response of a command in the form of the statements: what a command's run gives is what it answers. -/
theorem answers_of_run {s : State} (h : Listening s) {c : Instr} {code : Byte} {arguments : List Byte}
    {run : State → State × Reply}
    (hc : exec c s = command s code arguments (crc8 (code :: arguments)) run) :
    Answers c s (run s).1 (code :: arguments) (Status.code (run s).2.status) (run s).2.data := by
  unfold Answers
  rw [hc, command_taken h]
  simp [respond, responseBytes]

end Sys2Proof.Machine
end

