-- ==== Sys2Proof/Laws/Waiting.lean ====
section
/-! SUPPORT. What the end of a handling (`settle`) leaves waiting in the modes in which the arbiter works: nothing that could
go on. -/

namespace Sys2Proof.Machine

/-- The arbiter grants nothing only where nothing is requested (R85). -/
theorem arbiterChoice_none {passOver freeCount : Nat} {r : Requests} (h : arbiterChoice passOver freeCount r = none) :
    r = { controller := none, drain := none, engine := none, writer := none } := by
  obtain ⟨c, d, e, w⟩ := r
  cases c <;> cases d <;> cases e <;> cases w <;> simp [arbiterChoice] at h ⊢
  all_goals
    repeat' split at h
    all_goals simp_all

/-! ## The group table through the end of a handling -/

@[simp] theorem flushCheck_groups (s : State) : (flushCheck s).groups = s.groups := by
  unfold flushCheck; split <;> rfl

@[simp] theorem handoverCheck_groups (s : State) : (handoverCheck s).groups = s.groups := by
  unfold handoverCheck enterConfig changeMode refuseHeld
  split
  · dsimp only; split <;> split <;> rfl
  · rfl

@[simp] theorem clearPassOver_groups (s : State) : (clearPassOver s).groups = s.groups := by
  unfold clearPassOver; split <;> rfl

@[simp] theorem clearPassOver_control (s : State) : (clearPassOver s).control = s.control := by
  unfold clearPassOver; split <;> rfl

@[simp] theorem startOp_groups (s : State) (op : ArrayOp) : (startOp s op).groups = s.groups := by
  obtain ⟨v, hv⟩ := keepLine_eq s op
  have : (markGranted (s.setLineBefore v) op.requester).groups = s.groups := by
    unfold markGranted
    split <;> first | rfl | (split <;> rfl)
  unfold startOp beginStep
  rw [hv]
  split <;> exact this

@[simp] theorem startOp_control (s : State) (op : ArrayOp) : (startOp s op).control = s.control := by
  obtain ⟨v, hv⟩ := keepLine_eq s op
  have : (markGranted (s.setLineBefore v) op.requester).control = s.control := by
    unfold markGranted
    split <;> first | rfl | (split <;> rfl)
  unfold startOp beginStep
  rw [hv]
  split <;> exact this

@[simp] theorem startOp_op (s : State) (op : ArrayOp) : (startOp s op).port.op.isSome = true := by
  unfold startOp beginStep
  split <;> rfl

/-- After the engine's look at the table a CLOSED group stands behind one in commit (R35). -/
theorem takeNextGroup_closed {s : State} (mode : serving s = true)
    (closed : ∃ g ∈ (takeNextGroup s).groups.table, g.state = .closed) :
    ∃ g ∈ (takeNextGroup s).groups.table, groupInCommit g = true := by
  by_cases none : s.groups.table.all (fun g => !groupInCommit g) = true
  · cases found : s.groups.table.find? (fun g => g.state == .closed) with
    | none =>
      have e : takeNextGroup s = s := by simp [takeNextGroup, mode, none, found]
      rw [e] at closed ⊢
      obtain ⟨g, hg, hs⟩ := closed
      have := List.find?_eq_none.mp found g hg
      simp [hs] at this
    | some g =>
      have compose (s : State) : (composeRecord s).groups = s.groups := by
        unfold composeRecord
        split
        · rfl
        · split <;> rfl
      have e : (takeNextGroup s).groups.table =
          s.groups.table.map (fun x =>
            if x.sequence == g.sequence then { x with state := .inPhase .journaling, journalPosition := 0 } else x) := by
        simp [takeNextGroup, mode, none, found, startJournaling, compose, enterPhase, changeCommitGroup, changeGroup]
      rw [e]
      refine ⟨{ g with state := .inPhase .journaling, journalPosition := 0 }, ?_, rfl⟩
      exact List.mem_map.mpr ⟨g, List.mem_of_find?_eq_some found, by simp⟩
  · have e : takeNextGroup s = s := by simp [takeNextGroup, none]
    rw [e]
    simpa using none

/-- Where the arbiter works, the driven port is not left free before a request, unless a held read is due (R85, log 12). -/
theorem drivePort_requests {s : State} (mode : arbiterWorks s) (free : (drivePort s).port.op = none)
    (due : readDue (drivePort s) = false) :
    requestsOf (drivePort s) = { controller := none, drain := none, engine := none, writer := none } := by
  cases hop : s.port.op with
  | some op =>
    simp [drivePort, hop] at free
  | none =>
    have works : drivePort s = if readDue s then s else arbitrate s := by
      unfold drivePort
      rw [hop]
      rcases mode with m | m | m | m <;> rw [m]
    by_cases hd : readDue s = true
    · have e : drivePort s = s := by rw [works]; simp [hd]
      rw [e, hd] at due
      cases due
    · have e : drivePort s = arbitrate s := by rw [works]; simp [hd]
      rw [e] at free ⊢
      unfold arbitrate at free ⊢
      dsimp only at free ⊢
      cases choice : arbiterChoice s.port.passOver (freeSlotCount s.queue) (requestsOf s) with
      | none => exact arbiterChoice_none choice
      | some op =>
        rw [choice] at free
        have := startOp_op (s.setPort { s.port with passOver := passOverAfter s.port.passOver (requestsOf s) op }) op
        simp [free] at this

theorem drivePort_keeps {s : State} (mode : arbiterWorks s) :
    (drivePort s).groups = s.groups ∧ (drivePort s).control = s.control := by
  have choose : (arbitrate s).groups = s.groups ∧ (arbitrate s).control = s.control := by
    unfold arbitrate
    dsimp only
    split
    · exact ⟨rfl, rfl⟩
    · exact ⟨startOp_groups _ _, startOp_control _ _⟩
  unfold drivePort
  split
  · exact ⟨rfl, rfl⟩
  · rcases mode with m | m | m | m <;> rw [m] <;> dsimp only <;> split <;> first | exact ⟨rfl, rfl⟩ | exact choose

/-- A held read that the statements call due is due: its line has no WRITING entry (R11). -/
theorem readDue_false {s : State} (h : ∀ h, s.access.held = some h → h.wait = .writingEntry →
    ∃ e ∈ s.queue.entries, e.line = lineOf h.access.address ∧ e.state = .writing) : readDue s = false := by
  unfold readDue heldDue
  cases held : s.access.held with
  | none => rfl
  | some a =>
    by_cases wait : a.wait = .writingEntry
    · obtain ⟨e, he, hl, hs⟩ := h a held wait
      have writing : lineWriting s (accessLine a.access) = true :=
        List.any_eq_true.mpr ⟨e, he, by simp [accessLine, hl, hs]⟩
      simp [wait, writing]
    · simp [wait]

/-- In UNFORMATTED, CONFIG, RUN and HALTED the end of a handling leaves nothing waiting that could go on. -/
theorem settle_nothingWaits {s : State} (mode : arbiterWorks s) : NothingWaits (settle s) := by
  have before : arbiterWorks (flushCheck (takeNextGroup s)) := by
    unfold arbiterWorks
    rw [flushCheck_mode, takeNextGroup_control]
    exact mode
  have works : arbiterWorks (clearPassOver (handoverCheck (flushCheck (takeNextGroup s)))) := by
    unfold arbiterWorks
    rw [clearPassOver_control]
    exact arbiterWorks_handoverCheck before
  have keeps := drivePort_keeps works
  refine ⟨fun served closed => ?_, fun _ free due => drivePort_requests works free (readDue_false due)⟩
  have table : (settle s).groups.table = (takeNextGroup s).groups.table := by
    unfold settle
    rw [keeps.1]
    simp
  have was : serving s = true := by
    have now : serving (handoverCheck (flushCheck (takeNextGroup s))) = true := by
      unfold settle at served
      unfold serving at served ⊢
      rw [keeps.2, clearPassOver_control] at served
      exact served
    unfold handoverCheck at now
    split at now
    · rename_i h
      have m := h.1
      unfold serving at m ⊢
      rwa [flushCheck_mode, takeNextGroup_control] at m
    · unfold serving at now ⊢
      rwa [flushCheck_mode, takeNextGroup_control] at now
  rw [table] at closed ⊢
  exact takeNextGroup_closed was closed

end Sys2Proof.Machine
end

