-- ==== Sys2Proof/Laws/Writing.lean ====
section
/-! SUPPORT. Every operation keeps that each WRITING entry is carried by the operation in flight (`WritingCarried`): a grant
alone makes an entry WRITING, and the end of its write takes it out of WRITING. -/

namespace Sys2Proof.Machine

/-- No slot holds two entries, and each WRITING entry is carried by the operation in flight. -/
structure Carried (s : State) : Prop where
  slots : (s.queue.entries.map Entry.slot).Nodup
  writing : WritingCarried s

theorem Carried.ite {c : Prop} [Decidable c] {s t : State} (hs : Carried s) (ht : Carried t) :
    Carried (if c then s else t) := by
  split
  · exact hs
  · exact ht

/-- What carries an entry carries every entry of the same slot and group. -/
theorem carriesEntry_of_same {r : Requester} {x e : Entry} (hs : x.slot = e.slot) (hg : x.group = e.group)
    (h : carriesEntry r x) : carriesEntry r e := by
  unfold carriesEntry at h ⊢
  rw [hs, hg] at h
  exact h

/-! ## Updates of one block -/

theorem Carried.setPins {s : State} (h : Carried s) (v : Pins) : Carried (s.setPins v) := ⟨h.slots, h.writing⟩
theorem Carried.setMem {s : State} (h : Carried s) (v : Memory) : Carried (s.setMem v) := ⟨h.slots, h.writing⟩
theorem Carried.setLayout {s : State} (h : Carried s) (v : Layout) : Carried (s.setLayout v) := ⟨h.slots, h.writing⟩
theorem Carried.setAccess {s : State} (h : Carried s) (v : AccessUnit) : Carried (s.setAccess v) := ⟨h.slots, h.writing⟩
theorem Carried.setGroups {s : State} (h : Carried s) (v : GroupTracker) : Carried (s.setGroups v) :=
  ⟨h.slots, h.writing⟩
theorem Carried.setEngine {s : State} (h : Carried s) (v : JournalEngine) : Carried (s.setEngine v) :=
  ⟨h.slots, h.writing⟩
theorem Carried.setWriter {s : State} (h : Carried s) (v : ControlWriter) : Carried (s.setWriter v) :=
  ⟨h.slots, h.writing⟩
theorem Carried.setControl {s : State} (h : Carried s) (v : ModeController) : Carried (s.setControl v) :=
  ⟨h.slots, h.writing⟩
theorem Carried.setLineBefore {s : State} (h : Carried s) (v : LineData) : Carried (s.setLineBefore v) :=
  ⟨h.slots, h.writing⟩
theorem Carried.setStart {s : State} (h : Carried s) (v : StartSequence) : Carried (s.setStart v) := ⟨h.slots, h.writing⟩
theorem Carried.setRecovery {s : State} (h : Carried s) (v : Option Recovery) : Carried (s.setRecovery v) :=
  ⟨h.slots, h.writing⟩
theorem Carried.setShutdown {s : State} (h : Carried s) (v : ShutdownSequencer) : Carried (s.setShutdown v) :=
  ⟨h.slots, h.writing⟩
theorem Carried.setConfinement {s : State} (h : Carried s) (v : Vector InitiatorRecord 4) :
    Carried (s.setConfinement v) :=
  ⟨h.slots, h.writing⟩
theorem Carried.setRecorder {s : State} (h : Carried s) (v : IncidentRecorder) : Carried (s.setRecorder v) :=
  ⟨h.slots, h.writing⟩
theorem Carried.setSession {s : State} (h : Carried s) (v : Session) : Carried (s.setSession v) :=
  ⟨h.slots, h.writing⟩
theorem Carried.setPending {s : State} (h : Carried s) (v : List Instr) : Carried (s.setPending v) :=
  ⟨h.slots, h.writing⟩
theorem Carried.setPassOver {s : State} (h : Carried s) (n : Nat) :
    Carried (s.setPort { s.port with passOver := n }) :=
  ⟨h.slots, h.writing⟩

/-- Entries changed one by one, none of them into WRITING. -/
theorem Carried.mapEntries {s : State} (h : Carried s) {q : PostingQueue} (f : Entry → Entry)
    (hq : q.entries = s.queue.entries.map f) (hs : ∀ e, (f e).slot = e.slot) (hg : ∀ e, (f e).group = e.group)
    (hw : ∀ e, (f e).state = .writing → e.state = .writing) : Carried (s.setQueue q) where
  slots := by
    show (q.entries.map Entry.slot).Nodup
    rw [hq, List.map_map, show Entry.slot ∘ f = Entry.slot from funext hs]
    exact h.slots
  writing e he hst := by
    rw [State.setQueue_queue, hq] at he
    obtain ⟨x, hx, rfl⟩ := List.mem_map.mp he
    obtain ⟨op, ho, hc⟩ := h.writing x hx (hw x hst)
    exact ⟨op, ho, carriesEntry_of_same (hs x).symm (hg x).symm hc⟩

/-- Entries removed. -/
theorem Carried.subEntries {s : State} (h : Carried s) {q : PostingQueue}
    (hq : q.entries.Sublist s.queue.entries) : Carried (s.setQueue q) where
  slots := h.slots.sublist (hq.map _)
  writing e he hst := h.writing e (hq.subset he) hst

theorem Carried.changeEntries {s : State} (h : Carried s) {p : Entry → Bool} {f : Entry → Entry}
    (hs : ∀ e, (f e).slot = e.slot) (hg : ∀ e, (f e).group = e.group)
    (hw : ∀ e, (f e).state = .writing → e.state = .writing) : Carried (changeEntries s p f) :=
  h.mapEntries (fun e => if p e = true then f e else e) rfl (fun e => by split; exact hs e; rfl)
    (fun e => by split; exact hg e; rfl) (fun e => by split; exact hw e; exact id)

theorem Carried.freeEntries {s : State} (h : Carried s) (p : Entry → Bool) : Carried (freeEntries s p) :=
  h.subEntries List.filter_sublist

theorem Carried.setEntryState {s : State} (h : Carried s) {k : Fin 32} {st : EntryState} (hst : st ≠ .writing) :
    Carried (setEntryState s k st) :=
  h.changeEntries (fun _ => rfl) (fun _ => rfl) (fun _ he => absurd he hst)

/-! ## Incidents, confinement, reactions -/

theorem Carried.raise {s : State} (h : Carried s) (e : Event) : Carried (raise s e) := h.setRecorder _

theorem Carried.recordIncident {s : State} (h : Carried s) (r : Report) : Carried (recordIncident s r) :=
  ⟨h.slots, h.writing⟩

theorem Carried.judgeChange {s : State} (h : Carried s) (i : Initiator) (old new : Standing) :
    Carried (judgeChange s i old new) := by
  unfold Machine.judgeChange
  split
  · exact h
  · split
    · exact (h.setConfinement _).raise _
    · exact h

theorem Carried.changeCounter {s : State} (h : Carried s) (i : Initiator) (n : Nat) : Carried (changeCounter s i n) := by
  unfold Machine.changeCounter
  dsimp only
  split
  · exact h
  · split
    · exact h.setConfinement _
    · have hj := Carried.judgeChange (h.setConfinement _ : Carried (setStanding s i n (standingOf n))) i
        s.confinement[i].state (standingOf n)
      exact Carried.ite (hj.recordIncident _) hj

theorem Carried.fenceInitiator {s : State} (h : Carried s) (i : Initiator) : Carried (fenceInitiator s i) :=
  Carried.ite h ((Carried.judgeChange (h.setConfinement _ : Carried (setStanding s i 320 .fenced)) _ _ _).recordIncident _)

theorem Carried.changeMode {s : State} (h : Carried s) (m : Mode) : Carried (changeMode s m) :=
  Carried.ite h ((h.setControl _).raise _)

theorem Carried.completeLong {s : State} (h : Carried s) (r : LongResult) : Carried (completeLong s r) :=
  (h.setControl _).raise _

theorem Carried.refuseHeld {s : State} (h : Carried s) : Carried (refuseHeld s) := by
  unfold Machine.refuseHeld
  split
  · exact h
  · exact h.setAccess _

theorem Carried.refuseHeldWrite {s : State} (h : Carried s) : Carried (refuseHeldWrite s) := by
  unfold Machine.refuseHeldWrite
  split
  · exact h
  · exact Carried.ite (h.setAccess _) h

theorem Carried.enterConfig {s : State} (h : Carried s) (r : LongResult) : Carried (enterConfig s r) :=
  ((h.setControl _).changeMode _).refuseHeld.completeLong _

theorem Carried.abandonPath {s : State} (h : Carried s) : Carried (abandonPath s) := by
  refine Carried.enterConfig (Carried.recordIncident (Carried.recordIncident ?_ _) _) _
  exact Carried.subEntries ((h.setGroups _).setEngine _) (List.nil_sublist _)

theorem Carried.haltReaction {s : State} (h : Carried s) (d : Detail) : Carried (haltReaction s d) := by
  unfold Machine.haltReaction
  split
  · exact Carried.ite h.abandonPath (((h.setControl _).changeMode _).refuseHeldWrite.setGroups _)
  · exact Carried.ite h.abandonPath h
  all_goals exact h

theorem Carried.carryOut {s : State} (h : Carried s) (x : Reaction) (r : Report) : Carried (carryOut s x r) := by
  unfold Machine.carryOut
  split
  · exact h
  · exact h
  · split
    · exact h.fenceInitiator _
    · exact h
  · exact h.haltReaction _

theorem Carried.reportIncident {s : State} (h : Carried s) (r : Report) : Carried (reportIncident s r) :=
  (h.recordIncident r).carryOut _ _

/-! ## Taking writes and reads -/

theorem Carried.createEntry {s : State} (h : Carried s) {x : Held} {k : Fin 32} {group : Option Seq}
    (hk : lowestFreeSlot s.queue = some k) : Carried (createEntry s x k group) where
  slots := by
    show ((s.queue.entries ++ [newEntry s x k group]).map Entry.slot).Nodup
    rw [List.map_append, List.map_singleton]
    refine List.Nodup.append h.slots (List.nodup_singleton _) ?_
    rw [List.disjoint_singleton]
    intro hm
    obtain ⟨e, he, hs⟩ := List.mem_map.mp hm
    exact lowestFreeSlot_free hk e he hs
  writing e he hst := by
    rcases List.mem_append.mp he with he | he
    · exact h.writing e he hst
    · rw [List.mem_singleton] at he
      subst he
      cases group <;> exact absurd hst (by simp [newEntry])

theorem Carried.mergeInto {s : State} (h : Carried s) (k : Fin 32) (a : Access) : Carried (mergeInto s k a) :=
  h.changeEntries (fun _ => rfl) (fun _ => rfl) (fun _ he => he)

theorem Carried.finishWrite {s : State} (h : Carried s) (i : Initiator) : Carried (finishWrite s i) :=
  (h.setAccess _ : Carried (finishAccess s (.done []))).changeCounter i _

theorem Carried.holdAccess {s : State} (h : Carried s) (x : Held) : Carried (holdAccess s x) := h.setAccess _

theorem Carried.takeInNewGroup {s : State} (h : Carried s) (x : Held) : Carried (takeInNewGroup s x) := by
  unfold Machine.takeInNewGroup
  split
  · split
    · rename_i k hk
      unfold openGroupWith
      dsimp only
      refine Carried.finishWrite (Carried.createEntry ?_ ?_) _
      · exact h.setGroups _
      · exact hk
    · exact h.holdAccess _
  · exact h.holdAccess _

theorem Carried.takeWrite {s : State} (h : Carried s) (x : Held) : Carried (takeWrite s x) := by
  unfold Machine.takeWrite
  split
  · unfold takePosted
    split
    · exact (h.mergeInto _ _).finishWrite _
    · split
      · rename_i k hk
        exact (h.createEntry hk).finishWrite _
      · exact h.holdAccess _
  · unfold takeGrouped
    split
    · exact h.takeInNewGroup x
    · split
      · exact (h.mergeInto _ _).finishWrite _
      · split
        · unfold takeInOpenGroup
          split
          · rename_i k hk
            exact Carried.finishWrite (Carried.createEntry (s := changeGroup s _ _) (h.setGroups _) hk) _
          · exact h.holdAccess _
        · exact (((h.setGroups _ : Carried (closeOpen s .limit)).recordIncident _).takeInNewGroup x).carryOut _ _
  · exact h.holdAccess _
  · exact h
  · exact h

theorem Carried.takeAccess {s : State} (h : Carried s) (x : Held) : Carried (takeAccess s x) :=
  Carried.ite (h.takeWrite x) (Carried.ite (h.setAccess _) (Carried.ite (h.holdAccess _) (h.holdAccess _)))

/-! ## Journal engine, control area writer, recovery -/

theorem Carried.changeCommitGroup {s : State} (h : Carried s) (f : Group → Group) : Carried (changeCommitGroup s f) := by
  unfold Machine.changeCommitGroup
  split
  · exact h.setGroups _
  · exact h

theorem Carried.enterPhase {s : State} (h : Carried s) (p : Phase) : Carried (enterPhase s p) :=
  (h.changeCommitGroup _).setEngine _

theorem Carried.setPosition {s : State} (h : Carried s) (n : Nat) (half : Half) : Carried (setPosition s n half) :=
  (h.changeCommitGroup _).setEngine _

theorem Carried.composeRecord {s : State} (h : Carried s) : Carried (composeRecord s) := by
  unfold Machine.composeRecord
  split
  · exact h
  · split
    · exact h
    · exact h.setEngine _

theorem Carried.startJournaling {s : State} (h : Carried s) : Carried (startJournaling s) :=
  ((h.enterPhase _).setEngine _).composeRecord

theorem Carried.startRetiring {s : State} (h : Carried s) : Carried (startRetiring s) := by
  have he := h.enterPhase .retiring
  unfold Machine.startRetiring
  dsimp only
  split
  · exact he.setWriter _
  · exact he

theorem Carried.takeNextGroup {s : State} (h : Carried s) : Carried (takeNextGroup s) := by
  unfold Machine.takeNextGroup
  split
  · split
    · exact h
    · exact (h.setEngine _).startJournaling
  · exact h

theorem Carried.setCommitEntries {s : State} (h : Carried s) {p : EntryState → Bool} {st : EntryState}
    (hst : st ≠ .writing) : Carried (setCommitEntries s p st) := by
  unfold Machine.setCommitEntries
  split
  · exact h
  · exact h.changeEntries (fun _ => rfl) (fun _ => rfl) (fun _ he => absurd he hst)

theorem Carried.recordWritten {s : State} (h : Carried s) : Carried (recordWritten s) := by
  unfold Machine.recordWritten
  split
  · exact Carried.ite (h.setPosition _ _).composeRecord ((h.enterPhase _).setEngine _)
  · unfold sealGroup
    exact Carried.setCommitEntries ((h.enterPhase _).setEngine _) (by decide)
  all_goals exact h

theorem Carried.recordLineWritten {s : State} (h : Carried s) : Carried (recordLineWritten s) := by
  unfold Machine.recordLineWritten
  split
  · exact h.setEngine _
  · exact (h.setEngine _).recordWritten

theorem Carried.copyLineWritten {s : State} (h : Carried s) : Carried (copyLineWritten s) := by
  unfold Machine.copyLineWritten
  split
  · exact h
  · exact Carried.ite (h.setWriter _) (h.setWriter _)

theorem Carried.retireGroup {s : State} (h : Carried s) : Carried (retireGroup s) := by
  unfold Machine.retireGroup
  split
  · exact h
  · exact ((h.setGroups _).freeEntries _).setEngine _

theorem Carried.retiringLineWritten {s : State} (h : Carried s) : Carried (retiringLineWritten s) := by
  have hc := h.copyLineWritten
  unfold Machine.retiringLineWritten
  dsimp only
  split
  · exact hc.setPosition _ _
  · exact hc.retireGroup

theorem Carried.commitFailed {s : State} (h : Carried s) (r : Report) : Carried (commitFailed s r) := by
  refine Carried.ite (h.reportIncident r) (Carried.reportIncident ?_ r)
  unfold stallGroup
  split
  · exact h
  · exact ((h.changeCommitGroup _).setEngine _).setWriter _

theorem Carried.restartPhase {s : State} (h : Carried s) (p : Phase) : Carried (restartPhase s p) := by
  cases p with
  | journaling => exact h.startJournaling
  | marking => exact h.enterPhase _
  | applying =>
    unfold Machine.restartPhase
    exact (h.enterPhase _).setCommitEntries (by decide)
  | retiring => exact h.startRetiring

theorem Carried.storeLineWritten {s : State} (h : Carried s) : Carried (storeLineWritten s) := by
  unfold Machine.storeLineWritten
  split
  · exact h
  · exact Carried.ite (h.copyLineWritten.completeLong _) h.copyLineWritten

theorem Carried.storeLineFailed {s : State} (h : Carried s) (r : Report) : Carried (storeLineFailed s r) := by
  unfold Machine.storeLineFailed
  split
  · exact h.reportIncident r
  · exact ((h.setWriter _).reportIncident r).completeLong _

theorem Carried.formatLineWritten {s : State} (h : Carried s) : Carried (formatLineWritten s) := by
  unfold Machine.formatLineWritten
  split
  · exact h
  · exact Carried.ite (h.setWriter _)
      (Carried.completeLong (Carried.changeMode (((h.setWriter _).setEngine _).setGroups _) _) _)

theorem Carried.formatLineFailed {s : State} (h : Carried s) (r : Report) : Carried (formatLineFailed s r) := by
  unfold Machine.formatLineFailed
  split
  · exact h.reportIncident r
  · exact ((h.setWriter _).reportIncident r).completeLong _

theorem Carried.endRecovery {s : State} (h : Carried s) (m : Mode) : Carried (endRecovery s m) :=
  ((h.setRecovery _).setGroups _).changeMode m

theorem Carried.recoveryFails {s : State} (h : Carried s) (path : RecoveryPath) : Carried (recoveryFails s path) := by
  have he := (h.setWriter _ : Carried (endCopyWrite s)).endRecovery .config
  cases path with
  | start => exact he
  | command => exact he.completeLong _

theorem Carried.enterRecovery {s : State} (h : Carried s) (path : RecoveryPath) : Carried (enterRecovery s path) := by
  have hm := (h.setRecovery (some (freshRecovery s path))).changeMode .recovering
  cases path with
  | command => exact hm
  | start => exact Carried.ite hm ((hm.recordIncident _).recoveryFails _)

theorem Carried.recordIncidents {rs : List Report} {s : State} (h : Carried s) :
    Carried (rs.foldl Machine.recordIncident s) := by
  induction rs generalizing s with
  | nil => exact h
  | cons r rs ih => exact ih (h.recordIncident r)

theorem Carried.startReadDone {s : State} (h : Carried s) (data : LineData) : Carried (startReadDone s data) := by
  unfold Machine.startReadDone
  split
  · dsimp only
    split
    · exact h.setStart _
    · have hn := fun v w l => Carried.recordIncidents
        (rs := startNotices w (copiesOf (s.start.lines ++ [data]))) (((h.setStart v).setWriter w).setLayout l)
      exact Carried.ite ((hn _ _ _).enterRecovery _) ((hn _ _ _).changeMode _)
  · exact h

theorem Carried.startReadFailed {s : State} (h : Carried s) (line : LineNo) (before : Nat) :
    Carried (startReadFailed s line before) :=
  Carried.ite ((h.reportIncident _).setStart _) (h.reportIncident _)

theorem Carried.startFinalCopy {s : State} (h : Carried s) (r : Recovery) : Carried (startFinalCopy s r) :=
  (h.setRecovery _).setWriter _

theorem Carried.scanLineRead {s : State} (h : Carried s) (data : LineData) : Carried (scanLineRead s data) := by
  unfold Machine.scanLineRead
  split
  · exact h
  · split
    · exact h.setRecovery _
    · unfold positionRead
      split
      · exact h.setRecovery _
      · unfold judgeCandidate
        split
        · exact (h.setEngine _).setRecovery _
        · split
          · exact ((h.recordIncident _).setEngine _).startFinalCopy _
          · exact (h.setEngine _).startFinalCopy _

theorem Carried.replayWritten {s : State} (h : Carried s) : Carried (replayWritten s) := by
  unfold Machine.replayWritten
  split
  · exact h
  · exact Carried.ite (h.setRecovery _) (((h.recordIncident _).setRecovery _).setWriter _)

theorem Carried.recoveryComplete {s : State} (h : Carried s) (r : Recovery) : Carried (recoveryComplete s r) := by
  unfold Machine.recoveryComplete
  split
  · exact ((h.endRecovery _).setControl _).completeLong _
  · exact Carried.ite ((h.endRecovery _).setControl _) (h.endRecovery _)

theorem Carried.recoveryLineWritten {s : State} (h : Carried s) (replay : Bool) :
    Carried (recoveryLineWritten s replay) := by
  have hc := h.copyLineWritten
  unfold Machine.recoveryLineWritten
  dsimp only
  generalize Machine.copyLineWritten s = t at hc
  split
  · exact hc
  · have hp : Carried (if replay = true then setJournalPending t false else t) := Carried.ite (hc.setEngine _) hc
    generalize (if replay = true then setJournalPending t false else t) = u at hp
    split
    · exact hp
    · exact Carried.ite (hp.startFinalCopy _) (hp.recoveryComplete _)

theorem Carried.recoveryOpFailed {s : State} (h : Carried s) (r : Report) : Carried (recoveryOpFailed s r) := by
  have hr := h.reportIncident r
  unfold Machine.recoveryOpFailed
  dsimp only
  generalize Machine.reportIncident s r = t at hr
  split
  · exact hr
  · exact hr.recoveryFails _

/-! ## Grants -/

/-- The slot that a grant marks WRITING. -/
def markedSlot : Requester → Option (Fin 32)
  | .postedDrain k _ _ | .shutdownDrain k _ _ | .inPlaceWrite k _ _ => some k
  | .controllerRead _ _ | .throughWrite _ _ | .journalRecord | .retiringProgress | .storeLayoutLine _ | .formatLine _
  | .startRead _ | .scanRead _ _ | .replayWrite _ _ | .recoveryProgress _ _ _ | .shutdownRecord | .shutdownProgress _ =>
    none

/-- The requester carries every entry that its grant would mark. -/
def Fits (s : State) (r : Requester) : Prop :=
  ∀ e ∈ s.queue.entries, markedSlot r = some e.slot → carriesEntry r e

theorem Fits.of_none {s : State} {r : Requester} (h : markedSlot r = none) : Fits s r :=
  fun e _ he => absurd (h ▸ he) (by simp)

/-- With no operation in flight no entry is WRITING. -/
theorem Carried.free {s : State} (h : Carried s) (ho : s.port.op = none) :
    ∀ e ∈ s.queue.entries, e.state ≠ .writing := by
  intro e he hst
  obtain ⟨op, hop, -⟩ := h.writing e he hst
  exact absurd (ho ▸ hop) (by simp)

/-- What a grant leaves of the queue: the entries of its slot WRITING, the others as they were. -/
theorem markGranted_entries (s : State) (r : Requester) : (markGranted s r).queue.entries =
    s.queue.entries.map (fun e => if markedSlot r = some e.slot then { e with state := .writing } else e) := by
  have mark : ∀ k : Fin 32, (setEntryState s k .writing).queue.entries =
      s.queue.entries.map (fun e => if some k = some e.slot then { e with state := .writing } else e) := by
    intro k
    refine List.map_congr_left (fun e _ => ?_)
    simp only [beq_iff_eq, Option.some.injEq, @eq_comm _ k]
  have same : s.queue.entries = s.queue.entries.map
      (fun e => if (none : Option (Fin 32)) = some e.slot then { e with state := .writing } else e) := by
    simp
  have granted : (match s.access.held with
      | none => s
      | some h => s.setAccess { s.access with held := some { h with wait := .operation } }).queue.entries =
      s.queue.entries := by
    split <;> rfl
  cases r with
  | postedDrain k w i => exact mark k
  | inPlaceWrite k w i => exact mark k
  | shutdownDrain k w i => exact mark k
  | controllerRead a w => exact granted.trans same
  | throughWrite a w => exact granted.trans same
  | _ => exact same

theorem beginStep_queue (s : State) (op : ArrayOp) : (beginStep s op).queue = s.queue := by
  unfold beginStep
  split <;> rfl

theorem beginStep_op (s : State) (op : ArrayOp) : ∃ o, (beginStep s op).port.op = some o ∧ o.requester = op.requester := by
  unfold beginStep
  split
  · exact ⟨_, rfl, rfl⟩
  · exact ⟨_, rfl, rfl⟩

theorem startOp_carried {s : State} {op : ArrayOp} (h : Carried s) (ho : s.port.op = none) (hf : Fits s op.requester) :
    Carried (startOp s op) := by
  obtain ⟨v, hv⟩ := keepLine_eq s op
  unfold startOp
  rw [hv]
  replace h := h.setLineBefore v
  have he : (beginStep (markGranted (s.setLineBefore v) op.requester) op).queue.entries = s.queue.entries.map
      (fun e => if markedSlot op.requester = some e.slot then { e with state := .writing } else e) := by
    exact (congrArg _ (beginStep_queue _ _)).trans (markGranted_entries (s.setLineBefore v) op.requester)
  obtain ⟨o, hop, hr⟩ := beginStep_op (markGranted (s.setLineBefore v) op.requester) op
  refine ⟨?_, fun e hm hst => ⟨o, hop, ?_⟩⟩
  · rw [he, List.map_map, show Entry.slot ∘ (fun e : Entry =>
      if markedSlot op.requester = some e.slot then { e with state := .writing } else e) = Entry.slot from
      funext fun e => by simp only [Function.comp]; split <;> rfl]
    exact h.slots
  · rw [he] at hm
    obtain ⟨x, hx, rfl⟩ := List.mem_map.mp hm
    rw [hr]
    split at hst
    · rename_i hk
      rw [if_pos hk]
      exact carriesEntry_of_same rfl rfl (hf x hx hk)
    · exact absurd hst (h.free ho x hx)

/-- A retry or a read-back goes on with the same requester. -/
theorem beginStep_carried {s : State} {op o : ArrayOp} (h : Carried s) (ho : s.port.op = some o)
    (hr : op.requester = o.requester) : Carried (beginStep s op) := by
  obtain ⟨v, hv, hvr⟩ := beginStep_op s op
  refine ⟨?_, fun e he hst => ⟨v, hv, ?_⟩⟩
  · rw [beginStep_queue]
    exact h.slots
  · rw [beginStep_queue] at he
    obtain ⟨w, hw, hc⟩ := h.writing e he hst
    rw [ho, Option.some.injEq] at hw
    rw [hvr, hr, hw]
    exact hc

/-- An entry of the queue is the only one of its slot. -/
theorem Carried.only {s : State} (h : Carried s) {x e : Entry} (hx : x ∈ s.queue.entries) (he : e ∈ s.queue.entries)
    (hs : x.slot = e.slot) : x = e :=
  List.inj_on_of_nodup_map h.slots hx he hs

theorem eligibleAfter_posted {es : List Entry} {seen : List LineNo} {e : Entry} (h : e ∈ eligibleAfter seen es) :
    e.group = none := by
  induction es generalizing seen with
  | nil => exact absurd h (by simp [eligibleAfter])
  | cons x xs ih =>
    unfold eligibleAfter at h
    split at h
    · exact ih h
    · rename_i hg
      split at h
      · rcases List.mem_cons.mp h with rfl | h
        · simpa using hg
        · exact ih h
      · exact ih h

theorem drainChoice_posted {s : State} {e : Entry} (h : drainChoice s = some e) : e.group = none :=
  eligibleAfter_posted (lowestPriority_mem h)

theorem Carried.fits_drain {s : State} (h : Carried s) {e : Entry} (hd : drainChoice s = some e) {r : Requester}
    {w : WindowIndex} {i : Initiator} (hr : r = .postedDrain e.slot w i ∨ r = .shutdownDrain e.slot w i) :
    Fits s r := by
  intro x hx hk
  rcases hr with rfl | rfl
  all_goals
    have hs : e.slot = x.slot := by simpa [markedSlot] using hk
    rw [h.only hx (drainChoice_mem hd) hs.symm]
    exact ⟨rfl, drainChoice_posted hd⟩

theorem fits_record {s t : State} {r : Requester} {v : Bool} {op : ArrayOp} (ho : recordOp s r v = some op)
    (hr : markedSlot r = none) : Fits t op.requester :=
  Fits.of_none (by rw [recordOp_requester ho]; exact hr)

theorem fits_copy {s t : State} {r : Nat → Requester} {v : Bool} {op : ArrayOp} (ho : copyOp s r v = some op)
    (hr : ∀ n, markedSlot (r n) = none) : Fits t op.requester := by
  obtain ⟨n, hn⟩ := copyOp_requester ho
  exact Fits.of_none (by rw [hn]; exact hr n)

theorem Carried.fits_engine {s : State} (h : Carried s) {op : ArrayOp} (ho : engineOp s = some op) :
    Fits s op.requester := by
  unfold engineOp at ho
  split at ho
  · exact fits_record ho rfl
  · exact fits_record ho rfl
  · obtain ⟨q, -, hq⟩ := Option.bind_eq_some_iff.mp ho
    obtain ⟨e, he, rfl⟩ := Option.map_eq_some_iff.mp hq
    intro x hx hk
    have hs : e.slot = x.slot := by simpa [markedSlot, lineWrite] using hk
    have hg : e.group = some q := by
      have := List.of_mem_filter (List.mem_of_find?_eq_some he)
      simpa using this
    rw [h.only hx (nextInPlace_mem he) hs.symm]
    exact ⟨rfl, by simp [hg]⟩
  · exact fits_copy ho (fun _ => rfl)
  · exact absurd ho (by simp)

theorem Carried.fits_request {s : State} (h : Carried s) {op : ArrayOp}
    (ho : arbiterChoice s.port.passOver (freeSlotCount s.queue) (requestsOf s) = some op) : Fits s op.requester := by
  rcases arbiterChoice_mem ho with hm | hm | hm | hm
  · replace hm : controllerOp s = some op := hm
    unfold controllerOp at hm
    split at hm
    · exact absurd hm (by simp)
    · split at hm
      · split at hm
        all_goals
          simp only [Option.some.injEq] at hm
          subst hm
          exact Fits.of_none rfl
      · exact absurd hm (by simp)
  · unfold requestsOf at hm
    dsimp only at hm
    split at hm
    · obtain ⟨e, he, rfl⟩ := Option.map_eq_some_iff.mp hm
      exact h.fits_drain he (Or.inl rfl)
    · exact absurd hm (by simp)
  · unfold requestsOf at hm
    dsimp only at hm
    split at hm
    · exact h.fits_engine hm
    · exact absurd hm (by simp)
  · unfold requestsOf at hm
    dsimp only at hm
    split at hm
    · unfold writerOp at hm
      split at hm
      · simp only [Option.some.injEq] at hm
        subst hm
        exact Fits.of_none rfl
      · split at hm
        · exact fits_copy hm (fun _ => rfl)
        · exact absurd hm (by simp)
    · exact absurd hm (by simp)

theorem arbitrate_carried {s : State} (h : Carried s) (ho : s.port.op = none) : Carried (arbitrate s) := by
  unfold arbitrate
  dsimp only
  split
  · exact h
  · rename_i op hop
    exact startOp_carried (h.setPassOver _) ho (h.fits_request hop)

/-! ## Shutdown sequencer -/

theorem startValues_carried (pins : Pins) (mem : Memory) (session : Session) (free : Nat) (pending : List Instr) :
    Carried (State.startValues pins mem session free pending) :=
  ⟨List.nodup_nil, fun e he => absurd he (by simp [State.startValues])⟩

theorem enterStarting_carried (s : State) : Carried (enterStarting s) :=
  startOp_carried (startValues_carried _ _ _ _ _) rfl (Fits.of_none rfl)

theorem Carried.abandonLong {s : State} (h : Carried s) : Carried (abandonLong s) := by
  unfold Machine.abandonLong
  split
  · exact h
  · exact Carried.ite h (h.completeLong _)

theorem Carried.clearFlushMarks {s : State} (h : Carried s) : Carried (clearFlushMarks s) :=
  h.mapEntries (fun e => { e with flushMark := false }) rfl (fun _ => rfl) (fun _ => rfl) (fun _ he => he)

theorem Carried.enterShutdown {s : State} (h : Carried s) : Carried (enterShutdown s) := by
  have h1 := ((((h.setControl { s.control with configRequest := false }).changeMode
    .shutdown).refuseHeld.abandonLong).clearFlushMarks).setGroups
  have h2 := fun v => Carried.ite (c := originOf s.control.mode = .config) ((h1 v).setWriter _ : Carried (endCopyWrite _))
    (h1 v)
  exact (((((h2 _).setWriter _).setRecovery _).setStart _).setPassOver _).setShutdown _

theorem Carried.takeShutdownCause {s : State} (h : Carried s) : Carried (takeShutdownCause s) := by
  unfold Machine.takeShutdownCause
  split
  · exact h
  · exact h
  all_goals exact h.enterShutdown

theorem Carried.endShutdown {s : State} (h : Carried s) : Carried (endShutdown s) :=
  Carried.ite (enterStarting_carried _)
    ((((h.setWriter _ : Carried (endCopyWrite s)).setEngine _).setShutdown _).changeMode _)

theorem finalProgressLine_carried {s : State} (h : Carried s) (ho : s.port.op = none) :
    Carried (finalProgressLine s) := by
  unfold finalProgressLine
  split
  · rename_i op hop
    exact startOp_carried h ho (fits_copy hop (fun _ => rfl))
  · exact h

theorem startFinalProgress_carried {s : State} (h : Carried s) (ho : s.port.op = none) :
    Carried (startFinalProgress s) := by
  unfold startFinalProgress
  exact finalProgressLine_carried ((h.setShutdown _ : Carried (setStage s .progress)).setWriter _) ho

theorem drainStage_carried {s : State} (h : Carried s) (ho : s.port.op = none) : Carried (drainStage s) := by
  have hs : Carried (setStage s .drain) := h.setShutdown _
  unfold drainStage
  dsimp only
  generalize ht : setStage s .drain = t at hs
  have hp : t.port.op = none := ht ▸ ho
  split
  · rename_i e he
    split at he
    · exact startOp_carried hs hp (hs.fits_drain he (Or.inr rfl))
    · exact absurd he (by simp)
  · exact startFinalProgress_carried ((hs.freeEntries _).setShutdown _) hp

theorem Carried.planGroups {s : State} (h : Carried s) : Carried (planGroups s) :=
  (Carried.ite (((h.setGroups _).freeEntries _).setEngine _) ((h.setGroups _).freeEntries _)).setShutdown _

theorem planGroups_port (s : State) : (planGroups s).port = s.port := by
  unfold planGroups
  dsimp only
  split <;> rfl

theorem continueGroup_carried {s : State} (h : Carried s) (ho : s.port.op = none) : Carried (continueGroup s) := by
  unfold continueGroup
  split
  · rename_i op hop
    exact startOp_carried h ho (fits_record hop rfl)
  · exact drainStage_carried h ho

theorem advanceShutdown_carried {s : State} (h : Carried s) (ho : s.port.op = none) : Carried (advanceShutdown s) := by
  unfold advanceShutdown
  split
  · have he : Carried (endCopyWrite s) := h.setWriter _
    unfold afterFinishing
    dsimp only
    generalize ht : endCopyWrite s = t at he
    have hp : t.port.op = none := ht ▸ ho
    split
    · exact he.endShutdown
    · exact Carried.ite he.endShutdown (startFinalProgress_carried he hp)
    · have hq : (planGroups t).port.op = none := by rw [planGroups_port]; exact hp
      exact Carried.ite (continueGroup_carried he.planGroups hq) (drainStage_carried he.planGroups hq)
  · exact continueGroup_carried h ho
  · exact drainStage_carried h ho
  · exact finalProgressLine_carried h ho
  · exact h

/-! ## The end of a handling -/

theorem drivePort_carried {s : State} (h : Carried s) : Carried (drivePort s) := by
  unfold drivePort
  split
  · exact h
  · rename_i ho
    have ha := Carried.ite (c := readDue s = true) h (arbitrate_carried h ho)
    split
    · exact Carried.ite h (startOp_carried h ho (Fits.of_none rfl))
    · split
      · rename_i op hop
        obtain ⟨r, -, hr⟩ := Option.bind_eq_some_iff.mp hop
        refine startOp_carried h ho ?_
        unfold recoveryOp at hr
        split at hr
        · simp only [Option.some.injEq] at hr
          subst hr
          exact Fits.of_none rfl
        · obtain ⟨x, -, rfl⟩ := Option.map_eq_some_iff.mp hr
          exact Fits.of_none rfl
        · exact fits_copy hr (fun _ => rfl)
        · exact fits_copy hr (fun _ => rfl)
      · exact h
    · exact ha
    · exact ha
    · exact ha
    · exact ha
    · exact advanceShutdown_carried h ho
    · exact h

/-- What every handling does last keeps each WRITING entry carried. -/
theorem settle_carried {s : State} (h : Carried s) : Carried (settle s) := by
  have h1 : Carried (flushCheck (takeNextGroup s)) := Carried.ite (h.takeNextGroup.completeLong _) h.takeNextGroup
  have h2 : Carried (handoverCheck (flushCheck (takeNextGroup s))) := Carried.ite (h1.enterConfig _) h1
  exact drivePort_carried (Carried.ite h2 (h2.setPassOver 0))

/-! ## Outcomes of the operation in flight -/

/-- At the end of an operation the port is free, and an entry is WRITING only where that operation carried it. -/
structure Ending (s : State) (r : Requester) : Prop where
  slots : (s.queue.entries.map Entry.slot).Nodup
  free : s.port.op = none
  writing : ∀ e ∈ s.queue.entries, e.state = .writing → carriesEntry r e

theorem Carried.ending {s : State} (h : Carried s) {op : ArrayOp} (ho : s.port.op = some op) :
    Ending (freePort s) op.requester where
  slots := h.slots
  free := rfl
  writing e he hst := by
    obtain ⟨v, hv, hc⟩ := h.writing e he hst
    rw [ho, Option.some.injEq] at hv
    rw [hv]
    exact hc

theorem Ending.carried {s : State} {r : Requester} (h : Ending s r) (hr : ∀ e, ¬carriesEntry r e) : Carried s :=
  ⟨h.slots, fun e he hst => absurd (h.writing e he hst) (hr e)⟩

/-- The drained entry is the only one WRITING, and it leaves the queue. -/
theorem Ending.removeDrained {s : State} {r : Requester} {k : Fin 32} (h : Ending s r) (failed : Bool)
    (hr : ∀ e, carriesEntry r e → k = e.slot ∧ e.group = none) : Carried (removeDrained s k failed) := by
  have hd : ∀ e ∈ s.queue.entries, e.state = .writing → e.slot = k ∧ e.group = none := fun e he hst =>
    ⟨(hr e (h.writing e he hst)).1.symm, (hr e (h.writing e he hst)).2⟩
  unfold Machine.removeDrained
  split
  · rename_i hn
    refine ⟨h.slots, fun e he hst => ?_⟩
    obtain ⟨hs, hg⟩ := hd e he hst
    have := List.find?_eq_none.mp hn e he
    simp [hs, hg, hst] at this
  · have hq : ∀ n b, Carried (s.setQueue { s.queue with
        entries := s.queue.entries.filter (fun x => !(x.slot == k)), outstanding := n, lossNote := b }) := by
      intro n b
      refine ⟨h.slots.sublist (List.filter_sublist.map _), fun e he hst => ?_⟩
      obtain ⟨hm, hk⟩ := List.mem_filter.mp he
      exact absurd (hd e hm hst).1 (by simpa using hk)
    exact Carried.ite ((hq _ _).setControl _) (hq _ _)

/-- The entry written in place is the only one WRITING, and it takes another state. -/
theorem Ending.setEntryState {s : State} {k : Fin 32} {w : WindowIndex} {i : Initiator} {st : EntryState}
    (h : Ending s (.inPlaceWrite k w i)) (hst : st ≠ .writing) : Carried (setEntryState s k st) where
  slots := by
    show ((s.queue.entries.map _).map Entry.slot).Nodup
    rw [List.map_map, show Entry.slot ∘ (fun e : Entry => if (e.slot == k) = true then { e with state := st } else e) =
      Entry.slot from funext fun e => by simp only [Function.comp]; split <;> rfl]
    exact h.slots
  writing e he hw := by
    obtain ⟨x, hx, rfl⟩ := List.mem_map.mp he
    split at hw
    · exact absurd hw hst
    · rename_i hk
      exact absurd (h.writing x hx hw).1.symm (by simpa using hk)

theorem Ending.opCompleted {s : State} {op : ArrayOp} (h : Ending s op.requester) (data : LineData) :
    Carried (opCompleted s op data) := by
  obtain ⟨r, k, l, d, e, n, p, b⟩ := op
  cases r with
  | postedDrain k w i => exact h.removeDrained false (fun e he => he)
  | shutdownDrain k w i => exact h.removeDrained false (fun e he => he)
  | inPlaceWrite k w i =>
    have he := h.setEntryState (st := .applied) (by decide)
    exact Carried.ite (he.setPosition _ _) he.startRetiring
  | controllerRead a w =>
    have hc := h.carried (fun _ he => he)
    show Carried (readCompleted s data)
    unfold readCompleted
    split
    · exact hc.setAccess _
    · exact hc
  | throughWrite a w =>
    have hc := h.carried (fun _ he => he)
    show Carried (throughCompleted s)
    unfold throughCompleted
    split
    · exact hc.finishWrite _
    · exact hc
  | journalRecord => exact (h.carried (fun _ he => he)).recordLineWritten
  | shutdownRecord => exact (h.carried (fun _ he => he)).recordLineWritten
  | retiringProgress => exact (h.carried (fun _ he => he)).retiringLineWritten
  | storeLayoutLine n => exact (h.carried (fun _ he => he)).storeLineWritten
  | formatLine n => exact (h.carried (fun _ he => he)).formatLineWritten
  | startRead n => exact (h.carried (fun _ he => he)).startReadDone data
  | scanRead q n => exact (h.carried (fun _ he => he)).scanLineRead data
  | replayWrite q n => exact (h.carried (fun _ he => he)).replayWritten
  | recoveryProgress q c n => exact (h.carried (fun _ he => he)).recoveryLineWritten c
  | shutdownProgress n =>
    have hc := (h.carried (fun _ he => he)).copyLineWritten
    exact Carried.ite hc hc.endShutdown

theorem Ending.opFailed {s : State} {op : ArrayOp} (h : Ending s op.requester) (f : Failure) :
    Carried (opFailed s op f) := by
  obtain ⟨r, k, l, d, e, n, p, b⟩ := op
  cases r with
  | postedDrain k w i => exact (h.removeDrained true (fun e he => he)).reportIncident _
  | shutdownDrain k w i => exact (h.removeDrained true (fun e he => he)).reportIncident _
  | inPlaceWrite k w i => exact (h.setEntryState (st := .ready) (by decide)).commitFailed _
  | controllerRead a w =>
    have hc := h.carried (fun _ he => he)
    exact Carried.ite ((hc.setAccess _).reportIncident _) hc
  | throughWrite a w =>
    have hc := h.carried (fun _ he => he)
    exact (Carried.ite (hc.setAccess _) hc).reportIncident _
  | journalRecord => exact (h.carried (fun _ he => he)).commitFailed _
  | retiringProgress => exact ((h.carried (fun _ he => he)).setWriter _).commitFailed _
  | storeLayoutLine n => exact (h.carried (fun _ he => he)).storeLineFailed _
  | formatLine n => exact (h.carried (fun _ he => he)).formatLineFailed _
  | startRead n => exact (h.carried (fun _ he => he)).startReadFailed _ _
  | scanRead q n => exact (h.carried (fun _ he => he)).recoveryOpFailed _
  | replayWrite q n => exact (h.carried (fun _ he => he)).recoveryOpFailed _
  | recoveryProgress q c n => exact (h.carried (fun _ he => he)).recoveryOpFailed _
  | shutdownRecord => exact (h.carried (fun _ he => he)).reportIncident _
  | shutdownProgress n => exact ((h.carried (fun _ he => he)).setWriter _).reportIncident _

theorem landStep_carried {s : State} {op : ArrayOp} {took : LineData} (h : Carried s) :
    Carried (landStep s op took) ∧ (landStep s op took).port = s.port := by
  unfold landStep
  split
  · exact ⟨h.setMem _, rfl⟩
  · exact ⟨h, rfl⟩
  · exact ⟨h, rfl⟩

theorem spoilCopy_carried {s : State} {op : ArrayOp} {took : LineData} (h : Carried s) :
    Carried (spoilCopy s op took) ∧ (spoilCopy s op took).port = s.port := by
  obtain ⟨m, hm, _⟩ := spoilCopy_eq s op took
  rw [hm]
  exact ⟨h.setMem m, rfl⟩

theorem failed_carried {s : State} {op : ArrayOp} (h : Carried s) (ho : s.port.op = some op) (took : LineData)
    (f : Failure) : Carried (opFailed (freePort (spoilCopy s op took)) op f) := by
  obtain ⟨hs, hpo⟩ := spoilCopy_carried (op := op) (took := took) h
  exact (hs.ending (hpo ▸ ho)).opFailed f

theorem stepEnded_carried {s : State} {op : ArrayOp} {took : LineData} (h : Carried s) (ho : s.port.op = some op) :
    Carried (stepEnded s op took) := by
  have hc := (h.ending ho).opCompleted (s.mem.readLine op.line)
  unfold stepEnded
  dsimp only
  split
  · exact hc
  · split
    · exact beginStep_carried h ho rfl
    · unfold compareReadBack
      exact Carried.ite hc (Carried.ite (beginStep_carried h ho rfl) (failed_carried h ho took _))
    all_goals exact hc

theorem readyAsserted_carried {s : State} (h : Carried s) (took : LineData) : Carried (readyAsserted s took) := by
  have hp := h.setPins { s.pins with arrayReady := true }
  unfold readyAsserted
  dsimp only
  generalize s.setPins { s.pins with arrayReady := true } = t at hp
  split
  · exact hp
  · rename_i op ho
    obtain ⟨hl, hpo⟩ := landStep_carried (op := op) (took := took) hp
    exact Carried.ite (settle_carried (stepEnded_carried hl (hpo ▸ ho))) (beginStep_carried hp ho rfl)

theorem stepTimedOut_carried {s : State} (h : Carried s) (took : LineData) : Carried (stepTimedOut s took) := by
  unfold stepTimedOut
  split
  · exact h
  · rename_i op ho
    have hf : Carried (opFailed (freePort (spoilCopy (if op.presented = true then landStep s op took else s) op took)) op
        .timeout) := by
      obtain ⟨hl, hpo⟩ := landStep_carried (op := op) (took := took) h
      split
      · exact failed_carried hl (hpo ▸ ho) took _
      · exact failed_carried h ho took _
    exact settle_carried (Carried.ite hf.endShutdown hf)

/-! ## Commands -/

theorem Carried.refuseAccess {s : State} (h : Carried s) (a : Access) (r : Report) : Carried (refuseAccess s a r) := by
  have hr := (h.setAccess _ : Carried (finishAccess s .refuse)).recordIncident r
  exact (Carried.ite (hr.changeCounter _ _) hr).carryOut _ _

theorem Carried.takeAnew {s : State} (h : Carried s) (write : Bool) : Carried (takeAnew s write) := by
  unfold Machine.takeAnew
  split
  · exact h
  · exact Carried.ite (settle_carried (h.takeAccess _)) h

theorem Carried.stallExpiry {s : State} (h : Carried s) : Carried (stallExpiry s) := by
  unfold Machine.stallExpiry
  split
  · exact h
  · split
    · exact h
    · exact settle_carried ((h.setAccess _ : Carried (finishAccess s .refuse)).reportIncident _)

theorem Carried.markPosted {s : State} (h : Carried s) : Carried (markPosted s) :=
  h.mapEntries (fun e => if e.group.isNone then { e with flushMark := true } else e) rfl
    (fun e => by split <;> rfl) (fun e => by split <;> rfl) (fun e => by split <;> exact id)

theorem Carried.acceptFlush {s : State} (h : Carried s) (all : Bool) : Carried (acceptFlush s all) := by
  have hm := (h.setControl _ : Carried (acceptLong s .flush)).markPosted
  exact settle_carried (Carried.ite ((hm.setGroups _ : Carried (closeOpen _ _)).setGroups _) hm)

theorem Carried.acceptConfig {s : State} (h : Carried s) : Carried (acceptConfig s) := by
  have hc := fun v => (((h.setControl _ : Carried (acceptLong s .requestConfig)).setControl v).refuseHeldWrite).setGroups
  exact settle_carried (Carried.ite (hc _ _ : Carried (closeOpen _ _)).abandonPath (hc _ _))

theorem Carried.resume {s : State} (h : Carried s) : Carried (resume s) := by
  have hc := (h.setControl { s.control with haltCause := none }).changeMode .run
  refine settle_carried ?_
  unfold restartStalled
  split
  · exact hc
  · exact hc.restartPhase _

theorem Carried.acknowledge {s : State} (h : Carried s) (e : EventSet) : Carried (acknowledge s e) := by
  have h1 : Carried (if e.fault = true then ackFault s else s) :=
    Carried.ite ((h.setRecorder _ : Carried (clearEvent s _)).setRecorder _) h
  unfold Machine.acknowledge
  dsimp only
  generalize (if e.fault = true then ackFault s else s) = t at h1
  have h2 : Carried (if e.confinement = true then ackConfinement t else t) := by
    have hc : Carried (copyReported (clearEvent t .confinement)) :=
      (h1.setRecorder _ : Carried (clearEvent t .confinement)).setConfinement _
    exact Carried.ite (Carried.ite (Carried.ite (hc.raise _) hc) h1) h1
  generalize (if e.confinement = true then ackConfinement t else t) = u at h2
  have h3 : Carried (if e.mode = true then clearEvent u .mode else u) := Carried.ite (h2.setRecorder _) h2
  exact Carried.ite (h3.setRecorder _) h3

end Sys2Proof.Machine
end

