-- ==== Sys2Proof/Tests/Slice0.lean ====
section
/-! SUPPORT. Tests: the check on commands, values of the manual's worked examples, and for each statement with
hypotheses a state that meets them. -/

set_option Elab.async false

namespace Sys2Proof.Tests

open Sys2Proof Sys2Proof.Machine

/-! ## Commands -/

/-- UNKNOWN_COMMAND with a code of the command table is refused. -/
theorem test_wellFormed_refuses_a_named_code : Instr.wellFormed (.unknownCommand 0x01) = false := by decide

/-- So is every other code of the table. -/
theorem test_wellFormed_refuses_every_named_code :
    ∀ c ∈ commandCodes, Instr.wellFormed (.unknownCommand c) = false := by decide

/-- A code outside the table is accepted, and so is a command of the table with any check byte. -/
theorem test_wellFormed_accepts : Instr.wellFormed (.unknownCommand 0x04) = true ∧
    Instr.wellFormed (.flush 0x07 0x00) = true := by decide

/-- No word spells a command. -/
theorem test_no_word_spells_a_command : (decodeTableWord 0 0).isNone = true ∧
    (State.reset.withFetchWord 8 1).pending = [] := by decide +kernel

/-! ## Small states -/

/-- A window in the columns of the manual's examples. -/
def window (matchBits care : BitVec 21) (cls : BitVec 3) (verify : Bool) (priority : BitVec 2) (writers : BitVec 4) :
    Window :=
  { enabled := true, matchBits := matchBits, care := care, cls := cls, verify := verify, priority := priority,
    writers := writers }

/-- The layout of 4.6. -/
def layout : Layout :=
  { settings := { Layout.builtIn.settings with capacityCode := 1, journalBase := 0x000400 }
    windows := #v[window 0x000840 0x1FFFF0 4 false 0 0x1, window 0x000800 0x1FFF00 3 false 0 0x3,
      window 0x000000 0x1FF000 2 false 1 0xF,
      { window 0 0 1 false 0 0xF with enabled := false },
      window 0x001001 0x1FF001 1 true 0 0x4,
      Window.builtIn, Window.builtIn, Window.builtIn, Window.builtIn, Window.builtIn, Window.builtIn, Window.builtIn] }

/-- The part in a mode, its port free, its layout that of 4.6 and stored, a session begun. -/
def inMode (m : Mode) : State :=
  let s := State.startValues { pfwN := true, crstN := true, mselN := false, arrayReady := true } [] Session.begun 0 []
  { s with
    layout := layout
    writer := { s.writer with
      newestLayout := some .a, layoutGeneration := 7, storedImage := some layout
      newestProgress := some .b, progressGeneration := 0x12C, retiredThrough := 0xA36 }
    groups := { s.groups with nextSequence := 0xA37 }
    control := { s.control with mode := m } }

/-- An entry of window W2 on a line. -/
def entry (slot : Fin 32) (line : LineNo) (valid : ByteSet) (data : LineData) : Entry :=
  { slot := slot, line := line, data := data, valid := valid, window := 2, group := none, lastWriter := 0,
    arrival := 0, state := .ready, flushMark := false }

/-- An entry of a group. -/
def groupEntry (slot : Fin 32) (line : LineNo) (valid : ByteSet) (data : LineData) (q : Seq) (st : EntryState) : Entry :=
  { entry slot line valid data with window := 1, group := some q, state := st }

/-- A group record. -/
def record (q : Seq) (st : GroupState) (lines : Nat) : Group :=
  { sequence := q, state := st, lineCount := lines, closeCause := none, journalPosition := 0 }

/-- The queue holds these entries. -/
def withEntries (s : State) (es : List Entry) : State :=
  s.setQueue { s.queue with entries := es, arrivalCounter := 0x105 }

/-- The group table holds these records. -/
def withGroups (s : State) (gs : List Group) : State :=
  s.setGroups { s.groups with table := gs }

/-- A presented operation is in flight. -/
def withOp (s : State) (op : ArrayOp) : State :=
  (s.setPins { s.pins with arrayReady := false }).setPort { op := some { op with presented := true }, passOver := 0 }

/-- An access is held. -/
def withHeld (s : State) (h : Held) : State :=
  s.setAccess { held := some h, answer := some .stall }

/-- A line read of no one's line. -/
def someRead : ArrayOp := lineRead (.controllerRead { initiator := 0, address := 0x2080, op := .read .one } none) 0x410

/-- A write of an initiator. -/
def writes (i : Initiator) (a : Addr) (op : AccessOp) : Access :=
  { initiator := i, address := a, op := op }

/-- The state after a command; the state itself where there is none. -/
def after (c : Instr) (s : State) : State :=
  match exec c s with
  | .next t => t
  | .fault _ => s
  | .refused _ => s

/-- The command answers a next state. -/
def completes (c : Instr) (s : State) : Bool :=
  match exec c s with
  | .next _ => true
  | .fault _ => false
  | .refused _ => false

/-- A command that completes answers the state `after` it. -/
theorem exec_after {c : Instr} {s : State} (h : completes c s = true) : exec c s = .next (after c s) := by
  unfold completes at h
  unfold after
  cases e : exec c s <;> simp_all

/-- A Bool that says `Sound`. -/
def soundB (s : State) : Bool :=
  s.mem.wf
    && s.access.held.all (fun h => aligned h.access)
    && decide (s.queue.entries.map Entry.slot).Nodup
    && s.queue.entries.all (fun e =>
      e.valid != 0 && e.data &&& ~~~(laneMask e.valid) == 0 && (!e.flushMark || e.group.isNone))
    && decide (s.queue.outstanding ≤ 32)
    && decide (s.groups.table.length ≤ 4)
    && decide (s.port.passOver ≤ 8)
    && s.port.op.all (fun op =>
      decide (1 ≤ op.attempt) && decide (op.attempt ≤ 3) && (op.kind == .lineRead || op.enables != 0))
    && decide (s.start.lines.length < 36)
    && s.recovery.isNone
    && decide (s.shutdown.budget ≤ 65535) && decide (s.shutdown.postedAbandoned ≤ 32)
    && decide (s.shutdown.groupsAbandoned ≤ 4)
    && decide (∀ i : Initiator, s.confinement[i].counter ≤ 511 ∧
      (s.confinement[i].state ≠ .fenced → s.confinement[i].state = standingOf s.confinement[i].counter))
    && decide (s.recorder.incidents.length ≤ 16)

/-- What `soundB` says. -/
theorem sound_of {s : State} (h : soundB s = true) : Sound s := by
  simp only [soundB, Bool.and_eq_true, decide_eq_true_eq, List.all_eq_true, Option.all_eq_true, Bool.or_eq_true,
    bne_iff_ne, beq_iff_eq, Option.isNone_iff_eq_none, Bool.not_eq_true', ne_eq] at h
  obtain ⟨⟨⟨⟨⟨⟨⟨⟨⟨⟨⟨⟨⟨⟨h1, h2⟩, h3⟩, h4⟩, h5⟩, h6⟩, h7⟩, h8⟩, h9⟩, h10⟩, h11⟩, h12⟩, h13⟩, h14⟩, h15⟩ := h
  refine ⟨h1, fun a ha => h2 a ha, ⟨h3, fun e he => ?_, h5⟩, h6, ⟨h7, fun op ho => ?_⟩, h9, fun v hv => ?_,
    ⟨h11, h12, h13⟩, h14, h15⟩
  · obtain ⟨⟨a, b⟩, c⟩ := h4 e he
    exact ⟨a, b, fun hm => by simpa [hm] using c⟩
  · obtain ⟨⟨a, b⟩, c⟩ := h8 op ho
    exact ⟨a, b, fun hk => by simpa [hk] using c⟩
  · simp [h10] at hv

/-- With no entry WRITING there is nothing to carry. -/
theorem carried_of {s : State} (h : ∀ e ∈ s.queue.entries, e.state ≠ .writing) : WritingCarried s :=
  fun e he hw => absurd hw (h e he)

/-! ## Values of the worked examples -/

/-- CRC-8 of short messages: of 0x01 the polynomial itself. -/
theorem test_crc8 : crc8 [0x01] = 0x07 ∧ crc8 [0x02] = 0x0E ∧ crc8 [] = 0x00 := by decide +kernel

/-- The generic check value of CRC-32 with R1's parameters over the bytes "123456789". -/
theorem test_crc32 : crc32 [0x31, 0x32, 0x33, 0x34, 0x35, 0x36, 0x37, 0x38, 0x39] = 0xFC891918 := by decide +kernel

/-- The three entries of 3.5. -/
def entryA : Entry := groupEntry 7 0x000900 0x0F 0x1234567800000000 0xA37 .held
def entryB : Entry := groupEntry 8 0x000901 0xFF 0x000001F400000064 0xA37 .held
def entryC : Entry := groupEntry 12 0x0009A2 0x30 0x000000009ABC0000 0xA37 .held

/-- The line records and the commit record of 3.5, byte for byte. -/
theorem test_records_of_3_5 :
    (lineRecord 0xA37 0 entryA).first = 0x31370F0000090008 ∧ (lineRecord 0xA37 1 entryB).first = 0x3137FF0100090161 ∧
      (lineRecord 0xA37 2 entryC).first = 0x313730020009A2B9 ∧
      commitRecord 0xA37 3 (some .boundary)
          (crc32 (recordBytes (lineRecord 0xA37 0 entryA) ++ recordBytes (lineRecord 0xA37 1 entryB) ++
            recordBytes (lineRecord 0xA37 2 entryC))) =
        { first := 0x3C37030100000A37, second := 0x0CE57EB5FFFFF5C8 } := by decide +kernel

/-- The engine's first line of 3.5 goes to journal line 0x80. -/
theorem test_journal_lines_of_3_5 :
    journalHalfLine 0x400 0 .first = 0x80 ∧ journalHalfLine 0x400 3 .second = 0x87 := by decide

/-- The seven grants of 5.3's example: the requester granted and the pass-over count after it. -/
def asks (controller drain engine : Bool) : Requests :=
  { controller := if controller then some someRead else none
    drain := if drain then some (lineWrite (.postedDrain 0 2 0) false 0 0 1) else none
    engine := if engine then some (lineWrite .journalRecord true 0 0 1) else none
    writer := none }

def grantOf (passOver free : Nat) (r : Requests) : Option (Requester × Nat) :=
  (arbiterChoice passOver free r).map (fun op => (op.requester, passOverAfter passOver r op))

theorem test_grants :
    grantOf 5 9 (asks true true true) = some (someRead.requester, 6) ∧
      grantOf 6 9 (asks false true true) = some (.journalRecord, 7) ∧
      grantOf 7 9 (asks true true true) = some (someRead.requester, 8) ∧
      grantOf 8 9 (asks true true true) = some (.postedDrain 0 2 0, 0) ∧
      grantOf 0 10 (asks true true true) = some (someRead.requester, 1) ∧
      grantOf 1 4 (asks false true true) = some (.postedDrain 0 2 0, 0) ∧
      grantOf 0 5 (asks false true true) = some (.journalRecord, 1) ∧
      grantOf 0 10 (asks false false true) = some (.journalRecord, 0) := by decide +kernel

/-- The refusal a check reports, as detail, initiator and window. -/
def refusal (d : Detail) (a : Access) (w : Option WindowIndex) : Verdict :=
  .refused { detail := d, initiator := some a.initiator, address := some a.address, window := w }

/-- The eight accesses of 4.6 through the checks. -/
theorem test_checks_of_4_6 :
    let s := inMode .run
    let a1 := writes 0 0x004200 (.write32 0)
    let a2 := writes 1 0x004803 (.write16 0)
    let a3 := writes 2 0x000404 (.read .four)
    let a5 := writes 3 0x008011 (.write8 0)
    let a6 := writes 3 0x004400 (.write32 0)
    let a7 := writes 0 0x020000 (.read .two)
    checkAccess s a1 = refusal .d220 a1 (some 0) ∧ checkAccess s a2 = refusal .d272 a2 none ∧
      checkAccess s a3 = refusal .d243 a3 none ∧
      checkAccess s (writes 2 0x008009 (.write8 0)) =
        .accepted { window := some 4, cls := .through, verify := true, writers := 0x4 } ∧
      checkAccess s a5 = refusal .d212 a5 none ∧ checkAccess s a6 = refusal .d230 a6 (some 1) ∧
      checkAccess s a7 = refusal .d281 a7 none ∧
      checkAccess s (writes 1 0x002000 (.write32 0)) =
        .accepted { window := some 2, cls := .posted, verify := false, writers := 0xF } := by decide +kernel

/-- The refusal of step 1 of 4.6: answer, incident, count. -/
theorem test_refusal_of_4_6 :
    let t := after (.controllerAccess (writes 0 0x004200 (.write32 0))) (inMode .run)
    t.access = { held := none, answer := some .refuse } ∧
      t.recorder.incidents.map (fun i => (i.report.detail, i.report.window, i.reaction)) =
        [(.d220, some 0, .record)] ∧
      t.confinement[0].counter = 8 ∧ attnN t = false := by decide +kernel

/-- Slot 0 of 1.7 after steps 1 and 2, and what the read of step 3 returns over the array's bytes. -/
theorem test_merge_and_overlay_of_1_7 :
    let s := withOp (withEntries (inMode .run) []) someRead
    let t := after (.controllerAccess (writes 0 0x002080 (.write32 0x11223344))) s
    let e : Entry := { entry 0 0x410 0x0F 0x1122334400000000 with arrival := 0x105 }
    let merged := mergeEntry (writes 1 0x002086 (.write16 0xAABB)) e
    t.queue.entries = [e] ∧ t.queue.arrivalCounter = 0x106 ∧ t.access.answer = some (.done []) ∧
      merged = { e with data := 0x112233440000AABB, valid := 0xCF, lastWriter := 1 } ∧
      requestedBytes (writes 0 0x002084 (.read .four)) (overlay 0x0102030405060708 [merged]) =
        [0x05, 0x06, 0xAA, 0xBB] := by decide +kernel

/-- The read of step 7 of 1.7: held while slot 0 is WRITING; slot 1 takes the write of step 5. -/
theorem test_writing_entry_of_1_7 :
    let e0 := { entry 0 0x410 0xCF 0x112233440000AABB with state := .writing }
    let e1 := entry 1 0x410 0x06 0x0055660000000000
    let s := withOp (withEntries (inMode .run) [e0, e1]) someRead
    let t := after (.controllerAccess (writes 0 0x002080 (.read .two))) s
    let u := after (.controllerAccess (writes 1 0x002081 (.read .one))) s
    t.access.answer = some .stall ∧ t.access.held.map Held.wait = some .writingEntry ∧
      u.access.answer = some (.done [0x55]) := by decide +kernel

/-- Drain order of chapter 1's example: windows W5, W1 and W7 with priorities 2, 1 and 3. -/
theorem test_drain_order :
    let p (n : BitVec 2) : Window := window 0 0 2 false n 0xF
    let l := { layout with windows := ((layout.windows.set 5 (p 2)).set 1 (p 1)).set 7 (p 3) }
    let e (k : Fin 32) (line : LineNo) (w : WindowIndex) : Entry := { entry k line 1 0 with window := w }
    let s := (withEntries (inMode .run) [e 11 0x1F00 7, e 4 0x120 5, e 9 0xA08 1, e 6 0xA00 1]).setLayout l
    let without (slots : List (Fin 32)) : State := freeEntries s (fun x => slots.contains x.slot)
    (drainChoice s).map Entry.slot = some 9 ∧ (drainChoice (without [9])).map Entry.slot = some 6 ∧
      (drainChoice (without [9, 6])).map Entry.slot = some 4 ∧
      (drainChoice (without [9, 6, 4])).map Entry.slot = some 11 := by decide +kernel

/-- The plan of 9.6: need 10, CONTINUE with 19 on the counter, abandoned with 11. -/
theorem test_plan_of_9_6 :
    let g := { record 0x214 (.inPhase .journaling) 7 with journalPosition := 3 }
    let s (budget : Nat) : State :=
      (withGroups (inMode .shutdown) [g]).setShutdown { (inMode .shutdown).shutdown with budget := budget }
    groupNeed (s 19) g = 10 ∧ (planGroups (s 19)).shutdown.plan = some .continue ∧
      (planGroups (s 15)).shutdown.plan = some .continue ∧ (planGroups (s 11)).groups.table = [] ∧
      (planGroups (s 11)).shutdown.groupsAbandoned = 1 ∧ (planGroups (s 12)).shutdown.plan = some .continue := by
  decide +kernel

/-- The counts of 10.4: 166 is SUSPECT and reported with sensitivity 2, the FENCE reaction sets 320. -/
theorem test_standings_of_10_4 :
    standingOf 63 = .clean ∧ standingOf 64 = .noisy ∧ standingOf 159 = .noisy ∧ standingOf 166 = .suspect ∧
      standingOf 319 = .suspect ∧ standingOf 320 = .fenced ∧ reportable 2 .noisy .suspect = true ∧
      reportable 2 .clean .noisy = false ∧ reportable 3 .clean .noisy = true ∧ reportable 1 .suspect .noisy = false ∧
      (fenceInitiator (inMode .run) 1).confinement[1] = { counter := 320, state := .fenced, reported := .fenced } := by
  decide +kernel

/-- A generation wraps: 0 is newer than 0xFFFFFFFF. -/
theorem test_generations_wrap : newestCopy (some 0) (some 0xFFFFFFFF) = some .a ∧
    newestCopy (some 0xFFFFFFFF) (some 0) = some .b ∧ newestCopy (some 9) (some 5) = some .a := by decide

/-- A layout whose class code names no class stops an access by name (log 14). -/
theorem test_reserved_class_faults :
    let l := { layout with windows := layout.windows.set 2 (window 0 0 5 false 0 0xF) }
    completes (.controllerAccess (writes 1 0x002000 (.read .one))) ((inMode .run).setLayout l) = false := by
  decide +kernel

/-! ## States that meet the hypotheses of the statements -/

/-- `Sound` holds of more than the state at reset: a full group table, entries, a held write, an operation. -/
def busy : State :=
  withHeld
    (withOp
      (withGroups (withEntries (inMode .run) [entry 3 0x410 0x0F 0x1122334400000000, entryA])
        [record 0xA37 (.inPhase .journaling) 1, record 0xA38 .open 0])
      someRead)
    { access := writes 0 0x4000 (.write8 0), cls := { window := some 1, cls := .grouped, verify := false, writers := 3 }
      wait := .slot, firstHeld := 5 }

theorem test_hyp_EveryStepKeepsSound : Sound busy ∧ step busy = .next (tick busy) :=
  ⟨sound_of (by decide +kernel), rfl⟩

theorem test_hyp_EveryStepKeepsModesAgree : ModesAgree (withOp (inMode .halted) someRead) ∧
    step (withOp (inMode .halted) someRead) = .next (tick (withOp (inMode .halted) someRead)) := by
  refine ⟨⟨⟨?_, ?_, ?_, ?_, ?_, ?_, ?_, ?_, ?_, ?_, ?_⟩, ?_, ?_⟩, rfl⟩
  case refine_9 =>
    intro r hr
    have : r = someRead.requester := (Option.some.inj hr).symm
    subst this
    exact ⟨by decide, fun h => by simp [withOp, inMode, State.modeView, State.startValues, State.setPort, State.setPins] at h⟩
  all_goals simp [withOp, someRead, inMode, State.modeView, State.startValues, State.setPort, State.setPins,
    ModeView.writes, lineRead]

/-- A session in each phase on an empty queue: the clocked byte. -/
theorem test_hyp_TimeCountsTheStamp :
    let sends (n : Nat) : State := (inMode .run).setSession
      { phase := .response, byteCount := 2, received := [], response := List.replicate n 0x55, trailingByte := 0xFF }
    (inMode .run).pending = [] ∧ (inMode .run).powered = true ∧ ((inMode .run).setPowered false).powered = false ∧
      (tick (inMode .run)).recorder.stamp = 1 ∧ (tick (inMode .run)).session = (inMode .run).session ∧
      (tick (sends 2)).session.phase = .response ∧ (tick (sends 1)).session.phase = .trailing ∧
      (tick (tick (sends 1))).session.byteCount = 4 ∧ msdo (tick (sends 1)) = some 0xFF := by decide +kernel

theorem test_stampCounterWrap :
    (after .stampCounterWrap ((inMode .run).setRecorder { (inMode .run).recorder with stamp := 0xFFFFFFFF })).recorder.stamp
      = 0 := by decide +kernel

theorem test_hyp_WithoutSupplyNothingHappens :
    let s := after .powerLoss (inMode .run)
    s.powered = false ∧ readyOut (inMode .run) = true ∧ readyOut s = false ∧ attnN s = true ∧
      (msdo (inMode .run)).isSome = true ∧ msdo s = none ∧ after .pfwNFall s = s := by decide +kernel

/-- A masked write of bytes 0 to 3 of line 0x410 by the posted drain, presented. -/
def drainWrite : ArrayOp := lineWrite (.postedDrain 3 2 0) false 0x410 0x1122334400000000 0x0F

/-- The queue with the entry that `drainWrite` writes. -/
def draining : State :=
  withOp (withEntries (inMode .run)
      [{ entry 3 0x410 0x0F 0x1122334400000000 with state := .writing, flushMark := true }, entry 5 0x411 0x01 0])
    drainWrite

/-- Its WRITING entry is the one that `drainWrite` carries. -/
theorem draining_carried : WritingCarried draining := by
  intro e he hw
  simp only [draining, withOp, withEntries, State.setPort_queue, State.setPins_queue, State.setQueue_queue,
    List.mem_cons, List.not_mem_nil, or_false] at he
  rcases he with rfl | rfl
  · exact ⟨_, rfl, rfl, rfl⟩
  · exact absurd hw (by decide)

theorem test_hyp_OnlyArrayStepsReachTheMemory :
    exec .scanBRise (inMode .run) = .next (after .scanBRise (inMode .run)) := exec_after (by decide +kernel)

/-- A write step that ends leaves the given data; one that times out the bits the memory took. -/
theorem test_hyp_ArrayStepsWriteTheEnabledBytes :
    let s := draining
    Sound s ∧
    (s.powered = true ∧ completes (.arrayReady (BitVec.allOnes 64)) s = true ∧ completes (.arrayTimeout 0) s = true ∧
      (after (.arrayReady (BitVec.allOnes 64)) s).mem =
        [(0x2080, 0x11), (0x2081, 0x22), (0x2082, 0x33), (0x2083, 0x44)] ∧
      (after (.arrayTimeout 0x0F00000000000000) s).mem = [(0x2080, 0x01)] ∧
      (after (.arrayTimeout 0) (s.setPort { s.port with op := some drainWrite })).mem = []) :=
  ⟨sound_of (by decide +kernel), by decide +kernel⟩

theorem test_hyp_BusCommandsLeaveTheRest :
    let reads : Instr := .controllerAccess { initiator := 3, address := 0x002080, op := .read .four }
    serving (inMode .halted) = true ∧ serving (inMode .run) = true ∧ completes reads (inMode .halted) = true ∧
      completes .heldWriteTakenAnew busy = true ∧ completes .heldReadTakenAnew busy = true ∧
      completes .stallLimitExpiry busy = true ∧ completes .scanBRise busy = true := by decide +kernel

/-! ### Supply -/

theorem test_powerOn :
    (after (.powerOn true true false false) (inMode .run)).port.op.map ArrayOp.presented = some false ∧
      (after (.powerOn true false true true) (inMode .run)).control.mode = .ended ∧
      (after (.powerOn false true true true) (inMode .run)).port.op = none ∧
      (after (.powerOn true true true true) (inMode .run)).control.mode = .starting := by decide +kernel

/-- With a long command of its own: FLUSH ends ABANDONED, RESTART stays. -/
theorem test_hyp_SupplyFallEntersShutdown :
    let s := draining.setControl { draining.control with longCommand := some .flush }
    let u := draining.setControl { draining.control with longCommand := some .restart }
    s.powered = true ∧ lineLevel s .pfwN = true ∧ lineLevel s .crstN = true ∧ s.port.op.isSome = true ∧
      s.control.mode ≠ .shutdown ∧ s.control.mode ≠ .ended ∧
      (after .pfwNFall s).control.lastResult = some .abandoned ∧ (after .pfwNFall s).shutdown.budget = 63 ∧
      (after .crstNFall u).control.longCommand = some .restart ∧
      (after .crstNFall draining).control.longCommand = none := by decide +kernel

theorem test_hyp_SupplyFallWithAFreePort :
    (∀ m ∈ [Mode.starting, .recovering, .unformatted, .run, .halted],
      (inMode m).powered = true ∧ lineLevel (inMode m) .pfwN = true ∧ lineLevel (inMode m) .crstN = true ∧
        (inMode m).port.op = none) ∧
      (after .pfwNFall (inMode .unformatted)).control.mode = .ended ∧
      (after .pfwNFall (inMode .halted)).shutdown.stage = .progress ∧
      (after .crstNFall (inMode .run)).port.op.map ArrayOp.line = some 0x20 := by decide +kernel

/-- The part in CONFIG with a shutdown budget. -/
def configured (budget : BitVec 16) : State :=
  (inMode .config).setLayout { layout with settings := { layout.settings with budget := budget } }

/-- A fall in CONFIG at the budgets 1 and 2, and with FORMAT incomplete. -/
theorem test_hyp_SupplyFallInConfig :
    let incomplete := (configured 2).setWriter { (configured 2).writer with formatIncomplete := true }
    (∀ s ∈ [configured 1, configured 2, incomplete],
      s.powered = true ∧ lineLevel s .pfwN = true ∧ s.port.op = none ∧ s.control.mode = .config) ∧
      (after .pfwNFall (configured 1)).control.mode = .ended ∧ (after .pfwNFall incomplete).control.mode = .ended ∧
      (after .pfwNFall (configured 2)).port.op.map (fun op => (op.requester, op.line)) =
        some (.shutdownProgress 0, 0x20) ∧
      (after .pfwNFall (configured 2)).shutdown.budget = 1 := by decide +kernel

/-- The lines in SHUTDOWN with an operation in flight, and in ENDED. -/
theorem test_hyp_SupplyEdgesInShutdownAndEnded :
    let s := after .pfwNFall draining
    let ended := (inMode .ended).setPins { pfwN := false, crstN := true, mselN := true, arrayReady := true }
    s.control.mode = .shutdown ∧ s.port.op.isSome = true ∧ lineLevel s .crstN = true ∧
      lineLevel (inMode .ended) .pfwN = true ∧
      ended.powered = true ∧ ended.control.mode = .ended ∧ lineLevel ended .pfwN = false ∧
      lineLevel ended (otherLine .pfwN) = true ∧ (after .pfwNRise ended).control.mode = .starting ∧
      after .pfwNRise ended = after (.leaveEnded .pfwN) ended ∧
      (after .pfwNRise s).control.mode = .shutdown ∧ (after .crstNRise ended) = ended := by decide +kernel

/-! ### Array port -/

/-- A verified write of byte 0 of line 0x411 that reads back. -/
def readsBack (attempt : Nat) : ArrayOp :=
  { lineWrite (.postedDrain 5 4 1) true 0x411 0x7700000000000000 0x01 with attempt := attempt, step := .readBack }

theorem test_hyp_StepsFollowTheReadyLine :
    let s := withOp (inMode .run) (readsBack 2)
    let op := { readsBack 2 with presented := true }
    s.powered = true ∧ s.port.op = some op ∧ op.presented = true ∧ s.control.mode ≠ .shutdown ∧
      op.kind = .verifiedWrite ∧ op.step = .readBack ∧ op.attempt < 3 ∧
      (∃ n < 8, op.enables.getLsbD n = true ∧ s.mem.read (byteAddress op.line n) ≠ byteOf op.data n) ∧
      (after (.arrayReady 0) s).port.op = some { op with attempt := 3, step := .write } ∧
      (after (.arrayReady 0) (inMode .run)).pins.arrayReady = true ∧
      (after (.arrayReady 0) (s.setPort { s.port with op := some { op with presented := false } })) = s := by
  decide +kernel

/-- The first write step of `readsBack`'s operation. -/
theorem test_write_step_is_followed_by_its_read_back :
    let s := withOp (inMode .run) { readsBack 1 with step := .write }
    (after (.arrayReady (BitVec.allOnes 64)) s).port.op = some { readsBack 1 with presented := true } ∧
      (after (.arrayReady (BitVec.allOnes 64)) s).mem = [(0x2088, 0x77)] := by decide +kernel

theorem test_hyp_DrainWriteRemovesItsEntry : Sound draining ∧ Completes draining { drainWrite with presented := true } ∧
    draining.powered = true ∧ serving draining = true ∧
    (∃ e ∈ draining.queue.entries, e.slot = 3 ∧ e.group = none ∧ e.state = .writing) ∧
    (after (.arrayReady (BitVec.allOnes 64)) draining).queue.entries.map Entry.slot = [5] :=
  ⟨sound_of (by decide +kernel), by unfold Completes; decide +kernel, by decide +kernel⟩

/-- The same for a failed drain write: a timeout, and a third read-back that still differs. -/
def failsThird : State :=
  withOp (withEntries (inMode .run)
    [{ entry 5 0x411 0x01 0x7700000000000000 with state := .writing, window := 4 }]) (readsBack 3)

theorem test_hyp_FailedDrainWriteRemovesItsEntry : Sound draining ∧ Sound failsThird ∧
    draining.control.mode = .run ∧ draining.control.configRequest = false ∧
    (∃ op, failsThird.port.op = some op ∧ op.kind = .verifiedWrite ∧ op.step = .readBack ∧ op.presented = true ∧
      op.attempt = 3) ∧
    (∃ n < 8, (readsBack 3).enables.getLsbD n = true ∧
      failsThird.mem.read (byteAddress (readsBack 3).line n) ≠ byteOf (readsBack 3).data n) ∧
    (after (.arrayReady 0) failsThird).recorder.incidents.map (fun i => i.report.detail) = [.d423] ∧
    (after (.arrayReady 0) failsThird).queue.entries = [] ∧
    (after (.arrayTimeout 0) draining).queue.lossNote = true :=
  ⟨sound_of (by decide +kernel), sound_of (by decide +kernel), by decide +kernel, by decide +kernel,
    ⟨_, rfl, rfl, rfl, rfl, rfl⟩, by decide +kernel⟩

/-- The last target of a FLUSH, with and without a group target left, and the last entry of a handover. -/
theorem test_hyp_LastEntryCompletes :
    let flushing (target : Option Seq) : State :=
      ((draining.setControl { draining.control with longCommand := some .flush }).setQueue
        { draining.queue with outstanding := 1 }).setGroups { draining.groups with flushTarget := target }
    let last := draining.queue.entries.take 1
    let leaving := (acceptLong (draining.setQueue { draining.queue with entries := last }) .requestConfig)
    let leaving := leaving.setControl { leaving.control with configRequest := true }
    let results (s : State) : List (Option LongResult) :=
      [after (.arrayReady (BitVec.allOnes 64)) s, after (.arrayTimeout 0) s].map (fun t => t.control.lastResult)
    Sound (flushing none) ∧ Sound leaving ∧
    ((flushing none).control.configRequest = false ∧ results (flushing none) = [some .done, some .doneWithLoss] ∧
      results (flushing (some 7)) = [none, none] ∧ leaving.control.configRequest = true ∧ leaving.groups.table = [] ∧
      leaving.queue.entries.length = 1 ∧ results leaving = [some .done, some .doneWithLoss] ∧
      (after (.arrayTimeout 0) leaving).control.mode = .config) :=
  ⟨sound_of (by decide +kernel), sound_of (by decide +kernel), by decide +kernel⟩

/-- A read of two bytes of line 0x410 that is held while its line read is in flight. -/
def reading : State :=
  let a : Access := { initiator := 0, address := 0x002080, op := .read .two }
  withHeld
    (withOp ((withEntries (inMode .run) [entry 1 0x410 0x06 0x0055660000000000]).setMem [(0x2080, 0x11), (0x2081, 0x22)])
      (lineRead (.controllerRead a (some 2)) 0x410))
    { access := a, cls := { window := some 2, cls := .posted, verify := false, writers := 0xF }
      wait := .operation, firstHeld := 0 }

/-- Steps 8 and 9 of 1.7. -/
theorem test_hyp_LineReadAnswersTheHeldRead : Sound reading ∧
    (∃ op h, Completes reading op ∧ op.kind = .lineRead ∧ reading.access.held = some h ∧ h.wait = .operation ∧
      op.requester = .controllerRead h.access (some 2) ∧ op.line = lineOf h.access.address) ∧
    serving reading = true ∧ (after (.arrayReady 0) reading).access.answer = some (.done [0x11, 0x55]) :=
  ⟨sound_of (by decide +kernel), ⟨_, _, ⟨rfl, rfl, .inl ⟨rfl, rfl⟩⟩, rfl, rfl, rfl, rfl, rfl⟩, by decide +kernel⟩

/-- The line read of `reading` that times out, and one of a read that is no longer held. -/
theorem test_hyp_LineReadTimesOut :
    let dropped := reading.setAccess { held := none, answer := some .refuse }
    let timeout : Instr := .arrayTimeout 0
    reading.port.op.isSome = true ∧ reading.control.configRequest = false ∧
      (after timeout reading).access = { held := none, answer := some .refuse } ∧
      (after timeout reading).recorder.incidents.map (fun i => i.report.detail) = [.d411] ∧
      serving dropped = true ∧ (after timeout dropped).recorder.incidents = [] ∧
      (after (.arrayReady 0) dropped).access = dropped.access := by decide +kernel

/-- A THROUGH write of window W4, held while its operation is in flight, read back. -/
def writingThrough (m : Memory) : State :=
  let a := writes 2 0x008009 (.write8 0x5A)
  withHeld
    (withOp ((inMode .run).setMem m)
      { lineWrite (.throughWrite a (some 4)) true 0x1001 (accessData a) (accessBytes a) with step := .readBack })
    { access := a, cls := { window := some 4, cls := .through, verify := true, writers := 4 }
      wait := .operation, firstHeld := 0 }

theorem test_hyp_ThroughWriteEndsWithItsOperation :
    let s := writingThrough [(0x8009, 0x5A)]
    (∃ op h, Completes s op ∧ s.access.held = some h ∧ h.wait = .operation ∧
      op.requester = .throughWrite h.access (some 4)) ∧
    s.powered = true ∧ s.control.mode = .run ∧
    (after (.arrayReady 0) s).access = { held := none, answer := some (.done []) } ∧
    (after (.arrayTimeout 0) s).access.answer = some .refuse ∧ reactionTaken s .d412 = .record :=
  ⟨⟨_, _, ⟨rfl, rfl, .inr (.inr ⟨rfl, rfl, by decide +kernel⟩)⟩, rfl, rfl, rfl⟩, by decide +kernel⟩

/-- The third attempt of a THROUGH write that still differs, held and refused before (R74). -/
theorem test_hyp_ThroughWriteFails :
    let s := writingThrough []
    let third := s.setPort { s.port with op := s.port.op.map (fun op => { op with attempt := 3 }) }
    let dropped := third.setAccess { held := none, answer := some .refuse }
    (∀ x ∈ [third, dropped], ∃ op, x.port.op = some op ∧ FailsWith x op (.arrayReady 0) .miscompare ∧
      FailsWith x op (.arrayTimeout 0) .timeout) ∧
    ((after (.arrayReady 0) third).access = { held := none, answer := some .refuse } ∧
      (after (.arrayReady 0) third).recorder.incidents.map (fun i => i.report.detail) = [.d422] ∧
      (after (.arrayReady 0) dropped).recorder.incidents.map (fun i => i.report.detail) = [.d422] ∧
      (after (.arrayTimeout 0) dropped).recorder.incidents.map (fun i => i.report.detail) = [.d412]) := by
  refine ⟨?_, by decide +kernel⟩
  intro x hx
  simp only [List.mem_cons, List.not_mem_nil, or_false] at hx
  rcases hx with rfl | rfl <;>
    exact ⟨_, rfl, .inr ⟨_, rfl, rfl, rfl, rfl, rfl, rfl, by decide +kernel⟩, .inl ⟨_, rfl, rfl⟩⟩

/-- A group of one line in commit, an operation of the journal engine in flight. -/
def committing (p : Phase) (half : Half) (st : EntryState) (op : ArrayOp) : State :=
  let s := withGroups (withEntries (inMode .run) [{ entryA with state := st }, entry 1 0x500 1 0])
    [record 0xA37 (.inPhase p) 1]
  withOp (s.setEngine { s.engine with inCommit := some 0xA37, phase := some p, half := half }) op

/-- The second line of the commit record of `committing`, read back as it was written. -/
def marking : State :=
  let op := { lineWrite .journalRecord true 0x83 0 0xFF with step := .readBack }
  committing .marking .second .held op

theorem test_hyp_CommitRecordMakesTheGroupDurable :
    (∃ op, Completes marking op ∧ op.requester = .journalRecord) ∧
    (marking.engine.phase = some .marking ∧ marking.engine.half = .second ∧ marking.engine.inCommit = some 0xA37 ∧
      groupOf marking 0xA37 = some (record 0xA37 (.inPhase .marking) 1) ∧ serving marking = true) ∧
    (let t := after (.arrayReady 0) marking
     t.engine.journalPending = true ∧ t.engine.phase = some .applying ∧ t.queue.entries.map Entry.state =
       [.writing, .ready]) := by
  refine ⟨⟨_, ⟨rfl, rfl, .inr (.inr ⟨rfl, rfl, by decide +kernel⟩)⟩, rfl⟩, by decide +kernel, by decide +kernel⟩

/-- An operation of the journal engine on `committing`, at its read-back step, that finds what was written. -/
def engineStep (p : Phase) (half : Half) (st : EntryState) (r : Requester) (line : LineNo) : State :=
  committing p half st { lineWrite r true line 0 0xFF with step := .readBack }

/-- A line of a record and an in-place write, each of the last position and of one before it. -/
theorem test_hyp_LinesOfACommitAdvance :
    let more (s : State) : State := withGroups s [{ record 0xA37 (.inPhase .journaling) 2 with lineCount := 2 }]
    let moreToApply (s : State) : State := withGroups s [{ record 0xA37 (.inPhase .applying) 2 with lineCount := 2 }]
    let first := engineStep .journaling .first .held .journalRecord 0x80
    let second := engineStep .journaling .second .held .journalRecord 0x81
    let place := engineStep .applying .first .writing (.inPlaceWrite 7 1 0) 0x900
    let at' (s : State) : Option Phase × Nat × Half := (s.engine.phase, s.engine.position, s.engine.half)
    let go (s : State) : State := after (.arrayReady 0) s
    (∃ op, Completes first op ∧ op.requester = .journalRecord) ∧
    (∃ op, Completes place op ∧ op.requester = .inPlaceWrite 7 1 0) ∧ Sound place ∧ Sound (moreToApply place) ∧
    Carries first 0xA37 (record 0xA37 (.inPhase .journaling) 1) .journaling ∧
    Carries place 0xA37 (record 0xA37 (.inPhase .applying) 1) .applying ∧
    (at' (go first) = (some .journaling, 0, .second) ∧ at' (go second) = (some .marking, 0, .first) ∧
      at' (go (more second)) = (some .journaling, 1, .first) ∧ at' (go place) = (some .retiring, 0, .first) ∧
      at' (go (moreToApply place)) = (some .applying, 1, .first) ∧
      (go place).queue.entries.map Entry.state = [.applied, .ready] ∧
      (go place).writer.copyWrite.map CopyWrite.generation = some 0x12D) :=
  ⟨⟨_, ⟨rfl, rfl, .inr (.inr ⟨rfl, rfl, by decide +kernel⟩)⟩, rfl⟩,
    ⟨_, ⟨rfl, rfl, .inr (.inr ⟨rfl, rfl, by decide +kernel⟩)⟩, rfl⟩, sound_of (by decide +kernel),
    sound_of (by decide +kernel), ⟨rfl, rfl, rfl, rfl⟩, ⟨rfl, rfl, rfl, rfl⟩, by decide +kernel⟩

/-- The second line of the retiring copy of `committing`. -/
def retiring : State :=
  let op := { lineWrite .retiringProgress true 0x21 0 0xFF with step := .readBack }
  let s := committing .retiring .second .applied op
  (s.setWriter { s.writer with
    copyWrite := some { content := .progress (progressOf .dirty 0xA37), target := .a, generation := 0x12D, written := 1 } }).setGroups
    { s.groups with flushTarget := some 0xA37 }

theorem test_hyp_SecondRetiringLineRetiresTheGroup :
    (∃ op, Completes retiring op ∧ op.requester = .retiringProgress) ∧
    (retiring.engine.half = .second ∧ retiring.engine.inCommit = some 0xA37 ∧ serving retiring = true ∧
      retiring.writer.copyWrite.map CopyWrite.written = some 1 ∧
      retiring.writer.copyWrite.map CopyWrite.content = some (.progress (progressOf .dirty 0xA37))) ∧
    (let t := after (.arrayReady 0) retiring
     t.groups.table = [] ∧ t.queue.entries.map Entry.slot = [1] ∧ t.writer.retiredThrough = 0xA37 ∧
       t.groups.flushTarget = none) := by
  refine ⟨⟨_, ⟨rfl, rfl, .inr (.inr ⟨rfl, rfl, by decide +kernel⟩)⟩, rfl⟩, by decide +kernel, by decide +kernel⟩

/-- The group target of a FLUSH retires with the posted part complete or not; the last group of a handover. -/
theorem test_hyp_RetiringCompletes :
    let flushing (n : Nat) : State :=
      (retiring.setControl { retiring.control with longCommand := some .flush }).setQueue
        { retiring.queue with outstanding := n }
    let leaving := acceptLong (retiring.setQueue { retiring.queue with entries := retiring.queue.entries.take 1 })
      .requestConfig
    let leaving := leaving.setControl { leaving.control with configRequest := true, handoverLoss := true }
    let go (s : State) : ModeController := (after (.arrayReady 0) s).control
    (go (flushing 0)).lastResult = some .done ∧ (go (flushing 1)).longCommand = some .flush ∧
      (∀ r ∈ leaving.groups.table, r.sequence = 0xA37) ∧ (∀ e ∈ leaving.queue.entries, e.group = some 0xA37) ∧
      (go leaving).mode = .config ∧ (go leaving).lastResult = some .doneWithLoss := by decide +kernel

/-- Each requester of the engine, its step ended by a timeout and by a third read-back that differs. -/
theorem test_hyp_JournalTimeoutStallsAndHalts :
    let third (p : Phase) (st : EntryState) (r : Requester) : State :=
      committing p .first st { lineWrite r true 0x80 1 0xFF with step := .readBack, attempt := 3 }
    let line := third .journaling .held .journalRecord
    let place := third .applying .writing (.inPlaceWrite 7 1 0)
    let copy := third .retiring .applied .retiringProgress
    let copy := copy.setWriter { copy.writer with copyWrite := retiring.writer.copyWrite }
    let ended (c : Instr) (s : State) : Option Detail × List GroupState :=
      ((after c s).control.haltCause, (after c s).groups.table.map Group.state)
    Sound line ∧ Sound place ∧ Sound copy ∧
    (∀ s ∈ [line, place, copy], s.powered = true ∧ s.control.mode = .run ∧ s.control.configRequest = false ∧
      (∃ op, s.port.op = some op ∧ FailsWith s op (.arrayTimeout 0) .timeout ∧
        FailsWith s op (.arrayReady 0) .miscompare) ∧ s.engine.inCommit = some 0xA37) ∧
    (groupOf line 0xA37 = some (record 0xA37 (.inPhase .journaling) 1) ∧
      ended (.arrayTimeout 0) line = (some .d414, [.stalled .journaling]) ∧
      ended (.arrayReady 0) line = (some .d424, [.stalled .journaling]) ∧
      ended (.arrayTimeout 0) place = (some .d415, [.stalled .applying]) ∧
      ended (.arrayReady 0) place = (some .d425, [.stalled .applying]) ∧
      (after (.arrayTimeout 0) place).queue.entries.map Entry.state = [.ready, .writing] ∧
      ended (.arrayTimeout 0) copy = (some .d416, [.stalled .retiring]) ∧
      ended (.arrayReady 0) copy = (some .d426, [.stalled .retiring]) ∧
      copy.writer.copyWrite.isSome = true ∧ (after (.arrayTimeout 0) copy).writer.copyWrite = none) ∧
    (let halted := line.setControl { line.control with mode := .halted, haltCause := some .d211 }
     let leaving := (acceptLong line .requestConfig).setControl
      { (acceptLong line .requestConfig).control with configRequest := true }
     ended (.arrayTimeout 0) halted = (some .d211, [.stalled .journaling]) ∧
      (after (.arrayTimeout 0) leaving).control.mode = .config ∧
      (after (.arrayTimeout 0) leaving).control.lastResult = some .doneWithLoss ∧
      (after (.arrayTimeout 0) leaving).recorder.incidents.map (fun i => (i.report.detail, i.report.count)) =
        [(.d414, some 0), (.d611, some 1), (.d612, some 1)]) := by
  refine ⟨sound_of ?_, sound_of ?_, sound_of ?_, ?_, ?_, ?_⟩ <;> try decide +kernel
  intro s hs
  simp only [List.mem_cons, List.not_mem_nil, or_false] at hs
  rcases hs with rfl | rfl | rfl <;>
    exact ⟨rfl, rfl, rfl, ⟨_, rfl, .inl ⟨_, rfl, rfl⟩,
      .inr ⟨_, rfl, rfl, rfl, rfl, rfl, rfl, by decide +kernel⟩⟩, rfl⟩

/-! ### Start -/

/-- Before the last control-area read: 35 lines read, the last line of progress copy B in the memory. -/
def lastRead (lines : List LineData) : State :=
  let s := State.startValues { pfwN := true, crstN := true, mselN := true, arrayReady := false }
    (Memory.writeLine [] 0x23 (progressCopyLine (progressOf .dirty 0xA36) 0x12C 1) 0xFF) Session.idle 0 []
  (s.setStart { lines := lines, waiting := false }).setPort
    { op := some { lineRead (.startRead 35) 0x23 with presented := true }, passOver := 0 }

/-- Layout copies blank or copy B valid, progress copy A blank, the first line of progress copy B. -/
def linesRead (layoutB : List LineData) : List LineData :=
  List.replicate 16 0 ++ (layoutB ++ [0, 0, progressCopyLine (progressOf .dirty 0xA36) 0x12C 0])

/-- The sixteen lines of a layout copy. -/
def sixteen : List LineData := (List.range 16).map (layoutCopyLine layout 3)

theorem test_hyp_StartSequenceChoosesTheMode :
    (∀ ls, (∃ op, Completes (lastRead ls) op ∧ op.kind = .lineRead ∧ op.requester = .startRead 35)) ∧
    (∀ ls, (lastRead ls).powered = true ∧ (lastRead ls).control.mode = .starting ∧
      (lastRead ls).start.lines = ls ∧ (lastRead ls).writer.newestLayout = none ∧
      (lastRead ls).writer.newestProgress = none ∧ (lastRead ls).writer.storedImage = none ∧
      (lastRead ls).recorder.incidents = []) ∧
    (linesRead (List.replicate 16 0)).length = 35 ∧ (linesRead sixteen).length = 35 ∧
    newestProgressOf (copiesOf (linesRead (List.replicate 16 0) ++ [(lastRead []).mem.readLine 0x23])) = some .b ∧
    (after (.arrayReady 0) (lastRead (linesRead (List.replicate 16 0)))).control.mode = .unformatted ∧
    (after (.arrayReady 0) (lastRead (linesRead (List.replicate 16 0)))).recorder.incidents.map
      (fun i => i.report.detail) = [.d510, .d521, .d530] :=
  ⟨fun _ => ⟨_, ⟨rfl, rfl, .inl ⟨rfl, rfl⟩⟩, rfl, rfl⟩, fun _ => ⟨rfl, rfl, rfl, rfl, rfl, rfl, rfl⟩, by decide +kernel⟩

/-- With layout copy B valid as well both pairs have a newest copy, and its layout is consistent. -/
theorem test_hyp_StartSequence_with_a_layout (last : LineData) :
    let c := copiesOf (linesRead sixteen ++ [last])
    c.layoutB = layoutCopy layout 3 ∧ newestLayoutOf c = some .b ∧ consistent layout = true := by
  have b : ((linesRead sixteen ++ [last]).drop 16).take 16 = sixteen := by simp [linesRead, sixteen]
  have a : (linesRead sixteen ++ [last]).take 16 = List.replicate 16 0 := by simp [linesRead]
  have e : (copiesOf (linesRead sixteen ++ [last])).layoutB = layoutCopy layout 3 := by
    rw [← Laws.joinLines_layoutCopyLine]
    exact congrArg (joinLines 1024) b
  have f : layoutValid (copiesOf (linesRead sixteen ++ [last])).layoutA = false := by
    have z : (copiesOf (linesRead sixteen ++ [last])).layoutA = joinLines 1024 (List.replicate 16 0) :=
      congrArg (joinLines 1024) a
    rw [z]
    decide +kernel
  refine ⟨e, ?_, by decide +kernel⟩
  have none : validLayoutGeneration (copiesOf (linesRead sixteen ++ [last])).layoutA = none := by
    unfold validLayoutGeneration
    rw [f]
    rfl
  have some' : (validLayoutGeneration (copiesOf (linesRead sixteen ++ [last])).layoutB).isSome = true := by
    rw [e]
    unfold validLayoutGeneration
    rw [Laws.layoutValid_layoutCopy]
    rfl
  obtain ⟨g, hg⟩ := Option.isSome_iff_exists.mp some'
  show newestCopy _ _ = _
  rw [none, hg]
  rfl

theorem test_hyp_StartReadTimeoutIsRetried :
    let s := lastRead (linesRead (List.replicate 16 0))
    let t := after (.arrayTimeout 0) s
    s.port.op.map ArrayOp.requester = some (.startRead 35) ∧ t.powered = true ∧ t.control.mode = .starting ∧
      t.start = { lines := [], waiting := true } ∧ t.port.op = none ∧
      t.recorder.incidents.map (fun i => (i.report.detail, i.report.count)) = [(.d417, some 35)] ∧
      (after .startReadRetry t).port.op.map ArrayOp.line = some 0 := by decide +kernel

/-- FORMAT's last line in CONFIG and in UNFORMATTED. -/
def formatting (m : Mode) : State :=
  let s := withOp (inMode m) { lineWrite (.formatLine 39) true 0x23 0 0xFF with step := .readBack }
  (s.setControl { s.control with longCommand := some .format }).setWriter
    { s.writer with formatIncomplete := true, format := some { image := layout, journalBase := 0x400, written := 39 } }

theorem test_hyp_FortiethLineCompletesFormat :
    (∀ m, ∃ op, Completes (formatting m) op ∧ op.requester = .formatLine 39) ∧
    (∀ m ∈ [Mode.config, .unformatted], (formatting m).control.mode = m ∧
      (formatting m).writer.format = some { image := layout, journalBase := 0x400, written := 39 } ∧
      (let t := after (.arrayReady 0) (formatting m)
       t.control.mode = .config ∧ t.control.lastResult = some .done ∧ t.groups.nextSequence = 1 ∧
         t.writer.formatIncomplete = false)) := by
  refine ⟨fun m => ⟨_, ⟨rfl, rfl, .inr (.inr ⟨rfl, rfl, ?_⟩)⟩, rfl⟩, by decide +kernel⟩
  cases m <;> decide +kernel

/-- The sixteenth line of STORE_LAYOUT, in layout copy B. -/
def storing : State :=
  let s := withOp (acceptLong (inMode .config) .storeLayout) (lineWrite (.storeLayoutLine 15) false 0x1F 0 0xFF)
  s.setWriter { s.writer with
    copyWrite := some { content := .layout layout, target := .b, generation := 8, written := 15 } }

/-- The second line of recovery's final progress copy. -/
def lastProgress (path : RecoveryPath) (autoRun : BitVec 8) : State :=
  let l := { layout with settings := { layout.settings with autoRun := autoRun } }
  let s := withOp ((inMode .recovering).setLayout l) (lineWrite (.recoveryProgress 0xA37 false 1) false 0x21 0 0xFF)
  let s := s.setRecovery (some
    { path := path, base := 0xA36, stage := .finalProgress, scanPosition := 0, found := 0, runningCheck := crc32Initial
      records := [], replayIndex := 0, firstLine := none })
  s.setWriter { s.writer with
    copyWrite := some { content := .progress (progressOf .dirty 0xA36), target := .a, generation := 0x12D, written := 1 } }

theorem test_hyp_LastLinesCompleteTheirWork :
    let go (s : State) : State := after (.arrayReady (BitVec.allOnes 64)) s
    (∃ op, Completes storing op ∧ op.requester = .storeLayoutLine 15) ∧
    (∀ p a, ∃ op, Completes (lastProgress p a) op ∧ op.requester = .recoveryProgress 0xA37 false 1) ∧
    (storing.powered = true ∧ storing.control.mode = .config ∧ (go storing).control.longCommand = none ∧
      (go storing).writer.newestLayout = some .b ∧ (go storing).writer.layoutGeneration = 8 ∧
      (go storing).writer.storedImage = some layout) ∧
    ((lastProgress .start 0).control.configRequest = false ∧
      (go (lastProgress .start 0)).control.mode = .config ∧ (go (lastProgress .start 1)).control.mode = .run ∧
      (go (lastProgress .command 0)).control.mode = .run ∧
      (go (lastProgress .command 0)).control.lastResult = some .done ∧
      (go (lastProgress .start 0)).groups.nextSequence = 0xA37) :=
  ⟨⟨_, ⟨rfl, rfl, .inr (.inl ⟨rfl, rfl⟩)⟩, rfl⟩, fun _ _ => ⟨_, ⟨rfl, rfl, .inr (.inl ⟨rfl, rfl⟩)⟩, rfl⟩,
    by decide +kernel, by decide +kernel⟩

/-- SHUTDOWN in stage FINISHING, with both lines high again or with PFW_N low. -/
theorem test_hyp_TimeoutInShutdownEndsIt :
    let low := after .pfwNFall draining
    let high := low.setPins { low.pins with pfwN := true }
    low.powered = true ∧ low.control.mode = .shutdown ∧ low.port.op.isSome = true ∧ low.recovery = none ∧
      supplyGood low = false ∧ supplyGood high = true ∧ high.control.mode = .shutdown ∧
      (after (.arrayTimeout 0) low).control.mode = .ended ∧ (after (.arrayTimeout 0) high).control.mode = .starting := by
  decide +kernel

/-- SHUTDOWN with an operation of the sequencer in flight, PFW_N low. -/
def sequencing (stage : ShutdownStage) (budget : Nat) (s : State) (op : ArrayOp) : State :=
  let s := withOp (s.setControl { s.control with mode := .shutdown }) op
  (s.setPins { s.pins with pfwN := false }).setShutdown
    { origin := .full, budget := budget, stage := stage, plan := some .stop, postedAbandoned := 0, groupsAbandoned := 0 }

/-- A group kept under STOP, and the second line of the final copy in flight. -/
def ending : State :=
  sequencing .progress 0 retiring (lineWrite (.shutdownProgress 1) false 0x21 0 0xFF)

/-- The sequencer's timeouts, the record's under an array-failures code of 1, which SHUTDOWN shows as RECORD (log 15); and
the second line of the final copy. ENDED holds no group in the engine and no copy write. -/
theorem test_hyp_SequencerOperationsEndIt :
    let fencing := { layout.settings with reactions := { layout.settings.reactions with arrayFailures := 1 } }
    let line := (sequencing .group 5 marking (lineWrite .shutdownRecord false 0x83 0 0xFF)).setLayout
      { layout with settings := fencing }
    let drain := sequencing .drain 5 draining (lineWrite (.shutdownDrain 3 2 0) false 0x410 0 0x0F)
    let reactions (s : State) : List (Detail × Reaction) :=
      (after (.arrayTimeout 0) s).recorder.incidents.map (fun i => (i.report.detail, i.reaction))
    let rests (s : State) : Bool := s.engine.inCommit.isNone && s.engine.phase.isNone && s.writer.copyWrite.isNone &&
      s.port.op.isNone && decide (s.control.mode = .ended)
    (∀ s ∈ [line, drain, ending], s.powered = true ∧ s.control.mode = .shutdown ∧ s.port.op.isSome = true ∧
      s.recovery = none ∧ supplyGood s = false ∧ rests (after (.arrayTimeout 0) s) = true) ∧
      reactions line = [(.d414, .record)] ∧ reactions drain = [(.d413, .record)] ∧
      reactions ending = [(.d416, .record)] ∧
      (after (.arrayTimeout 0) drain).queue.entries.map Entry.slot = [5] ∧
      ending.writer.copyWrite.map CopyWrite.written = some 1 ∧ ending.engine.inCommit = some 0xA37 ∧
      rests (after (.arrayReady 0) ending) = true ∧
      (after (.arrayReady 0) ending).writer.retiredThrough = 0xA37 ∧
      (after (.arrayReady 0) (ending.setPins { ending.pins with pfwN := true })).control.mode = .starting := by
  decide +kernel

/-! ### Controller bus -/

theorem test_hyp_ModeCheck :
    (inMode .config).powered = true ∧ (inMode .config).access.held = none ∧ modePasses (inMode .config) false = false ∧
      modePasses (inMode .halted) true = false ∧ modePasses (inMode .halted) false = true ∧
      (after (.controllerAccess (writes 0 0x2080 (.write8 1))) (inMode .halted)).access.answer = some .refuse ∧
      (after (.controllerAccess (writes 0 0x2080 (.write8 1))) (inMode .halted)).recorder.incidents = [] := by
  decide +kernel

/-- Boundary values of the checks: the ends of the control area, of the journal area and of the capacity, in the layout
of 4.6 with a default class of THROUGH. -/
theorem test_hyp_AccessChecksInOrder :
    let s := (inMode .run).setLayout { layout with settings := { layout.settings with defaultClass := 1 } }
    let reads (a : Addr) : Access := { initiator := 2, address := a, op := .read .one }
    let detail (a : Access) : Option Detail :=
      match checkAccess s a with
      | .refused r => some r.detail
      | .accepted _ | .modeRefused | .reservedClass => none
    modePasses s false = true ∧ modePasses s true = true ∧
      detail (reads 0x11F) = some .d241 ∧ detail (reads 0x120) = none ∧ detail (reads 0x3FF) = none ∧
      detail (reads 0x400) = some .d243 ∧ detail (reads 0x5FF) = some .d243 ∧ detail (reads 0x600) = none ∧
      detail (reads 0x01FFFF) = none ∧ detail (reads 0x020000) = some .d281 ∧
      detail (writes 2 0x11F (.write8 0)) = some .d242 ∧ detail (writes 2 0x5FF (.write8 0)) = some .d244 ∧
      detail (writes 2 0x4000 (.write16 0)) = some .d230 ∧ detail (writes 2 0x10008 (.write16 0)) = none := by
  decide +kernel

theorem test_hyp_LowestMatchingWindowClassifies :
    (∀ i : WindowIndex, i ≠ 0 → windowMatches layout.windows[i] 0x840 = decide (i = 1 ∨ i = 2)) ∧
      windowMatches layout.windows[(0 : WindowIndex)] 0x840 = true ∧
      (classify layout 0x840).map Classification.cls = some .locked ∧
      (∀ i : WindowIndex, windowMatches layout.windows[i] 0x1002 = false) ∧
      (classify layout 0x1002).map Classification.cls = some .closed ∧
      (classify { layout with settings := { layout.settings with defaultClass := 1 } } 0x1002).map Classification.cls =
        some .through := by decide +kernel

/-- A refusal by the journal check, one that fences (class 23 at FENCE), and 25/250 for a FENCED initiator. -/
theorem test_hyp_RefusedAccessIsCounted :
    let fencing := { layout.settings with reactions := { layout.settings.reactions with class23 := 1 } }
    let s := (inMode .run).setLayout { layout with settings := fencing }
    let a := writes 3 0x004400 (.write32 0)
    let t := after (.controllerAccess a) s
    let w := writes 3 0x002080 (.write8 0)
    Sound s ∧ Sound t ∧
    (s.powered = true ∧ s.access.held = none ∧ checkAccess s a = refusal .d230 a (some 1) ∧
      t.confinement[3] = { counter := 320, state := .fenced, reported := .fenced } ∧
      checkAccess t w = refusal .d250 w (some 2) ∧ (after (.controllerAccess w) t).confinement[3].counter = 320) :=
  ⟨sound_of (by decide +kernel), sound_of (by decide +kernel), by decide +kernel⟩

/-- An entry of group 0xA37 on the first line of W1. -/
def entryG : Entry := groupEntry 7 0x000800 0x0F 0x1234567800000000 0xA37 .held

/-- A full queue: 32 entries. -/
def full : State :=
  withEntries (inMode .run) ((List.range 32).map (fun n => entry (Fin.ofNat 32 n) (BitVec.ofNat 21 (0x400 + n)) 1 0))

/-- A write of each class, with a slot free and with none, merging and not, into a group and at its line limit. -/
theorem test_hyp_AcceptedWriteIsTakenByItsClass :
    let posted := writes 1 0x003000 (.write8 0x66)
    let grouped := writes 1 0x004008 (.write8 0x77)
    let through := writes 2 0x008009 (.write8 0x5A)
    let s := withOp (withGroups (withEntries (inMode .run) [entryG]) [record 0xA37 .open 1]) someRead
    let limit := withOp (withGroups (withEntries (inMode .run) [entryG]) [record 0xA37 .open 16]) someRead
    Sound s ∧ Sound full ∧ Sound limit ∧ WritingCarried s ∧ WritingCarried full ∧ WritingCarried limit ∧
    (completes (.controllerAccess posted) s = true ∧ s.access.held = none ∧
      checkAccess s posted = .accepted { window := some 2, cls := .posted, verify := false, writers := 0xF } ∧
      checkAccess s grouped = .accepted { window := some 1, cls := .grouped, verify := false, writers := 0x3 } ∧
      checkAccess s through = .accepted { window := some 4, cls := .through, verify := true, writers := 0x4 }) ∧
    ((after (.controllerAccess posted) s).queue.entries.map Entry.slot = [7, 0] ∧
      (after (.controllerAccess posted) full).access.held.map Held.wait = some .slot ∧
      (after (.controllerAccess grouped) s).groups.table.map Group.lineCount = [2] ∧
      (after (.controllerAccess (writes 0 0x004000 (.write8 1))) s).groups.table.map Group.lineCount = [1] ∧
      (after (.controllerAccess grouped) limit).groups.table.map Group.closeCause = [some .limit, none] ∧
      (after (.controllerAccess grouped) limit).recorder.incidents.map (fun i => i.report.detail) = [.d320] ∧
      (after (.controllerAccess through) s).access.held.map Held.wait = some .grant ∧
      (after (.controllerAccess through) (inMode .run)).port.op.map ArrayOp.enables = some 0x02) :=
  ⟨sound_of (by decide +kernel), sound_of (by decide +kernel), sound_of (by decide +kernel),
    carried_of (by decide +kernel), carried_of (by decide +kernel), carried_of (by decide +kernel), by decide +kernel,
    by decide +kernel⟩

/-- A read answered from the entries, one held for a WRITING entry, one sent to the array. -/
theorem test_hyp_AcceptedReadIsTaken :
    let e := { entry 0 0x410 0x03 0x1122000000000000 with state := .writing }
    let s := withOp (withEntries (inMode .halted) [e, entry 1 0x411 0x01 0x3300000000000000]) someRead
    let reads (a : Addr) (z : Size) : Access := { initiator := 0, address := a, op := .read z }
    Sound s ∧ HandoverWaits s ∧
    (s.access.held = none ∧
      checkAccess s (reads 0x2080 .two) = .accepted { window := some 2, cls := .posted, verify := false, writers := 0xF } ∧
      (after (.controllerAccess (reads 0x2080 .two)) s).access.held.map Held.wait = some .writingEntry ∧
      (after (.controllerAccess (reads 0x2088 .one)) s).access.answer = some (.done [0x33]) ∧
      (after (.controllerAccess (reads 0x2089 .one)) s).access.held.map Held.wait = some .grant) :=
  ⟨sound_of (by decide +kernel), (by intro h; cases h), by decide +kernel⟩

/-- A write held for a slot and one held for a record, each with one there; a read whose entry has left WRITING; and one
of each that waits on. -/
theorem test_hyp_HeldAccessIsTakenAnew :
    let posted : Held := { access := writes 1 0x003000 (.write8 0x66), cls := { window := some 2, cls := .posted, verify := false, writers := 0xF }, wait := .slot, firstHeld := 0 }
    let grouped : Held := { access := writes 1 0x004008 (.write8 0x77), cls := { window := some 1, cls := .grouped, verify := false, writers := 0x3 }, wait := .groupRecord, firstHeld := 0 }
    let read : Held := { posted with access := { initiator := 0, address := 0x2080, op := .read .one }, wait := .writingEntry }
    let s := withOp (withEntries (inMode .run) [entry 1 0x410 0x02 0]) someRead
    Sound (withHeld s posted) ∧ Sound (withHeld s grouped) ∧ Sound (withHeld s read) ∧ HandoverWaits s ∧
    WritingCarried s ∧ WritingCarried (withHeld draining read) ∧ Sound (withHeld draining read) ∧
    ((∀ e ∈ (withHeld s posted).queue.entries, e.slot ≠ 0) ∧
      (after .heldWriteTakenAnew (withHeld s posted)).queue.entries.map Entry.slot = [1, 0] ∧
      (after .heldWriteTakenAnew (withHeld s grouped)).groups.table.map Group.sequence = [0xA37] ∧
      (after .heldReadTakenAnew (withHeld s read)).access.held.map Held.wait = some .grant ∧
      after .heldWriteTakenAnew (withHeld full posted) = withHeld full posted ∧
      after .heldReadTakenAnew (withHeld s posted) = withHeld s posted) ∧
    (let four := withGroups s ((List.range 4).map (fun n => record (BitVec.ofNat 32 n) .closed 1))
     after .heldWriteTakenAnew (withHeld four grouped) = withHeld four grouped ∧
      after .heldReadTakenAnew (withHeld draining read) = withHeld draining read ∧
      ∀ w ∈ [Wait.grant, .operation],
        after .heldWriteTakenAnew (withHeld s { posted with wait := w }) = withHeld s { posted with wait := w }) := by
  refine ⟨sound_of ?_, sound_of ?_, sound_of ?_, (fun h => by cases h), carried_of ?_, draining_carried, sound_of ?_,
    ?_, ?_⟩ <;> decide +kernel

/-- Each of the four waits that the stall limit ends, and the one it does not. -/
theorem test_hyp_StallLimitRefusesTheHeldAccess :
    let h (w : Wait) : Held := { access := writes 1 0x003000 (.write8 0x66), cls := { window := some 2, cls := .posted, verify := false, writers := 0xF }, wait := w, firstHeld := 0 }
    let s (w : Wait) : State := withHeld (withOp (inMode .run) someRead) (h w)
    let details (w : Wait) : List Detail :=
      (after .stallLimitExpiry (s w)).recorder.incidents.map (fun i => i.report.detail)
    (∀ w, (s w).powered = true ∧ serving (s w) = true) ∧ details .slot = [.d311] ∧ details .groupRecord = [.d312] ∧
      details .writingEntry = [.d313] ∧ details .grant = [.d314] ∧
      after .stallLimitExpiry (s .operation) = s .operation ∧
      after .stallLimitExpiry (inMode .run) = inMode .run ∧
      (after .stallLimitExpiry (s .slot)).access = { held := none, answer := some .refuse } := by
  refine ⟨fun w => by cases w <;> decide +kernel, ?_⟩
  decide +kernel

theorem test_hyp_ScanBoundaryClosesTheOpenGroup :
    let s := withOp (withGroups (inMode .run) [record 0xA37 .open 1]) someRead
    s.powered = true ∧ s.control.mode = .run ∧ openGroup s = some (record 0xA37 .open 1) ∧
      (after .scanBRise s).groups.table.map Group.closeCause = [some .boundary] ∧
      (inMode .halted).control.mode ≠ .run ∧ after .scanBRise (inMode .halted) = inMode .halted := by decide +kernel

theorem test_hyp_WrittenBytesStandAtTheirAddresses :
    let a := writes 0 0x002086 (.write16 0xAABB)
    aligned a = true ∧ accessBytes a = 0xC0 ∧ accessData a = 0xAABB ∧
      accessData (writes 0 0x002081 (.write8 0x55)) = 0x0055000000000000 ∧
      accessData (writes 0 0x002080 (.write32 0x11223344)) = 0x1122334400000000 := by decide +kernel

/-! ### Confinement -/

theorem test_hyp_StandingChangesAreJudged :
    let s := inMode .run
    let p := s.setRecorder { s.recorder with pendingEvents := { EventSet.none with confinement := true } }
    s.recorder.pendingEvents.confinement = false ∧ reportable s.layout.settings.sensitivity[0] .clean .noisy = true ∧
      reportable s.layout.settings.sensitivity[0] .noisy .noisy = false ∧ p.recorder.pendingEvents.confinement = true ∧
      judgeChange p 0 .clean .noisy = p ∧ attnN (judgeChange s 0 .clean .noisy) = false := by decide +kernel

/-- The counts at which the standing changes, and a FENCED initiator whose count changes. -/
theorem test_hyp_CounterSelectsTheStanding :
    let s := inMode .run
    let fenced := setStanding s 1 400 .fenced
    (∀ n ∈ [63, 64, 159, 160, 319, 320, 511], n ≠ s.confinement[1].counter ∧ n ≤ 511) ∧
      (changeCounter s 1 319).confinement[1].state = .suspect ∧
      (changeCounter s 1 320).recorder.incidents.map (fun i => i.report.detail) = [.d711] ∧
      (changeCounter fenced 1 5).confinement[1].state = .fenced := by decide +kernel

/-! ### Management port -/

theorem test_listening (m : Mode) : Listening (inMode m) := by cases m <;> exact ⟨rfl, rfl, rfl⟩

/-- A wrong check byte, an unknown code, a request outside phase REQUEST, and the edges of MSEL_N. -/
theorem test_hyp_SessionsCarryRequests :
    let s := inMode .run
    requestOf (.flush 2 0) = some ([0x1B, 2], 0) ∧ (0 : Byte) ≠ crc8 [0x1B, 2] ∧
      (after (.flush 2 0) s).session.response = [0x06, crc8 [0x06]] ∧ (after (.flush 2 0) s).control = s.control ∧
      (0x04 : Byte) ∉ commandCodes ∧ msdo (after (.unknownCommand 0x04) s) = some 0x05 ∧
      after (.flush 2 0) (s.setSession Session.idle) = s.setSession Session.idle ∧
      (after .mselNRise s).session = Session.idle ∧ (after .mselNFall (after .mselNRise s)).session = Session.begun := by
  decide +kernel

/-- What a command is answered: the status and the data. -/
def answerOf (c : Instr) (s : State) : List Byte := (after c s).session.response.dropLast

theorem test_readStatus :
    answerOf (.readStatus 0x07) busy =
      [0x00, 0x04, 0x10, 0, 0, 0, 0x0F, 30, 2, 0, 0, 0x0A, 0x38, 0, 0, 0x0A, 0x36, 0, 0, 0x0A, 0x37, 0, 0, 0, 0] := by
  decide +kernel

theorem test_hyp_ReadGroupsAndSlotsShowTheQueue :
    (31 : Byte).toNat ≤ 31 ∧ 31 < (32 : Byte).toNat ∧ (busy.queue.entries.map Entry.slot).Nodup ∧
      answerOf (.readSlot 7 (crc8 [0x19, 7])) busy =
        [0, 1, 0x80, 0, 9, 0, 0x0F, 1, 0, 0, 0, 0, 0, 0, 0, 0x0A, 0x37, 0x12, 0x34, 0x56, 0x78, 0, 0, 0, 0] ∧
      answerOf (.readSlot 31 (crc8 [0x19, 31])) busy = 0 :: List.replicate 24 0 ∧
      answerOf (.readSlot 32 (crc8 [0x19, 32])) busy = [0x04] ∧
      (answerOf (.readGroups (crc8 [0x18])) busy).take 11 = [0, 2, 0, 0, 0x0A, 0x37, 3, 0, 1, 0, 0] := by
  decide +kernel

/-- A part with two incidents in its list. -/
def withIncidents (s : State) : State :=
  recordIncident (recordIncident s { detail := .d220, initiator := some 0, address := some 0x4200, window := some 0 })
    { detail := .d611, count := some 5 }

theorem test_hyp_IncidentsAreReadFromTheFront :
    let s := withIncidents (inMode .run)
    (inMode .run).recorder.incidents = [] ∧ s.recorder.incidents.length = 2 ∧
      answerOf (.peekIncident (crc8 [0x08])) s =
        [0, 0x9C, 22, 0, 220, 0, 0, 0, 0, 0, 0, 0x42, 0, 0, 0, 0, 0, 0, 0, 0, 0, 0, 0] ∧
      (after (.takeIncident (crc8 [0x09])) s).recorder.incidents = s.recorder.incidents.tail ∧
      after (.takeIncident (crc8 [0x09])) (inMode .run) =
        (inMode .run).setSession (after (.takeIncident (crc8 [0x09])) (inMode .run)).session := by decide +kernel

theorem test_hyp_InitiatorsAreReadAndReleased :
    let s := setStanding (inMode .run) 3 320 .fenced
    s.confinement[3].state = .fenced ∧ (3 : Byte).toNat = (3 : Initiator).val ∧ 3 < (4 : Byte).toNat ∧
      answerOf (.readInitiator 3 (crc8 [0x10, 3])) s = [0, 1, 0x40, 3, 0, 3] ∧
      (after (.releaseFence 3 (crc8 [0x11, 3])) s).confinement[3].state = .clean ∧
      (after (.releaseFence 3 (crc8 [0x11, 3])) s).recorder.pendingEvents.confinement = true ∧
      s.recorder.pendingEvents.confinement = false ∧
      answerOf (.releaseFence 0 (crc8 [0x11, 0])) s = [0x04] ∧
      answerOf (.readInitiator 4 (crc8 [0x10, 4])) s = [0x04] := by decide +kernel

/-- The acknowledgement of steps 8, 10 and 11 of 10.4: raised again while a reported state differs. -/
theorem test_hyp_EventsAreAcknowledgedAndMasked :
    let s := judgeChange (setStanding (inMode .run) 1 166 .suspect) 1 .noisy .suspect
    let changed := setStanding s 1 320 .fenced
    let ack : Instr := .ackEvents 0x04 (crc8 [0x02, 0x04])
    (0x0F : Byte).extractLsb' 4 4 = 0 ∧ (0x10 : Byte).extractLsb' 4 4 ≠ 0 ∧
      changed.recorder.pendingEvents.confinement = true ∧
      (after ack changed).recorder.pendingEvents.confinement = true ∧
      (after ack changed).confinement[1].reported = .fenced ∧
      (after ack s).recorder.pendingEvents.confinement = false ∧
      answerOf (.ackEvents 0x10 (crc8 [0x02, 0x10])) s = [0x04] ∧
      attnN s = false ∧ attnN (after (.setEventMask 0x08 (crc8 [0x03, 0x08])) s) = true := by decide +kernel

theorem test_hyp_CloseGroupClosesTheOpenGroup :
    busy.control.mode ≠ .shutdown ∧ openGroup busy = some (record 0xA38 .open 0) ∧
      answerOf (.closeGroup (crc8 [0x1A])) busy = [0, 1, 0, 0, 0x0A, 0x38] ∧
      answerOf (.closeGroup (crc8 [0x1A])) (inMode .config) = [0, 0, 0, 0, 0, 0] ∧
      (after (.closeGroup (crc8 [0x1A])) busy).groups.table.map Group.closeCause = [none, some .command] := by
  decide +kernel

theorem test_hyp_FlushMarksAndCounts :
    let c (scope : Byte) : Instr := .flush scope (crc8 [0x1B, scope])
    serving busy = true ∧ busy.control.longCommand = none ∧ busy.groups.flushTarget = none ∧
      busy.control.configRequest = false ∧ serving (inMode .config) = false ∧
      answerOf (c 1) (inMode .config) = [0x03] ∧ answerOf (c 3) busy = [0x04] ∧
      answerOf (c 1) (acceptLong busy .flush) = [0x02] ∧
      (after (c 2) busy).groups.flushTarget = some 0xA38 ∧ (after (c 1) busy).queue.outstanding = 1 ∧
      (after (c 2) (inMode .run)).control.lastResult = some .done := by decide +kernel

/-- A group STALLED, a handover that waits, and one that has nothing to wait for. -/
theorem test_hyp_RequestConfigBeginsTheHandover :
    let c : Instr := .requestConfig (crc8 [0x20])
    let stalled := withGroups (withEntries (inMode .halted) [entryA, entry 1 0x500 1 0]) [record 0xA37 (.stalled .marking) 1]
    (∀ g ∈ busy.groups.table, (match g.state with | .stalled _ => false | _ => true) = true) ∧
      answerOf c (inMode .config) = [0x00] ∧ answerOf c (inMode .starting) = [0x03] ∧
      answerOf c (acceptLong busy .flush) = [0x02] ∧
      (after c busy).control.configRequest = true ∧ (after c busy).access.answer = some .refuse ∧
      (after c (inMode .run)).control.mode = .config ∧ (after c (inMode .run)).control.lastResult = some .done ∧
      (after c stalled).control.lastResult = some .doneWithLoss ∧ stalled.recorder.incidents.length < 15 ∧
      (after c stalled).recorder.incidents.map (fun i => (i.report.detail, i.report.count)) =
        [(.d611, some 1), (.d612, some 1)] := by decide +kernel

theorem test_hyp_RequestRunEntersRecovering :
    let c : Instr := .requestRun (crc8 [0x21])
    let s := inMode .config
    let bad := { layout with settings := { layout.settings with budget := 3 } }
    let other := { layout with settings := { layout.settings with budget := 5 } }
    s.writer.newestLayout.isSome = true ∧ s.writer.storedImage = some s.layout ∧ consistent s.layout = true ∧
      s.port.op = none ∧ answerOf c s = [0x01] ∧ (after c s).control.mode = .recovering ∧
      (after c s).port.op.map ArrayOp.line = some 0x80 ∧
      answerOf c (inMode .run) = [0x03] ∧ answerOf c (acceptLong s .storeLayout) = [0x02] ∧
      answerOf c (s.setLayout bad) = [0x09] ∧ answerOf c (s.setLayout other) = [0x08] := by decide +kernel

theorem test_hyp_ResumeReturnsToRun :
    let c : Instr := .resume (crc8 [0x22])
    let s := withGroups (withEntries (inMode .halted) [entryA]) [record 0xA37 (.stalled .applying) 1]
    let s := (s.setEngine { s.engine with inCommit := some 0xA37 }).setControl { s.control with haltCause := some .d415 }
    HandoverWaits s ∧
    (s.control.mode = .halted ∧ s.groups.table.find? groupStalled = some (record 0xA37 (.stalled .applying) 1) ∧
      s.engine.inCommit = some 0xA37 ∧ (after c s).control.mode = .run ∧ (after c s).control.haltCause = none ∧
      (after c s).groups.table.map Group.state = [.inPhase .applying] ∧ answerOf c (inMode .run) = [0x03]) :=
  ⟨(fun h => by cases h), by decide +kernel⟩

theorem test_hyp_LayoutIsReadAndWritten :
    let r : BitVec 64 := 0x0008401FFFF0C809
    let c : Instr := .writeWindow 11 r (crc8 ([0x29, 11] ++ bytesOf 8 r))
    (11 : Byte).toNat = (11 : WindowIndex).val ∧ 11 < (12 : Byte).toNat ∧
      (after c (inMode .config)).layout.windows[11] = window 0x840 0x1FFFF0 4 true 0 9 ∧
      answerOf c (inMode .run) = [0x03] ∧ (after c (inMode .run)).layout = layout ∧
      answerOf (.readWindow 0 (crc8 [0x28, 0])) (inMode .run) = [0, 0, 8, 0x40, 0x1F, 0xFF, 0xF0, 0xC0, 0x01] ∧
      answerOf (.readWindow 12 (crc8 [0x28, 12])) (inMode .run) = [0x04] ∧
      (answerOf (.readSettings (crc8 [0x2A])) (inMode .run)).take 10 = [0, 1, 0, 4, 0, 16, 10, 100, 0, 64] ∧
      (after (.writeSettings 0 (crc8 (0x2B :: bytesOf 16 (0 : BitVec 128)))) (inMode .unformatted)).layout.settings =
        settingsOfBits 0 := by decide +kernel

theorem test_hyp_StoreLayoutBeginsTheCopy :
    let c : Instr := .storeLayout (crc8 [0x30])
    let s := inMode .config
    let pending := s.setEngine { s.engine with journalPending := true }
    let unknown := s.setWriter { s.writer with newestLayout := none }
    s.writer.formatIncomplete = false ∧ s.engine.journalPending = false ∧ s.control.longCommand = none ∧
      answerOf c s = [0x01] ∧ (after c s).port.op.map ArrayOp.line = some 0x10 ∧
      (after c s).writer.copyWrite.map CopyWrite.generation = some 8 ∧
      (after c unknown).writer.copyWrite.map CopyWrite.generation = some 1 ∧
      (after c unknown).port.op.map ArrayOp.line = some 0 ∧
      answerOf c pending = [0x07] ∧ answerOf c (acceptLong s .format) = [0x02] ∧ answerOf c (inMode .run) = [0x03] := by
  decide +kernel

theorem test_hyp_FormatForgetsBothPairs :
    let c : Instr := .format (crc8 [0x31])
    let s := inMode .unformatted
    let bad := s.setLayout { layout with settings := { layout.settings with lineLimit := 25 } }
    consistent s.layout = true ∧ answerOf c s = [0x01] ∧ (after c s).writer.formatIncomplete = true ∧
      (after c s).control.mode = .unformatted ∧ (after c s).port.op.map ArrayOp.enables = some 0x01 ∧
      consistent bad.layout = false ∧ answerOf c bad = [0x09] ∧ answerOf c (acceptLong s .format) = [0x02] ∧
      answerOf c (inMode .run) = [0x03] := by decide +kernel

theorem test_hyp_RestartIsACauseOfShutdown :
    let c : Instr := .restart (crc8 [0x3F])
    answerOf c (acceptLong busy .flush) = [0x02] ∧ busy.port.op.isSome = true ∧
      (after c busy).control.mode = .shutdown ∧ (after c busy).control.longCommand = some .restart ∧
      (after c (inMode .halted)).control.mode = .shutdown ∧ supplyGood (inMode .unformatted) = true ∧
      (after c (inMode .unformatted)).control.mode = .starting ∧ (after c (inMode .ended)).control.mode = .ended := by
  decide +kernel

/-- RESTART with the port free: from CONFIG at the budgets 1 and 2, and with a supply line low. -/
theorem test_hyp_RestartWithAFreePort :
    let c : Instr := .restart (crc8 [0x3F])
    let low := (configured 1).setPins { (configured 1).pins with crstN := false }
    (configured 2).port.op = none ∧ (configured 2).writer.formatIncomplete = false ∧
      (after c (configured 1)).control.mode = .starting ∧ (after c low).control.mode = .ended ∧
      (after c low).control.longCommand = some .restart ∧
      (after c (configured 2)).port.op.map ArrayOp.requester = some (.shutdownProgress 0) ∧
      after c (inMode .ended) = (((inMode .ended).setControl
        { (inMode .ended).control with longCommand := some .restart }).setSession (after c (inMode .ended)).session) := by
  decide +kernel

/-! ### Choices and formats -/

/-- A state for each line of R85: the pass-over count at 8, a held read, a short queue, a group, an entry, a copy. -/
theorem test_hyp_ArbiterGrantsInOrder :
    let h : Held := { access := { initiator := 0, address := 0x2080, op := .read .one }, cls := { window := some 2, cls := .posted, verify := false, writers := 0xF }, wait := .grant, firstHeld := 0 }
    let s := withEntries (inMode .run) [entry 1 0x500 1 0]
    let g := withGroups (withEntries (inMode .run) [entryA, entry 1 0x500 1 0]) [record 0xA37 (.inPhase .journaling) 1]
    let g := g.setEngine { g.engine with inCommit := some 0xA37, phase := some .journaling }
    let w := beginLayout (acceptLong (inMode .config) .storeLayout)
    let who (s : State) : Option Requester := (arbitrate s).port.op.map ArrayOp.requester
    who ((withHeld s h).setPort { op := none, passOver := 8 }) = some (.postedDrain 1 2 0) ∧
      who (withHeld s h) = some (.controllerRead h.access (some 2)) ∧ (arbitrate (withHeld s h)).port.passOver = 1 ∧
      who (withHeld (inMode .run) h) = some (.controllerRead h.access (some 2)) ∧ who full = some (.postedDrain 0 2 0) ∧
      who g = some .journalRecord ∧ (arbitrate g).port.passOver = 1 ∧ who s = some (.postedDrain 1 2 0) ∧
      who w = some (.storeLayoutLine 0) ∧ arbitrate (inMode .run) = inMode .run := by decide +kernel

/-- The records of 3.5 as recovery reads them back: accepted at their own index alone, sealed at their own count. -/
theorem test_hyp_JournalRecordsAreFoundAgain :
    let r := lineRecord 0xA37 0 entryA
    entryA.valid ≠ 0 ∧ entryA.line.toNat < 8192 * 2 ^ (1 : BitVec 8).toNat ∧ acceptsLineRecord 0xA37 0 1 r = true ∧
      acceptsLineRecord 0xB37 0 1 r = true ∧ acceptsLineRecord 0xA38 0 1 r = false ∧
      acceptsLineRecord 0xA37 1 1 r = false ∧ acceptsLineRecord 0xA37 0 1 (lineRecord 0xA37 0 { entryA with line := 0x3FFF }) = true ∧
      acceptsLineRecord 0xA37 0 1 (lineRecord 0xA37 0 { entryA with line := 0x4000 }) = false ∧
      sealedCommit 0xA37 1 (crc32Update crc32Initial (recordBytes r)) (commitRecord 0xA37 1 none (crc32 (recordBytes r)))
        = true ∧
      sealedCommit 0xA37 2 (crc32Update crc32Initial (recordBytes r)) (commitRecord 0xA37 1 none (crc32 (recordBytes r)))
        = false := by decide +kernel

/-- Recovery with these records found, an operation in flight. -/
def scanning (stage : RecoveryStage) (first : Option LineData) (records : List JournalRecord) (op : ArrayOp)
    (second : LineData) : State :=
  let s := withOp (inMode .recovering) op
  (s.setMem (Memory.writeLine [] op.line second 0xFF)).setRecovery (some
    { path := .start, base := 0xA36, stage := stage, scanPosition := records.length, found := records.length
      runningCheck := records.foldl (fun c r => crc32Update c (recordBytes r)) crc32Initial
      records := records, replayIndex := 0, firstLine := first })

/-- The scan at the first line of a record, at an accepted one, at the seal, and at neither; a replay write; the second line
of the copy that retires the group. -/
theorem test_hyp_RecoveryScansAndReplays :
    let r := lineRecord 0xA37 0 entryA
    let commit := commitRecord 0xA37 1 none (crc32 (recordBytes r))
    let read := lineRead (.scanRead 0xA37 0) 0x81
    let go (s : State) : State := after (.arrayReady (BitVec.allOnes 64)) s
    let begins := scanning .scan none [] read r.first
    let accepts := scanning .scan (some r.first) [] read r.second
    let seals := scanning .scan (some commit.first) [r] read commit.second
    let breaks := scanning .scan (some 0) [r] read 0
    let replay := scanning .replay none [r] (lineWrite (.replayWrite 0xA37 0) false 0x900 0 0x0F) 0
    let copy := scanning .replayProgress none [r] (lineWrite (.recoveryProgress 0xA37 true 1) false 0x21 0 0xFF) 0
    let copy := copy.setWriter { copy.writer with copyWrite := retiring.writer.copyWrite }
    let stage (s : State) : Option RecoveryStage := s.recovery.map Recovery.stage
    (∀ f rs x, ∃ op, Completes (scanning .scan f rs read x) op ∧ op.kind = .lineRead ∧
      op.requester = .scanRead 0xA37 0) ∧
    (∃ op, Completes replay op ∧ op.requester = .replayWrite 0xA37 0) ∧
    (∃ op, Completes copy op ∧ op.requester = .recoveryProgress 0xA37 true 1) ∧
    ((go begins).recovery.map Recovery.firstLine = some (some r.first) ∧
      (go accepts).recovery.map Recovery.found = some 1 ∧ stage (go seals) = some .replay ∧
      (go seals).port.op.map (fun o => (o.line, o.data, o.enables)) = some (0x900, 0x1234567800000000, 0x0F) ∧
      stage (go breaks) = some .finalProgress ∧
      (go breaks).recorder.incidents.map (fun i => i.report.detail) = [.d570] ∧
      stage (go replay) = some .replayProgress ∧
      (go replay).recorder.incidents.map (fun i => i.report.detail) = [.d560] ∧
      copy.writer.copyWrite.map CopyWrite.written = some 1 ∧ stage (go copy) = some .finalProgress ∧
      (go copy).writer.retiredThrough = 0xA37 ∧
      (go copy).writer.copyWrite.map CopyWrite.generation = some 0x12E) :=
  ⟨fun _ _ _ => ⟨_, ⟨rfl, rfl, .inl ⟨rfl, rfl⟩⟩, rfl, rfl⟩, ⟨_, ⟨rfl, rfl, .inr (.inl ⟨rfl, rfl⟩)⟩, rfl⟩,
    ⟨_, ⟨rfl, rfl, .inr (.inl ⟨rfl, rfl⟩)⟩, rfl⟩, by decide +kernel⟩

/-- Lines that fail: STORE_LAYOUT's; FORMAT's in the journal area and outside; recovery's in each of its stages. -/
theorem test_hyp_FailedLinesEndTheirWork :
    let format (n : Nat) : State := (formatting .unformatted).setPort
      { op := some { lineWrite (.formatLine n) true 0x80 1 0xFF with step := .readBack, presented := true, attempt := 3 }
        passOver := 0 }
    let scan := scanning .scan none [] (lineRead (.scanRead 0xA37 0) 0x80) 0
    let replay := scanning .replay none [lineRecord 0xA37 0 entryA]
      (lineWrite (.replayWrite 0xA37 0) true 0x900 0 0x0F) 0
    let timeout : Instr := .arrayTimeout 0
    let shown (c : Instr) (s : State) : List (Detail × Reaction) × Mode × Option LongResult :=
      ((after c s).recorder.incidents.map (fun i => (i.report.detail, i.reaction)), (after c s).control.mode,
        (after c s).control.lastResult)
    (∃ op, (format 2).port.op = some op ∧ FailsWith (format 2) op (.arrayReady 0) .miscompare) ∧
    [shown timeout storing, shown timeout (format 1), shown timeout (format 2), shown (.arrayReady 0) (format 3),
        shown (.arrayReady 0) (format 4), shown timeout scan, shown timeout replay, shown timeout (lastProgress .start 0),
        shown timeout (lastProgress .command 0)] =
      [([(.d416, .record)], .config, some .failed), ([(.d416, .record)], .unformatted, some .failed),
        ([(.d414, .record)], .unformatted, some .failed), ([(.d424, .record)], .unformatted, some .failed),
        ([(.d426, .record)], .unformatted, some .failed), ([(.d417, .record)], .config, none),
        ([(.d415, .record)], .config, none), ([(.d416, .record)], .config, none),
        ([(.d416, .record)], .config, some .failed)] :=
  ⟨⟨_, rfl, .inr ⟨_, rfl, rfl, rfl, rfl, rfl, rfl, by decide +kernel⟩⟩, by decide +kernel⟩

/-- Lines of a record under CONTINUE, and drain writes with 3 and with 2 on the budget. -/
theorem test_hyp_SequenceGoesOn :
    let line (p : Phase) (half : Half) : State :=
      sequencing .group 9 (committing p half .held someRead) (lineWrite .shutdownRecord false 0x80 0 0xFF)
    let drain (budget : Nat) : State :=
      sequencing .drain budget draining (lineWrite (.shutdownDrain 3 2 0) false 0x410 0 0x0F)
    let go (s : State) : State := after (.arrayReady (BitVec.allOnes 64)) s
    let at' (s : State) : Option Phase × Nat × Half := (s.engine.phase, s.engine.position, s.engine.half)
    let who (s : State) : Option Requester := s.port.op.map ArrayOp.requester
    Sound (drain 3) ∧ Sound (drain 2) ∧
    (∀ p h, Carries (line p h) 0xA37 (record 0xA37 (.inPhase p) 1) p) ∧
    (at' (go (line .journaling .first)) = (some .journaling, 0, .second) ∧
      at' (go (line .journaling .second)) = (some .marking, 0, .first) ∧
      at' (go (line .marking .first)) = (some .marking, 0, .second) ∧
      who (go (line .marking .first)) = some .shutdownRecord ∧
      at' (go (line .marking .second)) = (some .applying, 0, .first) ∧
      (go (line .marking .second)).engine.journalPending = true ∧
      who (go (drain 3)) = some (.shutdownDrain 5 2 0) ∧ who (go (drain 2)) = some (.shutdownProgress 0) ∧
      (go (drain 2)).shutdown.postedAbandoned = 1 ∧ (go (drain 2)).queue.entries = [] ∧
      (go (drain 2)).writer.copyWrite.map CopyWrite.content = some (.progress
        { state := .short, postedAbandoned := 1, groupsAbandoned := 0, retiredThrough := 0xA36 })) :=
  ⟨sound_of (by decide +kernel), sound_of (by decide +kernel), fun _ _ => ⟨rfl, rfl, rfl, rfl⟩, by decide +kernel⟩

/-- A progress copy is valid and reads back; with a bit changed it is not valid. A copy of an unknown state reads DIRTY. -/
theorem test_progress_copies :
    let p : ProgressContent := { state := .short, postedAbandoned := 2, groupsAbandoned := 1, retiredThrough := 0xA36 }
    progressValid (progressCopy p 0x12C) = true ∧ progressOfCopy (progressCopy p 0x12C) = p ∧
      progressValid (progressCopy p 0x12C ^^^ 1) = false ∧ shutdownStateOf 3 = .dirty := by decide +kernel

/-! ### What follows in the same handling -/

/-- The end of a drain write gives the freed port to the arbiter; a failed one in HALTED with a HALT reaction keeps the
halt cause. -/
theorem test_hyp_DrainWriteFreesThePort :
    let halting := { layout.settings with reactions := { layout.settings.reactions with arrayFailures := 2 } }
    let halted := (draining.setControl { draining.control with mode := .halted, haltCause := some .d320 }).setLayout
      { layout with settings := halting }
    let t := after (.arrayTimeout 0) halted
    draining.control.configRequest = false ∧
      (after (.arrayReady (BitVec.allOnes 64)) draining).port.op.map ArrayOp.requester = some (.postedDrain 5 2 0) ∧
      serving halted = true ∧ reactionTaken halted .d413 = .halt ∧ t.control.mode = .halted ∧
      t.control.haltCause = some .d320 ∧
      (after (.arrayTimeout 0) (halted.setControl { halted.control with mode := .run })).control.haltCause = some .d413 := by
  decide +kernel

/-- The first line of the retiring copy; the group behind the one that retires, and none. -/
theorem test_hyp_NextGroupIsTaken :
    let first := (retiring.setEngine { retiring.engine with half := .first }).setWriter { retiring.writer with
      copyWrite := retiring.writer.copyWrite.map (fun c => { c with written := 0 }) }
    let behind := withGroups retiring (retiring.groups.table ++ [record 0xA38 .closed 1, record 0xA39 .open 1])
    let t := after (.arrayReady 0) behind
    (∃ op, Completes first op ∧ op.requester = .retiringProgress) ∧
    Carries first 0xA37 (record 0xA37 (.inPhase .retiring) 1) .retiring ∧
    ((after (.arrayReady 0) first).engine.position = 1 ∧ (after (.arrayReady 0) first).engine.half = .second ∧
      (∀ g ∈ behind.groups.table, g.sequence ≠ 0xA37 → groupInCommit g = false) ∧
      t.engine.inCommit = some 0xA38 ∧ t.engine.phase = some .journaling ∧ t.engine.position = 0 ∧
      t.groups.table.map Group.state = [.inPhase .journaling, .open] ∧
      (after (.arrayReady 0) retiring).engine.inCommit = none) :=
  ⟨⟨_, ⟨rfl, rfl, .inr (.inr ⟨rfl, rfl, by decide +kernel⟩)⟩, rfl⟩, ⟨rfl, rfl, rfl, rfl⟩, by decide +kernel⟩

/-- A group closed by a scan boundary, by CLOSE_GROUP and by REQUEST_CONFIG is taken into JOURNALING, its first record in
the running check. -/
theorem test_hyp_ClosedGroupIsTaken :
    let s := withGroups (withEntries (inMode .run) [entryA]) [record 0xA37 .open 1]
    let check := crc32Update crc32Initial (recordBytes (lineRecord 0xA37 0 entryA))
    (∀ g ∈ s.groups.table, groupInCommit g = false) ∧
      (closedTable s.groups.table .boundary).map Group.closeCause = [some .boundary] ∧
      ∀ c ∈ [Instr.scanBRise, .closeGroup (crc8 [0x1A]), .requestConfig (crc8 [0x20])],
        (after c s).engine.inCommit = some 0xA37 ∧ (after c s).engine.phase = some .journaling ∧
          (after c s).engine.runningCheck = check ∧ (after c s).port.op.map ArrayOp.line = some 0x80 ∧
          (after c s).port.op.map ArrayOp.data = some (lineRecord 0xA37 0 entryA).first := by decide +kernel

/-- A control-area read before the last: the first, and the thirty-fifth. -/
theorem test_hyp_StartReadsGoOn :
    let s (n : Nat) : State := lastRead (List.replicate n 0)
    let t (n : Nat) : State := after (.arrayReady 0) (s n)
    (∀ n, ∃ op, Completes (s n) op ∧ op.kind = .lineRead ∧ op.requester = .startRead 35) ∧
    (∀ n, (s n).control.mode = .starting ∧ (s n).start.waiting = false) ∧
    ((t 0).start.lines.length = 1 ∧ (t 0).port.op.map ArrayOp.line = some 1 ∧
      (t 34).start.lines.length = 35 ∧ (t 34).port.op.map ArrayOp.line = some 0x23 ∧
      (t 34).port.op.map ArrayOp.requester = some (.startRead 35)) :=
  ⟨fun _ => ⟨_, ⟨rfl, rfl, .inl ⟨rfl, rfl⟩⟩, rfl, rfl⟩, fun _ => ⟨rfl, rfl⟩, by decide +kernel⟩

/-- Lines of FORMAT and of STORE_LAYOUT before the last: the first and the last but one. -/
theorem test_hyp_LinesBeforeTheLast :
    let format (n : Nat) : State := (formatting .unformatted).setWriter { (formatting .unformatted).writer with
      format := some { image := layout, journalBase := 0x400, written := n } }
    let store (n : Nat) : State := storing.setWriter { storing.writer with
      copyWrite := some { content := .layout layout, target := .b, generation := 8, written := n } }
    let line (s : State) : Option (LineNo × ByteSet) := s.port.op.map (fun o => (o.line, o.enables))
    let go (s : State) : State := after (.arrayReady (BitVec.allOnes 64)) s
    (∀ n, ∃ op, Completes (format n) op ∧ op.requester = .formatLine 39) ∧
    (∀ n, ∃ op, Completes (store n) op ∧ op.requester = .storeLayoutLine 15) ∧
    ((format 0).access.held = none ∧ storing.control.longCommand = some .storeLayout ∧ storing.writer.format = none ∧
      (formatWrites layout 0x400).length = 40 ∧
      (formatWrites layout 0x400).map Prod.fst = [0x00, 0x10, 0x80, 0x81, 0x20, 0x21, 0x22, 0x23] ++
        (List.range 32).map (BitVec.ofNat 21) ∧
      line (go (format 0)) = some (0x10, 0x01) ∧ line (go (format 1)) = some (0x80, 0xFF) ∧
      line (go (format 38)) = some (0x1F, 0xFF) ∧ line (go (store 0)) = some (0x11, 0xFF) ∧
      line (go (store 14)) = some (0x1F, 0xFF)) := by
  refine ⟨fun _ => ⟨_, ⟨rfl, rfl, .inr (.inr ⟨rfl, rfl, ?_⟩)⟩, rfl⟩,
    fun _ => ⟨_, ⟨rfl, rfl, .inr (.inl ⟨rfl, rfl⟩)⟩, rfl⟩, ?_⟩
  · intro n hn _
    interval_cases n <;> rfl
  · decide +kernel

/-- The close at the line limit under HALT: the write that lands, and the one refused because no record is left. -/
theorem test_hyp_LimitCloseHalts :
    let grouped := writes 1 0x004008 (.write8 0x77)
    let halting := { layout.settings with reactions := { layout.settings.reactions with class32 := 2 } }
    let s (older : List Group) : State :=
      (withGroups (withEntries (inMode .run) [entryG]) (older ++ [record 0xA37 .open 16])).setLayout
        { layout with settings := halting }
    let t (older : List Group) : State := after (.controllerAccess grouped) (s older)
    let three := [record 1 .closed 1, record 2 .closed 1, record 3 .closed 1]
    let s0 := (s []).setGroups { (s []).groups with nextSequence := 0xA38 }
    Sound s0 ∧ Sound (s three) ∧
    (reactionTaken (s []) .d320 = .halt ∧ (∀ x ∈ s0.groups.table, x.sequence ≠ s0.groups.nextSequence) ∧
      (after (.controllerAccess grouped) s0).groups.table.map (fun g => (g.state, g.closeCause)) =
        [(.inPhase .journaling, some .limit), (.closed, some .halt)] ∧
      (after (.controllerAccess grouped) s0).access.answer = some (.done []) ∧
      (t three).access = { held := none, answer := some .refuse } ∧ (t three).control.mode = .halted ∧
      (t three).control.haltCause = some .d320) :=
  ⟨sound_of (by decide +kernel), sound_of (by decide +kernel), by decide +kernel⟩

/-- Nothing waits after power-on; a free port with a read due and with none. -/
theorem test_hyp_NothingWaits :
    let h : Held := { access := { initiator := 0, address := 0x2080, op := .read .one }, cls := { window := some 2, cls := .posted, verify := false, writers := 0xF }, wait := .writingEntry, firstHeld := 0 }
    let s := withEntries (inMode .run) [entry 1 0x500 1 0]
    s.port.op = none ∧ serving s = true ∧ drivePort (withHeld s h) = withHeld s h ∧
      (drivePort s).port.op.map ArrayOp.requester = some (.postedDrain 1 2 0) ∧
      drivePort draining = draining ∧
      requestsOf (inMode .run) = { controller := none, drain := none, engine := none, writer := none } ∧
      requestsOf State.reset = { controller := none, drain := none, engine := none, writer := none } := by
  decide +kernel

/-- A state in which nothing waits takes a step. -/
theorem test_hyp_StepsLeaveNothingWaiting :
    NothingWaits (settle (inMode .run)) ∧ step (settle (inMode .run)) = .next (tick (settle (inMode .run))) :=
  ⟨settle_nothingWaits (.inr (.inr (.inl rfl))), step_nil rfl⟩

/-- A record with a bit of its kind, its check byte or its valid set changed is not accepted, nor a commit record sealed
with another kind, complement or check. -/
theorem test_records_are_told_apart :
    let r := lineRecord 0xA37 0 entryA
    let c := commitRecord 0xA37 1 none (crc32 (recordBytes r))
    let running := crc32Update crc32Initial (recordBytes r)
    (∀ b ∈ [0, 63], acceptsLineRecord 0xA37 0 1 { r with first := r.first ^^^ (1 <<< b) } = false) ∧
      acceptsLineRecord 0xA37 0 1 { r with second := r.second ^^^ 1 } = false ∧
      acceptsLineRecord 0xA37 0 1 (lineRecord 0xA37 0 { entryA with valid := 0 }) = false ∧
      sealedCommit 0xA37 1 running { c with first := c.first ^^^ (1 <<< 63) } = false ∧
      sealedCommit 0xA37 1 running { c with second := c.second ^^^ 1 } = false ∧
      sealedCommit 0xA37 1 running { c with second := c.second ^^^ (1 <<< 32) } = false := by decide +kernel

/-- The operation in flight at entry to SHUTDOWN ends: a drain write, a line of a group kept or abandoned, from RUN; a line
of FORMAT's mode and of STORE_LAYOUT from CONFIG; recovery's line from RECOVERING. -/
theorem test_hyp_FinishingEnds :
    let finishing (origin : ShutdownOrigin) (budget : Nat) (s : State) : State :=
      (((s.setControl { s.control with mode := .shutdown }).setRecovery none).setPins
        { s.pins with pfwN := false }).setShutdown
        { origin := origin, budget := budget, stage := .finishing, plan := none, postedAbandoned := 0, groupsAbandoned := 0 }
    let go (s : State) : State := after (.arrayReady (BitVec.allOnes 64)) s
    let record1 (budget : Nat) : State :=
      finishing .full budget (engineStep .journaling .first .held .journalRecord 0x80)
    let store (budget : Nat) : State :=
      let s := finishing .config budget storing
      s.setWriter { s.writer with copyWrite := none }
    let replay := finishing .none 5 (lastProgress .start 0)
    let who (s : State) : Option Requester := s.port.op.map ArrayOp.requester
    worksInRun .journalRecord = true ∧ Carries (record1 5) 0xA37 (record 0xA37 (.inPhase .journaling) 1) .journaling ∧
    ((record1 5).groups.table.map Group.sequence).Nodup ∧ (record1 5).access.held = none ∧
    (who (go (finishing .full 5 draining)) = some (.shutdownDrain 5 2 0) ∧
      (go (finishing .full 5 draining)).queue.entries.map Entry.slot = [5] ∧
      who (go (record1 5)) = some .shutdownRecord ∧ (go (record1 5)).engine.half = .second ∧
      (go (record1 5)).shutdown.plan = some .continue ∧ (go (record1 5)).shutdown.budget = 4 ∧
      (go (record1 5)).port.op.map ArrayOp.line = some 0x81 ∧
      (go (record1 4)).shutdown.groupsAbandoned = 1 ∧ (go (record1 4)).engine.inCommit = none ∧
      who (go (store 2)) = some (.shutdownProgress 0) ∧ (go (store 1)).control.mode = .ended ∧
      (go replay).control.mode = .ended ∧ (go replay).writer.progressGeneration = 0x12D ∧
      supplyGood replay = false) :=
  ⟨rfl, ⟨rfl, rfl, rfl, rfl⟩, by decide +kernel, rfl, by decide +kernel⟩

/-! ### The entries in flight, and reactions carried out -/

/-- A WRITING entry carried by the operation in flight, before and after a step. -/
theorem test_hyp_EveryStepKeepsCarried : Sound draining ∧ WritingCarried draining ∧
    step draining = .next (tick draining) ∧ WritingCarried State.reset :=
  ⟨sound_of (by decide +kernel), draining_carried, rfl, carried_of (by decide)⟩

/-- A POSTED write with the port free, at arrival and taken anew: its entry is granted at once. With its line's entry WRITING
a second entry is created; with its line's entry READY the write goes into it. -/
theorem test_hyp_PostedWriteWithAFreePort :
    let a := writes 1 0x002080 (.write8 0x66)
    let h : Held := { access := a, cls := { window := some 2, cls := .posted, verify := false, writers := 0xF }, wait := .slot, firstHeld := 0 }
    let s := inMode .run
    let ready := withEntries s [entry 3 0x410 0x02 0]
    let shown (t : State) : List (Fin 32 × EntryState) × Option Requester :=
      (t.queue.entries.map (fun e => (e.slot, e.state)), t.port.op.map ArrayOp.requester)
    let arrives : Instr := .controllerAccess a
    Sound s ∧ WritingCarried s ∧ Sound (withHeld s h) ∧ WritingCarried (withHeld s h) ∧ Sound ready ∧
    WritingCarried ready ∧ HandoverWaits (withHeld s h) ∧
    (s.port.op = none ∧ s.access.held = none ∧ checkAccess s a = .accepted h.cls ∧
      shown (after arrives s) = ([(0, .writing)], some (.postedDrain 0 2 1)) ∧
      shown (after .heldWriteTakenAnew (withHeld s h)) = ([(0, .writing)], some (.postedDrain 0 2 1)) ∧
      shown (after arrives draining) = ([(3, .writing), (5, .ready), (0, .ready)], some (.postedDrain 3 2 0)) ∧
      shown (after arrives ready) = ([(3, .writing)], some (.postedDrain 3 2 1))) :=
  ⟨sound_of (by decide +kernel), carried_of (by decide +kernel), sound_of (by decide +kernel),
    carried_of (by decide +kernel), sound_of (by decide +kernel), carried_of (by decide +kernel), (fun h => by cases h),
    by decide +kernel⟩

/-- A layout in which every configurable reaction is the coded one. -/
def reacting (c : BitVec 2) : Layout :=
  { layout with settings := { layout.settings with reactions :=
      { class21 := c, class22 := c, class23 := c, class24 := c, class27 := c, class28 := c, class31 := c, class32 := c
        arrayFailures := c } } }

/-- A drain write whose entry has been freed ends, completing or not, in CONFIG, RECOVERING and RUN. -/
theorem test_hyp_DrainWriteOfAFreedEntry :
    let ended (m : Mode) (c : Instr) (op : ArrayOp) : State := after c (withOp (inMode m) op)
    let full := BitVec.allOnes 64
    (∀ m, ∃ op, Completes (withOp (inMode m) drainWrite) op ∧ op.requester = .postedDrain 3 2 0) ∧
    (∃ op, FailsWith (withOp (inMode .config) (readsBack 3)) op (.arrayReady 0) .miscompare ∧
      (withOp (inMode .config) (readsBack 3)).port.op = some op) ∧
    (∀ m ∈ [Mode.config, .recovering, .run],
      (ended m (.arrayReady full) drainWrite).recorder.incidents = [] ∧
        (ended m (.arrayTimeout 0) drainWrite).recorder.incidents.map (fun i => i.report.detail) = [.d413] ∧
        (ended m (.arrayReady 0) (readsBack 3)).recorder.incidents.map (fun i => i.report.detail) = [.d423] ∧
        (ended m (.arrayTimeout 0) drainWrite).queue = (inMode m).queue) :=
  ⟨fun _ => ⟨_, ⟨rfl, rfl, .inr (.inl ⟨rfl, rfl⟩)⟩, rfl⟩,
    ⟨_, .inr ⟨_, rfl, rfl, rfl, rfl, rfl, rfl, by decide +kernel⟩, rfl⟩, by decide +kernel⟩

/-- The failed drain write that is not the last of a handover, its reaction HALT. -/
theorem test_hyp_FailedDrainWriteInAHandover :
    let s := (acceptLong draining .requestConfig).setLayout (reacting 2)
    let s := s.setControl { s.control with configRequest := true }
    let t := after (.arrayTimeout 0) s
    Sound s ∧ (s.queue.entries.length = 2 ∧ reactionTaken s .d413 = .halt ∧ t.control.handoverLoss = true ∧
      t.control.configRequest = true ∧ t.control.mode = .halted ∧ t.control.haltCause = some .d413 ∧
      t.control.longCommand = some .requestConfig) :=
  ⟨sound_of (by decide +kernel), by decide +kernel⟩

/-- The line read of a read that is no longer held ends in CONFIG, RECOVERING and SHUTDOWN, there with a supply line low and
with both high. -/
theorem test_hyp_LineReadOfARefusedRead :
    let s (m : Mode) : State := withOp (inMode m) someRead
    let down (good : Bool) : State := ((s .shutdown).setPins { (s .shutdown).pins with pfwN := good }).setShutdown
      { origin := .config, budget := 1, stage := .finishing, plan := none, postedAbandoned := 0, groupsAbandoned := 0 }
    let quiet (c : Instr) (s : State) : Bool :=
      (after c s).recorder.incidents.isEmpty && decide ((after c s).access = s.access)
    (∀ m, ∃ op, (s m).port.op = some op ∧ op.kind = .lineRead ∧ op.presented = true ∧
      op.requester = .controllerRead { initiator := 0, address := 0x2080, op := .read .one } none) ∧
    (∀ c ∈ [Instr.arrayTimeout 0, .arrayReady 0],
      (∀ x ∈ [s .config, s .recovering, down false], quiet c x = true) ∧
        (after c (down false)).control.mode = .ended ∧ (after c (down true)).control.mode = .starting) :=
  ⟨fun _ => ⟨_, rfl, rfl, rfl, rfl⟩, by decide +kernel⟩

/-- What each requester's timeout in SHUTDOWN records. -/
theorem test_hyp_OperationAtEntryTimesOut :
    let a := writes 2 0x008009 (.write8 0x5A)
    let timed (r : Requester) : State :=
      sequencing .finishing 5 (committing .applying .first .writing someRead) { someRead with requester := r }
    let shown (r : Requester) : List Detail :=
      (after (.arrayTimeout 0) (timed r)).recorder.incidents.map (fun i => i.report.detail)
    (∀ r, (timed r).powered = true ∧ (timed r).control.mode = .shutdown ∧ (timed r).recovery = none ∧
      (timed r).access.held = none ∧ supplyGood (timed r) = false ∧ ∃ op, (timed r).port.op = some op ∧ op.requester = r) ∧
    ([someRead.requester, .throughWrite a (some 4), .postedDrain 1 2 0, .journalRecord, .inPlaceWrite 7 1 0,
        .retiringProgress, .storeLayoutLine 3, .formatLine 1, .formatLine 2, .formatLine 3, .formatLine 4, .startRead 5,
        .scanRead 0xA37 0, .replayWrite 0xA37 0, .recoveryProgress 0xA37 true 1].map shown =
      [[], [.d412], [.d413], [.d414], [.d415], [.d416], [.d416], [.d416], [.d414], [.d414], [.d416], [.d417], [.d417],
        [.d415], [.d416]] ∧
      (after (.arrayTimeout 0) (timed (.inPlaceWrite 7 1 0))).queue.entries.map Entry.state = [.ready, .ready] ∧
      (after (.arrayTimeout 0) (sequencing .finishing 5 draining drainWrite)).queue.entries.map Entry.slot = [5]) :=
  ⟨fun _ => ⟨rfl, rfl, rfl, rfl, rfl, _, rfl, rfl⟩, by decide +kernel⟩

/-- A refused access under FENCE below the threshold and at 312, where its own count fences; under HALT with a group open; and
with one place left in the incident list. -/
theorem test_hyp_RefusalIsCarriedOut :
    let a := writes 3 0x004400 (.write32 0)
    let s (c : BitVec 2) (n : Nat) : State := setStanding
      ((withGroups (inMode .run) [record 0xA37 .open 1]).setLayout (reacting c)) 3 n (standingOf n)
    let shown (s : State) : List (Detail × Reaction) :=
      (after (.controllerAccess a) s).recorder.incidents.map (fun i => (i.report.detail, i.reaction))
    let halted := (after (.controllerAccess a) (s 2 0))
    let crowded := (s 1 311).setRecorder { (s 1 311).recorder with
      incidents := List.replicate 15 { report := { detail := .d211 }, stamp := 0, reaction := .record } }
    Sound (s 1 311) ∧ Sound (s 1 312) ∧ Sound (s 2 0) ∧ Sound crowded ∧ HandoverWaits (s 2 0) ∧
    (checkAccess (s 1 311) a = refusal .d230 a (some 1) ∧ checkAccess crowded a = refusal .d230 a (some 1) ∧
      shown (s 1 311) = [(.d230, .fence), (.d712, .none)] ∧ shown (s 1 312) = [(.d230, .fence), (.d711, .none)] ∧
      shown (s 2 0) = [(.d230, .halt)] ∧ halted.control.mode = .halted ∧ halted.control.haltCause = some .d230 ∧
      halted.recorder.pendingEvents.mode = true ∧ halted.groups.table.map Group.closeCause = [some .halt] ∧
      halted.engine.inCommit = some 0xA37 ∧ (after (.controllerAccess a) crowded).recorder.incidents.length = 16 ∧
      (after (.controllerAccess a) crowded).recorder.overflow = true) :=
  ⟨sound_of (by decide +kernel), sound_of (by decide +kernel), sound_of (by decide +kernel), sound_of (by decide +kernel),
    (fun h => by cases h), by decide +kernel⟩

/-- The stall limit under HALT, with a group open; in a handover, which goes on in HALTED. -/
theorem test_hyp_StallLimitHalts :
    let h : Held := { access := writes 1 0x003000 (.write8 0x66), cls := { window := some 2, cls := .posted, verify := false, writers := 0xF }, wait := .slot, firstHeld := 0 }
    let s := (withHeld (withOp (withGroups (inMode .run) [record 0xA37 .open 1]) someRead) h).setLayout (reacting 2)
    let leaving := (acceptLong s .requestConfig).setControl { (acceptLong s .requestConfig).control with configRequest := true }
    let t := after .stallLimitExpiry s
    HandoverWaits s ∧ HandoverWaits leaving ∧
    (serving s = true ∧ reactionTaken s .d311 = .halt ∧ t.control.mode = .halted ∧ t.control.haltCause = some .d311 ∧
      openGroup t = none ∧ t.groups.table.map Group.closeCause = [some .halt] ∧
      t.access = { held := none, answer := some .refuse } ∧
      (after .stallLimitExpiry leaving).control.mode = .halted ∧
      (after .stallLimitExpiry leaving).control.configRequest = true) :=
  ⟨(fun h => by cases h), fun _ => .inl (by decide +kernel), by decide +kernel⟩

/-- RESUME with a group STALLED in each phase, and with none STALLED. -/
theorem test_hyp_ResumeRestartsThePhase :
    let s (p : Phase) (st : EntryState) : State :=
      let s := withGroups (withEntries (inMode .halted) [{ entryA with state := st }]) [record 0xA37 (.stalled p) 1]
      withOp (s.setEngine { s.engine with inCommit := some 0xA37, runningCheck := 0x1234 }) someRead
    let go (s : State) : State := after (.resume (crc8 [0x22])) s
    let work := (committing .marking .second .held someRead).setControl
      { (committing .marking .second .held someRead).control with mode := .halted }
    (∀ p st, (s p st).control.mode = .halted ∧ HandoverWaits (s p st) ∧ (s p st).engine.inCommit = some 0xA37 ∧
      (s p st).groups.table.find? groupStalled = some (record 0xA37 (.stalled p) 1)) ∧
    ((go (s .journaling .held)).engine.runningCheck =
        crc32Update crc32Initial (recordBytes (lineRecord 0xA37 0 entryA)) ∧
      (go (s .marking .held)).engine.runningCheck = 0x1234 ∧ (go (s .marking .held)).engine.phase = some .marking ∧
      (go (s .applying .applied)).queue.entries.map Entry.state = [.ready] ∧
      (go ((s .applying .applied).setPort { op := none, passOver := 0 })).queue.entries.map Entry.state = [.writing] ∧
      (go (s .retiring .applied)).writer.copyWrite = some
        { content := .progress (progressOf .dirty 0xA37), target := .a, generation := 0x12D, written := 0 } ∧
      (∀ g ∈ work.groups.table, groupStalled g = false ∧ groupInCommit g = true) ∧ (go work).engine = work.engine) :=
  ⟨fun _ _ => ⟨rfl, (fun h => by cases h), rfl, rfl⟩, by decide +kernel⟩

/-! ### Copies whose line fails -/

/-- Progress copy A with the lines of generation 0x12B, the target of the retiring write of generation 0x12D. -/
def oldCopy : Memory :=
  let line (i : Nat) : LineData := progressCopyLine (progressOf .dirty 0xA36) 0x12B i
  (Memory.writeLine [] 0x20 (line 0) 0xFF).writeLine 0x21 (line 1) 0xFF

/-- Line `i` of the retiring copy, granted over the old copy, at a step of it; `before` lines of the new copy stand. -/
def retiringLine (i : Nat) (before : Memory → Memory) (step : ArrayStep) (attempt : Nat) : State :=
  let new := progressCopyLine (progressOf .dirty 0xA37) 0x12D i
  let line : LineNo := 0x20 + BitVec.ofNat 21 i
  let op := { lineWrite .retiringProgress true line new 0xFF with step := step, attempt := attempt }
  let s := committing .retiring (if i = 0 then .first else .second) .applied op
  (s.setMem (before oldCopy)).setLineBefore (oldCopy.readLine line)

/-- A line of the new copy stands. -/
def newLine (i : Nat) (m : Memory) : Memory :=
  m.writeLine (0x20 + BitVec.ofNat 21 i) (progressCopyLine (progressOf .dirty 0xA37) 0x12D i) 0xFF

/-- The failed line would leave the old copy valid, or the new one: after the failure the copy is not valid. Where `took`
leaves it not valid, the line holds what `took` says; a step that completes leaves the new copy valid. -/
theorem test_hyp_FailedLinesLeaveNoValidCopy :
    let all := BitVec.allOnes 64
    let valid (m : Memory) : Bool := m.copyValid 0x20
    let first := retiringLine 0 id .write 1
    let last := retiringLine 1 (newLine 0) .write 1
    let unread := retiringLine 1 (newLine 1 ∘ newLine 0) .readBack 1
    let third := retiringLine 0 id .readBack 3
    Sound first ∧ Sound last ∧ Sound unread ∧ Sound third ∧
    (∀ s ∈ [first, last, unread, third], ∃ op, s.port.op = some op ∧ ChangesTheCopy s op) ∧
    (valid first.mem = true ∧ valid unread.mem = true ∧ valid last.mem = false ∧
      valid ((landStep last { lineWrite .retiringProgress true 0x21 (progressCopyLine (progressOf .dirty 0xA37) 0x12D 1) 0xFF
        with presented := true } all).mem) = true) ∧
    ([after (.arrayTimeout 0) first, after (.arrayTimeout all) last, after (.arrayTimeout 0) unread,
        after (.arrayTimeout all) unread, after (.arrayReady 0) third].all
      (fun t => !valid t.mem && t.control.mode == .halted && t.writer.copyWrite.isNone) = true) ∧
    (after (.arrayTimeout all) first).mem = newLine 0 oldCopy ∧
    (after (.arrayTimeout 0) last).mem = newLine 0 oldCopy ∧
    (after (.arrayTimeout 0) unread).mem = newLine 0 oldCopy ∧
    valid (after (.arrayReady 0) unread).mem = true ∧
    (startOp last (lineWrite .retiringProgress true 0x21 0 0xFF)).lineBefore = oldCopy.readLine 0x21 := by
  refine ⟨sound_of ?_, sound_of ?_, sound_of ?_, sound_of ?_, ?_, ?_, ?_, ?_, ?_, ?_, ?_, ?_⟩ <;> try decide +kernel
  intro s hs
  simp only [List.mem_cons, List.not_mem_nil, or_false] at hs
  rcases hs with rfl | rfl | rfl | rfl <;> exact ⟨_, rfl, fun e => absurd e (by decide +kernel)⟩

set_option maxRecDepth 20000 in
/-- The sixteenth line of STORE_LAYOUT, its fifteen lines before it written: a timeout whose step took the whole line. -/
theorem test_hyp_FailedStoreLayoutLeavesNoValidCopy :
    let lines (n : Nat) : Memory :=
      (List.range n).foldl (fun m i => m.writeLine (0x10 + BitVec.ofNat 21 i) (layoutCopyLine layout 8 i) 0xFF) []
    let s := (withOp storing (lineWrite (.storeLayoutLine 15) true 0x1F (layoutCopyLine layout 8 15) 0xFF)).setMem (lines 15)
    let t := after (.arrayTimeout (BitVec.allOnes 64)) s
    (lines 16).copyValid 0x1F = true ∧ t.mem.wf = true ∧ t.mem.copyValid 0x1F = false ∧
      t.control.lastResult = some .failed ∧ t.writer.copyWrite = none := by decide +kernel

/-- Line `i` of FORMAT's progress copy A, its line written before it standing, over a memory. -/
def formattingLine (i : Nat) (m : Memory) : State :=
  let new := progressCopyLine formatProgress 1 i
  let line : LineNo := 0x20 + BitVec.ofNat 21 i
  let s := withOp (formatting .config) (lineWrite (.formatLine (4 + i)) true line new 0xFF)
  (s.setMem m).setLineBefore (m.readLine line)

/-- A failed line of a progress copy of FORMAT leaves the copy not valid, whatever stood there before, unless the copy is valid by
the bytes that FORMAT writes over themselves. -/
theorem test_hyp_FailedFormatLinesLeaveNoValidCopy :
    let all := BitVec.allOnes 64
    let line (i : Nat) : LineData := progressCopyLine formatProgress 1 i
    let whole := (Memory.writeLine [] 0x20 (line 0) 0xFF).writeLine 0x21 (line 1) 0xFF
    let first := formattingLine 0 oldCopy
    let last := formattingLine 1 (oldCopy.writeLine 0x20 (line 0) 0xFF)
    let again := formattingLine 0 whole
    (∀ s ∈ [first, last], ∃ op, s.port.op = some op ∧ CopyRequester op.requester ∧ ChangesTheCopy s op) ∧
    (first.mem.copyValid 0x20 = true ∧ whole.copyValid 0x20 = true ∧
      [after (.arrayTimeout 0) first, after (.arrayTimeout all) last].all
        (fun t => !t.mem.copyValid 0x20 && t.control.lastResult == some .failed) = true) ∧
    (again.lineBefore = line 0 ∧ (after (.arrayTimeout all) again).mem = whole ∧
      (after (.arrayTimeout 0) again).mem = whole) := by
  refine ⟨?_, by decide +kernel, by decide +kernel⟩
  intro s hs
  simp only [List.mem_cons, List.not_mem_nil, or_false] at hs
  rcases hs with rfl | rfl
  · exact ⟨_, rfl, .inr (.inr (.inr (.inr ⟨4, rfl, by decide⟩))), fun e => absurd e (by decide +kernel)⟩
  · exact ⟨_, rfl, .inr (.inr (.inr (.inr ⟨5, rfl, by decide⟩))), fun e => absurd e (by decide +kernel)⟩

/-- Each other requester of a copy write, with a line that held other bytes at its grant. -/
theorem test_hyp_CopyRequestersChangeTheCopy :
    ∀ s ∈ [ending, lastProgress .start 0, storing], ∃ op, s.port.op = some op ∧ CopyRequester op.requester ∧
      s.mem.wf = true ∧ ChangesTheCopy (s.setLineBefore 1) op := by
  intro s hs
  simp only [List.mem_cons, List.not_mem_nil, or_false] at hs
  rcases hs with rfl | rfl | rfl
  · exact ⟨_, rfl, .inr (.inr (.inr (.inl ⟨1, rfl⟩))), by decide +kernel, fun e => absurd e (by decide +kernel)⟩
  · exact ⟨_, rfl, .inr (.inr (.inl ⟨_, _, 1, rfl⟩)), by decide +kernel, fun e => absurd e (by decide +kernel)⟩
  · exact ⟨_, rfl, .inr (.inl ⟨15, rfl⟩), by decide +kernel, fun e => absurd e (by decide +kernel)⟩

end Sys2Proof.Tests
end

section
/-! The mode check of controller accesses: what it lets pass, how the check shows in the verdict, and what a refusal by it
does (R63, R108). -/

namespace Sys2Proof.Machine

/-- The table of R63. -/
theorem modePasses_iff (s : State) (write : Bool) :
    modePasses s write = true ↔
      (s.control.mode = .run ∧ (write = false ∨ s.control.configRequest = false)) ∨
        (s.control.mode = .halted ∧ write = false) := by
  cases hm : s.control.mode with
  | run => simp [modePasses, hm]
  | halted => simp [modePasses, hm]
  | starting | recovering | unformatted | config | shutdown | ended => simp [modePasses, hm]

/-- The mode check is the first of the seven (R62), and no later check gives its verdict. -/
theorem checkAccess_modeRefused_iff (s : State) (a : Access) :
    checkAccess s a = .modeRefused ↔ modePasses s (opIsWrite a.op) = false := by
  unfold checkAccess
  cases hp : modePasses s (opIsWrite a.op) with
  | false => simp
  | true =>
    cases geometryFailure s.layout a with
    | some d => simp
    | none =>
      cases classify s.layout (accessLine a) with
      | none => simp
      | some c => cases hc : classFailure s a c <;> simp [hc]

/-- The answer to an access that the mode check refuses: nothing follows in the handling, not even `settle`. -/
theorem exec_controllerAccess_of_modeRefused {s : State} {a : Access} (hp : s.powered = true)
    (hn : s.access.held = none) (hc : checkAccess s a = .modeRefused) :
    exec (.controllerAccess a) s = .next (finishAccess s .refuse) := by
  have arm : exec (.controllerAccess a) s = execControllerAccess a s := rfl
  rw [arm]
  simp [execControllerAccess, hp, hn, hc]

/-- READY shows the two modes that serve accesses (R63, R108). -/
theorem readyOut_iff {s : State} (hp : s.powered = true) :
    readyOut s = true ↔ s.control.mode = .run ∨ s.control.mode = .halted := by
  simp [readyOut, serving, hp]

/-- Settles O28: the table of R63, the verdict of the first check, the answer to its refusal, and READY. -/
theorem modeCheck : Obligations.ModeCheck := by
  refine ⟨modePasses_iff, fun a s hp hn hm => ?_, fun a s hm hr => ?_, fun s hp => readyOut_iff hp⟩
  · exact exec_controllerAccess_of_modeRefused hp hn ((checkAccess_modeRefused_iff s a).mpr hm)
  · have refused : modePasses s (opIsWrite a.op) = false := (checkAccess_modeRefused_iff s a).mp hr
    simp [refused] at hm

end Sys2Proof.Machine
end

section
/-! The choice of the newest valid copy of a pair when both copies are valid: one rule for each case of R97. -/

namespace Sys2Proof.Machine

/-- Two generations cannot each be one more than the other, so the order in which R97's two tests are made does not show. -/
theorem ne_succ_of_eq_succ {a b : BitVec 32} (hab : b = a + 1) : a ≠ b + 1 := by
  bv_omega

/-- R97's last row, with copy A the successor: also across the wrap, where A carries 0 and B 0xFFFFFFFF. -/
theorem newestCopy_of_a_succ {a b : BitVec 32} (hab : a = b + 1) :
    newestCopy (some a) (some b) = some .a := by
  simp [newestCopy, hab]

/-- R97's last row, with copy B the successor. -/
theorem newestCopy_of_b_succ {a b : BitVec 32} (hab : b = a + 1) :
    newestCopy (some a) (some b) = some .b := by
  have other : a ≠ b + 1 := ne_succ_of_eq_succ hab
  simp only [newestCopy, beq_iff_eq, if_neg other, if_pos hab]

/-- Generations that do not follow one another are compared as numbers, and copy A is chosen between equal ones (R97). -/
theorem newestCopy_of_not_succ {a b : BitVec 32} (ha : a ≠ b + 1) (hb : b ≠ a + 1) :
    newestCopy (some a) (some b) = if b.toNat ≤ a.toNat then some .a else some .b := by
  simp only [newestCopy, beq_iff_eq, if_neg ha, if_neg hb]

/-- Settles O57: the table of R97, and its text on two valid copies of which neither follows the other. -/
theorem newestValidCopy : Obligations.NewestValidCopy := by
  refine ⟨rfl, fun _ => rfl, fun _ => rfl, fun a b => ⟨newestCopy_of_a_succ, newestCopy_of_b_succ, fun ha hb => ?_⟩⟩
  rw [newestCopy_of_not_succ ha hb]
  refine ⟨fun higher => ?_, fun higher => ?_, fun equal => ?_⟩
  · exact if_pos higher.le
  · exact if_neg higher.not_ge
  · exact if_pos (equal ▸ le_rfl)

end Sys2Proof.Machine
end

section
/-! REQUEST_RUN (R116): a refused command, the stored layout, the entry to RECOVERING, and the port while recovery scans. -/

namespace Sys2Proof.Machine

/-! ## Refusals and the stored layout -/

/-- A listening part whose run refuses the command declines it. -/
theorem declines_of_run {s : State} (h : Listening s) {c : Instr} {code : Byte} {arguments : List Byte}
    {run : State → State × Reply} (hc : exec c s = command s code arguments (crc8 (code :: arguments)) run)
    {status : Status} (hr : run s = refuseCommand s status) : Declines c s (code :: arguments) (Status.code status) := by
  have answered := answers_of_run h hc
  rw [hr] at answered
  exact answered

/-- The fourth check of R116: there is a stored layout, and it is the working one. -/
theorem layoutStored_iff (s : State) :
    layoutStored s = true ↔ s.writer.newestLayout.isSome = true ∧ s.writer.storedImage = some s.layout := by
  unfold layoutStored
  cases s.writer.newestLayout with
  | none => simp
  | some _ => cases s.writer.storedImage <;> simp

/-! ## The entry to RECOVERING -/

/-- A mode other than the present one is entered with the MODE event. -/
theorem changeMode_of_ne {s : State} {m : Mode} (hm : s.control.mode ≠ m) :
    changeMode s m = raise (s.setControl { s.control with mode := m }) .mode :=
  if_neg hm

/-- On path COMMAND stage CHECK has nothing left to do: R116 has checked the layout (R124). -/
theorem enterRecovery_command {s : State} (hm : s.control.mode ≠ .recovering) :
    enterRecovery s .command =
      raise ((s.setRecovery (some (freshRecovery s .command))).setControl { s.control with mode := .recovering }) .mode :=
  changeMode_of_ne hm

/-! ## The port while recovery scans -/

/-- In RECOVERING the end of a handling drives the port alone; no drain requests, so the pass-over count is 0 (R86). -/
theorem settle_of_recovering {s : State} (hm : s.control.mode = .recovering) :
    settle s = drivePort (s.setPort { s.port with passOver := 0 }) := by
  have idle : serving s = false := by simp [serving, hm]
  have taken : takeNextGroup s = s := by simp [takeNextGroup, idle]
  have flushed : flushCheck s = s := by simp [flushCheck, idle]
  have handed : handoverCheck s = s := by simp [handoverCheck, idle]
  have cleared : clearPassOver s = s.setPort { s.port with passOver := 0 } := by simp [clearPassOver, requestsOf, idle]
  rw [settle, taken, flushed, handed, cleared]

/-- A busy port goes on with its operation. -/
theorem drivePort_of_busy {s : State} {op : ArrayOp} (busy : s.port.op = some op) : drivePort s = s := by
  unfold drivePort
  rw [busy]

/-- A step that begins changes the ready input and the operation in flight, and nothing else (R82). -/
theorem beginStep_eq (s : State) (op : ArrayOp) :
    ∃ pins, beginStep s op =
      (s.setPins pins).setPort { s.port with op := some { op with presented := s.pins.arrayReady } } := by
  unfold beginStep
  cases s.pins.arrayReady with
  | true => exact ⟨{ s.pins with arrayReady := false }, rfl⟩
  | false => exact ⟨s.pins, rfl⟩

/-- The read that stage SCAN asks for: the first line of the position, then the second (R125). -/
def scanOp (s : State) (r : Recovery) : ArrayOp :=
  lineRead (.scanRead (r.base + 1) r.found)
    (journalHalfLine s.layout.settings.journalBase r.scanPosition (if r.firstLine.isNone then .first else .second))

theorem recoveryOp_of_scan {s : State} {r : Recovery} (scan : r.stage = .scan) : recoveryOp s r = some (scanOp s r) := by
  unfold recoveryOp
  rw [scan]
  rfl

/-- A free port starts the read of the scan, whose grant marks nothing besides the port. -/
theorem drivePort_of_scan {s : State} {r : Recovery} (hm : s.control.mode = .recovering) (hr : s.recovery = some r)
    (scan : r.stage = .scan) (free : s.port.op = none) : drivePort s = beginStep s (scanOp s r) := by
  have next : s.recovery.bind (recoveryOp s) = some (scanOp s r) := by
    rw [hr]
    exact recoveryOp_of_scan scan
  have granted : startOp s (scanOp s r) = beginStep s (scanOp s r) := rfl
  simp only [drivePort, free, hm, next, granted]

/-- While recovery scans, the end of a handling changes the pins and the port alone: an operation in flight stays, and a free
port takes the read of the scan (R124, R125). -/
theorem settle_of_scan {s : State} {r : Recovery} (hm : s.control.mode = .recovering) (hr : s.recovery = some r)
    (scan : r.stage = .scan) :
    ∃ pins port, settle s = (s.setPins pins).setPort port ∧ (∀ op, s.port.op = some op → port.op = some op) ∧
      (s.port.op = none → port.op = some { scanOp s r with presented := s.pins.arrayReady }) := by
  have settled := settle_of_recovering hm
  cases hop : s.port.op with
  | some op =>
    exact ⟨s.pins, _, settled.trans (drivePort_of_busy hop), fun _ same => hop.trans same, (by simp)⟩
  | none =>
    obtain ⟨pins, began⟩ := beginStep_eq (s.setPort { s.port with passOver := 0 }) (scanOp s r)
    have driven := settled.trans (drivePort_of_scan hm hr scan hop)
    exact ⟨pins, _, driven.trans began, (by simp), fun _ => rfl⟩

/-- The scan begins at the journal base. -/
theorem scanOp_fresh_line (s t : State) (path : RecoveryPath) :
    (scanOp s (freshRecovery t path)).line = lineOf s.layout.settings.journalBase :=
  BitVec.add_zero _

/-! ## REQUEST_RUN -/

/-- What the four checks of R116 let pass. -/
theorem requestRunRun_accepted {s : State} (mode : s.control.mode = .config) (idle : s.control.longCommand = none)
    (fits : consistent s.layout = true) (stored : layoutStored s = true) :
    requestRunRun s = (settle (enterRecovery (acceptLong s .requestRun) .command), Reply.bare .accepted) := by
  simp [requestRunRun, mode, idle, fits, stored]

/-- Settles O49: each check of R116 refuses by its own status, and the accepted command leaves recovery scanning. -/
theorem requestRunEntersRecovering : Obligations.RequestRunEntersRecovering := by
  intro s listening c stored
  have stored_iff : layoutStored s = true ↔ stored := layoutStored_iff s
  have arm : exec c s = command s 0x21 [] (crc8 [0x21]) requestRunRun := rfl
  refine ⟨fun mode => ?wrongMode, fun mode busy => ?busy, fun mode idle fits => ?badLayout,
    fun mode idle fits differs => ?layoutDiffers, fun mode idle fits same => ?accepted⟩
  case wrongMode => exact declines_of_run listening arm (status := .wrongMode) (if_pos mode)
  case busy => exact declines_of_run listening arm (status := .busy) (by simp [requestRunRun, mode, busy])
  case badLayout => exact declines_of_run listening arm (status := .badLayout) (by simp [requestRunRun, mode, idle, fits])
  case layoutDiffers =>
    have unstored : layoutStored s = false := Bool.eq_false_iff.mpr (differs ∘ stored_iff.mp)
    exact declines_of_run listening arm (status := .layoutDiffers) (by simp [requestRunRun, mode, idle, fits, unstored])
  case accepted =>
    have outside : (acceptLong s .requestRun).control.mode ≠ .recovering := by simp [acceptLong, mode]
    have entered := enterRecovery_command outside
    obtain ⟨pins, port, settled, kept, taken⟩ := settle_of_scan (s := enterRecovery (acceptLong s .requestRun) .command)
      (r := freshRecovery (acceptLong s .requestRun) .command) (by rw [entered]; rfl) (by rw [entered]; rfl) rfl
    have answered := answers_of_run listening arm
    rw [requestRunRun_accepted mode idle fits (stored_iff.mpr same), settled] at answered
    rw [entered] at answered kept taken
    exact ⟨_, freshRecovery (acceptLong s .requestRun) .command, answered, rfl, rfl, rfl, rfl, rfl, rfl, rfl, rfl, kept,
      fun free => ⟨_, taken free, rfl, scanOp_fresh_line s s .command⟩⟩

end Sys2Proof.Machine
end

section
/-! Rules that the statements on the management port share: a command that answers data, the answer's bytes by number, the
bits of flag bytes, and two-bit codes side by side (R165 to R171). -/

namespace Sys2Proof.Machine

/-- A listening part whose run answers data and changes nothing returns that data with OK. -/
theorem answers_of_data {s : State} (h : Listening s) {c : Instr} {code : Byte} {arguments data : List Byte}
    {run : State → State × Reply} (hc : exec c s = command s code arguments (crc8 (code :: arguments)) run)
    (hr : run s = answerData s data) : Answers c s s (code :: arguments) 0x00 data := by
  have answered := answers_of_run h hc
  rw [hr] at answered
  exact answered

/-- What holds of the byte at a place holds of every byte found there. -/
theorem forall_getElem?_of {d : List Byte} {k : Nat} {a : Byte} {P : Byte → Prop} (place : d[k]? = some a) (holds : P a) :
    ∀ b, d[k]? = some b → P b := by
  intro b found
  have same : a = b := Option.some.inj (place.symm.trans found)
  exact same ▸ holds

@[simp] theorem bytesOf_length {w : Nat} (n : Nat) (x : BitVec w) : (bytesOf n x).length = n := by
  simp [bytesOf]

/-- The event layout of R167, bit by bit. -/
theorem EventSet.byte_bits (e : EventSet) :
    e.byte.getLsbD 3 = e.fault ∧ e.byte.getLsbD 2 = e.confinement ∧ e.byte.getLsbD 1 = e.mode ∧
      e.byte.getLsbD 0 = e.commandDone ∧ e.byte.extractLsb' 4 4 = 0 := by
  have bits : ∀ a b c d : Bool,
      (EventSet.mk a b c d).byte.getLsbD 3 = a ∧ (EventSet.mk a b c d).byte.getLsbD 2 = b ∧
        (EventSet.mk a b c d).byte.getLsbD 1 = c ∧ (EventSet.mk a b c d).byte.getLsbD 0 = d ∧
        (EventSet.mk a b c d).byte.extractLsb' 4 4 = 0 := by decide
  exact bits e.fault e.confinement e.mode e.commandDone

/-- Four two-bit codes side by side, that of initiator 0 in bits 7-6: the code of initiator `i` (R167). -/
theorem extract_initiatorCodes (code : Initiator → BitVec 2) (i : Initiator) :
    (code 0 ++ code 1 ++ code 2 ++ code 3).extractLsb' (6 - 2 * i.val) 2 = code i := by
  have whole : ∀ x : BitVec 2, x.extractLsb' 0 2 = x := fun _ => BitVec.extractLsb'_eq_self
  match i with
  | 0 =>
    rw [extract_append_high _ _ (by decide), extract_append_high _ _ (by decide), extract_append_high _ _ (by decide)]
    exact whole _
  | 1 =>
    rw [extract_append_high _ _ (by decide), extract_append_high _ _ (by decide), extract_append_low _ _ (by decide)]
    exact whole _
  | 2 =>
    rw [extract_append_high _ _ (by decide), extract_append_low _ _ (by decide)]
    exact whole _
  | 3 =>
    rw [extract_append_low _ _ (by decide)]
    exact whole _

end Sys2Proof.Machine
end

section
/-! READ_STATUS (R167): the flags of byte 1, the free-slot count, the codes, and the places of the fields. -/

namespace Sys2Proof.Machine

/-- A group is OPEN where the tracker finds an open group (R24). -/
theorem openGroup_isSome_iff (s : State) : (openGroup s).isSome = true ↔ ∃ g ∈ s.groups.table, g.state = .open := by
  simp [openGroup, List.find?_isSome]

/-- The flags of byte 1, bit by bit (R167). -/
theorem statusFlags_bits (s : State) :
    (statusFlags s).getLsbD 7 = s.control.configRequest ∧ (statusFlags s).getLsbD 6 = s.engine.journalPending ∧
      (statusFlags s).getLsbD 5 = s.recorder.overflow ∧ (statusFlags s).getLsbD 4 = (openGroup s).isSome ∧
      (statusFlags s).extractLsb' 0 4 = 0 := by
  have bits : ∀ a b c d : Bool,
      let flags := BitVec.ofBool a ++ BitVec.ofBool b ++ BitVec.ofBool c ++ BitVec.ofBool d ++ 0#4
      flags.getLsbD 7 = a ∧ flags.getLsbD 6 = b ∧ flags.getLsbD 5 = c ∧ flags.getLsbD 4 = d ∧
        flags.extractLsb' 0 4 = 0 := by decide
  exact bits s.control.configRequest s.engine.journalPending s.recorder.overflow (openGroup s).isSome

/-- The free-slot count counts the slot numbers that no entry names (R21). -/
theorem freeSlotCount_eq (q : PostingQueue) :
    freeSlotCount q = ((List.finRange 32).filter (fun k => q.entries.all (fun e => decide (e.slot ≠ k)))).length := by
  have same : slotFree q ∘ Fin.val = fun k : Fin 32 => q.entries.all (fun e => decide (e.slot ≠ k)) := by
    funext k
    simp [slotFree, bne, Fin.ext_iff, Bool.beq_eq_decide_eq]
  have range : List.range Config.slots = (List.finRange 32).map Fin.val := List.map_coe_finRange_eq_range.symm
  rw [freeSlotCount, freeSlots, range, List.filter_map, List.length_map, same]

/-- A detail's code is its number without the last digit (R154): no number reaches 2560, so a byte holds it. -/
theorem Detail.code_toNat (d : Detail) : (Detail.code d).toNat = (Detail.number d).toNat / 10 := by
  cases d <;> rfl

/-- Settles O41: each field of the answer by its place, and the flags, counts and codes by their rules. -/
theorem readStatusShowsTheState : Obligations.ReadStatusShowsTheState := by
  intro s listening
  obtain ⟨request, pending, overflow, opened, zeros⟩ := statusFlags_bits s
  refine ⟨statusData s, (by simp [statusData]), answers_of_data listening rfl rfl, ?mode,
    forall_getElem?_of rfl ⟨request, pending, overflow, ?opened, zeros⟩, ?long, ?result,
    forall_getElem?_of rfl (EventSet.byte_bits s.recorder.pendingEvents),
    forall_getElem?_of rfl (EventSet.byte_bits s.recorder.mask), rfl, rfl, ?openSequence, rfl, rfl, rfl,
    forall_getElem?_of (a := reportedStates s) rfl fun i => ?reported, ?halt, Detail.code_toNat, rfl,
    freeSlotCount_eq s.queue⟩
  case mode =>
    have code : (statusData s)[0]? = some (Mode.code s.control.mode) := rfl
    rw [code]
    cases s.control.mode <;> rfl
  case opened => rw [opened, openGroup_isSome_iff]
  case long =>
    have code : (statusData s)[2]? = some (longCode s.control.longCommand) := rfl
    rw [code]
    rcases s.control.longCommand with _ | c
    · rfl
    · cases c <;> rfl
  case result =>
    have code : (statusData s)[3]? = some (resultCode s.control.lastResult) := rfl
    rw [code]
    rcases s.control.lastResult with _ | r
    · rfl
    · cases r <;> rfl
  case openSequence =>
    have field : ((statusData s).drop 8).take 4 = bytesOf 4 (openSequence s) := rfl
    rw [field, openSequence]
    cases openGroup s <;> rfl
  case reported =>
    have code := extract_initiatorCodes (fun i => Standing.code s.confinement[i].reported) i
    refine code.trans ?_
    cases s.confinement[i].reported <;> rfl
  case halt =>
    have field : ((statusData s).drop 22).take 2 = bytesOf 2 (haltCode s.control.haltCause) := rfl
    rw [field]
    cases s.control.haltCause <;> rfl

end Sys2Proof.Machine
end

section
/-! READ_GROUPS and READ_SLOT (R171): the fields of the group table, the entry of a slot, and its bytes. -/

namespace Sys2Proof.Machine

/-! ## READ_GROUPS -/

theorem groupField_of_record {s : State} {i : Nat} {g : Group} (hg : s.groups.table[i]? = some g) :
    groupField s i = groupBytes g := by
  unfold groupField
  rw [hg]

theorem groupField_of_none {s : State} {i : Nat} (hi : s.groups.table.length ≤ i) :
    groupField s i = List.replicate 9 0 := by
  unfold groupField
  rw [List.getElem?_eq_none hi]

theorem groupField_length (s : State) (i : Nat) : (groupField s i).length = 9 := by
  cases hg : s.groups.table[i]? with
  | none =>
    rw [groupField_of_none (List.getElem?_eq_none_iff.mp hg)]
    rfl
  | some g =>
    rw [groupField_of_record hg]
    rfl

/-- The field of record `i` is the 9 bytes from byte `1 + 9 * i` on (R171). -/
theorem groupsData_field (s : State) {i : Nat} (hi : i < 4) :
    ((groupsData s).drop (1 + 9 * i)).take 9 = groupField s i := by
  interval_cases i <;> simp [groupsData, List.drop_append, List.drop_of_length_le, groupField_length]

/-! ## READ_SLOT -/

/-- A slot that no entry names is FREE, and reads as zeros (R171). -/
theorem slotData_of_free {s : State} {n : Nat} (free : ∀ e ∈ s.queue.entries, e.slot.val ≠ n) :
    slotData s n = List.replicate 24 0 := by
  have none : s.queue.entries.find? (fun e => e.slot.val == n) = none := by simpa using free
  unfold slotData
  rw [none]

/-- Where no two entries name one slot, the entry of a slot is the one found. -/
theorem slotData_of_entry {s : State} {e : Entry} {n : Nat} (he : e ∈ s.queue.entries) (hn : e.slot.val = n)
    (single : (s.queue.entries.map Entry.slot).Nodup) : slotData s n = entryBytes e := by
  have found : s.queue.entries.find? (fun e => e.slot.val == n) = some e := by
    cases search : s.queue.entries.find? (fun e => e.slot.val == n) with
    | none => exact absurd hn (by simpa using List.find?_eq_none.mp search e he)
    | some other =>
      have named : other.slot.val = n := by simpa using List.find?_some search
      have slot : other.slot = e.slot := Fin.ext (named.trans hn.symm)
      exact congrArg some (List.inj_on_of_nodup_map single (List.mem_of_find?_eq_some search) he slot)
  unfold slotData
  rw [found]

theorem slotData_length (s : State) (n : Nat) : (slotData s n).length = 24 := by
  unfold slotData
  cases s.queue.entries.find? (fun e => e.slot.val == n) <;> rfl

/-- Byte 1 of an entry, bit by bit (R171). -/
theorem entryFlags_bits (grouped marked : Bool) :
    (BitVec.ofBool grouped ++ BitVec.ofBool marked ++ 0#6).getLsbD 7 = grouped ∧
      (BitVec.ofBool grouped ++ BitVec.ofBool marked ++ 0#6).getLsbD 6 = marked ∧
      (BitVec.ofBool grouped ++ BitVec.ofBool marked ++ 0#6).extractLsb' 0 6 = 0 := by
  revert grouped marked
  decide

/-- A line number in three bytes has its three highest bits clear (R171). -/
theorem lineField_eq (line : LineNo) : 0#3 ++ line = line.setWidth 24 :=
  (BitVec.setWidth_eq_append (by decide)).symm

theorem readSlotRun_of_slot {n : Byte} (hn : n.toNat ≤ 31) (s : State) :
    readSlotRun n s = answerData s (slotData s n.toNat) :=
  if_pos (Nat.lt_succ_of_le hn)

/-- Settles O42: each field of the table and of an entry by its place, a FREE slot, and the slot above 31. -/
theorem readGroupsAndSlotsShowTheQueue : Obligations.ReadGroupsAndSlotsShowTheQueue := by
  intro s listening
  refine ⟨⟨groupsData s, (by simp [groupsData, groupField_length]), answers_of_data listening rfl rfl, rfl,
      fun i hi => ⟨fun beyond => ?beyond, fun g hg => ?record⟩⟩,
    fun n hn => ⟨slotData s n.toNat, slotData_length s n.toNat, answers_of_data listening rfl (readSlotRun_of_slot hn s),
      slotData_of_free, fun e he slot single => ?entry⟩,
    fun n hn => ?above⟩
  case beyond => rw [groupsData_field s hi, groupField_of_none beyond]
  case record =>
    rw [groupsData_field s hi, groupField_of_record hg]
    refine congrArg (bytesOf 4 g.sequence ++ ·) (congrArg₂ List.cons ?state (congrArg₂ List.cons ?stalledPhase
      (congrArg (BitVec.ofNat 8 g.lineCount :: ·) (congrArg₂ List.cons ?cause rfl))))
    case state =>
      rcases g.state with _ | _ | phase | _
      case inPhase => cases phase <;> rfl
      all_goals rfl
    case stalledPhase =>
      rcases g.state with _ | _ | _ | phase
      case stalled => cases phase <;> rfl
      all_goals rfl
    case cause =>
      rcases g.closeCause with _ | cause
      · rfl
      · cases cause <;> rfl
  case entry =>
    rw [slotData_of_entry he slot single]
    refine ⟨?entryState, forall_getElem?_of rfl (entryFlags_bits e.group.isSome e.flushMark),
      congrArg (bytesOf 3) (lineField_eq e.line), rfl, rfl, rfl, rfl, rfl, rfl⟩
    case entryState =>
      have code : (entryBytes e)[0]? = some (EntryState.code e.state) := rfl
      rw [code]
      cases e.state <;> rfl
  case above => exact declines_of_run listening rfl (status := .badArgument) (if_neg (Nat.not_lt.mpr hn))

end Sys2Proof.Machine
end

section
/-! PEEK_INCIDENT and TAKE_INCIDENT (R156, R169): the record at the front of the incident list, its bytes, its removal. -/

namespace Sys2Proof.Machine

theorem oldestIncident_of_empty {s : State} (h : s.recorder.incidents = []) :
    oldestIncident s = List.replicate 22 0 := by
  unfold oldestIncident
  rw [h]

theorem oldestIncident_of_cons {s : State} {i : Incident} {rest : List Incident} (h : s.recorder.incidents = i :: rest) :
    oldestIncident s = incidentBytes i := by
  unfold oldestIncident
  rw [h]

/-- TAKE_INCIDENT answers the oldest record and leaves the others (R156). -/
theorem answers_takeIncident {s : State} (h : Listening s) :
    Answers (.takeIncident (crc8 [0x09])) s
      (s.setRecorder { s.recorder with incidents := s.recorder.incidents.tail }) [0x09] 0x00 (oldestIncident s) :=
  answers_of_run h (run := takeIncidentRun) rfl

/-- The presence bits of an incident record, bit by bit (R169). -/
theorem presenceByte_bits (r : Report) :
    (presenceByte r).getLsbD 7 = true ∧ (presenceByte r).getLsbD 4 = r.initiator.isSome ∧
      (presenceByte r).getLsbD 3 = r.address.isSome ∧ (presenceByte r).getLsbD 2 = r.window.isSome ∧
      (presenceByte r).getLsbD 1 = r.sequence.isSome ∧ (presenceByte r).getLsbD 0 = r.count.isSome ∧
      (presenceByte r).extractLsb' 5 2 = 0 := by
  have bits : ∀ a b c d e : Bool,
      let flags := BitVec.ofBool true ++ 0#2 ++ BitVec.ofBool a ++ BitVec.ofBool b ++ BitVec.ofBool c ++ BitVec.ofBool d
        ++ BitVec.ofBool e
      flags.getLsbD 7 = true ∧ flags.getLsbD 4 = a ∧ flags.getLsbD 3 = b ∧ flags.getLsbD 2 = c ∧ flags.getLsbD 1 = d ∧
        flags.getLsbD 0 = e ∧ flags.extractLsb' 5 2 = 0 := by decide
  exact bits r.initiator.isSome r.address.isSome r.window.isSome r.sequence.isSome r.count.isSome

/-- Settles O43: the catalogue's numbers, the empty list, and each field of the oldest record by its place. -/
theorem incidentsAreReadFromTheFront : Obligations.IncidentsAreReadFromTheFront := by
  refine ⟨rfl, fun s listening => ⟨fun empty => ?empty, fun i rest list => ?oldest⟩⟩
  case empty =>
    have kept : s.setRecorder { s.recorder with incidents := s.recorder.incidents.tail } = s := by
      rw [empty, List.tail_nil, ← empty]
      rfl
    have taken := answers_takeIncident listening
    rw [kept, oldestIncident_of_empty empty] at taken
    exact ⟨answers_of_data listening rfl (congrArg (answerData s) (oldestIncident_of_empty empty)), taken⟩
  case oldest =>
    have taken := answers_takeIncident listening
    rw [list, List.tail_cons, oldestIncident_of_cons list] at taken
    refine ⟨incidentBytes i, (by simp [incidentBytes, optionBytes]),
      answers_of_data listening rfl (congrArg (answerData s) (oldestIncident_of_cons list)), taken,
      forall_getElem?_of rfl (presenceByte_bits i.report), rfl, rfl, rfl, ?initiator, rfl, ?window, rfl, rfl, ?reaction⟩
    case initiator =>
      have field : (incidentBytes i)[8]? = some (indexByte i.report.initiator) := rfl
      rw [field]
      cases i.report.initiator <;> rfl
    case window =>
      have field : (incidentBytes i)[12]? = some (indexByte i.report.window) := rfl
      rw [field]
      cases i.report.window <;> rfl
    case reaction =>
      have code : (incidentBytes i)[21]? = some (Reaction.code i.reaction) := rfl
      rw [code]
      cases i.reaction <;> rfl

end Sys2Proof.Machine
end

section
/-! READ_INITIATOR and RELEASE_FENCE (R149, R170): the initiator an argument names, what a release does to each record, and
how the change is judged (R151). -/

namespace Sys2Proof.Machine

/-! ## Records of the initiators -/

theorem initiatorOf_of_toNat {n : Byte} {i : Initiator} (h : n.toNat = i.val) : initiatorOf n = some i := by
  have small : n.toNat < 4 := h ▸ i.isLt
  rw [initiatorOf, dif_pos small]
  exact congrArg some (Fin.ext h)

theorem initiatorOf_of_above {n : Byte} (h : 3 < n.toNat) : initiatorOf n = none :=
  dif_neg (Nat.not_lt.mpr h)

theorem setStanding_same (s : State) (i : Initiator) (counter : Nat) (state : Standing) :
    (setStanding s i counter state).confinement[i] =
      { counter := counter, state := state, reported := s.confinement[i].reported } := by
  simp [setStanding]

theorem setStanding_other (s : State) {i j : Initiator} (counter : Nat) (state : Standing) (h : j ≠ i) :
    (setStanding s i counter state).confinement[j] = s.confinement[j] := by
  have differ : i.val ≠ j.val := fun same => h (Fin.ext same.symm)
  simp [setStanding, differ]

theorem setStanding_reported (s : State) (i j : Initiator) (counter : Nat) (state : Standing) :
    (setStanding s i counter state).confinement[j].reported = s.confinement[j].reported := by
  by_cases h : j = i
  · subst h
    rw [setStanding_same]
  · rw [setStanding_other s counter state h]

/-- The copy makes each reported state the actual one and leaves the rest of the record (R151, R152). -/
theorem copyReported_record (s : State) (i : Initiator) :
    (copyReported s).confinement[i] =
      { counter := s.confinement[i].counter, state := s.confinement[i].state,
        reported := s.confinement[i].state } := by
  simp [copyReported]

/-! ## The judgement of a change (R151) -/

/-- A change is judged by raising CONFINEMENT, with the four states copied, where the event is not pending and the change is
reportable; otherwise the judgement leaves the state as it is. -/
theorem judgeChange_eq (s : State) (i : Initiator) (old new : Standing) :
    judgeChange s i old new =
      if s.recorder.pendingEvents.confinement = false ∧ reportable s.layout.settings.sensitivity[i] old new = true then
        raise (copyReported s) .confinement
      else s := by
  unfold judgeChange
  cases s.recorder.pendingEvents.confinement <;> simp

/-- The judgement of a change reports no incident. -/
theorem judgeChange_noIncident (s : State) (i : Initiator) (old new : Standing) :
    NoIncident s (judgeChange s i old new) := by
  rw [judgeChange_eq]
  split <;> exact ⟨rfl, rfl, rfl⟩

/-- The judgement of a change leaves the counters and the actual states. -/
theorem judgeChange_standing (s : State) (i j : Initiator) (old new : Standing) :
    (judgeChange s i old new).confinement[j].counter = s.confinement[j].counter ∧
      (judgeChange s i old new).confinement[j].state = s.confinement[j].state := by
  rw [judgeChange_eq]
  split
  case isTrue =>
    have counter := congrArg InitiatorRecord.counter (copyReported_record s j)
    have state := congrArg InitiatorRecord.state (copyReported_record s j)
    exact ⟨counter, state⟩
  case isFalse => exact ⟨rfl, rfl⟩

/-! ## The two commands -/

theorem readInitiatorRun_of_initiator {n : Byte} {i : Initiator} (h : n.toNat = i.val) (s : State) :
    readInitiatorRun n s = answerData s (initiatorData s i) := by
  rw [readInitiatorRun, initiatorOf_of_toNat h]

theorem releaseFenceRun_of_initiator {n : Byte} {i : Initiator} (h : n.toNat = i.val) (s : State) :
    releaseFenceRun n s =
      if s.confinement[i].state = .fenced then (release s i, Reply.bare .ok) else refuseCommand s .badArgument := by
  rw [releaseFenceRun, initiatorOf_of_toNat h]

/-- What a release leaves (R149). -/
theorem release_standing (s : State) (i : Initiator) :
    (release s i).confinement[i].counter = 0 ∧ (release s i).confinement[i].state = .clean := by
  have judged := judgeChange_standing (setStanding s i 0 .clean) i i .fenced .clean
  rwa [setStanding_same] at judged

theorem release_other (s : State) {i j : Initiator} (h : j ≠ i) :
    (release s i).confinement[j].counter = s.confinement[j].counter ∧
      (release s i).confinement[j].state = s.confinement[j].state := by
  have judged := judgeChange_standing (setStanding s i 0 .clean) i j .fenced .clean
  rwa [setStanding_other s 0 .clean h] at judged

/-- A reportable release with no CONFINEMENT pending raises it, and every reported state is the actual one (R151). -/
theorem release_raises {s : State} {i : Initiator} (h : s.recorder.pendingEvents.confinement = false ∧
      reportable s.layout.settings.sensitivity[i] .fenced .clean = true) :
    (release s i).recorder.pendingEvents.confinement = true ∧
      ∀ j : Initiator, (release s i).confinement[j].reported = (release s i).confinement[j].state := by
  have raised : release s i = raise (copyReported (setStanding s i 0 .clean)) .confinement :=
    (judgeChange_eq (setStanding s i 0 .clean) i .fenced .clean).trans (if_pos h)
  rw [raised]
  refine ⟨rfl, fun j => ?_⟩
  have copied := copyReported_record (setStanding s i 0 .clean) j
  exact (congrArg InitiatorRecord.reported copied).trans (congrArg InitiatorRecord.state copied).symm

/-- Any other release changes neither the recorder nor a reported state (R151). -/
theorem release_quiet {s : State} {i : Initiator} (h : ¬(s.recorder.pendingEvents.confinement = false ∧
      reportable s.layout.settings.sensitivity[i] .fenced .clean = true)) :
    (release s i).recorder = s.recorder ∧
      ∀ j : Initiator, (release s i).confinement[j].reported = s.confinement[j].reported := by
  have quiet : release s i = setStanding s i 0 .clean :=
    (judgeChange_eq (setStanding s i 0 .clean) i .fenced .clean).trans (if_neg h)
  rw [quiet]
  exact ⟨rfl, fun j => setStanding_reported s i j 0 .clean⟩

/-- Settles O44: the record named, the release with its judgement, and the two refusals. -/
theorem initiatorsAreReadAndReleased : Obligations.InitiatorsAreReadAndReleased := by
  intro s listening
  refine ⟨fun n i named => ⟨?read, fun fenced => ?released, fun free => ?notFenced⟩,
    fun n above => ⟨?noRecord, ?noRelease⟩⟩
  case read =>
    have answered := answers_of_data listening (c := .readInitiator n (crc8 [0x10, n])) (arguments := [n]) rfl
      (readInitiatorRun_of_initiator named s)
    refine (congrArg (Answers _ s s [0x10, n] 0x00) (congrArg (bytesOf 2 _ ++ ·)
      (congrArg₂ List.cons ?state (congrArg₂ List.cons ?reported rfl)))).mp answered
    case state => cases s.confinement[i].state <;> rfl
    case reported => cases s.confinement[i].reported <;> rfl
  case released =>
    have answered := answers_of_run listening (c := .releaseFence n (crc8 [0x11, n])) (arguments := [n])
      (run := releaseFenceRun n) rfl
    rw [releaseFenceRun_of_initiator named, if_pos fenced] at answered
    obtain ⟨counter, state⟩ := release_standing s i
    refine ⟨release s i, answered, counter, state, judgeChange_noIncident _ i .fenced .clean, ?judged,
      fun j other => release_other s other⟩
    split
    case isTrue report => exact release_raises report
    case isFalse silent => exact release_quiet silent
  case notFenced =>
    exact declines_of_run listening rfl (status := .badArgument)
      ((releaseFenceRun_of_initiator named s).trans (if_neg free))
  case noRecord =>
    exact declines_of_run listening rfl (run := readInitiatorRun n) (status := .badArgument)
      (by rw [readInitiatorRun, initiatorOf_of_above above])
  case noRelease =>
    exact declines_of_run listening rfl (run := releaseFenceRun n) (status := .badArgument)
      (by rw [releaseFenceRun, initiatorOf_of_above above])

end Sys2Proof.Machine
end

section
/-! ACK_EVENTS and SET_EVENT_MASK (R152, R160, R161, R168): what each acknowledgement does, what a set of them leaves, and
ATTN_N. -/

namespace Sys2Proof.Machine

theorem eventArgument_iff (b : Byte) : eventArgument b = true ↔ b.extractLsb' 4 4 = 0 :=
  beq_iff_eq

/-- ATTN_N of a part with supply is low while an event is pending and enabled (R160). -/
theorem attnN_eq_false_iff {s : State} (hp : s.powered = true) :
    attnN s = false ↔
      (s.recorder.pendingEvents.fault = true ∧ s.recorder.mask.fault = true) ∨
        (s.recorder.pendingEvents.confinement = true ∧ s.recorder.mask.confinement = true) ∨
        (s.recorder.pendingEvents.mode = true ∧ s.recorder.mask.mode = true) ∨
        (s.recorder.pendingEvents.commandDone = true ∧ s.recorder.mask.commandDone = true) := by
  have low : attnN s = false ↔ attention s = true := by simp only [attnN, hp, Bool.true_and, Bool.not_eq_false']
  rw [low]
  simp [attention, or_assoc]

/-! ## The acknowledgements, one by one -/

/-- Some initiator's pair of reported and actual state is reportable (R152). -/
theorem anyReportable_iff (s : State) :
    anyReportable s = true ↔ ∃ i : Initiator,
      reportable s.layout.settings.sensitivity[i] s.confinement[i].reported s.confinement[i].state = true := by
  simp [anyReportable, Fin.exists_fin_succ, or_assoc]

/-- CONFINEMENT after an acknowledgement that names it or not: one that was pending stays pending where a pair is reportable
(R152). -/
def confinementAfter (s : State) (named : Bool) : Bool :=
  if named && s.recorder.pendingEvents.confinement then anyReportable s else s.recorder.pendingEvents.confinement

/-- The initiator records after an acknowledgement that names CONFINEMENT or not: the copy is made where the event was
pending (R152). -/
def recordsAfter (s : State) (named : Bool) : Vector InitiatorRecord 4 :=
  if named && s.recorder.pendingEvents.confinement then (copyReported s).confinement else s.confinement

/-- The recorder after an acknowledgement of the events `e`: those events are cleared, and the overflow flag with FAULT
(R161). -/
def recorderAfter (s : State) (e : EventSet) : IncidentRecorder :=
  { s.recorder with
    overflow := s.recorder.overflow && !e.fault
    pendingEvents :=
      { fault := s.recorder.pendingEvents.fault && !e.fault
        confinement := confinementAfter s e.confinement
        mode := s.recorder.pendingEvents.mode && !e.mode
        commandDone := s.recorder.pendingEvents.commandDone && !e.commandDone } }

/-- An event is cleared where it is named. -/
theorem clearEvent_if (s : State) (e : Event) (named : Bool) :
    (if named then clearEvent s e else s) =
      s.setRecorder
        { s.recorder with pendingEvents := s.recorder.pendingEvents.put e (s.recorder.pendingEvents.has e && !named) } := by
  cases named with
  | true => rw [if_pos rfl, Bool.not_true, Bool.and_false, clearEvent]
  | false =>
    rw [if_neg Bool.false_ne_true, Bool.not_false, Bool.and_true]
    cases e <;> rfl

/-- FAULT and the overflow flag are cleared where FAULT is named (R161). -/
theorem ackFault_if (s : State) (named : Bool) :
    (if named then ackFault s else s) =
      s.setRecorder
        { s.recorder with
          overflow := s.recorder.overflow && !named
          pendingEvents := s.recorder.pendingEvents.put .fault (s.recorder.pendingEvents.fault && !named) } := by
  cases named with
  | true =>
    simp only [if_true, Bool.not_true, Bool.and_false]
    rfl
  | false =>
    simp only [Bool.false_eq_true, if_false, Bool.not_false, Bool.and_true]
    rfl

/-- CONFINEMENT where it is named and pending: cleared, the states copied, raised again where a pair is reportable (R152). -/
theorem ackConfinement_of_pending {s : State} (pending : s.recorder.pendingEvents.confinement = true) :
    ackConfinement s =
      (s.setRecorder
        { s.recorder with pendingEvents := s.recorder.pendingEvents.put .confinement (anyReportable s) }).setConfinement
        (copyReported s).confinement := by
  rw [ackConfinement, if_pos pending]
  cases anyReportable s <;> rfl

theorem ackConfinement_if (s : State) (named : Bool) :
    (if named then ackConfinement s else s) =
      (s.setRecorder
        { s.recorder with
          pendingEvents := s.recorder.pendingEvents.put .confinement (confinementAfter s named) }).setConfinement
        (recordsAfter s named) := by
  cases acts : named && s.recorder.pendingEvents.confinement with
  | true =>
    obtain ⟨rfl, pending⟩ := Bool.and_eq_true_iff.mp acts
    simp only [confinementAfter, recordsAfter, acts, if_true]
    exact ackConfinement_of_pending pending
  | false =>
    have kept : (if named then ackConfinement s else s) = s := by
      rcases Bool.and_eq_false_iff.mp acts with unnamed | quiet
      · rw [unnamed, if_neg Bool.false_ne_true]
      · rw [ackConfinement, if_neg (ne_true_of_eq_false quiet), ite_self]
    simp only [kept, confinementAfter, recordsAfter, acts, Bool.false_eq_true, if_false]
    rfl

/-- What ACK_EVENTS leaves, the events taken one after another (R161). -/
theorem acknowledge_eq (s : State) (e : EventSet) :
    acknowledge s e = (s.setRecorder (recorderAfter s e)).setConfinement (recordsAfter s e.confinement) := by
  simp only [acknowledge, ackFault_if, ackConfinement_if, clearEvent_if]
  rfl

/-! ## The two commands -/

/-- Where CONFINEMENT is not named or not pending, its acknowledgement leaves the event and the records (R152). -/
theorem after_of_not_acting {s : State} {named : Bool}
    (h : named = false ∨ s.recorder.pendingEvents.confinement = false) :
    recordsAfter s named = s.confinement ∧ confinementAfter s named = s.recorder.pendingEvents.confinement := by
  have idle : (named && s.recorder.pendingEvents.confinement) = false := Bool.and_eq_false_iff.mpr h
  simp only [recordsAfter, confinementAfter, idle, Bool.false_eq_true, if_false, and_self]

/-- Where CONFINEMENT is named and pending, the states are copied, and the event stays for a reportable pair (R152). -/
theorem after_of_acting {s : State} {named : Bool} (hn : named = true)
    (hp : s.recorder.pendingEvents.confinement = true) :
    recordsAfter s named = (copyReported s).confinement ∧ confinementAfter s named = anyReportable s := by
  simp only [recordsAfter, confinementAfter, hn, hp, Bool.and_self, if_true, and_self]

/-- Settles O45: an accepted argument through the closed form of the acknowledgement, and the refusal of both commands. -/
theorem eventsAreAcknowledgedAndMasked : Obligations.EventsAreAcknowledgedAndMasked := by
  intro s b listening
  refine ⟨fun clear => ?accepted, fun set => ?refused⟩
  case accepted =>
    have accepted : eventArgument b = true := (eventArgument_iff b).mpr clear
    refine ⟨⟨(s.setRecorder (recorderAfter s (EventSet.ofByte b))).setConfinement (recordsAfter s (b.getLsbD 2)),
      ?acknowledged, rfl, rfl, rfl, rfl, rfl, rfl, rfl, rfl, after_of_not_acting, fun named pending => ?acting⟩,
      ⟨EventSet.ofByte b, ?masked, rfl, attnN_eq_false_iff listening.1⟩⟩
    case acknowledged =>
      have answered := answers_of_run listening (c := .ackEvents b (crc8 [0x02, b])) (arguments := [b])
        (run := ackEventsRun b) rfl
      rw [ackEventsRun, if_pos accepted, acknowledge_eq] at answered
      exact answered
    case acting =>
      obtain ⟨copied, raised⟩ := after_of_acting named pending
      refine ⟨fun i => ?record, ?again⟩
      case record =>
        exact (congrArg (fun records : Vector InitiatorRecord 4 => records[i]) copied).trans (copyReported_record s i)
      case again =>
        have again := anyReportable_iff s
        rw [← raised] at again
        exact again
    case masked =>
      have answered := answers_of_run listening (c := .setEventMask b (crc8 [0x03, b])) (arguments := [b])
        (run := setEventMaskRun b) rfl
      rw [setEventMaskRun, if_pos accepted] at answered
      exact answered
  case refused =>
    have refused : ¬eventArgument b = true := fun clear => set ((eventArgument_iff b).mp clear)
    exact ⟨declines_of_run listening rfl (run := ackEventsRun b) (status := .badArgument) (if_neg refused),
      declines_of_run listening rfl (run := setEventMaskRun b) (status := .badArgument) (if_neg refused)⟩

end Sys2Proof.Machine
end

section
/-! What every step keeps: one rule for a handling, one for a management command, and from the lemma of each operation the
three invariants along `exec` and `step`. -/

namespace Sys2Proof.Machine

/-! ## The commands that are handlings -/

theorem exec_pfwNFall (s : State) : exec .pfwNFall s = handle s (fun s => lineFall s .pfwN) := rfl

theorem exec_crstNFall (s : State) : exec .crstNFall s = handle s (fun s => lineFall s .crstN) := rfl

theorem exec_leaveEnded (line : SupplyLine) (s : State) :
    exec (.leaveEnded line) s = handle s (fun s => lineRise s line) := rfl

theorem exec_pfwNRise (s : State) : exec .pfwNRise s = handle s (fun s => lineRise s .pfwN) := rfl

theorem exec_crstNRise (s : State) : exec .crstNRise s = handle s (fun s => lineRise s .crstN) := rfl

theorem exec_scanBRise (s : State) : exec .scanBRise s = handle s (fun s => scanBoundary s) := rfl

theorem exec_heldWriteTakenAnew (s : State) : exec .heldWriteTakenAnew s = handle s (fun s => takeAnew s true) := rfl

theorem exec_heldReadTakenAnew (s : State) : exec .heldReadTakenAnew s = handle s (fun s => takeAnew s false) := rfl

theorem exec_stallLimitExpiry (s : State) : exec .stallLimitExpiry s = handle s (fun s => stallExpiry s) := rfl

theorem exec_arrayReady (took : LineData) (s : State) :
    exec (.arrayReady took) s = handle s (fun s => readyAsserted s took) := rfl

theorem exec_arrayTimeout (took : LineData) (s : State) :
    exec (.arrayTimeout took) s = handle s (fun s => stepTimedOut s took) := rfl

theorem exec_startReadRetry (s : State) : exec .startReadRetry s = handle s (fun s => retryStartReads s) := rfl

theorem exec_unknownCommand (code : Byte) (s : State) :
    exec (.unknownCommand code) s = handle s (fun s => unknownCode s code) := rfl

theorem exec_mselNFall (s : State) :
    exec .mselNFall s = handle s (fun s =>
      if s.pins.mselN then (s.setPins { s.pins with mselN := false }).setSession Session.begun else s) := rfl

theorem exec_mselNRise (s : State) :
    exec .mselNRise s = handle s (fun s =>
      if s.pins.mselN then s else (s.setPins { s.pins with mselN := true }).setSession Session.idle) := rfl

theorem exec_stampCounterWrap (s : State) :
    exec .stampCounterWrap s = handle s (fun s => s.setRecorder { s.recorder with stamp := 0 }) := rfl

/-- With supply a handling does what it says (log 1). -/
theorem handle_of_powered {s : State} (powered : s.powered = true) (f : State → State) : handle s f = .next (f s) := by
  simp [handle, powered]

/-! ## A handling, a management command, a step -/

/-- What holds before a handling and of its result holds of the next state, with or without supply (log 1). -/
theorem handle_keeps {P : State → Prop} {o : Host.Outcome State Fault Refusal} {s t : State} {f : State → State}
    (arm : o = handle s f) (next : o = .next t) (before : P s) (after : P (f s)) : P t := by
  obtain rfl : (if s.powered then f s else s) = t := Host.Outcome.next.inj (arm.symm.trans next)
  split
  · exact after
  · exact before

/-- What holds before a step on an empty queue and what the command at its front keeps holds of the next state. -/
theorem step_keeps {P : State → Prop} (ticks : ∀ s, P s → P (tick s)) (queue : ∀ s v, P s → P (s.setPending v))
    (runs : ∀ c s t, P s → exec c s = .next t → P t) {s t : State} (h : P s) (next : step s = .next t) : P t := by
  cases hp : s.pending with
  | nil =>
    obtain rfl : tick s = t := Host.Outcome.next.inj ((step_nil hp).symm.trans next)
    exact ticks s h
  | cons c rest =>
    have taken : step s = exec c (s.setPending rest) := by simp [step, hp]
    exact runs c _ t (queue s rest h) (taken.symm.trans next)

/-- The next states of a controller access: it does not reach the unit, or it is refused by the mode check, refused by another
check, or accepted (R62, R70). -/
theorem controllerAccess_cases {s t : State} {a : Access} (next : execControllerAccess a s = .next t) :
    t = s ∨ (s.access.held = none ∧ t = finishAccess s .refuse) ∨ (∃ r, t = settle (refuseAccess s a r)) ∨
      ∃ c, checkAccess s a = .accepted c ∧ t = settle (takeAccess s (arriving s a c)) := by
  unfold execControllerAccess at next
  split at next
  · rename_i reached
    have idle : s.access.held = none := by
      simp only [Bool.and_eq_true, Option.isNone_iff_eq_none] at reached
      exact reached.2
    cases verdict : checkAccess s a with
    | modeRefused =>
      simp only [verdict, Host.Outcome.next.injEq] at next
      exact .inr (.inl ⟨idle, next.symm⟩)
    | refused r =>
      simp only [verdict, Host.Outcome.next.injEq] at next
      exact .inr (.inr (.inl ⟨r, next.symm⟩))
    | accepted c =>
      simp only [verdict, Host.Outcome.next.injEq] at next
      exact .inr (.inr (.inr ⟨c, rfl, next.symm⟩))
    | reservedClass => simp [verdict] at next
  · exact .inl (Host.Outcome.next.inj next).symm

/-! ## `Sound` -/

theorem controllerAccess_sound {s t : State} {a : Access} (h : Sound s) (next : execControllerAccess a s = .next t) :
    Sound t := by
  rcases controllerAccess_cases next with rfl | ⟨-, rfl⟩ | ⟨r, rfl⟩ | ⟨c, accepted, rfl⟩
  · exact h
  · exact finishAccess_sound h
  · exact settle_sound (refuseAccess_sound h)
  · exact settle_sound (takeAccess_sound h (checkAccess_aligned accepted))

theorem command_sound {s t : State} {code check : Byte} {arguments : List Byte} {run : State → State × Reply}
    (h : Sound s) (after : Sound (run s).1) (next : command s code arguments check run = .next t) : Sound t :=
  handle_keeps rfl next h (takeCommand_sound h after)

theorem exec_sound {c : Instr} {s t : State} (h : Sound s) (next : exec c s = .next t) : Sound t := by
  cases c with
  | powerOn pfwN crstN mselN arrayReady => exact Host.Outcome.next.inj next ▸ powerUp_sound h
  | powerLoss => exact Host.Outcome.next.inj next ▸ h.setPowered false
  | pfwNFall => exact handle_keeps (exec_pfwNFall s) next h (lineFall_sound h)
  | crstNFall => exact handle_keeps (exec_crstNFall s) next h (lineFall_sound h)
  | leaveEnded line => exact handle_keeps (exec_leaveEnded line s) next h (lineRise_sound h)
  | pfwNRise => exact handle_keeps (exec_pfwNRise s) next h (lineRise_sound h)
  | crstNRise => exact handle_keeps (exec_crstNRise s) next h (lineRise_sound h)
  | scanBRise => exact handle_keeps (exec_scanBRise s) next h (scanBoundary_sound h)
  | controllerAccess a => exact controllerAccess_sound h next
  | heldWriteTakenAnew => exact handle_keeps (exec_heldWriteTakenAnew s) next h (takeAnew_sound h)
  | heldReadTakenAnew => exact handle_keeps (exec_heldReadTakenAnew s) next h (takeAnew_sound h)
  | stallLimitExpiry => exact handle_keeps (exec_stallLimitExpiry s) next h (stallExpiry_sound h)
  | arrayReady took => exact handle_keeps (exec_arrayReady took s) next h (readyAsserted_sound h)
  | arrayTimeout took => exact handle_keeps (exec_arrayTimeout took s) next h (stepTimedOut_sound h)
  | startReadRetry => exact handle_keeps (exec_startReadRetry s) next h (retryStartReads_sound h)
  | readStatus check => exact command_sound h h next
  | ackEvents events check => exact command_sound h (ackEventsRun_sound h) next
  | setEventMask events check => exact command_sound h (setEventMaskRun_sound h) next
  | peekIncident check => exact command_sound h h next
  | takeIncident check => exact command_sound h (takeIncidentRun_sound h) next
  | readInitiator initiator check => exact command_sound h (readInitiatorRun_sound h) next
  | releaseFence initiator check => exact command_sound h (releaseFenceRun_sound h) next
  | readGroups check => exact command_sound h h next
  | readSlot slot check => exact command_sound h (readSlotRun_sound h) next
  | closeGroup check => exact command_sound h (closeGroupRun_sound h) next
  | flush scope check => exact command_sound h (flushRun_sound h) next
  | requestConfig check => exact command_sound h (requestConfigRun_sound h) next
  | requestRun check => exact command_sound h (requestRunRun_sound h) next
  | resume check => exact command_sound h (resumeRun_sound h) next
  | readWindow index check => exact command_sound h (readWindowRun_sound h) next
  | writeWindow index record check => exact command_sound h (writeWindowRun_sound h) next
  | readSettings check => exact command_sound h h next
  | writeSettings settings check => exact command_sound h (writeSettingsRun_sound h) next
  | storeLayout check => exact command_sound h (storeLayoutRun_sound h) next
  | format check => exact command_sound h (formatRun_sound h) next
  | restart check => exact command_sound h (restartRun_sound h) next
  | unknownCommand code => exact handle_keeps (exec_unknownCommand code s) next h (unknownCode_sound h)
  | mselNFall => exact handle_keeps (exec_mselNFall s) next h (Sound.ite ((h.setPins _).setSession _) h)
  | mselNRise => exact handle_keeps (exec_mselNRise s) next h (Sound.ite h ((h.setPins _).setSession _))
  | stampCounterWrap => exact handle_keeps (exec_stampCounterWrap s) next h (h.setRecorder h.incidents)

theorem tick_sound {s : State} (h : Sound s) : Sound (tick s) :=
  Sound.ite (clockByte_sound (countStamp_sound h)) h

theorem step_sound {s t : State} (h : Sound s) (next : step s = .next t) : Sound t :=
  step_keeps (P := Sound) (fun _ => tick_sound) (fun _ v h => h.setPending v) (fun _ _ _ => exec_sound) h next

/-! ## `WritingCarried`, with the distinct slots of `Sound` -/

theorem Carried.setPowered {s : State} (h : Carried s) (v : Bool) : Carried (s.setPowered v) :=
  ⟨h.slots, h.writing⟩

theorem Carried.setLine {s : State} (h : Carried s) (line : SupplyLine) (level : Bool) :
    Carried (setLine s line level) := by
  cases line <;> exact h.setPins _

theorem Carried.lineFall {s : State} (h : Carried s) (line : SupplyLine) : Carried (lineFall s line) :=
  Carried.ite (settle_carried (h.setLine line false).takeShutdownCause) h

theorem Carried.lineRise {s : State} (h : Carried s) (line : SupplyLine) : Carried (lineRise s line) :=
  Carried.ite h (Carried.ite (enterStarting_carried _) (h.setLine line true))

theorem powerUp_carried (s : State) (pins : Pins) : Carried (powerUp s pins) := by
  have fresh : Carried (State.startValues pins s.mem Session.idle s.free s.pending) := startValues_carried _ _ _ _ _
  exact Carried.ite (startOp_carried fresh rfl (Fits.of_none rfl)) (settle_carried fresh.takeShutdownCause)

theorem Carried.scanBoundary {s : State} (h : Carried s) : Carried (scanBoundary s) :=
  Carried.ite (settle_carried (h.setGroups _)) h

theorem Carried.retryStartReads {s : State} (h : Carried s) : Carried (retryStartReads s) :=
  Carried.ite (settle_carried (h.setStart _)) h

theorem Carried.controllerAccess {s t : State} {a : Access} (h : Carried s)
    (next : execControllerAccess a s = .next t) : Carried t := by
  rcases controllerAccess_cases next with rfl | ⟨-, rfl⟩ | ⟨r, rfl⟩ | ⟨c, -, rfl⟩
  · exact h
  · exact h.setAccess _
  · exact settle_carried (h.refuseAccess a r)
  · exact settle_carried (h.takeAccess _)

theorem Carried.takeCommand {s : State} {code check : Byte} {arguments : List Byte} {run : State → State × Reply}
    (h : Carried s) (after : Carried (run s).1) : Carried (takeCommand s code arguments check run) :=
  Carried.ite (Carried.ite (after.setSession _) (h.setSession _)) h

theorem Carried.command {s t : State} {code check : Byte} {arguments : List Byte} {run : State → State × Reply}
    (h : Carried s) (after : Carried (run s).1) (next : command s code arguments check run = .next t) : Carried t :=
  handle_keeps rfl next h (h.takeCommand after)

/-- A choice between two runs of a command. -/
theorem Carried.iteRun {c : Prop} [Decidable c] {x y : State × Reply} (hx : Carried x.1) (hy : Carried y.1) :
    Carried (if c then x else y).1 := by
  split
  · exact hx
  · exact hy

theorem Carried.release {s : State} (h : Carried s) (i : Initiator) : Carried (release s i) :=
  (h.setConfinement _ : Carried (setStanding s i 0 .clean)).judgeChange i _ _

theorem Carried.releaseFenceRun {s : State} (h : Carried s) (b : Byte) : Carried (releaseFenceRun b s).1 := by
  unfold Machine.releaseFenceRun
  split
  · exact h
  · exact Carried.iteRun (h.release _) h

theorem Carried.readInitiatorRun {s : State} (h : Carried s) (b : Byte) : Carried (readInitiatorRun b s).1 := by
  unfold Machine.readInitiatorRun
  split <;> exact h

theorem Carried.readWindowRun {s : State} (h : Carried s) (b : Byte) : Carried (readWindowRun b s).1 := by
  unfold Machine.readWindowRun
  split <;> exact h

theorem Carried.writeWindowRun {s : State} (h : Carried s) (b : Byte) (v : BitVec 64) :
    Carried (writeWindowRun b v s).1 := by
  unfold Machine.writeWindowRun
  split
  · exact h
  · split
    · exact h
    · exact h.setLayout _

theorem Carried.requestRunRun {s : State} (h : Carried s) : Carried (requestRunRun s).1 := by
  have accepted : Carried (settle (Machine.enterRecovery (acceptLong s .requestRun) .command)) :=
    settle_carried ((h.setControl _ : Carried (acceptLong s .requestRun)).enterRecovery .command)
  exact Carried.iteRun h (Carried.iteRun h (Carried.iteRun h (Carried.iteRun h accepted)))

theorem Carried.storeLayoutRun {s : State} (h : Carried s) : Carried (storeLayoutRun s).1 := by
  have accepted : Carried (settle (beginLayout (acceptLong s .storeLayout))) :=
    settle_carried ((h.setControl _ : Carried (acceptLong s .storeLayout)).setWriter _)
  exact Carried.iteRun h (Carried.iteRun h (Carried.iteRun h accepted))

theorem Carried.formatRun {s : State} (h : Carried s) : Carried (formatRun s).1 := by
  have accepted : Carried (settle (beginFormat (acceptLong s .format))) :=
    settle_carried ((h.setControl _ : Carried (acceptLong s .format)).setWriter _)
  exact Carried.iteRun h (Carried.iteRun h (Carried.iteRun h accepted))

theorem Carried.resumeRun {s : State} (h : Carried s) : Carried (resumeRun s).1 := by
  unfold Machine.resumeRun
  exact Carried.iteRun h.resume h

theorem Carried.exec {c : Instr} {s t : State} (h : Carried s) (next : exec c s = .next t) : Carried t := by
  cases c with
  | powerOn pfwN crstN mselN arrayReady => exact Host.Outcome.next.inj next ▸ powerUp_carried s _
  | powerLoss => exact Host.Outcome.next.inj next ▸ h.setPowered false
  | pfwNFall => exact handle_keeps (exec_pfwNFall s) next h (h.lineFall .pfwN)
  | crstNFall => exact handle_keeps (exec_crstNFall s) next h (h.lineFall .crstN)
  | leaveEnded line => exact handle_keeps (exec_leaveEnded line s) next h (h.lineRise line)
  | pfwNRise => exact handle_keeps (exec_pfwNRise s) next h (h.lineRise .pfwN)
  | crstNRise => exact handle_keeps (exec_crstNRise s) next h (h.lineRise .crstN)
  | scanBRise => exact handle_keeps (exec_scanBRise s) next h h.scanBoundary
  | controllerAccess a => exact h.controllerAccess next
  | heldWriteTakenAnew => exact handle_keeps (exec_heldWriteTakenAnew s) next h (h.takeAnew true)
  | heldReadTakenAnew => exact handle_keeps (exec_heldReadTakenAnew s) next h (h.takeAnew false)
  | stallLimitExpiry => exact handle_keeps (exec_stallLimitExpiry s) next h h.stallExpiry
  | arrayReady took => exact handle_keeps (exec_arrayReady took s) next h (readyAsserted_carried h took)
  | arrayTimeout took => exact handle_keeps (exec_arrayTimeout took s) next h (stepTimedOut_carried h took)
  | startReadRetry => exact handle_keeps (exec_startReadRetry s) next h h.retryStartReads
  | readStatus check | peekIncident check | readGroups check | readSettings check => exact h.command h next
  | ackEvents events check =>
    exact h.command (run := ackEventsRun events) (Carried.iteRun (h.acknowledge _) h) next
  | setEventMask events check =>
    exact h.command (run := setEventMaskRun events) (Carried.iteRun (h.setRecorder _) h) next
  | takeIncident check => exact h.command (run := takeIncidentRun) (h.setRecorder _) next
  | readInitiator initiator check => exact h.command (h.readInitiatorRun initiator) next
  | releaseFence initiator check => exact h.command (h.releaseFenceRun initiator) next
  | readSlot slot check => exact h.command (run := readSlotRun slot) (Carried.iteRun h h) next
  | closeGroup check => exact h.command (run := closeGroupRun) (settle_carried (h.setGroups _)) next
  | flush scope check =>
    exact h.command (run := flushRun scope) (Carried.iteRun h (Carried.iteRun h
      (Carried.iteRun (h.acceptFlush false) (Carried.iteRun (h.acceptFlush true) h)))) next
  | requestConfig check =>
    exact h.command (run := requestConfigRun)
      (Carried.iteRun h (Carried.iteRun h (Carried.iteRun h h.acceptConfig))) next
  | requestRun check => exact h.command h.requestRunRun next
  | resume check => exact h.command h.resumeRun next
  | readWindow index check => exact h.command (h.readWindowRun index) next
  | writeWindow index record check => exact h.command (h.writeWindowRun index record) next
  | writeSettings settings check =>
    exact h.command (run := writeSettingsRun settings) (Carried.iteRun (h.setLayout _) h) next
  | storeLayout check => exact h.command h.storeLayoutRun next
  | format check => exact h.command h.formatRun next
  | restart check =>
    exact h.command (run := restartRun) (Carried.iteRun h
      (settle_carried (h.setControl _ : Carried (acceptLong s .restart)).takeShutdownCause)) next
  | unknownCommand code =>
    exact handle_keeps (exec_unknownCommand code s) next h (Carried.ite (h.setSession _) h)
  | mselNFall => exact handle_keeps (exec_mselNFall s) next h (Carried.ite ((h.setPins _).setSession _) h)
  | mselNRise => exact handle_keeps (exec_mselNRise s) next h (Carried.ite h ((h.setPins _).setSession _))
  | stampCounterWrap => exact handle_keeps (exec_stampCounterWrap s) next h (h.setRecorder _)

theorem Carried.clockByte {s : State} (h : Carried s) : Carried (clockByte s) := by
  unfold Machine.clockByte
  split
  · exact h
  · exact h
  · exact h.setSession _
  · exact h.setSession _

theorem Carried.tick {s : State} (h : Carried s) : Carried (tick s) :=
  Carried.ite (h.setRecorder _ : Carried (countStamp s)).clockByte h

theorem Carried.step {s t : State} (h : Carried s) (next : step s = .next t) : Carried t :=
  step_keeps (P := Carried) (fun _ h => h.tick) (fun _ v h => h.setPending v) (fun _ _ _ h next => h.exec next) h next

/-- Settles O5: each operation's lemma along the commands, once for `Sound` and once for the WRITING entries. -/
theorem everyStepKeepsSound : Obligations.EveryStepKeepsSound :=
  fun _ _ sound next =>
    ⟨step_sound sound next, fun writing => (Carried.step ⟨sound.queue.slots, writing⟩ next).writing⟩

/-! ## `ModesAgree` -/

theorem controllerAccess_agree {s t : State} {a : Access} (h : ModesAgree s)
    (next : execControllerAccess a s = .next t) : ModesAgree t := by
  rcases controllerAccess_cases next with rfl | ⟨idle, rfl⟩ | ⟨r, rfl⟩ | ⟨c, accepted, rfl⟩
  · exact h
  · exact finishAccess_agree h idle
  · exact refusedAccess_agree h
  · exact acceptedAccess_agree h accepted

theorem command_agree {s t : State} {code check : Byte} {arguments : List Byte} {run : State → State × Reply}
    (h : ModesAgree s) (after : ModesAgree (run s).1) (next : command s code arguments check run = .next t) :
    ModesAgree t :=
  handle_keeps rfl next h (takeCommand_agree h after)

theorem exec_agree {c : Instr} {s t : State} (h : ModesAgree s) (next : exec c s = .next t) : ModesAgree t := by
  cases c with
  | powerOn pfwN crstN mselN arrayReady => exact Host.Outcome.next.inj next ▸ powerUp_agree
  | powerLoss => exact Host.Outcome.next.inj next ▸ h.of_view rfl
  | pfwNFall => exact handle_keeps (exec_pfwNFall s) next h (lineFall_agree h)
  | crstNFall => exact handle_keeps (exec_crstNFall s) next h (lineFall_agree h)
  | leaveEnded line => exact handle_keeps (exec_leaveEnded line s) next h (lineRise_agree h)
  | pfwNRise => exact handle_keeps (exec_pfwNRise s) next h (lineRise_agree h)
  | crstNRise => exact handle_keeps (exec_crstNRise s) next h (lineRise_agree h)
  | scanBRise => exact handle_keeps (exec_scanBRise s) next h (scanBoundary_agree h)
  | controllerAccess a => exact controllerAccess_agree h next
  | heldWriteTakenAnew => exact handle_keeps (exec_heldWriteTakenAnew s) next h (takeAnew_agree h)
  | heldReadTakenAnew => exact handle_keeps (exec_heldReadTakenAnew s) next h (takeAnew_agree h)
  | stallLimitExpiry => exact handle_keeps (exec_stallLimitExpiry s) next h (stallExpiry_agree h)
  | arrayReady took => exact handle_keeps (exec_arrayReady took s) next h (readyAsserted_agree h)
  | arrayTimeout took => exact handle_keeps (exec_arrayTimeout took s) next h (stepTimedOut_agree h)
  | startReadRetry => exact handle_keeps (exec_startReadRetry s) next h (retryStartReads_agree h)
  | readStatus check | peekIncident check | readGroups check | readSettings check => exact command_agree h h next
  | ackEvents events check => exact command_agree h (ackEventsRun_agree h) next
  | setEventMask events check => exact command_agree h (setEventMaskRun_agree h) next
  | takeIncident check => exact command_agree h (takeIncidentRun_agree h) next
  | readInitiator initiator check => exact command_agree h (readInitiatorRun_agree h) next
  | releaseFence initiator check => exact command_agree h (releaseFenceRun_agree h) next
  | readSlot slot check => exact command_agree h (readSlotRun_agree h) next
  | closeGroup check => exact command_agree h (closeGroupRun_agree h) next
  | flush scope check => exact command_agree h (flushRun_agree h) next
  | requestConfig check => exact command_agree h (requestConfigRun_agree h) next
  | requestRun check => exact command_agree h (requestRunRun_agree h) next
  | resume check => exact command_agree h (resumeRun_agree h) next
  | readWindow index check => exact command_agree h (readWindowRun_agree h) next
  | writeWindow index record check => exact command_agree h (writeWindowRun_agree h) next
  | writeSettings settings check => exact command_agree h (writeSettingsRun_agree h) next
  | storeLayout check => exact command_agree h (storeLayoutRun_agree h) next
  | format check => exact command_agree h (formatRun_agree h) next
  | restart check => exact command_agree h (restartRun_agree h) next
  | unknownCommand code => exact handle_keeps (exec_unknownCommand code s) next h (unknownCode_agree h)
  | mselNFall => exact handle_keeps (exec_mselNFall s) next h (ModesAgree.ite (fun _ => h.of_view rfl) fun _ => h)
  | mselNRise => exact handle_keeps (exec_mselNRise s) next h (ModesAgree.ite (fun _ => h) fun _ => h.of_view rfl)
  | stampCounterWrap => exact handle_keeps (exec_stampCounterWrap s) next h (h.of_view rfl)

theorem tick_agree {s : State} (h : ModesAgree s) : ModesAgree (tick s) :=
  ModesAgree.ite (fun _ => clockByte_agree (countStamp_agree h)) fun _ => h

/-- Settles O6: the lemma of each command, and the tick of an empty queue. -/
theorem everyStepKeepsModesAgree : Obligations.EveryStepKeepsModesAgree :=
  fun _ _ agree next =>
    step_keeps (P := ModesAgree) (fun _ => tick_agree) (fun _ _ h => h.of_view rfl) (fun _ _ _ => exec_agree) agree next

end Sys2Proof.Machine
end

section
/-! The machine as a whole: a step, the tick, the start values, supply, and the commands' next states (O1 to O4, O7 to O9). -/

namespace Sys2Proof.Machine

/-! ## A step and the tick -/

/-- Settles O1. -/
theorem stepRunsTheFrontCommand : Obligations.StepRunsTheFrontCommand :=
  step_cons

/-- What one byte clocked does to the session: nothing in IDLE and REQUEST, a count in TRAILING, and in RESPONSE the next byte,
after the last of which the session is TRAILING (R163). -/
theorem clockByte_eq (s : State) : ∃ u : Session, clockByte s = s.setSession u ∧
    (s.session.phase = .idle ∨ s.session.phase = .request → u = s.session) ∧
    (s.session.phase = .trailing → u = { s.session with byteCount := s.session.byteCount + 1 }) ∧
    (s.session.phase = .response →
      u.response = s.session.response.tail ∧ u.byteCount = s.session.byteCount + 1 ∧
        (u.phase = .trailing ↔ s.session.response.tail = []) ∧ u.trailingByte = s.session.trailingByte) := by
  cases phase : s.session.phase with
  | idle | request => exact ⟨s.session, by simp [clockByte, phase, State.setSession], by simp, by simp, by simp⟩
  | trailing => exact ⟨_, by simp only [clockByte, phase], by simp, fun _ => rfl, by simp⟩
  | response =>
    refine ⟨{ s.session with
        phase := if s.session.response.tail.isEmpty then .trailing else .response
        byteCount := s.session.byteCount + 1
        response := s.session.response.tail }, by simp only [clockByte, phase], by simp, by simp,
      fun _ => ⟨rfl, rfl, ?_, rfl⟩⟩
    cases s.session.response.tail <;> simp

/-- Settles O2: the tick without and with supply, and the wrap of the stamp counter. -/
theorem timeCountsTheStamp : Obligations.TimeCountsTheStamp := by
  refine ⟨fun s idle => ⟨fun unpowered => ?off, fun powered => ?on⟩, fun s powered => ?wrap⟩
  case off =>
    rw [step_nil idle]
    simp [tick, unpowered]
  case on =>
    obtain ⟨u, clocked, rest⟩ := clockByte_eq (countStamp s)
    refine ⟨u, ?_, rest⟩
    have ticked : tick s = clockByte (countStamp s) := if_pos powered
    rw [step_nil idle, ticked, clocked]
    rfl
  case wrap => rw [exec_stampCounterWrap, handle_of_powered powered]

/-! ## Power-on -/

/-- Settles O3: the start values field by field. -/
theorem resetHoldsTheStartValues : Obligations.ResetHoldsTheStartValues := by
  have standings : ∀ i : Initiator, State.reset.confinement[i] = { counter := 0, state := .clean, reported := .clean } := by
    decide
  have windows : ∀ i : WindowIndex, State.reset.layout.windows[i] =
      { enabled := false, matchBits := 0, care := 0, cls := 0, verify := false, priority := 0, writers := 0 } := by
    decide
  exact ⟨rfl, by decide, rfl, rfl, rfl, rfl, rfl, rfl, rfl, rfl, rfl, standings, rfl, rfl, rfl, rfl, rfl, rfl, rfl, rfl, rfl,
    rfl, windows, rfl, rfl, ⟨_, rfl, rfl, rfl⟩, rfl⟩

/-- The part after power-on is the entry to STARTING of log 2: the start values with the first control-area read begun. -/
theorem reset_eq : State.reset =
    enterStarting (State.startValues { pfwN := true, crstN := true, mselN := true, arrayReady := true } [] Session.idle 0
      []) := rfl

/-- Settles O4: what holds of every entry to STARTING. -/
theorem invariantsHoldAtReset : Obligations.InvariantsHoldAtReset := by
  rw [Obligations.InvariantsHoldAtReset, reset_eq]
  exact ⟨enterStarting_sound (startValues_sound rfl), (enterStarting_carried _).writing, enterStarting_agree _⟩

/-! ## Next states -/

/-- Every command is a handling, but for those that set the supply and a controller access. -/
theorem exec_cases (c : Instr) :
    (∃ f, ∀ s, exec c s = handle s f) ∨ (∃ p k m r, c = .powerOn p k m r) ∨ c = .powerLoss ∨
      ∃ a, c = .controllerAccess a := by
  cases c with
  | powerOn pfwN crstN mselN arrayReady => exact .inr (.inl ⟨_, _, _, _, rfl⟩)
  | powerLoss => exact .inr (.inr (.inl rfl))
  | controllerAccess a => exact .inr (.inr (.inr ⟨a, rfl⟩))
  | pfwNFall => exact .inl ⟨_, exec_pfwNFall⟩
  | crstNFall => exact .inl ⟨_, exec_crstNFall⟩
  | leaveEnded line => exact .inl ⟨_, exec_leaveEnded line⟩
  | pfwNRise => exact .inl ⟨_, exec_pfwNRise⟩
  | crstNRise => exact .inl ⟨_, exec_crstNRise⟩
  | scanBRise => exact .inl ⟨_, exec_scanBRise⟩
  | heldWriteTakenAnew => exact .inl ⟨_, exec_heldWriteTakenAnew⟩
  | heldReadTakenAnew => exact .inl ⟨_, exec_heldReadTakenAnew⟩
  | stallLimitExpiry => exact .inl ⟨_, exec_stallLimitExpiry⟩
  | arrayReady took => exact .inl ⟨_, exec_arrayReady took⟩
  | arrayTimeout took => exact .inl ⟨_, exec_arrayTimeout took⟩
  | startReadRetry => exact .inl ⟨_, exec_startReadRetry⟩
  | unknownCommand code => exact .inl ⟨_, exec_unknownCommand code⟩
  | mselNFall => exact .inl ⟨_, exec_mselNFall⟩
  | mselNRise => exact .inl ⟨_, exec_mselNRise⟩
  | stampCounterWrap => exact .inl ⟨_, exec_stampCounterWrap⟩
  | readStatus _ | ackEvents _ _ | setEventMask _ _ | peekIncident _ | takeIncident _ | readInitiator _ _
  | releaseFence _ _ | readGroups _ | readSlot _ _ | closeGroup _ | flush _ _ | requestConfig _ | requestRun _ | resume _
  | readWindow _ _ | writeWindow _ _ _ | readSettings _ | writeSettings _ _ | storeLayout _ | format _ | restart _ =>
    exact .inl ⟨_, fun _ => rfl⟩

/-- A consistent layout gives every line a class: its class codes and its default class are in range (R78). -/
theorem classify_isSome_of_consistent {l : Layout} (fits : consistent l = true) (line : LineNo) :
    (classify l line).isSome = true := by
  simp only [consistent, settingsConsistent, Bool.and_eq_true, decide_eq_true_eq, List.all_eq_true] at fits
  obtain ⟨⟨⟨⟨-, default⟩, -⟩, -⟩, windows⟩ := fits
  cases found : matchedWindow l line with
  | some i =>
    have code : l.windows[i].cls.toNat ≤ 4 := windows _ (Vector.mem_toList_iff.mpr (Vector.getElem_mem i.isLt))
    have named : ∀ c : BitVec 3, c.toNat ≤ 4 → (classOfCode c).isSome = true := by decide
    simpa [classify, found] using named _ code
  | none =>
    have coded : l.settings.defaultClass = 0 ∨ l.settings.defaultClass = 1 := by
      rcases Nat.le_one_iff_eq_zero_or_eq_one.mp default with h | h
      · exact .inl (BitVec.eq_of_toNat_eq h)
      · exact .inr (BitVec.eq_of_toNat_eq h)
    rcases coded with h | h <;> simp [classify, found, h]

/-- The verdict without an answer comes of a line without a class alone (log 14). -/
theorem checkAccess_reservedClass {s : State} {a : Access} (verdict : checkAccess s a = .reservedClass) :
    classify s.layout (accessLine a) = none := by
  unfold checkAccess at verdict
  split at verdict
  · cases verdict
  · cases geometry : geometryFailure s.layout a with
    | some d => simp [geometry] at verdict
    | none =>
      cases classified : classify s.layout (accessLine a) with
      | none => rfl
      | some c => cases failure : classFailure s a c <;> simp [geometry, classified, failure] at verdict

/-- A controller access answers a next state, but for one to a line without a class (log 14). -/
theorem controllerAccess_next (a : Access) (s : State) :
    (∃ t, execControllerAccess a s = .next t) ∨
      (execControllerAccess a s = .fault .reservedClass ∧ consistent s.layout = false) := by
  unfold execControllerAccess
  split
  · cases verdict : checkAccess s a with
    | modeRefused | refused r | accepted c => exact .inl ⟨_, rfl⟩
    | reservedClass =>
      refine .inr ⟨rfl, Bool.eq_false_iff.mpr fun fits => ?_⟩
      have classified := classify_isSome_of_consistent fits (accessLine a)
      simp [checkAccess_reservedClass verdict] at classified
  · exact .inl ⟨_, rfl⟩

/-- Settles O7: every command but a controller access is a handling, or answers outright. -/
theorem everyCommandAnswersANextState : Obligations.EveryCommandAnswersANextState := by
  intro c s
  rcases exec_cases c with ⟨f, handled⟩ | ⟨p, k, m, r, rfl⟩ | rfl | ⟨a, rfl⟩
  · exact .inl ⟨_, handled s⟩
  · exact .inl ⟨_, rfl⟩
  · exact .inl ⟨_, rfl⟩
  · rcases controllerAccess_next a s with next | ⟨fault, inconsistent⟩
    · exact .inl next
    · exact .inr ⟨⟨a, rfl⟩, fault, inconsistent⟩

/-! ## Supply -/

/-- Without supply a handling changes nothing (log 1). -/
theorem handle_of_unpowered {s : State} (unpowered : s.powered = false) (f : State → State) : handle s f = .next s := by
  simp [handle, unpowered]

/-- Settles O8: the loss of supply, the outputs without it, and the commands that find none. -/
theorem withoutSupplyNothingHappens : Obligations.WithoutSupplyNothingHappens := by
  refine ⟨fun s => rfl, fun s unpowered => ⟨by simp [readyOut, unpowered], by simp [attnN, unpowered],
    by simp [msdo, unpowered], fun c other => ?_⟩⟩
  rcases exec_cases c with ⟨f, handled⟩ | ⟨p, k, m, r, rfl⟩ | rfl | ⟨a, rfl⟩
  · rw [handled, handle_of_unpowered unpowered]
  · exact absurd rfl (other p k m r)
  · have same : s.setPowered false = s := by rw [State.setPowered, ← unpowered]
    exact congrArg Host.Outcome.next same
  · have arm : exec (.controllerAccess a) s = execControllerAccess a s := rfl
    simp [arm, execControllerAccess, unpowered]

end Sys2Proof.Machine
end

section
/-! What the commands leave alone: the memory and the queue of commands (R80, log 6). -/

namespace Sys2Proof.Machine

/-- A choice between two runs of a command that each leave the outside alone. -/
theorem iteRun_outer {c : Prop} [Decidable c] {s : State} {x y : State × Reply} (hx : outer x.1 = outer s)
    (hy : outer y.1 = outer s) : outer (if c then x else y).1 = outer s := by
  split
  · exact hx
  · exact hy

theorem releaseFenceRun_outer (b : Byte) (s : State) : outer (releaseFenceRun b s).1 = outer s := by
  unfold releaseFenceRun
  split
  · rfl
  · exact iteRun_outer (release_outer s _) rfl

theorem readInitiatorRun_outer (b : Byte) (s : State) : outer (readInitiatorRun b s).1 = outer s := by
  unfold readInitiatorRun
  split <;> rfl

theorem flushRun_outer (b : Byte) (s : State) : outer (flushRun b s).1 = outer s :=
  iteRun_outer rfl (iteRun_outer rfl (iteRun_outer (acceptFlush_outer s false)
    (iteRun_outer (acceptFlush_outer s true) rfl)))

theorem requestConfigRun_outer (s : State) : outer (requestConfigRun s).1 = outer s :=
  iteRun_outer rfl (iteRun_outer rfl (iteRun_outer rfl (acceptConfig_outer s)))

theorem requestRunRun_outer (s : State) : outer (requestRunRun s).1 = outer s :=
  iteRun_outer rfl (iteRun_outer rfl (iteRun_outer rfl (iteRun_outer rfl (by simp))))

theorem resumeRun_outer (s : State) : outer (resumeRun s).1 = outer s := by
  unfold resumeRun
  exact iteRun_outer (resume_outer s) rfl

theorem readWindowRun_outer (b : Byte) (s : State) : outer (readWindowRun b s).1 = outer s := by
  unfold readWindowRun
  split <;> rfl

theorem writeWindowRun_outer (b : Byte) (v : BitVec 64) (s : State) : outer (writeWindowRun b v s).1 = outer s := by
  unfold writeWindowRun
  split
  · rfl
  · split
    · rfl
    · exact putWindow_outer s _ v

theorem storeLayoutRun_outer (s : State) : outer (storeLayoutRun s).1 = outer s :=
  iteRun_outer rfl (iteRun_outer rfl (iteRun_outer rfl (by simp)))

theorem formatRun_outer (s : State) : outer (formatRun s).1 = outer s :=
  iteRun_outer rfl (iteRun_outer rfl (iteRun_outer rfl (by simp)))

theorem restartRun_outer (s : State) : outer (restartRun s).1 = outer s :=
  iteRun_outer rfl (by simp)

/-! ## The memory and the queue of commands -/

/-- The queue of commands and the memory are as they were. -/
def Untouched (s t : State) : Prop :=
  t.pending = s.pending ∧ t.mem = s.mem

theorem Untouched.refl (s : State) : Untouched s s :=
  ⟨rfl, rfl⟩

theorem Untouched.of_outer {s t : State} (h : outer t = outer s) : Untouched s t :=
  ⟨pending_of_outer h, mem_of_outer h⟩

theorem Untouched.trans {s t u : State} (h : Untouched s t) (k : Untouched t u) : Untouched s u :=
  ⟨k.1.trans h.1, k.2.trans h.2⟩

theorem Untouched.ite {c : Prop} [Decidable c] {s t u : State} (ht : Untouched s t) (hu : Untouched s u) :
    Untouched s (if c then t else u) := by
  split
  · exact ht
  · exact hu

theorem setLine_untouched (s : State) (line : SupplyLine) (level : Bool) : Untouched s (setLine s line level) := by
  cases line <;> exact ⟨rfl, rfl⟩

theorem lineFall_untouched (s : State) (line : SupplyLine) : Untouched s (lineFall s line) :=
  .ite ((setLine_untouched s line false).trans (.of_outer (by simp))) (.refl s)

theorem lineRise_untouched (s : State) (line : SupplyLine) : Untouched s (lineRise s line) :=
  .ite (.refl s) ((setLine_untouched s line true).trans (.ite (.of_outer (enterStarting_outer _)) (.refl _)))

theorem powerUp_untouched (s : State) (pins : Pins) : Untouched s (powerUp s pins) := by
  have fresh : Untouched s (State.startValues pins s.mem Session.idle s.free s.pending) := ⟨rfl, rfl⟩
  exact fresh.trans (.ite (.of_outer (startOp_outer _ _)) (.of_outer (by simp)))

theorem controllerAccess_untouched {s t : State} {a : Access} (next : execControllerAccess a s = .next t) :
    Untouched s t := by
  rcases controllerAccess_cases next with rfl | ⟨-, rfl⟩ | ⟨r, rfl⟩ | ⟨c, -, rfl⟩
  · exact .refl t
  · exact .of_outer (finishAccess_outer s _)
  · exact .of_outer (by simp)
  · exact .of_outer (by simp)

/-- The response changes the session alone, and a command's run leaves the outside alone. -/
theorem command_untouched {s t : State} {code check : Byte} {arguments : List Byte} {run : State → State × Reply}
    (after : outer (run s).1 = outer s) (next : command s code arguments check run = .next t) : Untouched s t := by
  refine handle_keeps (P := Untouched s) rfl next (.refl s) (.ite (.ite ?_ ⟨rfl, rfl⟩) (.refl s))
  exact Untouched.trans (.of_outer after) ⟨rfl, rfl⟩

/-- Every command but the two array events leaves the memory alone. -/
theorem exec_untouched {c : Instr} {s t : State} (other : ∀ took, c ≠ .arrayReady took ∧ c ≠ .arrayTimeout took)
    (next : exec c s = .next t) : Untouched s t := by
  cases c with
  | arrayReady took => exact absurd rfl (other took).1
  | arrayTimeout took => exact absurd rfl (other took).2
  | powerOn pfwN crstN mselN arrayReady => exact Host.Outcome.next.inj next ▸ powerUp_untouched s _
  | powerLoss => exact Host.Outcome.next.inj next ▸ ⟨rfl, rfl⟩
  | controllerAccess a => exact controllerAccess_untouched next
  | pfwNFall => exact handle_keeps (exec_pfwNFall s) next (.refl s) (lineFall_untouched s _)
  | crstNFall => exact handle_keeps (exec_crstNFall s) next (.refl s) (lineFall_untouched s _)
  | leaveEnded line => exact handle_keeps (exec_leaveEnded line s) next (.refl s) (lineRise_untouched s line)
  | pfwNRise => exact handle_keeps (exec_pfwNRise s) next (.refl s) (lineRise_untouched s _)
  | crstNRise => exact handle_keeps (exec_crstNRise s) next (.refl s) (lineRise_untouched s _)
  | scanBRise => exact handle_keeps (exec_scanBRise s) next (.refl s) (.of_outer (scanBoundary_outer s))
  | heldWriteTakenAnew => exact handle_keeps (exec_heldWriteTakenAnew s) next (.refl s) (.of_outer (takeAnew_outer s _))
  | heldReadTakenAnew => exact handle_keeps (exec_heldReadTakenAnew s) next (.refl s) (.of_outer (takeAnew_outer s _))
  | stallLimitExpiry => exact handle_keeps (exec_stallLimitExpiry s) next (.refl s) (.of_outer (stallExpiry_outer s))
  | startReadRetry => exact handle_keeps (exec_startReadRetry s) next (.refl s) (.of_outer (retryStartReads_outer s))
  | unknownCommand code => exact handle_keeps (exec_unknownCommand code s) next (.refl s) (.ite ⟨rfl, rfl⟩ (.refl s))
  | mselNFall => exact handle_keeps (exec_mselNFall s) next (.refl s) (.ite ⟨rfl, rfl⟩ (.refl s))
  | mselNRise => exact handle_keeps (exec_mselNRise s) next (.refl s) (.ite (.refl s) ⟨rfl, rfl⟩)
  | stampCounterWrap => exact handle_keeps (exec_stampCounterWrap s) next (.refl s) ⟨rfl, rfl⟩
  | readStatus check | peekIncident check | readGroups check | readSettings check => exact command_untouched rfl next
  | ackEvents events check =>
    exact command_untouched (run := ackEventsRun events) (iteRun_outer (acknowledge_outer s _) rfl) next
  | setEventMask events check => exact command_untouched (run := setEventMaskRun events) (iteRun_outer rfl rfl) next
  | takeIncident check => exact command_untouched (run := takeIncidentRun) rfl next
  | readInitiator initiator check => exact command_untouched (readInitiatorRun_outer initiator s) next
  | releaseFence initiator check => exact command_untouched (releaseFenceRun_outer initiator s) next
  | readSlot slot check => exact command_untouched (run := readSlotRun slot) (iteRun_outer rfl rfl) next
  | closeGroup check => exact command_untouched (run := closeGroupRun) (by simp [closeGroupRun]) next
  | flush scope check => exact command_untouched (flushRun_outer scope s) next
  | requestConfig check => exact command_untouched (requestConfigRun_outer s) next
  | requestRun check => exact command_untouched (requestRunRun_outer s) next
  | resume check => exact command_untouched (resumeRun_outer s) next
  | readWindow index check => exact command_untouched (readWindowRun_outer index s) next
  | writeWindow index record check => exact command_untouched (writeWindowRun_outer index record s) next
  | writeSettings settings check =>
    exact command_untouched (run := writeSettingsRun settings) (iteRun_outer (putSettings_outer s settings) rfl) next
  | storeLayout check => exact command_untouched (storeLayoutRun_outer s) next
  | format check => exact command_untouched (formatRun_outer s) next
  | restart check => exact command_untouched (restartRun_outer s) next

/-- The array events reach the memory of the outside alone, so the queue of commands stays. -/
theorem landed_pending (s : State) (took : LineData) (timedOut : Bool) :
    (landed s took timedOut).pending = s.pending := by
  have lands : ∀ op, (landStep s op took).pending = s.pending := fun op => by
    unfold landStep
    split <;> rfl
  have spoils : ∀ u op, (spoilCopy u op took).pending = u.pending := fun u op => by
    obtain ⟨m, spoiled, -⟩ := spoilCopy_eq u op took
    rw [spoiled, State.setMem_pending]
  unfold landed
  split
  · rfl
  · split
    · dsimp only
      split
      · rw [spoils, lands]
      · exact lands _
    · split
      · exact spoils s _
      · rfl

/-- Settles O9: the two array events by where their bytes land, every other command by the frame of its operation. -/
theorem onlyArrayStepsReachTheMemory : Obligations.OnlyArrayStepsReachTheMemory := by
  intro c s t next
  by_cases event : ∃ took, c = .arrayReady took ∨ c = .arrayTimeout took
  · obtain ⟨took, rfl | rfl⟩ := event
    · refine ⟨?_, fun other => absurd rfl (other took).1⟩
      refine handle_keeps (P := fun u => u.pending = s.pending) (exec_arrayReady took s) next rfl ?_
      exact (pending_of_outer (readyAsserted_outer s took)).trans (landed_pending s took false)
    · refine ⟨?_, fun other => absurd rfl (other took).2⟩
      refine handle_keeps (P := fun u => u.pending = s.pending) (exec_arrayTimeout took s) next rfl ?_
      exact (pending_of_outer (stepTimedOut_outer s took)).trans (landed_pending s took true)
  · have other : ∀ took, c ≠ .arrayReady took ∧ c ≠ .arrayTimeout took := fun took =>
      ⟨fun h => event ⟨took, .inl h⟩, fun h => event ⟨took, .inr h⟩⟩
    obtain ⟨pending, mem⟩ := exec_untouched other next
    exact ⟨pending, fun _ x => by rw [mem]⟩

end Sys2Proof.Machine
end

section
/-! The judgement of a change of standing and the counter's selection (R147, R150, R151), with what an incident leaves in the
recorder (R155). -/

namespace Sys2Proof.Machine

/-! ## An incident in the recorder (R155) -/

/-- An incident that finds room stands behind the records before it. -/
theorem recordIncident_incidents (s : State) (r : Report) :
    (recordIncident s r).recorder.incidents =
      if s.recorder.incidents.length < 16 then
        s.recorder.incidents ++ [{ report := r, stamp := s.recorder.stamp, reaction := reactionTaken s r.detail }]
      else s.recorder.incidents := by
  by_cases room : s.recorder.incidents.length < 16 <;> simp [recordIncident, raise, Config.incidentRecords, room]

/-- An incident that finds none sets the overflow flag. -/
theorem recordIncident_overflow (s : State) (r : Report) :
    (recordIncident s r).recorder.overflow =
      if s.recorder.incidents.length < 16 then s.recorder.overflow else true := by
  by_cases room : s.recorder.incidents.length < 16 <;> simp [recordIncident, raise, Config.incidentRecords, room]

/-- Recording an incident raises FAULT alone. -/
theorem recordIncident_events (s : State) (r : Report) :
    (recordIncident s r).recorder.pendingEvents = { s.recorder.pendingEvents with fault := true } := by
  unfold recordIncident
  simp only [raise, State.setRecorder_recorder]
  split <;> rfl

/-- What is recorded is recorded (R155). -/
theorem recordIncident_records (s : State) (r : Report) :
    Records s (recordIncident s r) r (reactionTaken s r.detail) := by
  refine ⟨by rw [recordIncident_events], ?_⟩
  split
  · rename_i room
    rw [recordIncident_incidents, if_pos room, List.getElem?_append_right le_rfl]
    simp
  · rename_i full
    rw [recordIncident_overflow, if_neg full]

theorem NoIncident.refl (s : State) : NoIncident s s :=
  ⟨rfl, rfl, rfl⟩

theorem NoIncident.trans {s t u : State} (h : NoIncident s t) (k : NoIncident t u) : NoIncident s u :=
  ⟨k.1.trans h.1, k.2.1.trans h.2.1, k.2.2.trans h.2.2⟩

/-- What happens before a report without an incident, at the same time, does not show in what is recorded. -/
theorem Records.of_noIncident {s t u : State} {r : Report} {x : Reaction} (h : NoIncident s t)
    (stamp : t.recorder.stamp = s.recorder.stamp) (k : Records t u r x) : Records s u r x := by
  obtain ⟨fault, list⟩ := k
  rw [h.1, stamp] at list
  exact ⟨fault, list⟩

/-- What happens after a report without an incident leaves what is recorded. -/
theorem Records.noIncident {s t u : State} {r : Report} {x : Reaction} (h : Records s t r x) (k : NoIncident t u) :
    Records s u r x := by
  obtain ⟨incidents, overflow, fault⟩ := k
  exact ⟨fault.trans h.1, by rw [incidents, overflow]; exact h.2⟩

/-! ## The judgement of a change -/

/-- Which changes of standing a sensitivity selects (R150). -/
theorem reportable_iff (sensitivity : BitVec 2) (old new : Standing) : reportable sensitivity old new = true ↔
    old ≠ new ∧
      ((sensitivity = 1 ∧ (old = .fenced ∨ new = .fenced)) ∨
        (sensitivity = 2 ∧ (old = .fenced ∨ new = .fenced ∨ old = .suspect ∨ new = .suspect)) ∨
        sensitivity = 3) := by
  have table : ∀ sensitivity : BitVec 2, sensitivity = 0 ∨ sensitivity = 1 ∨ sensitivity = 2 ∨ sensitivity = 3 := by
    decide
  rcases table sensitivity with rfl | rfl | rfl | rfl <;> simp [reportable, or_assoc]

/-- Settles O38: the table of R150, and the judgement's three cases (R151). -/
theorem standingChangesAreJudged : Obligations.StandingChangesAreJudged := by
  refine ⟨reportable_iff, fun s i old new => ⟨fun pending => ?_, fun quiet => ?_, fun idle reported => ?_⟩⟩
  · rw [judgeChange_eq, if_neg (by simp [pending])]
  · rw [judgeChange_eq, if_neg fun both => Bool.noConfusion (quiet.symm.trans both.2)]
  · rw [judgeChange_eq, if_pos ⟨idle, reported⟩]
    exact ⟨rfl, copyReported_record s⟩

/-! ## The counter and the standing it selects (R147) -/

/-- The table of R147. -/
theorem standingOf_eq (counter : Nat) : standingOf counter =
    if counter ≤ 63 then .clean else if counter ≤ 159 then .noisy else if counter ≤ 319 then .suspect else .fenced := by
  simp only [standingOf, Nat.lt_succ_iff]

theorem standingOf_fenced_iff (counter : Nat) : standingOf counter = .fenced ↔ 320 ≤ counter := by
  rw [standingOf_eq]
  split_ifs <;> simp <;> omega

/-- A counter that does not change changes nothing. -/
theorem changeCounter_of_same {s : State} {i : Initiator} {counter : Nat} (same : s.confinement[i].counter = counter) :
    changeCounter s i counter = s :=
  if_pos same

/-- A FENCED initiator's counter moves, its standing does not. -/
theorem changeCounter_of_fenced {s : State} {i : Initiator} {counter : Nat} (moved : s.confinement[i].counter ≠ counter)
    (fenced : s.confinement[i].state = .fenced) : changeCounter s i counter = setStanding s i counter .fenced := by
  simp only [changeCounter, if_neg moved, if_pos fenced]

/-- The report of a fencing by the counter (R147). -/
def fencedReport (i : Initiator) (counter : Nat) : Report :=
  { detail := .d711, initiator := some i, count := some (BitVec.ofNat 32 counter) }

/-- Another initiator takes the standing that the counter selects, judged, with 71/711 where it is fenced. -/
theorem changeCounter_of_moved {s : State} {i : Initiator} {counter : Nat} (moved : s.confinement[i].counter ≠ counter)
    (free : s.confinement[i].state ≠ .fenced) :
    changeCounter s i counter =
      let judged := judgeChange (setStanding s i counter (standingOf counter)) i s.confinement[i].state (standingOf counter)
      if 320 ≤ counter then recordIncident judged (fencedReport i counter) else judged := by
  simp only [changeCounter, if_neg moved, if_neg free, standingOf_fenced_iff, fencedReport]

/-- Recording an incident leaves the standings. -/
theorem recordIncident_confinement (s : State) (r : Report) : (recordIncident s r).confinement = s.confinement := rfl

theorem reactionTaken_notice {s : State} {d : Detail} (notice : isNotice d = true) : reactionTaken s d = .none := by
  have fixed : ∀ r d, isNotice d = true → reactionSetting r d = none := by
    intro r d
    cases d <;> simp [isNotice, reactionSetting]
  have quiet : ∀ d, isNotice d = true → fixedReaction d = .none := by
    intro d
    cases d <;> simp [isNotice, fixedReaction]
  simp [reactionTaken, shownAsRecord, notice, reactionInForce, fixed _ d notice, quiet d notice]

/-- Settles O39: the FENCED initiator, and the standing that the counter selects for another. -/
theorem counterSelectsTheStanding : Obligations.CounterSelectsTheStanding := by
  intro s i counter moved _ t
  have differs : s.confinement[i].counter ≠ counter := fun same => moved same.symm
  by_cases fenced : s.confinement[i].state = .fenced
  · have changed : t = setStanding s i counter .fenced := changeCounter_of_fenced differs fenced
    rw [changed, setStanding_same]
    exact ⟨rfl, fun _ => ⟨rfl, rfl⟩, fun free => absurd fenced free⟩
  · have changed : t = _ := changeCounter_of_moved differs fenced
    set before := setStanding s i counter (standingOf counter) with placed
    have own : before.confinement[i] = _ := setStanding_same s i counter (standingOf counter)
    obtain ⟨held, stands⟩ := judgeChange_standing before i i s.confinement[i].state (standingOf counter)
    have quiet : NoIncident s (judgeChange before i s.confinement[i].state (standingOf counter)) :=
      judgeChange_noIncident before i _ _
    rw [own] at held stands
    rw [changed]
    refine ⟨?_, fun h => absurd h fenced, fun _ => ⟨?_, fun below => ?_, fun above => ?_⟩⟩
    · dsimp only
      split <;> exact held
    · rw [← standingOf_eq]
      dsimp only
      split <;> exact stands
    · rw [if_neg (Nat.not_le.mpr below)]
      exact quiet
    · rw [if_pos above]
      have recorded := recordIncident_records (judgeChange before i s.confinement[i].state (standingOf counter))
        (fencedReport i counter)
      rw [reactionTaken_notice rfl] at recorded
      refine Records.of_noIncident quiet ?_ recorded
      rw [judgeChange_eq]
      split <;> rfl

end Sys2Proof.Machine
end

section
/-! Sessions and their requests (R163, R164), and power-on (R120, R142). -/

namespace Sys2Proof.Machine

/-- A command that carries a request is that request's handling, whatever its run. -/
theorem exec_request {c : Instr} {request : List Byte} {check : Byte} (carried : requestOf c = some (request, check)) :
    ∃ code arguments run, request = code :: arguments ∧ ∀ s, exec c s = command s code arguments check run := by
  cases c with
  | powerOn _ _ _ _ | powerLoss | pfwNFall | crstNFall | leaveEnded _ | scanBRise | controllerAccess _
  | heldWriteTakenAnew | heldReadTakenAnew | stallLimitExpiry | arrayReady _ | arrayTimeout _ | startReadRetry
  | unknownCommand _ | mselNFall | mselNRise | pfwNRise | crstNRise | stampCounterWrap => cases carried
  | readStatus _ | ackEvents _ _ | setEventMask _ _ | peekIncident _ | takeIncident _ | readInitiator _ _
  | releaseFence _ _ | readGroups _ | readSlot _ _ | closeGroup _ | flush _ _ | requestConfig _ | requestRun _ | resume _
  | readWindow _ _ | writeWindow _ _ _ | readSettings _ | writeSettings _ _ | storeLayout _ | format _ | restart _ =>
    cases carried
    exact ⟨_, _, _, rfl, fun _ => rfl⟩

/-- Settles O40: the check byte, the requests that do not count, the unknown code, and the edges of MSEL_N. -/
theorem sessionsCarryRequests : Obligations.SessionsCarryRequests := by
  refine ⟨fun c request check s listening carried wrong => ?_, fun c s carries deaf => ?_,
    fun code s listening unknown => ?_, fun s powered => ⟨fun high => ?_, fun low => ?_⟩⟩
  · obtain ⟨code, arguments, run, rfl, arm⟩ := exec_request carried
    rw [arm, command_badCheck listening wrong]
    simp [respond, responseBytes, Reply.bare, Status.code]
  · obtain ⟨⟨request, check⟩, carried⟩ := Option.isSome_iff_exists.mp carries
    obtain ⟨code, arguments, run, -, arm⟩ := exec_request carried
    rw [arm, command_ignored deaf]
  · obtain ⟨powered, phase, count⟩ := listening
    rw [exec_unknownCommand, handle_of_powered powered]
    simp [unknownCode, requestOpen, phase, count, unknown, Status.code]
  · rw [exec_mselNFall, handle_of_powered powered, if_pos high]
    rfl
  · rw [exec_mselNRise, handle_of_powered powered, low]
    rfl

end Sys2Proof.Machine
end

section
/-! Places of the layout's fields: the settings, a window record, the windows of a copy; what each place pins, and the round
trips (6.2, R94 to R96, R173). -/

namespace Sys2Proof.Machine

/-! ## Pieces of a value -/

/-- The bits of a value from 0 up to its width are the value. -/
theorem extract_whole {w start : Nat} (x : BitVec w) (h : start = 0) : x.extractLsb' start w = x := by
  subst h
  exact BitVec.extractLsb'_eq_self

/-- A bit that lies in two equal pieces is the same bit. -/
theorem getLsbD_of_extract {w start len b : Nat} {x y : BitVec w}
    (same : x.extractLsb' start len = y.extractLsb' start len) (low : start ≤ b) (high : b < start + len) :
    x.getLsbD b = y.getLsbD b := by
  have bit := congrArg (fun z => z.getLsbD (b - start)) same
  have inside : b - start < len := by omega
  simpa [BitVec.getLsbD_extractLsb', inside, Nat.add_sub_cancel' low] using bit

/-! ## The settings -/

theorem settingsBits_places (g : Settings) : SettingsAt g (settingsBits g) := by
  constructor
  case sensitivity =>
    intro i
    rw [settingsBits, extract_append_low _ _ (by omega)]
    exact (extract_initiatorCodes (fun i => g.sensitivity[i]) i).symm
  all_goals
    simp (disch := omega) only [settingsBits, reactionBits, extract_append_high, extract_append_low, extract_whole]

theorem settingsOfBits_places (v : BitVec 128) : SettingsAt (settingsOfBits v) v := by
  constructor
  case sensitivity => exact fun i => match i with | 0 | 1 | 2 | 3 => rfl
  all_goals rfl

theorem reactionCodes_ext {r r' : ReactionCodes}
    (h : r.class21 = r'.class21 ∧ r.class22 = r'.class22 ∧ r.class23 = r'.class23 ∧ r.class24 = r'.class24 ∧
      r.class27 = r'.class27 ∧ r.class28 = r'.class28 ∧ r.class31 = r'.class31 ∧ r.class32 = r'.class32 ∧
      r.arrayFailures = r'.arrayFailures) : r = r' := by
  cases r
  cases r'
  simpa using h

/-- The places leave no field of the settings open. -/
theorem SettingsAt.unique {g h : Settings} {v : BitVec 128} (hg : SettingsAt g v) (hh : SettingsAt h v) : g = h := by
  have codes : g.reactions = h.reactions :=
    reactionCodes_ext
      ⟨hg.class21.trans hh.class21.symm, hg.class22.trans hh.class22.symm, hg.class23.trans hh.class23.symm,
        hg.class24.trans hh.class24.symm, hg.class27.trans hh.class27.symm, hg.class28.trans hh.class28.symm,
        hg.class31.trans hh.class31.symm, hg.class32.trans hh.class32.symm,
        hg.arrayFailures.trans hh.arrayFailures.symm⟩
  have sensitivity : g.sensitivity = h.sensitivity :=
    Vector.ext fun i hi => (hg.sensitivity ⟨i, hi⟩).trans (hh.sensitivity ⟨i, hi⟩).symm
  cases g
  cases h
  simpa using
    ⟨hg.capacityCode.trans hh.capacityCode.symm, hg.journalBase.trans hh.journalBase.symm,
      hg.lineLimit.trans hh.lineLimit.symm, hg.stallLimit.trans hh.stallLimit.symm,
      hg.arrayTimeout.trans hh.arrayTimeout.symm, hg.budget.trans hh.budget.symm,
      hg.defaultClass.trans hh.defaultClass.symm, hg.autoRun.trans hh.autoRun.symm, codes, sensitivity⟩

theorem settingsOfBits_settingsBits (g : Settings) : settingsOfBits (settingsBits g) = g :=
  (settingsOfBits_places _).unique (settingsBits_places g)

/-- Start and length of the fields of the settings in their 128 bits; bits 8 to 21 belong to none. -/
def settingsFields : List (Nat × Nat) :=
  [(120, 8), (96, 24), (88, 8), (80, 8), (72, 8), (56, 16), (48, 8), (40, 8), (38, 2), (36, 2), (34, 2), (32, 2), (30, 2),
    (28, 2), (26, 2), (24, 2), (22, 2), (6, 2), (4, 2), (2, 2), (0, 2)]

/-- Values that hold the same settings agree in the bits of every field. -/
theorem SettingsAt.agree {g : Settings} {v u : BitVec 128} (hv : SettingsAt g v) (hu : SettingsAt g u) {b : Nat}
    (inside : b < 128) (used : ¬(8 ≤ b ∧ b < 22)) : v.getLsbD b = u.getLsbD b := by
  have fields : ∀ f ∈ settingsFields, v.extractLsb' f.1 f.2 = u.extractLsb' f.1 f.2 := by
    simp only [settingsFields, List.forall_mem_cons, List.not_mem_nil, false_implies, implies_true, and_true]
    exact ⟨hv.capacityCode.symm.trans hu.capacityCode, hv.journalBase.symm.trans hu.journalBase,
      hv.lineLimit.symm.trans hu.lineLimit, hv.stallLimit.symm.trans hu.stallLimit,
      hv.arrayTimeout.symm.trans hu.arrayTimeout, hv.budget.symm.trans hu.budget,
      hv.defaultClass.symm.trans hu.defaultClass, hv.autoRun.symm.trans hu.autoRun, hv.class21.symm.trans hu.class21,
      hv.class22.symm.trans hu.class22, hv.class23.symm.trans hu.class23, hv.class24.symm.trans hu.class24,
      hv.class27.symm.trans hu.class27, hv.class28.symm.trans hu.class28, hv.class31.symm.trans hu.class31,
      hv.class32.symm.trans hu.class32, hv.arrayFailures.symm.trans hu.arrayFailures,
      (hv.sensitivity 0).symm.trans (hu.sensitivity 0), (hv.sensitivity 1).symm.trans (hu.sensitivity 1),
      (hv.sensitivity 2).symm.trans (hu.sensitivity 2), (hv.sensitivity 3).symm.trans (hu.sensitivity 3)⟩
  have cover : ∀ b < 128, ¬(8 ≤ b ∧ b < 22) → ∃ f ∈ settingsFields, f.1 ≤ b ∧ b < f.1 + f.2 := by decide
  obtain ⟨f, listed, low, high⟩ := cover b inside used
  exact getLsbD_of_extract (fields f listed) low high

/-! ## The window records -/

theorem windowBits_places (w : Window) : WindowAt w (windowBits w) := by
  have bit : ∀ (x : BitVec 64) (n : Nat), x.getLsbD n = (x.extractLsb' n 1).getLsbD 0 := by simp
  constructor
  case enabled | verify =>
    rw [bit]
    simp (disch := omega) only [windowBits, extract_append_high, extract_append_low, extract_whole]
    simp
  all_goals simp (disch := omega) only [windowBits, extract_append_high, extract_append_low, extract_whole]

theorem windowOfBits_places (b : BitVec 64) : WindowAt (windowOfBits b) b := by
  constructor <;> rfl

/-- The places leave no field of a window record open. -/
theorem WindowAt.unique {w x : Window} {b : BitVec 64} (hw : WindowAt w b) (hx : WindowAt x b) : w = x := by
  cases w
  cases x
  simpa using
    ⟨hw.enabled.trans hx.enabled.symm, hw.matchBits.trans hx.matchBits.symm, hw.care.trans hx.care.symm,
      hw.cls.trans hx.cls.symm, hw.verify.trans hx.verify.symm, hw.priority.trans hx.priority.symm,
      hw.writers.trans hx.writers.symm⟩

theorem windowOfBits_windowBits (w : Window) : windowOfBits (windowBits w) = w :=
  (windowOfBits_places _).unique (windowBits_places w)

/-- Window W`i` stands at its place among the twelve. -/
theorem windowsBits_window (v : Vector Window 12) (i : WindowIndex) :
    (windowsBits v).extractLsb' (704 - 64 * i.val) 64 = windowBits v[i] := by
  fin_cases i
  all_goals
    simp (disch := omega) only [windowsBits, extract_append_high, extract_append_low, extract_whole]
    rfl

theorem windowsOfBits_window (b : BitVec 768) (i : WindowIndex) :
    (windowsOfBits b)[i] = windowOfBits (b.extractLsb' (704 - 64 * i.val) 64) := by
  fin_cases i <;> rfl

theorem windowsOfBits_windowsBits (v : Vector Window 12) : windowsOfBits (windowsBits v) = v := by
  refine Vector.ext fun i hi => ?_
  have read := windowsOfBits_window (windowsBits v) ⟨i, hi⟩
  rwa [windowsBits_window, windowOfBits_windowBits] at read

/-! ## The copies -/

theorem layoutCopy_head (l : Layout) (g : BitVec 32) : (layoutCopy l g).extractLsb' 1000 24 = 0x4C5901 := by
  simp (disch := omega) only [layoutCopy, layoutBody, extract_append_high, extract_whole]
  rfl

theorem layoutCopy_settings (l : Layout) (g : BitVec 32) :
    (layoutCopy l g).extractLsb' 872 128 = settingsBits l.settings := by
  simp (disch := omega) only [layoutCopy, layoutBody, extract_append_high, extract_append_low, extract_whole]

theorem layoutCopy_windows (l : Layout) (g : BitVec 32) :
    (layoutCopy l g).extractLsb' 96 768 = windowsBits l.windows := by
  simp (disch := omega) only [layoutCopy, layoutBody, extract_append_high, extract_append_low, extract_whole]

/-- A piece of a piece. -/
theorem extract_extract {w a m b n : Nat} (x : BitVec w) (h : b + n ≤ m) :
    (x.extractLsb' a m).extractLsb' b n = x.extractLsb' (a + b) n := by
  apply BitVec.eq_of_getLsbD_eq
  intro i hi
  have inside : b + i < m := by omega
  simp [hi, inside, Nat.add_assoc]

theorem layoutCopy_window (l : Layout) (g : BitVec 32) (i : WindowIndex) :
    (layoutCopy l g).extractLsb' (800 - 64 * i.val) 64 = windowBits l.windows[i] := by
  have place : 800 - 64 * i.val = 96 + (704 - 64 * i.val) := by omega
  rw [place, ← extract_extract _ (by omega : 704 - 64 * i.val + 64 ≤ 768), layoutCopy_windows, windowsBits_window]

theorem layoutCopy_generation (l : Layout) (g : BitVec 32) : (layoutCopy l g).extractLsb' 64 32 = g := by
  simp (disch := omega) only [layoutCopy, layoutBody, extract_append_high, extract_append_low, extract_whole]

theorem layoutOfCopy_layoutCopy (l : Layout) (g : BitVec 32) : layoutOfCopy (layoutCopy l g) = l := by
  rw [layoutOfCopy, layoutCopy_settings, layoutCopy_windows, settingsOfBits_settingsBits, windowsOfBits_windowsBits]

theorem progressCopy_state (p : ProgressContent) (g : BitVec 32) :
    (progressCopy p g).extractLsb' 112 8 = ShutdownState.code p.state := by
  simp (disch := omega) only [progressCopy, progressBody, extract_append_high, extract_append_low, extract_whole]

theorem progressCopy_posted (p : ProgressContent) (g : BitVec 32) :
    (progressCopy p g).extractLsb' 104 8 = p.postedAbandoned := by
  simp (disch := omega) only [progressCopy, progressBody, extract_append_high, extract_append_low, extract_whole]

theorem progressCopy_groups (p : ProgressContent) (g : BitVec 32) :
    (progressCopy p g).extractLsb' 96 8 = p.groupsAbandoned := by
  simp (disch := omega) only [progressCopy, progressBody, extract_append_high, extract_append_low, extract_whole]

theorem progressCopy_generation (p : ProgressContent) (g : BitVec 32) : (progressCopy p g).extractLsb' 64 32 = g := by
  simp (disch := omega) only [progressCopy, progressBody, extract_append_high, extract_append_low, extract_whole]

theorem progressCopy_retired (p : ProgressContent) (g : BitVec 32) :
    (progressCopy p g).extractLsb' 32 32 = p.retiredThrough := by
  simp (disch := omega) only [progressCopy, progressBody, extract_append_high, extract_append_low, extract_whole]

theorem shutdownStateOf_code (x : ShutdownState) : shutdownStateOf (ShutdownState.code x) = x := by
  cases x <;> rfl

theorem progressOfCopy_progressCopy (p : ProgressContent) (g : BitVec 32) : progressOfCopy (progressCopy p g) = p := by
  rw [progressOfCopy, progressCopy_state, progressCopy_posted, progressCopy_groups, progressCopy_retired,
    shutdownStateOf_code]

/-- Settles O58: each place of a composed copy, and the loading that reads them. -/
theorem copiesAreReadBackAsComposed : Obligations.CopiesAreReadBackAsComposed := by
  refine ⟨fun l g => ⟨layoutOfCopy_layoutCopy l g, Laws.layoutValid_layoutCopy l g, layoutCopy_generation l g,
    Laws.joinLines_layoutCopyLine l g, layoutCopy_head l g, ?_, fun i => ?_, layoutCopy_generation l g, ?_, ?_,
    Laws.layoutCopy_check l g⟩, fun p g => ⟨progressOfCopy_progressCopy p g, Laws.progressValid_progressCopy p g,
    progressCopy_generation p g, Laws.joinLines_progressCopyLine p g, ?_, ?_, progressCopy_posted p g,
    progressCopy_groups p g, progressCopy_generation p g, progressCopy_retired p g, Laws.progressCopy_check p g⟩⟩
  · rw [layoutCopy_settings]
    exact settingsBits_places _
  · rw [layoutCopy_window]
    exact windowBits_places _
  · simp (disch := omega) only [layoutCopy, layoutBody, extract_append_high, extract_append_low, extract_whole]
    rfl
  · simp (disch := omega) only [layoutCopy, layoutBody, extract_append_high, extract_append_low, extract_whole]
    rfl
  · simp (disch := omega) only [progressCopy, progressBody, extract_append_high, extract_whole]
    rfl
  · rw [progressCopy_state]
    cases p.state <;> rfl

end Sys2Proof.Machine
end

section
/-! READ_WINDOW, WRITE_WINDOW, READ_SETTINGS, WRITE_SETTINGS (R79, R173). -/

namespace Sys2Proof.Machine

theorem windowOf_of_toNat {n : Byte} {i : WindowIndex} (h : n.toNat = i.val) : windowOf n = some i := by
  have small : n.toNat < 12 := h ▸ i.isLt
  rw [windowOf, dif_pos small]
  exact congrArg some (Fin.ext h)

theorem windowOf_of_above {n : Byte} (h : 11 < n.toNat) : windowOf n = none :=
  dif_neg (Nat.not_lt.mpr h)

theorem layoutWritable_iff (s : State) :
    layoutWritable s = true ↔ s.control.mode = .config ∨ s.control.mode = .unformatted := by
  simp [layoutWritable]

/-- Settles O51: the reads in every mode, the writes where the layout may be written, and the index above 11. -/
theorem layoutIsReadAndWritten : Obligations.LayoutIsReadAndWritten := by
  intro s listening writable
  have writable_iff : layoutWritable s = true ↔ writable := layoutWritable_iff s
  refine ⟨⟨?readSettings, settingsBits_places _, ?zeros⟩, fun n i named => ⟨?readWindow, windowBits_places _, fun record =>
    ⟨fun locked => ?windowMode, fun free => ⟨windowOfBits record, ?writeWindow, windowOfBits_places record⟩⟩⟩,
    fun n above => ⟨?noWindow, fun record => ?noRecord⟩, fun v =>
    ⟨fun locked => ?settingsMode, fun free => ⟨settingsOfBits v, ?writeSettings, settingsOfBits_places v,
      fun b inside used => (settingsBits_places _).agree (settingsOfBits_places v) inside used⟩⟩⟩
  case readSettings => exact answers_of_data listening rfl rfl
  case zeros =>
    simp (disch := omega) only [settingsBits, reactionBits, extract_append_high, extract_append_low, extract_whole]
    rfl
  case readWindow =>
    exact answers_of_data listening (run := readWindowRun n) rfl (by rw [readWindowRun, windowOf_of_toNat named])
  case windowMode =>
    have refused : layoutWritable s = false := Bool.eq_false_iff.mpr (locked ∘ writable_iff.mp)
    exact declines_of_run listening (run := writeWindowRun n record) (status := .wrongMode) rfl
      (by simp [writeWindowRun, refused])
  case writeWindow =>
    have run : writeWindowRun n record s = (putWindow s i record, Reply.bare .ok) := by
      simp [writeWindowRun, writable_iff.mpr free, windowOf_of_toNat named]
    have answered := answers_of_run listening (c := .writeWindow n record (crc8 ([0x29, n] ++ bytesOf 8 record)))
      (arguments := n :: bytesOf 8 record) (run := writeWindowRun n record) rfl
    rw [run] at answered
    exact answered
  case noWindow =>
    exact declines_of_run listening (run := readWindowRun n) (status := .badArgument) rfl
      (by rw [readWindowRun, windowOf_of_above above])
  case noRecord =>
    split
    · rename_i free
      exact declines_of_run listening (run := writeWindowRun n record) (status := .badArgument) rfl
        (by simp [writeWindowRun, writable_iff.mpr free, windowOf_of_above above])
    · rename_i locked
      have refused : layoutWritable s = false := Bool.eq_false_iff.mpr (locked ∘ writable_iff.mp)
      exact declines_of_run listening (run := writeWindowRun n record) (status := .wrongMode) rfl
        (by simp [writeWindowRun, refused])
  case settingsMode =>
    have refused : layoutWritable s = false := Bool.eq_false_iff.mpr (locked ∘ writable_iff.mp)
    exact declines_of_run listening (run := writeSettingsRun v) (status := .wrongMode) rfl
      (by simp [writeSettingsRun, refused])
  case writeSettings =>
    have run : writeSettingsRun v s = (putSettings s v, Reply.bare .ok) := if_pos (writable_iff.mpr free)
    have answered := answers_of_run listening (c := .writeSettings v (crc8 (0x2B :: bytesOf 16 v)))
      (run := writeSettingsRun v) rfl
    rw [run] at answered
    exact answered

end Sys2Proof.Machine
end

section
/-! The bytes of a write at their byte numbers (R60), the checks behind the mode check (R62, R64 to R69), and the window that
classifies a line (R67). -/

namespace Sys2Proof.Machine

/-! ## The bytes of a write -/

/-- Byte `k + i` of `len` bytes shifted to byte number `k`. -/
theorem byteOf_shifted {w : Nat} (d : BitVec w) {len k i sh : Nat} (hk : k + len ≤ 8)
    (hs : sh + 8 * k = 64 - 8 * len) (hi : i < len) :
    byteOf (d.setWidth 64 <<< sh) (k + i) = d.extractLsb' (8 * (len - 1 - i)) 8 := by
  apply BitVec.eq_of_getLsbD_eq
  intro j hj
  have inside : 56 - 8 * (k + i) + j < 64 := by omega
  have above : ¬56 - 8 * (k + i) + j < sh := by omega
  have place : 56 - 8 * (k + i) + j - sh = 8 * (len - 1 - i) + j := by omega
  simp [byteOf, hj, inside, above, place]

/-- The byte numbers of `len` bytes from `k` on. -/
theorem getLsbD_ones {ones : ByteSet} {len : Nat} (hones : ∀ i < 8, ones.getLsbD i = true ↔ i < len) {k n : Nat} (hn : n < 8) :
    (ones <<< k).getLsbD n = true ↔ k ≤ n ∧ n < k + len := by
  have bit := hones (n - k) (by omega)
  simp only [BitVec.getLsbD_shiftLeft, hn, decide_true, Bool.true_and, Bool.and_eq_true, Bool.not_eq_true',
    decide_eq_false_iff_not, bit]
  omega

/-- An aligned access of `len` bytes ends within its line (R64). -/
theorem lineOffset_aligned {a : Access} (h : aligned a = true) : lineOffset a.address + opBytes a.op ≤ 8 := by
  have offset : lineOffset a.address = a.address.toNat % 8 := by simp [lineOffset]
  have sizes : opBytes a.op = 1 ∨ opBytes a.op = 2 ∨ opBytes a.op = 4 := by
    cases a.op with
    | read z => cases z <;> simp [opBytes, Size.bytes]
    | write8 d | write16 d | write32 d => simp [opBytes]
  simp only [aligned, beq_iff_eq] at h
  rcases sizes with size | size | size <;> rw [size] at h ⊢ <;> omega

theorem accessBytes_iff (a : Access) {n : Nat} (hn : n < 8) :
    (accessBytes a).getLsbD n = true ↔ lineOffset a.address ≤ n ∧ n < lineOffset a.address + opBytes a.op := by
  have ones : ∀ i < 8, (0x01 : ByteSet).getLsbD i = true ↔ i < 1 := by decide
  have twos : ∀ i < 8, (0x03 : ByteSet).getLsbD i = true ↔ i < 2 := by decide
  have fours : ∀ i < 8, (0x0F : ByteSet).getLsbD i = true ↔ i < 4 := by decide
  cases op : a.op with
  | read z =>
    cases z with
    | one => simpa [accessBytes, op, opBytes, Size.bytes] using getLsbD_ones ones hn
    | two => simpa [accessBytes, op, opBytes, Size.bytes] using getLsbD_ones twos hn
    | four => simpa [accessBytes, op, opBytes, Size.bytes] using getLsbD_ones fours hn
  | write8 d => simpa [accessBytes, op, opBytes] using getLsbD_ones ones hn
  | write16 d => simpa [accessBytes, op, opBytes] using getLsbD_ones twos hn
  | write32 d => simpa [accessBytes, op, opBytes] using getLsbD_ones fours hn

/-- Settles O37: the byte numbers an access covers, and the bytes of each size of write. -/
theorem writtenBytesStandAtTheirAddresses : Obligations.WrittenBytesStandAtTheirAddresses := by
  intro a fits n hn
  have room := lineOffset_aligned fits
  refine ⟨accessBytes_iff a hn, fun d op place => ?_, fun d op i hi place => ?_, fun d op i hi place => ?_⟩
  · rw [op] at room
    have byte := byteOf_shifted d (len := 1) (i := 0) (sh := 56 - 8 * lineOffset a.address) room
      (by simp only [opBytes] at room; omega) one_pos
    rw [accessData, op, place]
    simpa [BitVec.extractLsb'_eq_self] using byte
  · rw [op] at room
    rw [accessData, op, place]
    exact byteOf_shifted d (len := 2) room (by simp only [opBytes] at room; omega) hi
  · rw [op] at room
    rw [accessData, op, place]
    exact byteOf_shifted d (len := 4) room (by simp only [opBytes] at room; omega) hi

/-! ## The checks behind the mode check -/

/-- The checks on alignment, capacity and reserved areas, in their order (R64, R65). -/
theorem geometryFailure_eq (l : Layout) (a : Access) :
    geometryFailure l a =
      if a.address.toNat % opBytes a.op ≠ 0 then some (byDirection a .d271 .d272)
      else if 65536 * 2 ^ l.settings.capacityCode.toNat ≤ a.address.toNat then some (byDirection a .d281 .d282)
      else if a.address.toNat < 0x120 then some (byDirection a .d241 .d242)
      else if l.settings.journalBase.toNat ≤ a.address.toNat ∧ a.address.toNat < l.settings.journalBase.toNat + 512 then
        some (byDirection a .d243 .d244)
      else none := by
  simp only [geometryFailure, aligned, capacityBytes, inControlArea, inJournalArea, Bool.not_eq_true', beq_eq_false_iff_ne,
    decide_eq_true_eq, Bool.and_eq_true]

/-- The checks on window class, writer set and fence, in their order (R66, R68, R69). -/
theorem classFailure_eq (s : State) (a : Access) (c : Classification) :
    classFailure s a c =
      if c.cls = .closed then some (byDirection a .d211 .d212)
      else if opIsWrite a.op = true ∧ c.cls = .locked then some .d220
      else if opIsWrite a.op = true ∧ c.writers.getLsbD a.initiator.val = false then some .d230
      else if opIsWrite a.op = true ∧ s.confinement[a.initiator].state = .fenced then some .d250
      else none := by
  simp only [classFailure, Bool.and_eq_true, beq_iff_eq, Bool.not_eq_true']

/-- Settles O29: the checks of R62 behind the mode check, one after another. -/
theorem accessChecksInOrder : Obligations.AccessChecksInOrder := by
  intro a s passes address base which refuse
  have checked : checkAccess s a =
      match geometryFailure s.layout a with
      | some d => .refused (accessReport d a none)
      | none =>
        match classify s.layout (accessLine a) with
        | none => .reservedClass
        | some c =>
          match classFailure s a c with
          | some d => .refused (accessReport d a c.window)
          | none => .accepted c :=
    if_neg (c := (!modePasses s (opIsWrite a.op)) = true) (by simp [passes])
  rw [checked, geometryFailure_eq]
  by_cases misaligned : a.address.toNat % opBytes a.op ≠ 0
  · rw [if_pos misaligned, if_pos misaligned]
    rfl
  rw [if_neg misaligned, if_neg misaligned]
  by_cases beyond : 65536 * 2 ^ s.layout.settings.capacityCode.toNat ≤ address
  · rw [if_pos beyond, if_pos beyond]
    rfl
  rw [if_neg beyond, if_neg beyond]
  by_cases control : address < 0x120
  · rw [if_pos control, if_pos control]
    rfl
  rw [if_neg control, if_neg control]
  by_cases journal : base ≤ address ∧ address < base + 512
  · rw [if_pos journal, if_pos journal]
    rfl
  rw [if_neg journal, if_neg journal]
  have line : accessLine a = lineOf a.address := rfl
  rw [line]
  cases classify s.layout (lineOf a.address) with
  | none => rfl
  | some c =>
    dsimp only
    rw [classFailure_eq]
    split_ifs <;> rfl

/-! ## The window that classifies a line -/

/-- A line matches an enabled window in the bits the window cares for (R67). -/
theorem windowMatches_iff (w : Window) (line : LineNo) : windowMatches w line = true ↔
    w.enabled = true ∧ ∀ b < 21, w.care.getLsbD b = true → line.getLsbD b = w.matchBits.getLsbD b := by
  simp only [windowMatches, Bool.and_eq_true, beq_iff_eq]
  refine and_congr_right fun _ => ⟨fun same b hb cared => ?_, fun same => ?_⟩
  · have bit := congrArg (fun x => x.getLsbD b) same
    simpa [cared] using bit
  · apply BitVec.eq_of_getLsbD_eq
    intro b hb
    have bit := same b hb
    cases cared : w.care.getLsbD b with
    | false => simp [cared]
    | true => simp [cared, bit cared]

/-- The lowest-numbered window of those that a test names. -/
theorem find_windowIndexes {p : WindowIndex → Bool} {i : WindowIndex} (hit : p i = true)
    (first : ∀ j < i, p j = false) : windowIndexes.find? p = some i := by
  have listed : windowIndexes = List.finRange 12 := by decide
  rw [listed, List.find?_eq_some_iff_getElem]
  refine ⟨hit, i.val, by simp, by simp, fun j hj => ?_⟩
  simp [first ⟨j, by omega⟩ hj]

/-- Settles O30: the class codes, the lowest matching window, and the default class. -/
theorem lowestMatchingWindowClassifies : Obligations.LowestMatchingWindowClassifies := by
  refine ⟨rfl, ?_⟩
  intro l line hit
  have matches_iff : ∀ i : WindowIndex, windowMatches l.windows[i] line = true ↔ hit i := fun i =>
    windowMatches_iff l.windows[i] line
  refine ⟨fun i hits first c code => ?_, fun misses => ?_⟩
  · have found : matchedWindow l line = some i :=
      find_windowIndexes ((matches_iff i).mpr hits) fun j hj =>
        Bool.eq_false_iff.mpr fun matched => first j hj ((matches_iff j).mp matched)
    have code' : classOfCode l.windows[i.val].cls = some c := code
    simp [classify, found, code']
  · have found : matchedWindow l line = none :=
      List.find?_eq_none.mpr fun i _ matched => misses i ((matches_iff i).mp matched)
    exact ⟨fun closed => by simp [classify, found, closed], fun through => by simp [classify, found, through]⟩

end Sys2Proof.Machine
end

section
/-! The choice of the posted drain (R13, R14): eligible entries, the lowest priority number, the oldest among equals. -/

namespace Sys2Proof.Machine

/-- An entry behind the entries `before` may drain, where the lines `seen` have an older POSTED entry (R13). -/
def Eligible (seen : List LineNo) (before : List Entry) (e : Entry) : Prop :=
  e.group = none ∧ e.state = .ready ∧ e.line ∉ seen ∧ ∀ x ∈ before, x.group = none → x.line ≠ e.line

/-- The lines with an older POSTED entry, one entry further. -/
def seenAfter (seen : List LineNo) (e : Entry) : List LineNo :=
  if e.group = none then e.line :: seen else seen

theorem eligible_cons {seen : List LineNo} {y x : Entry} {b : List Entry} :
    Eligible seen (y :: b) x ↔ Eligible (seenAfter seen y) b x := by
  unfold Eligible seenAfter
  by_cases posted : y.group = none
  · simp only [posted, List.mem_cons, forall_eq_or_imp, true_implies, if_true, not_or, ne_comm (a := x.line), ne_eq]
    tauto
  · simp [posted]

theorem eligibleAfter_of_eligible {seen : List LineNo} {y : Entry} {rest : List Entry} (h : Eligible seen [] y) :
    eligibleAfter seen (y :: rest) = y :: eligibleAfter (seenAfter seen y) rest := by
  obtain ⟨posted, ready, unseen, -⟩ := h
  simp [eligibleAfter, seenAfter, posted, ready, unseen]

theorem eligibleAfter_of_not {seen : List LineNo} {y : Entry} {rest : List Entry} (h : ¬Eligible seen [] y) :
    eligibleAfter seen (y :: rest) = eligibleAfter (seenAfter seen y) rest := by
  by_cases posted : y.group = none
  · have skipped : y.state = .ready → y.line ∈ seen := fun ready => by
      by_contra unseen
      exact h ⟨posted, ready, unseen, by simp⟩
    simp [eligibleAfter, seenAfter, posted]
    exact skipped
  · simp [eligibleAfter, seenAfter, posted]

/-- `e` is the choice among the eligible entries of `es`: before it only higher priority numbers, behind it none lower
(R14). -/
structure Chosen (s : State) (seen : List LineNo) (es : List Entry) (e : Entry) : Prop where
  split : ∃ before after, es = before ++ e :: after ∧ Eligible seen before e ∧
    (∀ b x c, before = b ++ x :: c → Eligible seen b x → drainPriority s e < drainPriority s x) ∧
    (∀ b x c, after = b ++ x :: c → Eligible seen (before ++ e :: b) x → drainPriority s e ≤ drainPriority s x)
  lowest : ∀ b x c, es = b ++ x :: c → Eligible seen b x → drainPriority s e ≤ drainPriority s x

/-- The choice among the younger entries stands when the oldest is not eligible or has a higher priority number. -/
theorem Chosen.cons {s : State} {seen : List LineNo} {y e : Entry} {rest : List Entry}
    (h : Chosen s (seenAfter seen y) rest e) (higher : Eligible seen [] y → drainPriority s e < drainPriority s y) :
    Chosen s seen (y :: rest) e := by
  obtain ⟨⟨before, after, split, eligible, older, younger⟩, lowest⟩ := h
  refine ⟨⟨y :: before, after, by rw [split, List.cons_append], eligible_cons.mpr eligible, fun b x c cut fits => ?_,
    fun b x c cut fits => younger b x c cut (eligible_cons.mp fits)⟩, fun b x c cut fits => ?_⟩
  · cases b with
    | nil =>
      obtain ⟨rfl, -⟩ := List.cons.inj cut
      exact higher fits
    | cons z b =>
      obtain ⟨rfl, tail⟩ := List.cons.inj cut
      exact older b x c tail (eligible_cons.mp fits)
  · cases b with
    | nil =>
      obtain ⟨rfl, -⟩ := List.cons.inj cut
      exact (higher fits).le
    | cons z b =>
      obtain ⟨rfl, tail⟩ := List.cons.inj cut
      exact lowest b x c tail (eligible_cons.mp fits)

/-- The oldest entry is the choice when it is eligible and no younger one has a lower priority number. -/
theorem Chosen.head {s : State} {seen : List LineNo} {y : Entry} {rest : List Entry} (h : Eligible seen [] y)
    (lowest : ∀ b x c, rest = b ++ x :: c → Eligible (seenAfter seen y) b x → drainPriority s y ≤ drainPriority s x) :
    Chosen s seen (y :: rest) y := by
  refine ⟨⟨[], rest, rfl, h, by simp, fun b x c cut fits => lowest b x c cut (eligible_cons.mp fits)⟩,
    fun b x c cut fits => ?_⟩
  cases b with
  | nil =>
    obtain ⟨rfl, -⟩ := List.cons.inj cut
    exact le_rfl
  | cons z b =>
    obtain ⟨rfl, tail⟩ := List.cons.inj cut
    exact lowest b x c tail (eligible_cons.mp fits)

/-- No eligible entry among `rest` and an oldest one that is not eligible leave none. -/
theorem none_eligible_cons {seen : List LineNo} {y : Entry} {rest : List Entry} (oldest : ¬Eligible seen [] y)
    (younger : ∀ b x c, rest = b ++ x :: c → ¬Eligible (seenAfter seen y) b x) :
    ∀ b x c, y :: rest = b ++ x :: c → ¬Eligible seen b x := by
  intro b x c cut fits
  cases b with
  | nil =>
    obtain ⟨rfl, -⟩ := List.cons.inj cut
    exact oldest fits
  | cons z b =>
    obtain ⟨rfl, tail⟩ := List.cons.inj cut
    exact younger b x c tail (eligible_cons.mp fits)

/-- What the search over an age-ordered list finds, along the list. -/
theorem lowestPriority_chosen (s : State) (es : List Entry) (seen : List LineNo) :
    (∀ e, lowestPriority s (eligibleAfter seen es) = some e → Chosen s seen es e) ∧
      (lowestPriority s (eligibleAfter seen es) = none → ∀ b x c, es = b ++ x :: c → ¬Eligible seen b x) := by
  induction es generalizing seen with
  | nil => simp [eligibleAfter, lowestPriority]
  | cons y rest ih =>
    obtain ⟨found, missed⟩ := ih (seenAfter seen y)
    by_cases oldest : Eligible seen [] y
    · rw [eligibleAfter_of_eligible oldest, lowestPriority]
      cases among : lowestPriority s (eligibleAfter (seenAfter seen y) rest) with
      | none =>
        refine ⟨fun e chosen => ?_, by simp⟩
        obtain rfl : y = e := Option.some.inj chosen
        exact Chosen.head oldest fun b x c cut fits => absurd fits (missed among b x c cut)
      | some b =>
        have chosen := found b among
        dsimp only
        split
        · rename_i higher
          refine ⟨fun e same => ?_, by simp⟩
          obtain rfl : b = e := Option.some.inj same
          exact chosen.cons fun _ => higher
        · rename_i lower
          refine ⟨fun e same => ?_, by simp⟩
          obtain rfl : y = e := Option.some.inj same
          exact Chosen.head oldest fun c x d cut fits => (Nat.not_lt.mp lower).trans (chosen.lowest c x d cut fits)
    · rw [eligibleAfter_of_not oldest]
      exact ⟨fun e chosen => (found e chosen).cons fun fits => absurd fits oldest,
        fun none => none_eligible_cons oldest (missed none)⟩

/-- Settles O56: the search from the oldest entry on, where no line has an older entry yet. -/
theorem drainChoosesByPriorityThenAge : Obligations.DrainChoosesByPriorityThenAge := by
  intro s eligible priority
  have same : ∀ before e, eligible before e ↔ Eligible [] before e := fun before e => by simp [eligible, Eligible]
  obtain ⟨found, missed⟩ := lowestPriority_chosen s s.queue.entries []
  simp only [same]
  exact ⟨fun e chosen => (found e chosen).split, missed⟩

end Sys2Proof.Machine
end

section
/-! Rules on what a grant changes (`startOp`), on the end of a handling outside the modes that serve (`settle`), and on the
entry to SHUTDOWN and to STARTING (R82, R85, R118, R120, R134, R143). -/

namespace Sys2Proof.Machine

/-! ## What a grant changes -/

/-- A granted operation changes the ready input, the line kept, what the grant marks, and the operation in flight (R82, R85). -/
theorem startOp_eq (s : State) (op : ArrayOp) :
    startOp s op =
      { s with
        lineBefore := (keepLine s op).lineBefore
        access := (markGranted s op.requester).access
        queue := (markGranted s op.requester).queue
        shutdown := (markGranted s op.requester).shutdown
        pins := { s.pins with arrayReady := false }
        port := { s.port with op := some { op with presented := s.pins.arrayReady } } } := by
  have marked (u : State) (v : LineData) : markGranted (u.setLineBefore v) op.requester =
      { u with
        lineBefore := v
        access := (markGranted u op.requester).access
        queue := (markGranted u op.requester).queue
        shutdown := (markGranted u op.requester).shutdown } := by
    obtain ⟨access, held⟩ : ∃ x, u.access.held = x := ⟨_, rfl⟩
    cases op.requester <;> cases access <;> simp only [markGranted, State.setLineBefore_access, held] <;> rfl
  obtain ⟨v, kept⟩ := keepLine_eq s op
  rw [startOp, kept, marked s v, beginStep]
  cases ready : s.pins.arrayReady with
  | true => rfl
  | false =>
    have low : { s.pins with arrayReady := false } = s.pins := by rw [← ready]
    rw [low]
    rfl

@[simp] theorem startOp_port (s : State) (op : ArrayOp) :
    (startOp s op).port = { s.port with op := some { op with presented := s.pins.arrayReady } } := by rw [startOp_eq]

@[simp] theorem startOp_pins (s : State) (op : ArrayOp) : (startOp s op).pins = { s.pins with arrayReady := false } := by rw [startOp_eq]

@[simp] theorem startOp_access (s : State) (op : ArrayOp) :
    (startOp s op).access = (markGranted s op.requester).access := by rw [startOp_eq]

@[simp] theorem startOp_queue (s : State) (op : ArrayOp) : (startOp s op).queue = (markGranted s op.requester).queue := by rw [startOp_eq]

@[simp] theorem startOp_shutdown (s : State) (op : ArrayOp) :
    (startOp s op).shutdown = (markGranted s op.requester).shutdown := by rw [startOp_eq]

@[simp] theorem startOp_layout (s : State) (op : ArrayOp) : (startOp s op).layout = s.layout := by rw [startOp_eq]

@[simp] theorem startOp_engine (s : State) (op : ArrayOp) : (startOp s op).engine = s.engine := by rw [startOp_eq]

@[simp] theorem startOp_writer (s : State) (op : ArrayOp) : (startOp s op).writer = s.writer := by rw [startOp_eq]

@[simp] theorem startOp_start (s : State) (op : ArrayOp) : (startOp s op).start = s.start := by rw [startOp_eq]

@[simp] theorem startOp_recovery (s : State) (op : ArrayOp) : (startOp s op).recovery = s.recovery := by rw [startOp_eq]

@[simp] theorem startOp_confinement (s : State) (op : ArrayOp) : (startOp s op).confinement = s.confinement := by rw [startOp_eq]

@[simp] theorem startOp_recorder (s : State) (op : ArrayOp) : (startOp s op).recorder = s.recorder := by rw [startOp_eq]

@[simp] theorem startOp_mem (s : State) (op : ArrayOp) : (startOp s op).mem = s.mem := by rw [startOp_eq]

/-! ## What a grant marks, by requester -/

@[simp] theorem lineRead_requester (r : Requester) (line : LineNo) : (lineRead r line).requester = r := rfl

@[simp] theorem lineWrite_requester (r : Requester) (verified : Bool) (line : LineNo) (data : LineData)
    (enables : ByteSet) : (lineWrite r verified line data enables).requester = r := rfl

@[simp] theorem markGranted_postedDrain (s : State) (k : Fin 32) (w : WindowIndex) (i : Initiator) :
    markGranted s (.postedDrain k w i) = setEntryState s k .writing := rfl

@[simp] theorem markGranted_inPlaceWrite (s : State) (k : Fin 32) (w : WindowIndex) (i : Initiator) :
    markGranted s (.inPlaceWrite k w i) = setEntryState s k .writing := rfl

@[simp] theorem markGranted_shutdownRecord (s : State) : markGranted s .shutdownRecord = spendBudget s := rfl

@[simp] theorem markGranted_shutdownDrain (s : State) (k : Fin 32) (w : WindowIndex) (i : Initiator) :
    markGranted s (.shutdownDrain k w i) = spendBudget (setEntryState s k .writing) := rfl

@[simp] theorem markGranted_shutdownProgress (s : State) (n : Nat) :
    markGranted s (.shutdownProgress n) = spendBudget s := rfl

@[simp] theorem markGranted_journalRecord (s : State) : markGranted s .journalRecord = s := rfl

@[simp] theorem markGranted_retiringProgress (s : State) : markGranted s .retiringProgress = s := rfl

@[simp] theorem markGranted_storeLayoutLine (s : State) (n : Nat) : markGranted s (.storeLayoutLine n) = s := rfl

@[simp] theorem markGranted_formatLine (s : State) (n : Nat) : markGranted s (.formatLine n) = s := rfl

@[simp] theorem markGranted_startRead (s : State) (n : Nat) : markGranted s (.startRead n) = s := rfl

@[simp] theorem markGranted_scanRead (s : State) (q : Seq) (n : Nat) : markGranted s (.scanRead q n) = s := rfl

@[simp] theorem markGranted_replayWrite (s : State) (q : Seq) (n : Nat) : markGranted s (.replayWrite q n) = s := rfl

@[simp] theorem markGranted_recoveryProgress (s : State) (q : Seq) (replay : Bool) (n : Nat) :
    markGranted s (.recoveryProgress q replay n) = s := rfl

@[simp] theorem spendBudget_shutdown (s : State) :
    (spendBudget s).shutdown = { s.shutdown with budget := s.shutdown.budget - 1 } := rfl

@[simp] theorem spendBudget_queue (s : State) : (spendBudget s).queue = s.queue := rfl

@[simp] theorem spendBudget_access (s : State) : (spendBudget s).access = s.access := rfl

@[simp] theorem setEntryState_shutdown (s : State) (k : Fin 32) (st : EntryState) :
    (setEntryState s k st).shutdown = s.shutdown := rfl

@[simp] theorem setEntryState_access (s : State) (k : Fin 32) (st : EntryState) :
    (setEntryState s k st).access = s.access := rfl

@[simp] theorem setStage_shutdown (s : State) (g : ShutdownStage) :
    (setStage s g).shutdown = { s.shutdown with stage := g } := rfl

@[simp] theorem setStage_control (s : State) (g : ShutdownStage) : (setStage s g).control = s.control := rfl

/-! ## The end of a handling outside RUN and HALTED -/

/-- Outside RUN and HALTED no group is taken and no FLUSH or handover completes; no drain requests, so the pass-over count
is 0, and the port is driven (R35, R86, R114, R119). -/
theorem settle_of_not_serving {s : State} (idle : serving s = false) :
    settle s = drivePort (s.setPort { s.port with passOver := 0 }) := by
  have taken : takeNextGroup s = s := by simp [takeNextGroup, idle]
  have flushed : flushCheck s = s := by simp [flushCheck, idle]
  have handed : handoverCheck s = s := by simp [handoverCheck, idle]
  have cleared : clearPassOver s = s.setPort { s.port with passOver := 0 } := by simp [clearPassOver, requestsOf, idle]
  rw [settle, taken, flushed, handed, cleared]

theorem serving_of_mode {s : State} {m : Mode} (mode : s.control.mode = m) (outside : m ≠ .run ∧ m ≠ .halted) :
    serving s = false := by
  simp [serving, mode, outside]

/-- Outside RUN and HALTED a busy port keeps its operation, and nothing but the pass-over count changes. -/
theorem settle_of_busy {s : State} (idle : serving s = false) (busy : s.port.op.isSome = true) :
    settle s = s.setPort { s.port with passOver := 0 } := by
  obtain ⟨op, inFlight⟩ := Option.isSome_iff_exists.mp busy
  rw [settle_of_not_serving idle, drivePort_of_busy (op := op) (by simpa using inFlight)]

/-- ENDED starts nothing: only the pass-over count changes (R143). -/
theorem settle_of_ended {s : State} (mode : s.control.mode = .ended) :
    settle s = s.setPort { s.port with passOver := 0 } := by
  rw [settle_of_not_serving (serving_of_mode mode (by decide))]
  cases hop : s.port.op <;> simp [drivePort, hop, mode]

/-- In SHUTDOWN a free port lets the sequencer go on (R89). -/
theorem settle_of_shutdown {s : State} (mode : s.control.mode = .shutdown) (free : s.port.op = none) :
    settle s = advanceShutdown (s.setPort { s.port with passOver := 0 }) := by
  rw [settle_of_not_serving (serving_of_mode mode (by decide))]
  simp [drivePort, free, mode]

/-! ## Entry to STARTING -/

/-- The start values with the first control-area read granted: its step is presented where the ready input is asserted (R82,
R120, R121). -/
theorem startOp_startValues (pins : Pins) (mem : Memory) (session : Session) (free : Nat) (pending : List Instr) :
    startOp (State.startValues pins mem session free pending)
        (startReadOp (State.startValues pins mem session free pending)) =
      { State.startValues { pins with arrayReady := false } mem session free pending with
        port :=
          { op := some { lineRead (.startRead 0) 0 with presented := pins.arrayReady }, passOver := 0 } } := by
  rw [startOp_eq]
  rfl

/-- With both supply lines high the entry to STARTING leaves the state `startedFrom` describes (R120, R143). -/
theorem enterStarting_eq {s : State} (good : supplyGood s = true) :
    enterStarting s = startedFrom s s.pins.mselN s.pins.arrayReady s.session := by
  obtain ⟨pfw, crst⟩ : s.pins.pfwN = true ∧ s.pins.crstN = true := by simpa [supplyGood] using good
  have started := startOp_startValues s.pins s.mem s.session s.free s.pending
  rw [enterStarting, started, pfw, crst]
  rfl

/-- What the entry to STARTING keeps is all that it depends on: the lines, the memory, the session, the counter of free values
and the queue (R120, R163). -/
theorem enterStarting_congr {s t : State} (pins : t.pins = s.pins) (mem : t.mem = s.mem) (session : t.session = s.session)
    (free : t.free = s.free) (pending : t.pending = s.pending) : enterStarting t = enterStarting s := by
  rw [enterStarting, enterStarting, pins, mem, session, free, pending]

/-- With both supply lines high the end of the sequence leads to STARTING at once (R143). -/
theorem endShutdown_restarts {s : State} (mode : s.control.mode = .shutdown) (good : supplyGood s = true) :
    endShutdown s = startedFrom s s.pins.mselN s.pins.arrayReady s.session := by
  rw [endShutdown_eq mode, ← enterStarting_eq good]
  simp only [good, if_true]
  apply enterStarting_congr <;> simp [raise, endWork, releaseEngine, endCopyWrite]

/-- With a supply line low the sequence ends in ENDED (R140, R143). -/
theorem endShutdown_low {s : State} (mode : s.control.mode = .shutdown) (low : supplyGood s = false) :
    endShutdown s = raise (((endWork s).setShutdown { s.shutdown with stage := .done }).setControl
      { s.control with mode := .ended }) .mode := by
  rw [endShutdown_eq mode, low]
  rfl

/-- What the end of the sequence in ENDED leaves of the blocks (R58, R101, R143). -/
structure Ended (s t : State) : Prop where
  pins : t.pins = s.pins
  mem : t.mem = s.mem
  layout : t.layout = s.layout
  queue : t.queue = s.queue
  groups : t.groups = s.groups
  port : t.port = s.port
  access : t.access = s.access
  confinement : t.confinement = s.confinement
  writer : t.writer = { s.writer with copyWrite := none }
  engine : t.engine = JournalEngine.idle s.engine.journalPending
  control : t.control = { s.control with mode := .ended }
  recorder : t.recorder = { s.recorder with pendingEvents := { s.recorder.pendingEvents with mode := true } }
  shutdown : t.shutdown = { s.shutdown with stage := .done }

theorem endShutdown_ended {s : State} (mode : s.control.mode = .shutdown) (low : supplyGood s = false) :
    Ended s (endShutdown s) := by
  rw [endShutdown_low mode low]
  constructor <;> simp [raise, EventSet.put, endWork, releaseEngine, endCopyWrite]

/-- With a supply line low the end of the sequence records nothing (R140, R143). -/
theorem endShutdown_noIncident {s : State} (mode : s.control.mode = .shutdown) (low : supplyGood s = false) :
    NoIncident s (endShutdown s) := by
  have ended := (endShutdown_ended mode low).recorder
  rw [NoIncident, ended]
  exact ⟨rfl, rfl, rfl⟩

/-! ## Entry to SHUTDOWN -/

/-- The entry to SHUTDOWN leaves a long command but RESTART abandoned (R118). -/
theorem abandonLong_eq (s : State) : abandonLong s =
    if s.control.longCommand = none ∨ s.control.longCommand = some .restart then s else completeLong s .abandoned := by
  cases long : s.control.longCommand with
  | none => simp [abandonLong, long]
  | some c => by_cases restart : c = .restart <;> simp [abandonLong, long, restart]

/-- What the entry to SHUTDOWN leaves of the blocks it touches, from a mode that the sequence has not reached yet (R89, R118,
R134, R135). -/
structure Entered (s t : State) : Prop where
  control : t.control =
    if s.control.longCommand = none ∨ s.control.longCommand = some .restart then
      { s.control with configRequest := false, mode := .shutdown }
    else { s.control with configRequest := false, mode := .shutdown, longCommand := none, lastResult := some .abandoned }
  recorder : t.recorder =
    { s.recorder with
      pendingEvents :=
        { s.recorder.pendingEvents with
          mode := true
          commandDone := s.recorder.pendingEvents.commandDone ||
            !decide (s.control.longCommand = none ∨ s.control.longCommand = some .restart) } }
  access : t.access = if s.access.held.isSome then { held := none, answer := some .refuse } else s.access
  queue : t.queue =
    { s.queue with entries := s.queue.entries.map (fun e => { e with flushMark := false }), outstanding := 0 }
  groups : t.groups = { s.groups with flushTarget := none }
  writer : t.writer =
    { s.writer with
      format := none, copyWrite := if s.control.mode = .config then none else s.writer.copyWrite }
  recovery : t.recovery = none
  start : t.start = { lines := [], waiting := false }
  shutdown : t.shutdown =
    { origin := originOf s.control.mode
      budget := s.layout.settings.budget.toNat - (if writeInFlight s then 1 else 0)
      stage := .finishing, plan := none, postedAbandoned := 0, groupsAbandoned := 0 }
  port : t.port = { s.port with passOver := 0 }
  engine : t.engine = s.engine
  layout : t.layout = s.layout
  pins : t.pins = s.pins
  mem : t.mem = s.mem
  session : t.session = s.session
  free : t.free = s.free
  pending : t.pending = s.pending

theorem originOf_config (m : Mode) : originOf m = .config ↔ m = .config := by
  cases m <;> simp [originOf]

theorem enterShutdown_entered {s : State} (outside : s.control.mode ≠ .shutdown) : Entered s (enterShutdown s) := by
  have moved := changeMode_of_ne (s := s.setControl { s.control with configRequest := false }) (m := .shutdown) outside
  rw [enterShutdown, moved]
  simp only [originOf_config, abandonLong_eq, refuseHeld]
  cases held : s.access.held with
  | none =>
    by_cases stays : s.control.longCommand = none ∨ s.control.longCommand = some .restart <;>
      by_cases config : s.control.mode = .config <;>
        constructor <;>
          simp [raise, EventSet.put, completeLong, clearFlushMarks, endCopyWrite, held, stays, config]
  | some h =>
    by_cases stays : s.control.longCommand = none ∨ s.control.longCommand = some .restart <;>
      by_cases config : s.control.mode = .config <;>
        constructor <;>
          simp [raise, EventSet.put, completeLong, clearFlushMarks, endCopyWrite, finishAccess, held, stays, config]

end Sys2Proof.Machine
end

section
/-! The shutdown sequence from its start: the supply lines, POWER_ON and RESTART (R118, R120, R134 to R143, R175). -/

namespace Sys2Proof.Machine

/-! ## The stages while the sequence goes on -/

/-- The sequence goes on with an operation in flight: the mode, the events, the incidents, the access and the origin stay. -/
structure SequenceRuns (s t : State) : Prop where
  control : t.control = s.control
  recorder : t.recorder = s.recorder
  access : t.access = s.access
  confinement : t.confinement = s.confinement
  origin : t.shutdown.origin = s.shutdown.origin
  busy : t.port.op.isSome = true

/-- The grant of one of the sequencer's operations. -/
theorem startOp_runs {s : State} {op : ArrayOp} (access : (markGranted s op.requester).access = s.access)
    (origin : (markGranted s op.requester).shutdown.origin = s.shutdown.origin) : SequenceRuns s (startOp s op) := by
  constructor <;> simp [access, origin]

theorem SequenceRuns.of_same {s u t : State} (h : SequenceRuns u t) (control : u.control = s.control)
    (recorder : u.recorder = s.recorder) (access : u.access = s.access) (confinement : u.confinement = s.confinement)
    (origin : u.shutdown.origin = s.shutdown.origin) : SequenceRuns s t :=
  ⟨h.control.trans control, h.recorder.trans recorder, h.access.trans access, h.confinement.trans confinement,
    h.origin.trans origin, h.busy⟩

/-- What the final progress copy says (R139, R141). -/
def finalContent (s : State) : ProgressContent :=
  { state := if s.shutdown.postedAbandoned = 0 ∧ s.shutdown.groupsAbandoned = 0 then .clean else .short
    postedAbandoned := BitVec.ofNat 8 s.shutdown.postedAbandoned
    groupsAbandoned := BitVec.ofNat 8 s.shutdown.groupsAbandoned
    retiredThrough := s.writer.retiredThrough }

/-- The final progress copy as it begins (R99, R139). -/
def finalCopy (s : State) : CopyWrite :=
  { content := .progress (finalContent s), target := targetCopy s.writer.newestProgress
    generation := nextGeneration s.writer.newestProgress s.writer.progressGeneration, written := 0 }

/-- Stage PROGRESS begins with the grant of the first line of the copy (R139). -/
theorem startFinalProgress_eq (s : State) :
    startFinalProgress s =
      startOp ((setStage s .progress).setWriter { s.writer with copyWrite := some (finalCopy s) })
        (lineWrite (.shutdownProgress 0) false (copyLineNo (finalCopy s) 0) (copyLineData (finalCopy s) 0) 0xFF) := by
  have content : (if (s.shutdown.postedAbandoned == 0 && s.shutdown.groupsAbandoned == 0) = true then ShutdownState.clean
      else .short) = (finalContent s).state := by
    simp [finalContent]
  unfold startFinalProgress
  simp only [content]
  rfl

theorem startFinalProgress_runs (s : State) : SequenceRuns s (startFinalProgress s) := by
  rw [startFinalProgress_eq]
  exact (startOp_runs rfl rfl).of_same rfl rfl rfl rfl rfl

/-- A new copy goes to the copy that is not the newest (R99). -/
theorem targetCopy_ne (newest : Option Copy) : some (targetCopy newest) ≠ newest := by
  obtain _ | _ | _ := newest <;> decide

theorem nextGeneration_eq (newest : Option Copy) (generation : BitVec 32) :
    nextGeneration newest generation = if newest = none then 1 else generation + 1 := by
  cases newest <;> rfl

/-- Where the first line of a progress copy stands (R93). -/
theorem copyLineNo_final (s : State) :
    (copyLineNo (finalCopy s) 0 = 0x20 ∧ s.writer.newestProgress ≠ some .a) ∨
      (copyLineNo (finalCopy s) 0 = 0x22 ∧ s.writer.newestProgress = some .a) := by
  have line : copyLineNo (finalCopy s) 0 = progressCopyBase (targetCopy s.writer.newestProgress) := BitVec.add_zero _
  rw [line]
  obtain newest | _ | _ := s.writer.newestProgress <;> decide

/-- The final progress copy has begun once stage PROGRESS has (R139). -/
theorem startFinalProgress_begun {s : State} (mode : s.control.mode = .shutdown) :
    FinalCopyBegun s (startFinalProgress s) (finalContent s) ∧
      (startFinalProgress s).shutdown.budget = s.shutdown.budget - 1 := by
  rw [startFinalProgress_eq]
  refine ⟨⟨by simp [mode], by simp, ⟨finalCopy s, by simp, rfl, rfl, targetCopy_ne _, nextGeneration_eq _ _⟩, ?_⟩, by simp⟩
  exact ⟨_, congrArg ArrayPort.op (startOp_port _ _), rfl, rfl, rfl, copyLineNo_final s⟩

/-- Stage DRAIN has another entry to write, or the final copy begins (R138). -/
theorem drainStage_runs (s : State) : SequenceRuns s (drainStage s) := by
  unfold drainStage
  dsimp only
  split
  · exact (startOp_runs rfl rfl).of_same rfl rfl rfl rfl rfl
  · exact (startFinalProgress_runs _).of_same rfl rfl rfl rfl rfl

/-- Under CONTINUE the record's next line is written, and after the last one stage DRAIN follows (R137). -/
theorem continueGroup_runs (s : State) : SequenceRuns s (continueGroup s) := by
  unfold continueGroup
  split
  next op next =>
    have requester : op.requester = .shutdownRecord := recordOp_requester next
    exact startOp_runs (by rw [requester]; rfl) (by rw [requester]; rfl)
  next => exact drainStage_runs s

/-! ## What follows the entry to SHUTDOWN -/

theorem takeShutdownCause_of_working {s : State} (shutdown : s.control.mode ≠ .shutdown) (ended : s.control.mode ≠ .ended) :
    takeShutdownCause s = enterShutdown s := by
  unfold takeShutdownCause
  cases mode : s.control.mode <;> simp_all

theorem takeShutdownCause_of_stopped {s : State} (mode : s.control.mode = .shutdown ∨ s.control.mode = .ended) :
    takeShutdownCause s = s := by
  unfold takeShutdownCause
  rcases mode with mode | mode <;> rw [mode]

/-- A pass-over count of 0 stays. -/
theorem setPort_of_passOver {s : State} (zero : s.port.passOver = 0) :
    s.setPort { s.port with passOver := 0 } = s := by
  rw [← zero]
  rfl

theorem Entered.mode {s t : State} (h : Entered s t) : t.control.mode = .shutdown := by
  rw [h.control]
  split <;> rfl

theorem Entered.noIncident {s t : State} (h : Entered s t) : NoIncident s t := by
  rw [NoIncident, h.recorder]
  exact ⟨rfl, rfl, rfl⟩

theorem Entered.supplyGood {s t : State} (h : Entered s t) : supplyGood t = supplyGood s := by
  rw [Machine.supplyGood, Machine.supplyGood, h.pins]

/-- The entry to SHUTDOWN in the words of the statements (R118, R134, R135). -/
theorem Entered.shutdownEntered {s t : State} (h : Entered s t) : ShutdownEntered s t where
  mode := h.mode
  event := by rw [h.recorder]
  request := by rw [h.control]; split <;> rfl
  origin := by rw [h.shutdown]; cases mode : s.control.mode <;> simp [originOf]
  budget := by rw [h.shutdown]
  stage := by rw [h.shutdown]
  plan := by rw [h.shutdown]
  counts := by rw [h.shutdown]; exact ⟨rfl, rfl⟩
  held := by rw [h.access]; cases held : s.access.held <;> simp [held]
  refused := fun held => by rw [h.access, if_pos held]
  marks := by rw [h.queue]
  outstanding := by rw [h.queue]
  target := by rw [h.groups]
  groups := by rw [h.groups]
  recovery := h.recovery
  format := by rw [h.writer]
  operation := by rw [h.port]
  passOver := by rw [h.port]
  layout := h.layout
  incidents := h.noIncident

/-- With an operation in flight the part waits for it in SHUTDOWN (R89). -/
theorem settle_entered_busy {s t : State} (h : Entered s t) (busy : s.port.op.isSome = true) : settle t = t := by
  rw [settle_of_busy (serving_of_mode h.mode (by decide)) (by rw [h.port]; exact busy),
    setPort_of_passOver (by rw [h.port])]

/-- With the port free the sequence goes on at once (R135, R141, R142). -/
theorem settle_entered_free {s t : State} (h : Entered s t) (free : s.port.op = none) : settle t = afterFinishing t := by
  rw [settle_of_shutdown h.mode (by rw [h.port]; exact free), setPort_of_passOver (by rw [h.port]), advanceShutdown,
    h.shutdown]

theorem endCopyWrite_noIncident (s : State) : NoIncident s (endCopyWrite s) := ⟨rfl, rfl, rfl⟩

/-- The sequence that has nothing to do ends, with the long command kept (R141 to R143). -/
theorem endShutdown_entered {s t : State} (h : Entered s t) (free : s.port.op = none) :
    let u := endShutdown (endCopyWrite t)
    (Machine.supplyGood s = true → u = startedFrom t t.pins.mselN t.pins.arrayReady t.session) ∧
      (Machine.supplyGood s = false → EndedAtRest u ∧ NoIncident s u ∧ u.control.longCommand = t.control.longCommand) := by
  have mode : (endCopyWrite t).control.mode = .shutdown := h.mode
  have good : Machine.supplyGood (endCopyWrite t) = Machine.supplyGood s := h.supplyGood
  refine ⟨fun high => ?high, fun low => ⟨?rests, ?silent, ?long⟩⟩
  case high =>
    rw [endShutdown_restarts mode (good.trans high)]
    rfl
  case rests => exact endShutdown_rests mode (good.trans low) (by show t.port.op = none; rw [h.port]; exact free)
  case silent =>
    exact (h.noIncident.trans (endCopyWrite_noIncident t)).trans (endShutdown_noIncident mode (good.trans low))
  case long =>
    rw [(endShutdown_ended mode (good.trans low)).control]
    rfl

end Sys2Proof.Machine
end

section
/-! The statements on POWER_ON, the supply lines and RESTART (R118, R120, R134 to R143, R175). -/

namespace Sys2Proof.Machine

/-! ## With the port free, by origin -/

theorem FinalCopyBegun.of_writer {s u t : State} {p : ProgressContent} (h : FinalCopyBegun u t p)
    (newest : u.writer.newestProgress = s.writer.newestProgress)
    (generation : u.writer.progressGeneration = s.writer.progressGeneration) : FinalCopyBegun s t p := by
  rw [FinalCopyBegun, CopyBegun, newest, generation] at h
  exact h

/-- The end of FINISHING from STARTING, RECOVERING and UNFORMATTED (R142). -/
theorem afterFinishing_none {s : State} (origin : s.shutdown.origin = .none) :
    afterFinishing s = endShutdown (endCopyWrite s) := by
  have kept : (endCopyWrite s).shutdown.origin = .none := origin
  unfold afterFinishing
  simp only [kept]

/-- The end of FINISHING from CONFIG (R141). -/
theorem afterFinishing_config {s : State} (origin : s.shutdown.origin = .config) :
    afterFinishing s =
      if s.writer.formatIncomplete = true ∨ s.shutdown.budget < 2 then endShutdown (endCopyWrite s)
      else startFinalProgress (endCopyWrite s) := by
  have kept : (endCopyWrite s).shutdown.origin = .config := origin
  unfold afterFinishing
  simp only [kept, Bool.or_eq_true, decide_eq_true_eq]
  rfl

/-- The end of FINISHING from RUN and HALTED (R135). -/
theorem afterFinishing_full {s : State} (origin : s.shutdown.origin = .full) :
    afterFinishing s =
      if (planGroups (endCopyWrite s)).shutdown.plan = some .continue then continueGroup (planGroups (endCopyWrite s))
      else drainStage (planGroups (endCopyWrite s)) := by
  have kept : (endCopyWrite s).shutdown.origin = .full := origin
  unfold afterFinishing
  simp only [kept]

/-- From STARTING, RECOVERING and UNFORMATTED nothing is written (R142). -/
theorem settle_entered_none {s t : State} (h : Entered s t) (free : s.port.op = none)
    (origin : originOf s.control.mode = .none) : settle t = endShutdown (endCopyWrite t) := by
  rw [settle_entered_free h free, afterFinishing_none (by rw [h.shutdown]; exact origin)]

/-- From CONFIG with FORMAT incomplete or the budget below 2 nothing is written (R141). -/
theorem settle_entered_config_ends {s t : State} (h : Entered s t) (free : s.port.op = none)
    (config : s.control.mode = .config)
    (stop : s.writer.formatIncomplete = true ∨ s.layout.settings.budget.toNat < 2) :
    settle t = endShutdown (endCopyWrite t) := by
  have idle : writeInFlight s = false := by simp [writeInFlight, free]
  rw [settle_entered_free h free, afterFinishing_config (by rw [h.shutdown, config]; rfl), if_pos]
  simpa [h.shutdown, h.writer, idle] using stop

/-- From CONFIG otherwise the final CLEAN copy begins (R141). -/
theorem settle_entered_config_runs {s t : State} (h : Entered s t) (free : s.port.op = none)
    (config : s.control.mode = .config) (complete : s.writer.formatIncomplete = false)
    (enough : 2 ≤ s.layout.settings.budget.toNat) :
    SequenceRuns t (settle t) ∧ FinalCopyBegun s (settle t) (progressOf .clean s.writer.retiredThrough) ∧
      (settle t).shutdown.budget = s.layout.settings.budget.toNat - 1 := by
  have idle : writeInFlight s = false := by simp [writeInFlight, free]
  have follows : settle t = startFinalProgress (endCopyWrite t) := by
    rw [settle_entered_free h free, afterFinishing_config (by rw [h.shutdown, config]; rfl), if_neg]
    simpa [h.shutdown, h.writer, idle, complete, Nat.succ_le_iff] using enough
  have content : finalContent (endCopyWrite t) = progressOf .clean s.writer.retiredThrough := by
    simp [finalContent, endCopyWrite, h.shutdown, h.writer, progressOf]
  have budget : (endCopyWrite t).shutdown.budget = s.layout.settings.budget.toNat := by
    simp [endCopyWrite, h.shutdown, idle]
  obtain ⟨begun, spent⟩ := startFinalProgress_begun (s := endCopyWrite t) h.mode
  rw [follows]
  rw [content] at begun
  exact ⟨(startFinalProgress_runs _).of_same rfl rfl rfl rfl rfl,
    begun.of_writer (by rw [endCopyWrite, State.setWriter_writer, h.writer])
      (by rw [endCopyWrite, State.setWriter_writer, h.writer]), spent.trans (by rw [budget])⟩

/-- What the group plan leaves as it was. -/
theorem planGroups_keeps (s : State) :
    (planGroups s).control = s.control ∧ (planGroups s).recorder = s.recorder ∧ (planGroups s).access = s.access ∧
      (planGroups s).confinement = s.confinement ∧ (planGroups s).shutdown.origin = s.shutdown.origin := by
  unfold planGroups
  dsimp only
  split <;> exact ⟨rfl, rfl, rfl, rfl, rfl⟩

/-- From RUN and HALTED the sequence has its first operation in flight (R135 to R139). -/
theorem afterFinishing_runs {s : State} (origin : s.shutdown.origin = .full) : SequenceRuns s (afterFinishing s) := by
  obtain ⟨control, recorder, access, confinement, kept⟩ := planGroups_keeps (endCopyWrite s)
  have planned : SequenceRuns (planGroups (endCopyWrite s)) (afterFinishing s) := by
    rw [afterFinishing_full origin]
    split
    · exact continueGroup_runs _
    · exact drainStage_runs _
  exact planned.of_same control recorder access confinement kept

theorem settle_entered_full {s t : State} (h : Entered s t) (free : s.port.op = none) (mode : serving s = true) :
    SequenceRuns t (settle t) ∧ t.shutdown.origin = .full := by
  have origin : t.shutdown.origin = .full := by
    rw [h.shutdown]
    rcases (by simpa [serving] using mode : s.control.mode = .run ∨ s.control.mode = .halted) with m | m <;> rw [m] <;> rfl
  rw [settle_entered_free h free]
  exact ⟨afterFinishing_runs origin, origin⟩

/-! ## POWER_ON -/

/-- Settles O12. -/
theorem powerOnEntersStarting : Obligations.PowerOnEntersStarting := by
  refine ⟨fun mselN ready s => ?high, fun pfwN crstN mselN ready s low => ?low⟩
  case high =>
    have started := startOp_startValues { pfwN := true, crstN := true, mselN := mselN, arrayReady := ready } s.mem
      Session.idle s.free s.pending
    exact congrArg Host.Outcome.next started
  case low =>
    let fresh := State.startValues { pfwN := pfwN, crstN := crstN, mselN := mselN, arrayReady := ready } s.mem Session.idle
      s.free s.pending
    obtain ⟨t, entry, entered⟩ : ∃ t, takeShutdownCause fresh = t ∧ Entered fresh t :=
      ⟨_, rfl, enterShutdown_entered Mode.noConfusion⟩
    have up : powerUp s fresh.pins = settle t := entry ▸ if_neg (Bool.eq_false_iff.mp low)
    rw [settle_entered_none entered rfl rfl] at up
    have ended := endShutdown_ended (s := endCopyWrite t) entered.mode (entered.supplyGood.trans low)
    rw [← up] at ended
    refine ⟨_, rfl, ?mode, ?port, ended.pins.trans entered.pins, ended.mem.trans entered.mem, ?incidents, ?event, ?entries,
      ended.layout.trans entered.layout, ?stage⟩
    case mode => exact congrArg ModeController.mode ended.control
    case port => exact (congrArg ArrayPort.op ended.port).trans (congrArg ArrayPort.op entered.port)
    case incidents => exact (congrArg IncidentRecorder.incidents ended.recorder).trans entered.noIncident.1
    case event => exact congrArg (fun r : IncidentRecorder => r.pendingEvents.mode) ended.recorder
    case entries => exact (congrArg PostingQueue.entries ended.queue).trans (congrArg PostingQueue.entries entered.queue)
    case stage => exact congrArg ShutdownSequencer.stage ended.shutdown

/-! ## The supply lines -/

/-- One supply line takes a level: the pins change alone. -/
theorem setLine_eq (s : State) (line : SupplyLine) (level : Bool) :
    ∃ pins, setLine s line level = s.setPins pins := by
  cases line <;> exact ⟨_, rfl⟩

theorem lineLevel_setLine (s : State) (line : SupplyLine) (level : Bool) :
    lineLevel (setLine s line level) line = level ∧
      lineLevel (setLine s line level) (otherLine line) = lineLevel s (otherLine line) := by
  cases line <;> exact ⟨rfl, rfl⟩

/-- A line that has the level already keeps it. -/
theorem setLine_of_level {s : State} {line : SupplyLine} {level : Bool} (same : lineLevel s line = level) :
    setLine s line level = s := by
  subst same
  cases line <;> rfl

theorem supplyGood_setLine (s : State) (line : SupplyLine) :
    supplyGood (setLine s line true) = lineLevel s (otherLine line) := by
  cases line
  · exact Bool.true_and _
  · exact Bool.and_true _

theorem lineLevel_of_outer {s t : State} (h : outer t = outer s) (line : SupplyLine) :
    lineLevel t line = lineLevel s line := by
  cases line
  · exact pfwN_of_outer h
  · exact crstN_of_outer h

theorem exec_fallOf (line : SupplyLine) (s : State) : exec (fallOf line) s = handle s (fun s => lineFall s line) := by
  cases line <;> rfl

theorem exec_risesOf {line : SupplyLine} {c : Instr} (rise : c ∈ risesOf line) (s : State) :
    exec c s = handle s (fun s => lineRise s line) := by
  cases line with
  | pfwN =>
    rcases (by simpa [risesOf] using rise : c = .pfwNRise ∨ c = .leaveEnded .pfwN) with rfl | rfl <;> rfl
  | crstN =>
    rcases (by simpa [risesOf] using rise : c = .crstNRise ∨ c = .leaveEnded .crstN) with rfl | rfl <;> rfl

/-- A falling edge is a cause of shutdown taken with the line low (R134). -/
theorem exec_fall {line : SupplyLine} {s : State} (powered : s.powered = true) (high : lineLevel s line = true) :
    exec (fallOf line) s = .next (settle (takeShutdownCause (setLine s line false))) := by
  rw [exec_fallOf, handle_of_powered powered, lineFall, if_pos high]

/-- What a falling edge leaves of the lines and the memory. -/
theorem fall_outer (s : State) (line : SupplyLine) :
    let t := settle (takeShutdownCause (setLine s line false))
    lineLevel t line = false ∧ lineLevel t (otherLine line) = lineLevel s (otherLine line) ∧ t.mem = s.mem := by
  have kept : outer (settle (takeShutdownCause (setLine s line false))) = outer (setLine s line false) := by simp
  obtain ⟨low, other⟩ := lineLevel_setLine s line false
  exact ⟨(lineLevel_of_outer kept line).trans low, (lineLevel_of_outer kept _).trans other,
    (mem_of_outer kept).trans (setLine_untouched s line false).2⟩

/-- The entry to SHUTDOWN by a falling edge. -/
theorem fall_entered {s : State} {line : SupplyLine} (shutdown : s.control.mode ≠ .shutdown)
    (ended : s.control.mode ≠ .ended) :
    ∃ pins, Entered (s.setPins pins) (takeShutdownCause (setLine s line false)) := by
  obtain ⟨pins, low⟩ := setLine_eq s line false
  refine ⟨pins, ?_⟩
  rw [low, takeShutdownCause_of_working (s := s.setPins pins) shutdown ended]
  exact enterShutdown_entered shutdown

/-- The entry looks at neither the pins nor the long command. -/
theorem ShutdownEntered.of_same {s u t : State} (h : ShutdownEntered u t) (mode : u.control.mode = s.control.mode)
    (layout : u.layout = s.layout) (port : u.port = s.port) (access : u.access = s.access) (queue : u.queue = s.queue)
    (groups : u.groups = s.groups) (recorder : u.recorder = s.recorder) : ShutdownEntered s t where
  mode := h.mode
  event := h.event
  request := h.request
  origin := by rw [h.origin, mode]
  budget := by rw [h.budget, layout, writeInFlight, port]; rfl
  stage := h.stage
  plan := h.plan
  counts := h.counts
  held := h.held
  refused := fun held => h.refused (by rw [access]; exact held)
  marks := by rw [h.marks, queue]
  outstanding := h.outstanding
  target := h.target
  groups := by rw [h.groups, groups]
  recovery := h.recovery
  format := h.format
  operation := by rw [h.operation, port]
  passOver := h.passOver
  layout := by rw [h.layout, layout]
  incidents := by rw [NoIncident, ← recorder]; exact h.incidents

/-- Settles O13. -/
theorem supplyFallEntersShutdown : Obligations.SupplyFallEntersShutdown := by
  intro line s powered high busy shutdown ended
  obtain ⟨pins, entered⟩ := fall_entered (line := line) shutdown ended
  obtain ⟨low, other, -⟩ := fall_outer s line
  have next := exec_fall powered high
  have waits := settle_entered_busy entered busy
  rw [waits] at next low other
  refine ⟨_, next, entered.shutdownEntered.of_same rfl rfl rfl rfl rfl rfl rfl, low, other,
    fun l long cut => ?abandoned, fun stays => ?kept⟩
  case abandoned =>
    have leaves : ¬(s.control.longCommand = none ∨ s.control.longCommand = some .restart) := by simp [long, cut]
    rw [entered.control, entered.recorder]
    simp [leaves]
  case kept =>
    rw [entered.control]
    simp [stays]

/-- Settles O14. -/
theorem supplyFallWithAFreePort : Obligations.SupplyFallWithAFreePort := by
  intro line s powered high free
  have next := exec_fall powered high
  obtain ⟨low, -, mem⟩ := fall_outer s line
  have supply (pins : Pins) (entered : Entered (s.setPins pins) (takeShutdownCause (setLine s line false))) :
      supplyGood (s.setPins pins) = false := by
    have settled : supplyGood (takeShutdownCause (setLine s line false)) = false := by
      have kept : outer (takeShutdownCause (setLine s line false)) = outer (setLine s line false) := by simp
      rw [supplyGood, pfwN_of_outer kept, crstN_of_outer kept]
      cases line
      · exact Bool.false_and _
      · exact Bool.and_false _
    exact entered.supplyGood.symm.trans settled
  refine ⟨fun mode => ?none, fun mode => ?full, fun mode => ?config⟩
  case none =>
    obtain ⟨pins, entered⟩ := fall_entered (s := s) (line := line) (by rintro m; simp [m] at mode)
      (by rintro m; simp [m] at mode)
    have origin : originOf s.control.mode = .none := by rcases mode with m | m | m <;> rw [m] <;> rfl
    obtain ⟨rests, silent, -⟩ := (endShutdown_entered entered free).2 (supply pins entered)
    rw [← settle_entered_none entered free origin] at rests silent
    exact ⟨_, next, rests.mode, rests.event, rests.operation, low, mem, silent, rests.stage⟩
  case full =>
    have modes : s.control.mode = .run ∨ s.control.mode = .halted := by simpa [serving] using mode
    obtain ⟨pins, entered⟩ := fall_entered (s := s) (line := line) (by rintro m; simp [m] at modes)
      (by rintro m; simp [m] at modes)
    obtain ⟨runs, origin⟩ := settle_entered_full entered free mode
    refine ⟨_, next, (congrArg ModeController.mode runs.control).trans entered.mode, runs.origin.trans origin, runs.busy, low,
      ?_, mem, ?_⟩
    · rw [runs.access]
      exact entered.shutdownEntered.held
    · rw [NoIncident, runs.recorder]
      exact entered.noIncident
  case config =>
    obtain ⟨pins, entered⟩ := fall_entered (s := s) (line := line) (by simp [mode]) (by simp [mode])
    by_cases stop : s.writer.formatIncomplete = true ∨ s.layout.settings.budget.toNat < 2
    · obtain ⟨rests, silent, -⟩ := (endShutdown_entered entered free).2 (supply pins entered)
      rw [← settle_entered_config_ends entered free mode stop] at rests silent
      refine ⟨_, next, low, mem, silent, rests.event, fun _ => rests, fun complete enough => ?_⟩
      rcases stop with incomplete | short
      · simp [incomplete] at complete
      · omega
    · obtain ⟨complete, enough⟩ := not_or.mp stop
      obtain ⟨runs, begun, spent⟩ := settle_entered_config_runs entered free mode (by simpa using complete)
        (Nat.not_lt.mp enough)
      refine ⟨_, next, low, mem, ?_, ?_, fun ends => absurd ends stop, fun _ _ => ⟨begun, ?_, spent⟩⟩
      · rw [NoIncident, runs.recorder]
        exact entered.noIncident
      · rw [runs.recorder]
        exact entered.shutdownEntered.event
      · rw [runs.origin, entered.shutdown]
        exact (originOf_config _).mpr mode

/-- Settles O15. -/
theorem supplyEdgesInShutdownAndEnded : Obligations.SupplyEdgesInShutdownAndEnded := by
  refine ⟨fun line s powered high stopped => ?fall, fun line c s rise powered stays => ?rise,
    fun line c s rise powered ended low other => ?restart⟩
  case fall =>
    obtain ⟨pins, lowered⟩ := setLine_eq s line false
    have same : takeShutdownCause (setLine s line false) = setLine s line false :=
      takeShutdownCause_of_stopped (by rw [lowered]; exact stopped.symm.imp_left And.left)
    rw [exec_fall powered high, same, lowered]
    rcases stopped with ended | ⟨shutdown, busy⟩
    · rw [settle_of_ended (s := s.setPins pins) ended]
      rfl
    · rw [settle_of_busy (s := s.setPins pins) (serving_of_mode (m := .shutdown) shutdown (by decide)) busy]
      rfl
  case rise =>
    rw [exec_risesOf rise, handle_of_powered powered, lineRise]
    by_cases high : lineLevel s line = true
    · rw [if_pos high, setLine_of_level high]
    · obtain ⟨pins, raised⟩ := setLine_eq s line true
      have remains : ¬((setLine s line true).control.mode = .ended ∧ supplyGood (setLine s line true) = true) := by
        rw [supplyGood_setLine, raised]
        rintro ⟨ended, good⟩
        rcases stays with elsewhere | low
        · exact elsewhere ended
        · simp [low] at good
      rw [if_neg high]
      exact congrArg Host.Outcome.next (if_neg remains)
  case restart =>
    have good : supplyGood (setLine s line true) = true := (supplyGood_setLine s line).trans other
    obtain ⟨pins, raised⟩ := setLine_eq s line true
    have high : ¬lineLevel s line = true := by simp [low]
    have starts : (setLine s line true).control.mode = .ended ∧ supplyGood (setLine s line true) = true :=
      ⟨by rw [raised]; exact ended, good⟩
    rw [exec_risesOf rise, handle_of_powered powered, lineRise, if_neg high]
    refine congrArg Host.Outcome.next ((if_pos starts).trans ((enterStarting_eq good).trans ?_))
    cases line <;> rfl

/-! ## RESTART -/

/-- Settles O54: RESTART is taken as a cause of shutdown with itself as the long command in flight. -/
theorem restartIsACauseOfShutdown : Obligations.RestartIsACauseOfShutdown := by
  intro s listening c mode through
  have arm : exec c s = command s 0x3F [] (crc8 [0x3F]) restartRun := rfl
  refine ⟨fun busy => declines_of_run listening arm (status := .busy) (if_pos busy), fun idle => ?accepted⟩
  let u := acceptLong s .restart
  have answered : Answers c s (settle (takeShutdownCause u)) [0x3F] 0x01 [] := by
    have run : restartRun s = (settle (takeShutdownCause u), Reply.bare .accepted) := if_neg (by simp [idle])
    have taken := answers_of_run listening arm
    rw [run] at taken
    exact taken
  have mem : (settle (takeShutdownCause u)).mem = s.mem := mem_of_outer (by simp [u])
  have entry (shutdown : mode ≠ .shutdown) (ended : mode ≠ .ended) : Entered u (takeShutdownCause u) := by
    rw [takeShutdownCause_of_working (s := u) shutdown ended]
    exact enterShutdown_entered shutdown
  have control {t : State} (entered : Entered u t) :
      t.control = { u.control with configRequest := false, mode := .shutdown } :=
    entered.control.trans (if_pos (.inr rfl))
  have ends {t : State} (entered : Entered u t) (free : s.port.op = none) : through (endShutdown (endCopyWrite t)) := by
    obtain ⟨restarts, stops⟩ := endShutdown_entered entered free
    refine ⟨fun good => ?_, fun low => ?_⟩
    · rw [restarts good]
      exact ⟨rfl, rfl, rfl⟩
    · obtain ⟨rests, silent, long⟩ := stops low
      exact ⟨rests, long.trans (by rw [control entered]; rfl), silent⟩
  refine ⟨_, answered, mem, fun busy shutdown ended => ?busy, fun stopped => ?stopped, fun free serves => ?full,
    fun free config => ?config, fun free early => ?early⟩
  case busy =>
    have entered := entry shutdown ended
    rw [settle_entered_busy entered busy, control entered]
    exact ⟨entered.shutdownEntered.of_same rfl rfl rfl rfl rfl rfl rfl, rfl, rfl⟩
  case stopped =>
    have same : takeShutdownCause u = u := takeShutdownCause_of_stopped (stopped.symm.imp_left And.left)
    rw [same]
    rcases stopped with ended | ⟨shutdown, busy⟩
    · rw [settle_of_ended (s := u) ended]
      rfl
    · rw [settle_of_busy (s := u) (serving_of_mode (m := .shutdown) shutdown (by decide)) busy]
      rfl
  case full =>
    have modes : mode = .run ∨ mode = .halted := by simpa [serving] using serves
    have entered := entry (by rintro m; simp [m] at modes) (by rintro m; simp [m] at modes)
    obtain ⟨runs, origin⟩ := settle_entered_full entered free serves
    rw [runs.control, control entered]
    exact ⟨rfl, runs.origin.trans origin, runs.busy, rfl⟩
  case config =>
    have entered := entry (by rw [config]; decide) (by rw [config]; decide)
    refine ⟨fun stop => ?_, fun complete enough => ?_⟩
    · rw [settle_entered_config_ends entered free config stop]
      exact ends entered free
    · obtain ⟨runs, begun, -⟩ := settle_entered_config_runs entered free config complete enough
      refine ⟨begun, ?_, ?_, ?_⟩
      · rw [runs.origin, entered.shutdown]
        exact (originOf_config _).mpr config
      · rw [runs.control, control entered]
        rfl
      · rw [NoIncident, runs.recorder]
        exact entered.noIncident
  case early =>
    have entered := entry (by rintro m; simp [m] at early) (by rintro m; simp [m] at early)
    have origin : originOf u.control.mode = .none := by
      show originOf mode = .none
      rcases early with m | m | m <;> rw [m] <;> rfl
    rw [settle_entered_none entered free origin]
    exact ends entered free

end Sys2Proof.Machine
end

section
/-! What each requester asks for, what the arbiter grants, and that nothing waits between two handlings (R11, R35, R42, R81,
R84 to R86, R93, R132). -/

namespace Sys2Proof.Machine

/-! ## Operations in the words of the statements -/

/-- A line read is asked for as `freshOp` says (R80). -/
theorem lineRead_eq (r : Requester) (line : LineNo) : lineRead r line = freshOp r .lineRead line 0 0 := rfl

/-- A line write is asked for as `freshOp` says, verified or not (R80, R81). -/
theorem lineWrite_eq (r : Requester) (verified : Bool) (line : LineNo) (data : LineData) (enables : ByteSet) :
    lineWrite r verified line data enables = freshOp r (writeKind verified) line data enables := by
  cases verified <;> rfl

/-- Each half of a record has its own line of the journal area (R42). -/
theorem journalHalfLine_eq (base : Addr) (position : Nat) :
    journalHalfLine base position .first = lineOf base + BitVec.ofNat 21 (2 * position) ∧
      journalHalfLine base position .second = lineOf base + BitVec.ofNat 21 (2 * position + 1) := by
  refine ⟨rfl, ?_⟩
  have next : BitVec.ofNat 21 (2 * position + 1) = BitVec.ofNat 21 (2 * position) + 1 := BitVec.ofNat_add _ _
  rw [next, ← BitVec.add_assoc]
  rfl

/-- The next line of a copy write, in the words of the statements (R93, R100). -/
theorem lineWrite_copy (r : Requester) (verified : Bool) (c : CopyWrite) :
    lineWrite r verified (copyLineNo c c.written) (copyLineData c c.written) 0xFF =
      copyLineOp r (writeKind verified) c := by
  rw [lineWrite_eq, copyLineNo, copyLineData, copyLineOp]
  cases c.content <;> cases c.target <;> simp [layoutCopyBase, progressCopyBase]

theorem copyOp_eq (s : State) (r : Nat → Requester) (verified : Bool) :
    copyOp s r verified = s.writer.copyWrite.map (fun c => copyLineOp (r c.written) (writeKind verified) c) := by
  simp only [copyOp, lineWrite_copy]

/-- The next line of a record, in the words of the statements (R42, R47 to R49). -/
theorem recordOp_eq {s : State} {q : Seq} {g : Group} {p : Phase} (carries : Carries s q g p)
    (writes : p = .journaling ∨ p = .marking) (r : Requester) (verified : Bool) :
    recordOp s r verified = recordLineOp s q g p r (writeKind verified) := by
  have found : commitGroup s = some g := by
    rw [commitGroup, carries.inCommit]
    exact carries.record
  have bears : g.sequence = q := by simpa using List.find?_some carries.record
  unfold recordOp recordLineOp
  rw [found]
  rcases writes with rfl | rfl
  · simp only [carries.phase, bears, lineWrite_eq]
    cases s.engine.half <;> simp only [journalHalfLine_eq, recordHalf]
  · simp only [carries.phase, bears, lineWrite_eq]
    cases s.engine.half <;> simp only [journalHalfLine_eq, recordHalf]

/-- FORMAT's line write `k` is the `k`-th of the 40 (R132). -/
theorem formatWrites_line (f : FormatWork) {k : Nat} (inside : k < 40) :
    (formatWrites f.image f.journalBase)[k]? = some (formatLine f k) := by
  by_cases first : k < 8
  · have clean : formatProgress = { state := .clean, postedAbandoned := 0, groupsAbandoned := 0, retiredThrough := 0 } := rfl
    obtain ⟨line2, line3⟩ := journalHalfLine_eq f.journalBase 0
    interval_cases k <;> simp [formatWrites, formatLine, clean, line2, line3, layoutCopyBase, progressCopyBase]
  · obtain ⟨i, rfl⟩ : ∃ i, k = i + 8 := ⟨k - 8, by omega⟩
    have outside : ¬i + 8 = 0 ∧ ¬i + 8 = 1 ∧ ¬i + 8 = 2 ∧ ¬i + 8 = 3 ∧ ¬i + 8 < 6 ∧ ¬i + 8 < 8 := by omega
    by_cases second : i < 16
    · have copyA : i + 8 < 24 := by omega
      simp [formatWrites, formatLine, List.getElem?_append, layoutCopyBase, second, outside, copyA]
    · obtain ⟨j, rfl⟩ : ∃ j, i = j + 16 := ⟨i - 16, by omega⟩
      have copyB : j < 16 := by omega
      simp [formatWrites, formatLine, List.getElem?_append, layoutCopyBase, outside, copyB, BitVec.ofNat_add,
        BitVec.add_comm]

theorem formatOp_eq {f : FormatWork} {x : LineNo × LineData × ByteSet}
    (place : (formatWrites f.image f.journalBase)[f.written]? = some x) :
    formatOp f = freshOp (.formatLine f.written) .verifiedWrite x.1 x.2.1 x.2.2 := by
  have inside : f.written < 40 := by
    have := (List.getElem?_eq_some_iff.mp place).1
    simpa [formatWrites] using this
  rw [formatWrites_line f inside] at place
  cases place
  exact lineWrite_eq _ true _ _ _

/-! ## The requests -/

theorem writerWorks_iff (s : State) : writerWorks s = true ↔ s.control.mode = .config ∨ s.control.mode = .unformatted := by
  simp [writerWorks]

/-- Each requester asks for what its rule names (R84). -/
theorem requestsOf_meets (s : State) : RequestsOf s (requestsOf s) where
  noAccess := by
    intro waits
    cases held : s.access.held with
    | none => simp [requestsOf, controllerOp, held]
    | some h => simp [requestsOf, controllerOp, held, waits h held]
  read := by
    intro h held wait read
    simp [requestsOf, controllerOp, held, wait, read, lineRead_eq, accessLine]
  through := by
    intro h held wait write
    simp [requestsOf, controllerOp, held, wait, write, lineWrite_eq, accessLine]
  notServing := by
    intro idle
    simp [requestsOf, idle]
  drain := by
    intro mode
    simp only [requestsOf, mode, if_true, drainOp, lineWrite_eq]
  noPhase := by
    intro idle
    simp [requestsOf, engineOp, idle]
  records := by
    intro q g p mode carries writes
    have op : engineOp s = recordOp s .journalRecord true := by
      rcases writes with rfl | rfl <;> simp only [engineOp, carries.phase]
    simp only [requestsOf, mode, if_true, op]
    exact recordOp_eq carries writes .journalRecord true
  inPlace := by
    intro q mode inCommit phase
    simp only [requestsOf, mode, if_true, engineOp, phase, inCommit, Option.bind_some, nextInPlace, lineWrite_eq]
  retiring := by
    intro mode phase
    simp only [requestsOf, mode, if_true, engineOp, phase]
    exact copyOp_eq s _ true
  format := by
    intro f x mode format place
    simp only [requestsOf, (writerWorks_iff s).mpr mode, if_true, writerOp, format, formatOp_eq place]
  storeLayout := by
    intro mode format long
    simp only [requestsOf, (writerWorks_iff s).mpr mode, if_true, writerOp, format, long]
    exact copyOp_eq s _ true
  noWriter := by
    rintro (outside | ⟨format, long⟩)
    · have off : writerWorks s = false := by simp [writerWorks, outside]
      simp [requestsOf, off]
    · simp [requestsOf, writerOp, format, long]

/-! ## The grant -/

theorem arbitrate_of_choice {s : State} {op : ArrayOp}
    (choice : arbiterChoice s.port.passOver (freeSlotCount s.queue) (requestsOf s) = some op) :
    arbitrate s = startOp (s.setPort { s.port with passOver := passOverAfter s.port.passOver (requestsOf s) op }) op := by
  unfold arbitrate
  simp only [choice]

theorem arbitrate_of_none {s : State}
    (choice : arbiterChoice s.port.passOver (freeSlotCount s.queue) (requestsOf s) = none) : arbitrate s = s := by
  unfold arbitrate
  simp only [choice]

/-- Only the posted drain's requests are drain writes (R86). -/
theorem isDrainOp_iff (op : ArrayOp) : isDrainOp op = true ↔ ∃ k w i, op.requester = .postedDrain k w i := by
  unfold isDrainOp
  cases op.requester <;> simp

theorem isDrainOp_controller {s : State} {a : ArrayOp} (asks : (requestsOf s).controller = some a) :
    isDrainOp a = false := by
  simp only [requestsOf, controllerOp] at asks
  split at asks
  · cases asks
  · split at asks
    · split at asks <;> cases asks <;> rfl
    · cases asks

/-- The engine requests lines of records, in-place writes and lines of the retiring copy (R84). -/
theorem engine_requester {s : State} {op : ArrayOp} (asks : (requestsOf s).engine = some op) :
    op.requester = .journalRecord ∨ op.requester = .retiringProgress ∨ ∃ k w i, op.requester = .inPlaceWrite k w i := by
  by_cases mode : serving s = true
  · simp only [requestsOf, mode, if_true, engineOp] at asks
    split at asks
    · exact .inl (recordOp_requester asks)
    · exact .inl (recordOp_requester asks)
    · obtain ⟨q, -, op⟩ := Option.bind_eq_some_iff.mp asks
      obtain ⟨e, -, rfl⟩ := Option.map_eq_some_iff.mp op
      exact .inr (.inr ⟨_, _, _, rfl⟩)
    · obtain ⟨c, -, rfl⟩ := Option.map_eq_some_iff.mp asks
      exact .inr (.inl rfl)
    · cases asks
  · simp [requestsOf, mode] at asks

/-- The control area writer requests lines of FORMAT and of STORE_LAYOUT in its own name (R84). -/
theorem writer_requester {s : State} {op : ArrayOp} (asks : (requestsOf s).writer = some op) :
    ∃ n, op.requester = .formatLine n ∨ op.requester = .storeLayoutLine n := by
  by_cases mode : writerWorks s = true
  · simp only [requestsOf, mode, if_true, writerOp] at asks
    split at asks
    · cases asks
      exact ⟨_, .inl rfl⟩
    · split at asks
      · obtain ⟨c, -, rfl⟩ := Option.map_eq_some_iff.mp asks
        exact ⟨_, .inr rfl⟩
      · cases asks
  · simp [requestsOf, mode] at asks

theorem isDrainOp_engine {s : State} {j : ArrayOp} (asks : (requestsOf s).engine = some j) : isDrainOp j = false := by
  rcases engine_requester asks with r | r | ⟨k, w, i, r⟩ <;> simp [isDrainOp, r]

theorem isDrainOp_writer {s : State} {w : ArrayOp} (asks : (requestsOf s).writer = some w) : isDrainOp w = false := by
  obtain ⟨n, r | r⟩ := writer_requester asks <;> simp [isDrainOp, r]

/-- A grant puts the operation into the free port and marks the entry that its write carries (R3, R14, R50, R85). -/
structure Granted (s t : State) (op : ArrayOp) (passOver : Nat) : Prop where
  port : t.port = { op := some { op with presented := s.pins.arrayReady }, passOver := passOver }
  entries : ∀ k w i, op.requester = .postedDrain k w i ∨ op.requester = .inPlaceWrite k w i →
    t.queue.entries = s.queue.entries.map (fun e => if e.slot = k then { e with state := .writing } else e)

theorem granted_of_choice {s : State} {op : ArrayOp}
    (choice : arbiterChoice s.port.passOver (freeSlotCount s.queue) (requestsOf s) = some op) :
    Granted s (arbitrate s) op (passOverAfter s.port.passOver (requestsOf s) op) := by
  rw [arbitrate_of_choice choice]
  refine ⟨startOp_port _ _, fun k w i carries => ?_⟩
  have marks : markedSlot op.requester = some k := by rcases carries with r | r <;> rw [r] <;> rfl
  rw [startOp_queue, markGranted_entries, marks]
  simp [eq_comm]

theorem passOverAfter_drain {s : State} {d : ArrayOp} (asks : (requestsOf s).drain = some d) (p : Nat) :
    passOverAfter p (requestsOf s) d = 0 :=
  if_pos (drainRequest_isDrain asks)

/-- The pass-over count after the grant of another request than the drain's (R86). -/
theorem passOverAfter_other {op : ArrayOp} (other : isDrainOp op = false) (r : Requests) (p : Nat) :
    passOverAfter p r op = if r.drain.isSome then p + 1 else p := by
  simp [passOverAfter, other]

/-! ## What every handling does last -/

theorem drivePort_of_arbiter {s : State} (works : arbiterWorks s) (free : s.port.op = none) :
    drivePort s = if readDue s then s else arbitrate s := by
  unfold drivePort
  rw [free]
  rcases works with m | m | m | m <;> rw [m]

/-- A held read is due where it waits for a WRITING entry and its line has none (R11, log 12). -/
theorem readDue_iff (s : State) : readDue s = true ↔ ∃ h, s.access.held = some h ∧ h.wait = .writingEntry ∧
    ∀ e ∈ s.queue.entries, e.line = lineOf h.access.address → e.state ≠ .writing := by
  unfold readDue heldDue
  cases held : s.access.held with
  | none => simp
  | some h => by_cases wait : h.wait = .writingEntry <;> simp [wait, lineWriting, accessLine]

theorem arbiterWorks_iff (s : State) :
    arbiterWorks s ↔ serving s = true ∨ s.control.mode = .config ∨ s.control.mode = .unformatted := by
  simp only [arbiterWorks, serving, Bool.or_eq_true, beq_iff_eq]
  tauto

/-! ## Nothing waits between two handlings -/

/-- Where the arbiter does not work nothing waits for it. -/
theorem nothingWaits_outside {s : State} (outside : ¬arbiterWorks s) : NothingWaits s := by
  rw [arbiterWorks_iff] at outside
  exact ⟨fun mode => absurd (.inl mode) outside, fun mode => absurd mode outside⟩

/-- The state that a request and a grant look at. -/
def work (s : State) :
    Layout × Option Held × PostingQueue × GroupTracker × JournalEngine × ArrayPort × ControlWriter × ModeController :=
  (s.layout, s.access.held, s.queue, s.groups, s.engine, s.port, s.writer, s.control)

/-- The drain's choice looks at the layout and the entries alone (R13, R14). -/
theorem drainChoice_of_entries {s t : State} (layout : t.layout = s.layout) (entries : t.queue.entries = s.queue.entries) :
    drainChoice t = drainChoice s := by
  have priority : drainPriority t = drainPriority s := funext fun e => by rw [drainPriority, drainPriority, layout]
  have lowest (es : List Entry) : lowestPriority t es = lowestPriority s es := by
    induction es with
    | nil => rfl
    | cons e rest ih => rw [lowestPriority, lowestPriority, ih, priority]
  rw [drainChoice, drainChoice, lowest, eligibleEntries, eligibleEntries, entries]

theorem drainChoice_congr {s t : State} (layout : t.layout = s.layout) (queue : t.queue = s.queue) :
    drainChoice t = drainChoice s :=
  drainChoice_of_entries layout (congrArg PostingQueue.entries queue)

theorem recordOp_congr {s t : State} (layout : t.layout = s.layout) (queue : t.queue = s.queue)
    (groups : t.groups = s.groups) (engine : t.engine = s.engine) : recordOp t = recordOp s := by
  have group : groupOf t = groupOf s := funext fun q => by rw [groupOf, groupOf, groups]
  have entries : groupEntries t = groupEntries s := funext fun q => by rw [groupEntries, groupEntries, queue]
  funext r v
  rw [recordOp, recordOp, commitGroup, commitGroup, group, entries, layout, engine]

theorem engineOp_congr {s t : State} (layout : t.layout = s.layout) (queue : t.queue = s.queue)
    (groups : t.groups = s.groups) (engine : t.engine = s.engine) (writer : t.writer = s.writer) :
    engineOp t = engineOp s := by
  have inPlace : nextInPlace t = nextInPlace s := funext fun q => by
    rw [nextInPlace, nextInPlace, groupEntries, groupEntries, queue]
  have copy : copyOp t = copyOp s := funext fun r => funext fun v => by rw [copyOp, copyOp, writer]
  rw [engineOp, engineOp, recordOp_congr layout queue groups engine, inPlace, copy, layout, engine]

theorem requestsOf_of_work {s t : State} (same : work t = work s) : requestsOf t = requestsOf s := by
  simp only [work, Prod.mk.injEq] at same
  obtain ⟨layout, held, queue, groups, engine, -, writer, control⟩ := same
  have copy : copyOp t = copyOp s := funext fun r => funext fun v => by rw [copyOp, copyOp, writer]
  have access : controllerOp t = controllerOp s := by rw [controllerOp, controllerOp, held]
  have drain : drainOp t = drainOp s := by rw [drainOp, drainOp, drainChoice_congr layout queue, layout]
  have write : writerOp t = writerOp s := by rw [writerOp, writerOp, copy, writer, control]
  rw [requestsOf, requestsOf, access, drain, engineOp_congr layout queue groups engine writer, write, serving, serving,
    writerWorks, writerWorks, control]

theorem NothingWaits.of_work {s t : State} (h : NothingWaits s) (same : work t = work s) : NothingWaits t := by
  have requests := requestsOf_of_work same
  simp only [work, Prod.mk.injEq] at same
  obtain ⟨-, held, queue, groups, -, port, -, control⟩ := same
  refine ⟨fun mode => ?_, fun mode free due => ?_⟩
  · rw [serving, control] at mode
    rw [groups]
    exact h.groups mode
  · rw [serving, control] at mode
    rw [port] at free
    rw [held, queue] at due
    rw [requests]
    exact h.requests mode free due

theorem NothingWaits.ite {c : Prop} [Decidable c] {s t : State} (hs : NothingWaits s) (ht : NothingWaits t) :
    NothingWaits (if c then s else t) := by
  split
  · exact hs
  · exact ht

theorem endShutdown_outside (s : State) : ¬arbiterWorks (endShutdown s) := by
  rcases endShutdown_mode s with m | m <;> simp [arbiterWorks, m]

theorem outside_of_control {s t : State} (mode : s.control.mode = .shutdown) (control : t.control = s.control) :
    ¬arbiterWorks t := by
  simp [arbiterWorks, control, mode]

theorem afterFinishing_outside {s : State} (mode : s.control.mode = .shutdown) : ¬arbiterWorks (afterFinishing s) := by
  cases origin : s.shutdown.origin with
  | none =>
    rw [afterFinishing_none origin]
    exact endShutdown_outside _
  | config =>
    rw [afterFinishing_config origin]
    split
    · exact endShutdown_outside _
    · exact outside_of_control mode (startFinalProgress_runs (endCopyWrite s)).control
  | full => exact outside_of_control mode (afterFinishing_runs origin).control

/-- In SHUTDOWN the sequence leads to SHUTDOWN, ENDED or STARTING alone (R143). -/
theorem advanceShutdown_outside {s : State} (mode : s.control.mode = .shutdown) : ¬arbiterWorks (advanceShutdown s) := by
  unfold advanceShutdown
  cases s.shutdown.stage with
  | finishing =>
    exact afterFinishing_outside mode
  | group => exact outside_of_control mode (continueGroup_runs s).control
  | drain => exact outside_of_control mode (drainStage_runs s).control
  | progress =>
    refine outside_of_control mode ?_
    dsimp only
    unfold finalProgressLine
    split
    · exact startOp_control s _
    · rfl
  | done => exact outside_of_control mode rfl

/-- Where the arbiter does not work, the drive of the port does not lead to a mode in which it does. -/
theorem drivePort_outside {s : State} (outside : ¬arbiterWorks s) : ¬arbiterWorks (drivePort s) := by
  have stays {t : State} (same : t.control = s.control) : ¬arbiterWorks t := by rwa [arbiterWorks, same]
  have starts (u : State) (op : ArrayOp) (same : u.control = s.control) : ¬arbiterWorks (startOp u op) :=
    stays ((startOp_control u op).trans same)
  cases hop : s.port.op with
  | some op =>
    rw [drivePort_of_busy hop]
    exact outside
  | none =>
    cases mode : s.control.mode with
    | starting =>
      simp only [drivePort, hop, mode]
      split
      · exact outside
      · exact starts s _ rfl
    | recovering =>
      simp only [drivePort, hop, mode]
      split
      · exact starts s _ rfl
      · exact outside
    | shutdown =>
      simp only [drivePort, hop, mode]
      exact advanceShutdown_outside mode
    | ended =>
      simp only [drivePort, hop, mode]
      exact outside
    | unformatted | config | run | halted => exact absurd (by simp [arbiterWorks, mode]) outside

/-- The end of a handling leaves nothing waiting, in every mode. -/
theorem settle_waits (s : State) : NothingWaits (settle s) := by
  by_cases works : arbiterWorks s
  · exact settle_nothingWaits works
  · refine nothingWaits_outside ?_
    have idle : serving s = false := by
      by_contra serves
      exact works ((arbiterWorks_iff s).mpr (.inl (by simpa using serves)))
    rw [settle_of_not_serving idle]
    exact drivePort_outside works

/-! ### Every command -/

theorem NothingWaits.setSession {s : State} (h : NothingWaits s) (v : Session) : NothingWaits (s.setSession v) :=
  h.of_work rfl

theorem NothingWaits.setPins {s : State} (h : NothingWaits s) (v : Pins) : NothingWaits (s.setPins v) := h.of_work rfl

theorem NothingWaits.setRecorder {s : State} (h : NothingWaits s) (v : IncidentRecorder) :
    NothingWaits (s.setRecorder v) :=
  h.of_work rfl

theorem powerUp_waits (s : State) (pins : Pins) : NothingWaits (powerUp s pins) := by
  refine .ite (nothingWaits_outside ?_) (settle_waits _)
  rw [arbiterWorks, startOp_control]
  simp [State.startValues]

theorem setLine_work (s : State) (line : SupplyLine) (level : Bool) : work (setLine s line level) = work s := by
  cases line <;> rfl

theorem NothingWaits.lineFall {s : State} (h : NothingWaits s) (line : SupplyLine) : NothingWaits (lineFall s line) :=
  .ite (settle_waits _) h

theorem enterStarting_waits (s : State) : NothingWaits (enterStarting s) := by
  refine nothingWaits_outside ?_
  rw [enterStarting, arbiterWorks, startOp_control]
  simp [State.startValues]

theorem NothingWaits.lineRise {s : State} (h : NothingWaits s) (line : SupplyLine) : NothingWaits (lineRise s line) :=
  .ite h (.ite (enterStarting_waits _) (h.of_work (setLine_work s line true)))

theorem controllerAccess_waits {s t : State} {a : Access} (h : NothingWaits s)
    (next : execControllerAccess a s = .next t) : NothingWaits t := by
  rcases controllerAccess_cases next with rfl | ⟨idle, rfl⟩ | ⟨r, rfl⟩ | ⟨c, -, rfl⟩
  · exact h
  · refine h.of_work ?_
    rw [finishAccess, work, State.setAccess_access, idle.symm]
    rfl
  · exact settle_waits _
  · exact settle_waits _

theorem NothingWaits.takeAnew {s : State} (h : NothingWaits s) (write : Bool) : NothingWaits (takeAnew s write) := by
  unfold Machine.takeAnew
  split
  · exact h
  · exact .ite (settle_waits _) h

theorem NothingWaits.stallExpiry {s : State} (h : NothingWaits s) : NothingWaits (stallExpiry s) := by
  unfold Machine.stallExpiry
  split
  · exact h
  · split
    · exact h
    · exact settle_waits _

/-- A step that begins leaves the port busy and the groups as they were. -/
theorem NothingWaits.beginStep {s : State} (h : NothingWaits s) (op : ArrayOp) : NothingWaits (beginStep s op) := by
  obtain ⟨pins, began⟩ := beginStep_eq s op
  rw [began]
  exact ⟨h.groups, fun _ free => nomatch free⟩

theorem NothingWaits.readyAsserted {s : State} (h : NothingWaits s) (took : LineData) :
    NothingWaits (readyAsserted s took) := by
  have ready : NothingWaits (s.setPins { s.pins with arrayReady := true }) := h.setPins _
  unfold Machine.readyAsserted
  dsimp only
  split
  · exact ready
  · exact .ite (settle_waits _) (ready.beginStep _)

theorem NothingWaits.stepTimedOut {s : State} (h : NothingWaits s) (took : LineData) :
    NothingWaits (stepTimedOut s took) := by
  unfold Machine.stepTimedOut
  split
  · exact h
  · exact settle_waits _

theorem NothingWaits.command {s t : State} {code check : Byte} {arguments : List Byte} {run : State → State × Reply}
    (h : NothingWaits s) (after : NothingWaits (run s).1) (next : command s code arguments check run = .next t) :
    NothingWaits t :=
  handle_keeps (P := NothingWaits) rfl next h (.ite (.ite (after.setSession _) (h.setSession _)) h)

theorem NothingWaits.iteRun {c : Prop} [Decidable c] {x y : State × Reply} (hx : NothingWaits x.1)
    (hy : NothingWaits y.1) : NothingWaits (if c then x else y).1 := by
  split
  · exact hx
  · exact hy

theorem NothingWaits.resumeRun {s : State} (h : NothingWaits s) : NothingWaits (resumeRun s).1 := by
  unfold Machine.resumeRun
  exact .iteRun (by unfold resume; exact settle_waits _) h

theorem release_work (s : State) (i : Initiator) : work (release s i) = work s := by
  rw [release, judgeChange_eq]
  split <;> rfl

theorem NothingWaits.releaseFenceRun {s : State} (h : NothingWaits s) (b : Byte) :
    NothingWaits (releaseFenceRun b s).1 := by
  unfold Machine.releaseFenceRun
  split
  · exact h
  · exact .iteRun (h.of_work (release_work s _)) h

theorem NothingWaits.readInitiatorRun {s : State} (h : NothingWaits s) (b : Byte) :
    NothingWaits (readInitiatorRun b s).1 := by
  unfold Machine.readInitiatorRun
  split <;> exact h

theorem NothingWaits.readWindowRun {s : State} (h : NothingWaits s) (b : Byte) : NothingWaits (readWindowRun b s).1 := by
  unfold Machine.readWindowRun
  split <;> exact h

/-- In CONFIG and UNFORMATTED a change of the layout brings no request: what the writer writes is kept apart (R79, R98). -/
theorem NothingWaits.setLayout {s : State} (h : NothingWaits s) (writable : layoutWritable s = true) (v : Layout) :
    NothingWaits (s.setLayout v) := by
  have mode : s.control.mode = .config ∨ s.control.mode = .unformatted := by simpa [layoutWritable] using writable
  have idle : serving s = false := by rcases mode with m | m <;> simp [serving, m]
  have idleAfter : serving (s.setLayout v) = false := idle
  have same : requestsOf (s.setLayout v) = requestsOf s := by
    rw [requestsOf, requestsOf, idle, idleAfter]
    rfl
  refine ⟨fun serves => absurd serves (by simp [idleAfter]), fun works free due => ?_⟩
  rw [same]
  exact h.requests works free due

theorem NothingWaits.writeWindowRun {s : State} (h : NothingWaits s) (b : Byte) (v : BitVec 64) :
    NothingWaits (writeWindowRun b v s).1 := by
  unfold Machine.writeWindowRun
  by_cases writable : layoutWritable s = true
  · rw [if_neg (by simp [writable])]
    split
    · exact h
    · exact h.setLayout writable _
  · rw [if_pos (by simp [writable])]
    exact h

theorem NothingWaits.writeSettingsRun {s : State} (h : NothingWaits s) (v : BitVec 128) :
    NothingWaits (writeSettingsRun v s).1 := by
  unfold Machine.writeSettingsRun
  split
  · next writable => exact h.setLayout writable _
  · exact h

theorem clockByte_waits {s : State} (h : NothingWaits s) : NothingWaits (clockByte s) := by
  obtain ⟨u, clocked, -⟩ := clockByte_eq s
  rw [clocked]
  exact h.setSession u

theorem NothingWaits.exec {c : Instr} {s t : State} (h : NothingWaits s) (next : exec c s = .next t) :
    NothingWaits t := by
  cases c with
  | powerOn pfwN crstN mselN arrayReady => exact Host.Outcome.next.inj next ▸ powerUp_waits s _
  | powerLoss => exact Host.Outcome.next.inj next ▸ h.of_work rfl
  | pfwNFall => exact handle_keeps (exec_pfwNFall s) next h (h.lineFall _)
  | crstNFall => exact handle_keeps (exec_crstNFall s) next h (h.lineFall _)
  | leaveEnded line => exact handle_keeps (exec_leaveEnded line s) next h (h.lineRise line)
  | pfwNRise => exact handle_keeps (exec_pfwNRise s) next h (h.lineRise _)
  | crstNRise => exact handle_keeps (exec_crstNRise s) next h (h.lineRise _)
  | scanBRise => exact handle_keeps (exec_scanBRise s) next h (.ite (settle_waits _) h)
  | controllerAccess a => exact controllerAccess_waits h next
  | heldWriteTakenAnew => exact handle_keeps (exec_heldWriteTakenAnew s) next h (h.takeAnew _)
  | heldReadTakenAnew => exact handle_keeps (exec_heldReadTakenAnew s) next h (h.takeAnew _)
  | stallLimitExpiry => exact handle_keeps (exec_stallLimitExpiry s) next h h.stallExpiry
  | arrayReady took => exact handle_keeps (exec_arrayReady took s) next h (h.readyAsserted took)
  | arrayTimeout took => exact handle_keeps (exec_arrayTimeout took s) next h (h.stepTimedOut took)
  | startReadRetry => exact handle_keeps (exec_startReadRetry s) next h (.ite (settle_waits _) h)
  | readStatus check | peekIncident check | readGroups check | readSettings check => exact h.command h next
  | ackEvents events check =>
    refine h.command (run := ackEventsRun events) (.iteRun ?_ h) next
    rw [acknowledge_eq]
    exact h.of_work rfl
  | setEventMask events check => exact h.command (run := setEventMaskRun events) (.iteRun (h.setRecorder _) h) next
  | takeIncident check => exact h.command (run := takeIncidentRun) (h.setRecorder _) next
  | readInitiator initiator check => exact h.command (h.readInitiatorRun initiator) next
  | releaseFence initiator check => exact h.command (h.releaseFenceRun initiator) next
  | readSlot slot check => exact h.command (run := readSlotRun slot) (.iteRun h h) next
  | closeGroup check => exact h.command (run := closeGroupRun) (settle_waits _) next
  | flush scope check =>
    exact h.command (run := flushRun scope)
      (.iteRun h (.iteRun h (.iteRun (settle_waits _) (.iteRun (settle_waits _) h)))) next
  | requestConfig check =>
    exact h.command (run := requestConfigRun) (.iteRun h (.iteRun h (.iteRun h (settle_waits _)))) next
  | requestRun check =>
    exact h.command (run := requestRunRun) (.iteRun h (.iteRun h (.iteRun h (.iteRun h (settle_waits _))))) next
  | resume check => exact h.command h.resumeRun next
  | readWindow index check => exact h.command (h.readWindowRun index) next
  | writeWindow index record check => exact h.command (h.writeWindowRun index record) next
  | writeSettings settings check => exact h.command (h.writeSettingsRun settings) next
  | storeLayout check =>
    exact h.command (run := storeLayoutRun) (.iteRun h (.iteRun h (.iteRun h (settle_waits _)))) next
  | format check => exact h.command (run := formatRun) (.iteRun h (.iteRun h (.iteRun h (settle_waits _)))) next
  | restart check => exact h.command (run := restartRun) (.iteRun h (settle_waits _)) next
  | unknownCommand code => exact handle_keeps (exec_unknownCommand code s) next h (.ite (h.setSession _) h)
  | mselNFall => exact handle_keeps (exec_mselNFall s) next h (.ite ((h.setPins _).setSession _) h)
  | mselNRise => exact handle_keeps (exec_mselNRise s) next h (.ite h ((h.setPins _).setSession _))
  | stampCounterWrap => exact handle_keeps (exec_stampCounterWrap s) next h (h.setRecorder _)

theorem step_waits {s t : State} (h : NothingWaits s) (next : step s = .next t) : NothingWaits t :=
  step_keeps (P := NothingWaits) (fun _ h => .ite (clockByte_waits (h.setRecorder _)) h) (fun _ _ h => h.of_work rfl)
    (fun _ _ _ h => h.exec) h next

/-! ## The arbiter's order -/

/-- Settles O55. -/
theorem arbiterGrantsInOrder : Obligations.ArbiterGrantsInOrder := by
  have starts : ¬arbiterWorks State.reset := by simp [arbiterWorks, State.reset, State.startValues]
  refine ⟨requestsOf_meets, fun s => ?grants, fun s => ?drives, nothingWaits_outside starts,
    fun s t h next => step_waits h next⟩
  case grants =>
    intro r p few granted
    have grant {op : ArrayOp} {n : Nat} (choice : arbiterChoice p (freeSlotCount s.queue) r = some op)
        (passed : passOverAfter p r op = n) : granted op n :=
      passed ▸ ⟨(granted_of_choice choice).port, (granted_of_choice choice).entries⟩
    refine ⟨fun d drain limit => grant ?_ (passOverAfter_drain drain p), fun a access drain => ?_,
      fun a d access drain below => ?_, fun d access drain few => grant ?_ (passOverAfter_drain drain p),
      fun j access drain engine => ?_, fun j d access drain below many engine => ?_,
      fun d access drain engine => grant ?_ (passOverAfter_drain drain p), fun w access drain engine writer => ?_,
      fun access drain engine writer => arbitrate_of_none ?_⟩
    · simp [arbiterChoice, drain, limit, Config.passOverLimit]
    · exact grant (by simp [arbiterChoice, drain, access])
        ((passOverAfter_other (isDrainOp_controller access) r p).trans (by simp [drain]))
    · exact grant (by simp [arbiterChoice, drain, access, below, Config.passOverLimit])
        ((passOverAfter_other (isDrainOp_controller access) r p).trans (by simp [drain]))
    · have pressed : freeSlotCount s.queue ≤ Config.pressureSlots := few
      simp [arbiterChoice, drain, access, pressed]
    · exact grant (by simp [arbiterChoice, drain, access, engine])
        ((passOverAfter_other (isDrainOp_engine engine) r p).trans (by simp [drain]))
    · have relaxed : ¬freeSlotCount s.queue ≤ Config.pressureSlots := many
      exact grant (by simp [arbiterChoice, drain, access, engine, below, relaxed, Config.passOverLimit])
        ((passOverAfter_other (isDrainOp_engine engine) r p).trans (by simp [drain]))
    · simp [arbiterChoice, drain, access, engine]
    · exact grant (by simp [arbiterChoice, drain, access, engine, writer])
        ((passOverAfter_other (isDrainOp_writer writer) r p).trans (by simp [drain]))
    · have choice : arbiterChoice p (freeSlotCount s.queue) r = none := by
        simp [arbiterChoice, drain, access, engine, writer]
      exact choice
  case drives =>
    refine ⟨fun busy => ?_, fun free works => ?_⟩
    · obtain ⟨op, inFlight⟩ := Option.isSome_iff_exists.mp busy
      exact drivePort_of_busy inFlight
    · have driven := drivePort_of_arbiter ((arbiterWorks_iff s).mpr works) free
      exact ⟨fun due => driven.trans (if_pos ((readDue_iff s).mpr due)),
        fun rests => driven.trans (if_neg (rests ∘ (readDue_iff s).mp))⟩

end Sys2Proof.Machine
end

section
/-! The end of a handling in RUN, HALTED, CONFIG and UNFORMATTED, block by block: the group the engine takes, the FLUSH and the
handover that complete, the operation the port is driven with (R35, R45, R85, R114, R119). -/

namespace Sys2Proof.Machine

/-! ## The group in commit -/

/-- The group table with one record in another place of its commit (R46). -/
def placed (table : List Group) (q : Seq) (p : Phase) (position : Nat) : List Group :=
  table.map (fun g => if g.sequence == q then { g with state := .inPhase p, journalPosition := position } else g)

theorem mem_placed {table : List Group} {q : Seq} {g : Group} (p : Phase) (position : Nat) (record : g ∈ table)
    (bears : g.sequence = q) : { g with state := .inPhase p, journalPosition := position } ∈ placed table q p position :=
  List.mem_map.mpr ⟨g, record, by simp [bears]⟩

/-- A phase begins: the engine and the group's record take it (R36, R46). -/
theorem enterPhase_eq {s : State} {q : Seq} (inCommit : s.engine.inCommit = some q) (p : Phase) :
    enterPhase s p =
      (s.setGroups { s.groups with table := placed s.groups.table q p 0 }).setEngine
        { s.engine with phase := some p, position := 0, half := .first } := by
  unfold enterPhase changeCommitGroup
  rw [inCommit]
  rfl

/-- The position moves in the engine and in the record of the group in commit (R46). -/
theorem setPosition_eq {s : State} {q : Seq} (inCommit : s.engine.inCommit = some q) (n : Nat) (half : Half) :
    setPosition s n half =
      (changeGroup s q (fun g => { g with journalPosition := n })).setEngine
        { s.engine with position := n, half := half } := by
  unfold setPosition changeCommitGroup
  rw [inCommit]
  rfl

/-- The running check once the record at the engine's position is taken in, where there is one (R45). -/
def composedCheck (s : State) : BitVec 32 :=
  ((s.engine.inCommit.bind fun q => (groupEntries s q)[s.engine.position]?.map fun e =>
    crc32Update s.engine.runningCheck (recordBytes (lineRecord q s.engine.position e)))).getD s.engine.runningCheck

/-- Composing a record changes the running check alone (R45). -/
theorem composeRecord_eq (s : State) :
    composeRecord s = s.setEngine { s.engine with runningCheck := composedCheck s } := by
  unfold composeRecord composedCheck
  split
  · next inCommit =>
    rw [inCommit]
    rfl
  · next q inCommit =>
    rw [inCommit, Option.bind_some]
    split
    · next place =>
      rw [place]
      rfl
    · next e place =>
      rw [place]
      rfl

theorem composedCheck_of_entry {s : State} {q : Seq} {e : Entry} (inCommit : s.engine.inCommit = some q)
    (place : (groupEntries s q)[s.engine.position]? = some e) :
    composedCheck s = crc32Update s.engine.runningCheck (recordBytes (lineRecord q s.engine.position e)) := by
  rw [composedCheck, inCommit, Option.bind_some, place]
  rfl

/-- Where a group stands is seen in four items of the engine and in the group table (R46). -/
theorem AtStep.of_same {t u : State} {q : Seq} {p : Phase} {n : Nat} {half : Half} (h : AtStep t q p n half)
    (groups : u.groups.table = t.groups.table) (inCommit : u.engine.inCommit = t.engine.inCommit)
    (phase : u.engine.phase = t.engine.phase) (position : u.engine.position = t.engine.position)
    (same : u.engine.half = t.engine.half) : AtStep u q p n half := by
  rw [AtStep, groups, inCommit, phase, position, same]
  exact h

theorem composeRecord_atStep {s : State} {q : Seq} {p : Phase} {n : Nat} {half : Half} (h : AtStep s q p n half) :
    AtStep (composeRecord s) q p n half := by
  rw [composeRecord_eq]
  exact h.of_same rfl rfl rfl rfl rfl

theorem enterPhase_atStep {s : State} {q : Seq} {g : Group} (inCommit : s.engine.inCommit = some q)
    (record : g ∈ s.groups.table) (bears : g.sequence = q) (p : Phase) : AtStep (enterPhase s p) q p 0 .first := by
  rw [enterPhase_eq inCommit]
  exact ⟨inCommit, rfl, rfl, rfl, _, mem_placed p 0 record bears, bears, rfl, rfl⟩

theorem setPosition_atStep {s : State} {q : Seq} {p : Phase} {g : Group} (inCommit : s.engine.inCommit = some q)
    (phase : s.engine.phase = some p) (record : g ∈ s.groups.table) (bears : g.sequence = q) (state : g.state = .inPhase p)
    (n : Nat) (half : Half) : AtStep (setPosition s n half) q p n half := by
  rw [setPosition_eq inCommit]
  refine ⟨inCommit, phase, rfl, rfl, { g with journalPosition := n }, ?_, bears, state, rfl⟩
  exact List.mem_map.mpr ⟨g, record, by simp [bears]⟩

/-- The running check as JOURNALING begins: record 0 is taken in at once (R45, log 23). -/
def journalCheck (s : State) (q : Seq) : BitVec 32 :=
  match groupEntries s q with
  | e :: _ => crc32Update 0xFFFFFFFF (recordBytes (lineRecord q 0 e))
  | [] => 0xFFFFFFFF

/-- JOURNALING begins or restarts: both positions 0, and the running check holds record 0 (R45, R46). -/
theorem startJournaling_eq {s : State} {q : Seq} (inCommit : s.engine.inCommit = some q) :
    startJournaling s =
      (s.setGroups { s.groups with table := placed s.groups.table q .journaling 0 }).setEngine
        { s.engine with phase := some .journaling, position := 0, half := .first, runningCheck := journalCheck s q } := by
  unfold startJournaling
  rw [enterPhase_eq inCommit]
  dsimp only
  generalize begun : State.setEngine _ _ = u
  have check : composedCheck u = journalCheck s q := by
    have held : u.engine.inCommit = some q := by rw [← begun]; exact inCommit
    have first : u.engine.position = 0 := by rw [← begun]; rfl
    have initial : u.engine.runningCheck = 0xFFFFFFFF := by rw [← begun]; rfl
    have entries : groupEntries u q = groupEntries s q := by rw [← begun]; rfl
    rw [composedCheck, held, Option.bind_some, first, initial, entries, journalCheck]
    cases groupEntries s q with
    | nil => simp only [List.getElem?_nil, Option.map_none, Option.getD_none]
    | cons e rest => simp only [List.getElem?_cons_zero, Option.map_some, Option.getD_some]
  rw [composeRecord_eq, check]
  subst begun
  rfl

/-! ## The group the engine takes -/

/-- With a group in commit, or no group CLOSED, the engine takes none (R35). -/
theorem takeNextGroup_none {s : State}
    (none : (∃ g ∈ s.groups.table, groupInCommit g = true) ∨ s.groups.table.find? (fun g => g.state == .closed) = none) :
    takeNextGroup s = s := by
  unfold takeNextGroup
  rcases none with ⟨g, record, commit⟩ | noClosed
  · have stands : s.groups.table.all (fun g => !groupInCommit g) = false :=
      List.all_eq_false.mpr ⟨g, record, by simp [commit]⟩
    simp [stands]
  · simp [noClosed]

/-- The engine takes the oldest CLOSED group into JOURNALING (R35). -/
theorem takeNextGroup_taken {s : State} {g : Group} (mode : serving s = true)
    (free : ∀ g ∈ s.groups.table, groupInCommit g = false)
    (oldest : s.groups.table.find? (fun g => g.state == .closed) = some g) :
    takeNextGroup s =
      (s.setGroups { s.groups with table := placed s.groups.table g.sequence .journaling 0 }).setEngine
        { s.engine with
          inCommit := some g.sequence, phase := some .journaling, position := 0, half := .first
          runningCheck := journalCheck s g.sequence } := by
  have none : s.groups.table.all (fun g => !groupInCommit g) = true :=
    List.all_eq_true.mpr fun x record => by simp [free x record]
  have taken : takeNextGroup s = startJournaling (s.setEngine { s.engine with inCommit := some g.sequence }) := by
    unfold takeNextGroup
    simp only [mode, none, oldest, Bool.and_self, if_true]
  rw [taken, startJournaling_eq rfl]
  rfl

/-- The engine takes a group, or the state stays as it is (R35). -/
theorem takeNextGroup_cases (s : State) :
    takeNextGroup s = s ∨ (serving s = true ∧ (∀ g ∈ s.groups.table, groupInCommit g = false) ∧
      ∃ g, s.groups.table.find? (fun g => g.state == .closed) = some g) := by
  by_cases mode : serving s = true
  · by_cases commit : ∃ g ∈ s.groups.table, groupInCommit g = true
    · exact .inl (takeNextGroup_none (.inl commit))
    · cases oldest : s.groups.table.find? (fun g => g.state == .closed) with
      | none => exact .inl (takeNextGroup_none (.inr oldest))
      | some g => exact .inr ⟨mode, by simpa using commit, g, rfl⟩
  · exact .inl (by simp [takeNextGroup, mode])

/-- Taking a group changes the group table and the engine alone, and keeps a table that is not empty (R35). -/
theorem takeNextGroup_eq (s : State) :
    ∃ table engine, takeNextGroup s = (s.setGroups { s.groups with table := table }).setEngine engine ∧
      (table = [] ↔ s.groups.table = []) ∧ engine.journalPending = s.engine.journalPending := by
  rcases takeNextGroup_cases s with same | ⟨mode, free, g, oldest⟩
  · exact ⟨s.groups.table, s.engine, same, .rfl, rfl⟩
  · refine ⟨_, _, takeNextGroup_taken mode free oldest, ?_, rfl⟩
    simp [placed]

/-- The record of a group that the engine takes keeps its sequence, its line count and its close cause (R46). -/
theorem takeNextGroup_record {s : State} {g : Group} (record : g ∈ s.groups.table) :
    ∃ r ∈ (takeNextGroup s).groups.table, r.sequence = g.sequence ∧ r.lineCount = g.lineCount ∧
      r.closeCause = g.closeCause := by
  rcases takeNextGroup_cases s with same | ⟨mode, free, x, oldest⟩
  · rw [same]
    exact ⟨g, record, rfl, rfl, rfl⟩
  · rw [takeNextGroup_taken mode free oldest]
    refine ⟨_, List.mem_map.mpr ⟨g, record, rfl⟩, ?_⟩
    split <;> exact ⟨rfl, rfl, rfl⟩

/-- The engine opens no group. -/
theorem takeNextGroup_open {s : State} (closed : ∀ g ∈ s.groups.table, g.state ≠ .open) :
    ∀ g ∈ (takeNextGroup s).groups.table, g.state ≠ .open := by
  rcases takeNextGroup_cases s with same | ⟨mode, free, x, oldest⟩
  · rw [same]
    exact closed
  · rw [takeNextGroup_taken mode free oldest]
    intro r record
    obtain ⟨y, member, rfl⟩ := List.mem_map.mp record
    split
    · simp
    · exact closed y member

/-- What R35 says of the table holds once the engine has looked (R35, R46). -/
theorem takeNextGroup_oldest {s : State} (mode : serving s = true) : OldestTaken s.groups.table (takeNextGroup s) := by
  intro free g oldest
  rw [takeNextGroup_taken mode free oldest]
  exact ⟨rfl, rfl, rfl, rfl, _, mem_placed .journaling 0 (List.mem_of_find?_eq_some oldest) rfl, rfl, rfl, rfl⟩

/-! ## What taking a group leaves -/

@[simp] theorem takeNextGroup_queue (s : State) : (takeNextGroup s).queue = s.queue := by
  obtain ⟨table, engine, taken, -, -⟩ := takeNextGroup_eq s
  simp [taken]

@[simp] theorem takeNextGroup_access (s : State) : (takeNextGroup s).access = s.access := by
  obtain ⟨table, engine, taken, -, -⟩ := takeNextGroup_eq s
  simp [taken]

@[simp] theorem takeNextGroup_port (s : State) : (takeNextGroup s).port = s.port := by
  obtain ⟨table, engine, taken, -, -⟩ := takeNextGroup_eq s
  simp [taken]

@[simp] theorem takeNextGroup_writer (s : State) : (takeNextGroup s).writer = s.writer := by
  obtain ⟨table, engine, taken, -, -⟩ := takeNextGroup_eq s
  simp [taken]

@[simp] theorem takeNextGroup_recorder (s : State) : (takeNextGroup s).recorder = s.recorder := by
  obtain ⟨table, engine, taken, -, -⟩ := takeNextGroup_eq s
  simp [taken]

@[simp] theorem takeNextGroup_pins (s : State) : (takeNextGroup s).pins = s.pins := by
  obtain ⟨table, engine, taken, -, -⟩ := takeNextGroup_eq s
  simp [taken]

@[simp] theorem takeNextGroup_layout (s : State) : (takeNextGroup s).layout = s.layout := by
  obtain ⟨table, engine, taken, -, -⟩ := takeNextGroup_eq s
  simp [taken]

@[simp] theorem takeNextGroup_flushTarget (s : State) : (takeNextGroup s).groups.flushTarget = s.groups.flushTarget := by
  obtain ⟨table, engine, taken, -, -⟩ := takeNextGroup_eq s
  simp [taken]

@[simp] theorem takeNextGroup_table_nil (s : State) : (takeNextGroup s).groups.table = [] ↔ s.groups.table = [] := by
  obtain ⟨table, engine, taken, empty, -⟩ := takeNextGroup_eq s
  simp [taken, empty]

theorem takeNextGroup_serving (s : State) : serving (takeNextGroup s) = serving s := by
  rw [serving, serving, takeNextGroup_control]

/-! ## A FLUSH or a handover that completes -/

/-- A FLUSH that does not complete leaves the state as it is (R119). -/
theorem flushCheck_of_not {s : State} (waits : ¬(serving s = true ∧ s.control.longCommand = some .flush ∧
    s.queue.outstanding = 0 ∧ s.groups.flushTarget = none)) : flushCheck s = s :=
  if_neg waits

/-- The completion of a FLUSH changes the long command, its result and the events (R119). -/
theorem flushCheck_eq (s : State) :
    ∃ control recorder, flushCheck s = (s.setControl control).setRecorder recorder ∧
      control.mode = s.control.mode ∧ control.haltCause = s.control.haltCause ∧
      control.configRequest = s.control.configRequest ∧ control.handoverLoss = s.control.handoverLoss ∧
      recorder.incidents = s.recorder.incidents ∧ recorder.overflow = s.recorder.overflow ∧
      recorder.pendingEvents.fault = s.recorder.pendingEvents.fault ∧
      recorder.pendingEvents.mode = s.recorder.pendingEvents.mode := by
  unfold flushCheck
  split
  · exact ⟨_, _, rfl, rfl, rfl, rfl, rfl, rfl, rfl, rfl, rfl⟩
  · exact ⟨s.control, s.recorder, rfl, rfl, rfl, rfl, rfl, rfl, rfl, rfl, rfl⟩

/-- A handover that waits for a group or an entry goes on (R114). -/
theorem handoverCheck_of_waits {s : State} (waits : HandoverWaits s) : handoverCheck s = s := by
  refine if_neg ?_
  rintro ⟨-, request, noGroups, noEntries⟩
  rcases waits request with groups | entries
  · exact groups noGroups
  · exact entries noEntries

/-- What the handling completes before the port is driven (R35, R114, R119). -/
def checked (s : State) : State :=
  handoverCheck (flushCheck (takeNextGroup s))

theorem settle_eq (s : State) : settle s = drivePort (clearPassOver (checked s)) := rfl

/-- Where the handover waits, no more than the FLUSH can complete. -/
theorem checked_of_waits {s : State} (waits : HandoverWaits s) : checked s = flushCheck (takeNextGroup s) := by
  refine handoverCheck_of_waits ?_
  obtain ⟨control, recorder, flushed, -, -, request, -⟩ := flushCheck_eq (takeNextGroup s)
  intro pending
  rw [flushed] at pending ⊢
  simp only [State.setRecorder_control, State.setControl_control, request, takeNextGroup_control] at pending
  simpa using waits pending

/-! ## The drive of the port -/

/-- What a grant of the arbiter leaves: an entry or a held access may be marked, where the port was free (R3, R14, R60, R85). -/
structure GrantLeaves (s t : State) : Prop where
  control : t.control = s.control
  groups : t.groups = s.groups
  engine : t.engine = s.engine
  writer : t.writer = s.writer
  layout : t.layout = s.layout
  recorder : t.recorder = s.recorder
  confinement : t.confinement = s.confinement
  entries : ∃ mark : Entry → Entry, t.queue = { s.queue with entries := s.queue.entries.map mark } ∧
    ∀ e, mark e = e ∨ (s.port.op = none ∧ mark e = { e with state := .writing })
  access : t.access = s.access ∨
    (s.port.op = none ∧ ∃ h, s.access.held = some h ∧ h.wait = .grant ∧
      t.access = { s.access with held := some { h with wait := .operation } })

theorem GrantLeaves.refl (s : State) : GrantLeaves s s where
  control := rfl
  groups := rfl
  engine := rfl
  writer := rfl
  layout := rfl
  recorder := rfl
  confinement := rfl
  entries := ⟨id, by rw [List.map_id], fun _ => .inl rfl⟩
  access := .inl rfl

/-- The access of a held read or THROUGH write is marked where its own request is granted (R60). -/
theorem markGranted_access (s : State) (r : Requester) : (markGranted s r).access = s.access ∨
    ((∃ a w, r = .controllerRead a w ∨ r = .throughWrite a w) ∧ ∃ h, s.access.held = some h ∧
      (markGranted s r).access = { s.access with held := some { h with wait := .operation } }) := by
  cases r with
  | controllerRead a w =>
    cases held : s.access.held with
    | none => exact .inl (by simp [markGranted, held])
    | some h => exact .inr ⟨⟨a, w, .inl rfl⟩, h, rfl, by simp [markGranted, held]⟩
  | throughWrite a w =>
    cases held : s.access.held with
    | none => exact .inl (by simp [markGranted, held])
    | some h => exact .inr ⟨⟨a, w, .inr rfl⟩, h, rfl, by simp [markGranted, held]⟩
  | _ => exact .inl rfl

/-- A grant marks entries WRITING and leaves the rest of the queue as it is (R3). -/
theorem markGranted_queue (s : State) (r : Requester) : ∃ mark : Entry → Entry,
    (markGranted s r).queue = { s.queue with entries := s.queue.entries.map mark } ∧
      ∀ e, mark e = e ∨ mark e = { e with state := .writing } := by
  have marks (k : Fin 32) (e : Entry) : (if (e.slot == k) = true then { e with state := EntryState.writing } else e) = e ∨
      (if (e.slot == k) = true then { e with state := EntryState.writing } else e) = { e with state := .writing } := by
    split
    · exact .inr rfl
    · exact .inl rfl
  have unmarked {u : State} (same : u.queue = s.queue) : ∃ mark : Entry → Entry,
      u.queue = { s.queue with entries := s.queue.entries.map mark } ∧
        ∀ e, mark e = e ∨ mark e = { e with state := .writing } :=
    ⟨id, by rw [same, List.map_id], fun _ => .inl rfl⟩
  cases r with
  | postedDrain k w i | inPlaceWrite k w i | shutdownDrain k w i => exact ⟨_, rfl, marks k⟩
  | controllerRead a w | throughWrite a w => cases held : s.access.held <;> exact unmarked (by simp [markGranted, held])
  | _ => exact unmarked rfl

/-- Only an access that waits for a grant asks the arbiter (R84). -/
theorem controller_waits {s : State} {op : ArrayOp} (asks : (requestsOf s).controller = some op) :
    ∃ h, s.access.held = some h ∧ h.wait = .grant := by
  simp only [requestsOf, controllerOp] at asks
  split at asks
  · cases asks
  · next h held =>
    split at asks
    · next wait => exact ⟨h, held, wait⟩
    · cases asks

/-- A controller operation that the arbiter grants is the controller's request (R84, R85). -/
theorem choice_controller {s : State} {p n : Nat} {op : ArrayOp} (choice : arbiterChoice p n (requestsOf s) = some op)
    (access : ∃ a w, op.requester = .controllerRead a w ∨ op.requester = .throughWrite a w) :
    (requestsOf s).controller = some op := by
  obtain ⟨a, w, requester⟩ := access
  rcases arbiterChoice_mem choice with controller | drain | engine | writer
  · exact controller
  · obtain ⟨k, w', i, drains⟩ := (isDrainOp_iff op).mp (drainRequest_isDrain drain)
    simp [drains] at requester
  · rcases engine_requester engine with r | r | ⟨k, w', i, r⟩ <;> simp [r] at requester
  · obtain ⟨n, r | r⟩ := writer_requester writer <;> simp [r] at requester

theorem arbitrate_leaves {s : State} (free : s.port.op = none) : GrantLeaves s (arbitrate s) := by
  cases choice : arbiterChoice s.port.passOver (freeSlotCount s.queue) (requestsOf s) with
  | none =>
    rw [arbitrate_of_none choice]
    exact .refl s
  | some op =>
    rw [arbitrate_of_choice choice]
    obtain ⟨mark, queue, marks⟩ := markGranted_queue
      (s.setPort { s.port with passOver := passOverAfter s.port.passOver (requestsOf s) op }) op.requester
    refine ⟨?_, ?_, ?_, ?_, ?_, ?_, ?_, ⟨mark, ?_, fun e => (marks e).imp_right fun m => ⟨free, m⟩⟩, ?_⟩
    case refine_8 =>
      rw [startOp_queue, queue]
      rfl
    case refine_9 =>
      rw [startOp_access]
      rcases markGranted_access (s.setPort { s.port with passOver := passOverAfter s.port.passOver (requestsOf s) op })
        op.requester with same | ⟨access, h, held, marked⟩
      · exact .inl same
      · obtain ⟨h', held', wait⟩ := controller_waits (choice_controller choice access)
        obtain rfl : h = h' := Option.some.inj (held.symm.trans held')
        exact .inr ⟨free, h, held, wait, marked⟩
    all_goals simp

/-- Where the arbiter works the drive of the port leaves what a grant leaves, and a busy port as it is (R85). -/
theorem drivePort_leaves {s : State} (works : arbiterWorks s) : GrantLeaves s (drivePort s) := by
  cases hop : s.port.op with
  | some op =>
    rw [drivePort_of_busy hop]
    exact .refl s
  | none =>
    rw [drivePort_of_arbiter works hop]
    split
    · exact .refl s
    · exact arbitrate_leaves hop

/-! ## The end of a handling, block by block -/

theorem flushCheck_works {s : State} (works : arbiterWorks s) : arbiterWorks (flushCheck (takeNextGroup s)) := by
  unfold arbiterWorks
  rw [flushCheck_mode, takeNextGroup_control]
  exact works

theorem checked_works {s : State} (works : arbiterWorks s) : arbiterWorks (checked s) :=
  arbiterWorks_handoverCheck (flushCheck_works works)

theorem clearPassOver_eq (s : State) : ∃ n, clearPassOver s = s.setPort { s.port with passOver := n } := by
  unfold clearPassOver
  split
  · exact ⟨s.port.passOver, rfl⟩
  · exact ⟨0, rfl⟩

/-- The end of a handling leaves what a grant leaves after the checks. -/
theorem settle_leaves {s : State} (works : arbiterWorks s) : GrantLeaves (checked s) (settle s) := by
  obtain ⟨n, cleared⟩ := clearPassOver_eq (checked s)
  have driven := drivePort_leaves (s := clearPassOver (checked s)) (by
    rw [arbiterWorks, clearPassOver_control]
    exact checked_works works)
  rw [← settle_eq, cleared] at driven
  exact ⟨driven.control, driven.groups, driven.engine, driven.writer, driven.layout, driven.recorder, driven.confinement,
    driven.entries, driven.access⟩

@[simp] theorem changeMode_access (s : State) (m : Mode) : (changeMode s m).access = s.access := by
  unfold changeMode
  split <;> rfl

@[simp] theorem changeMode_engine (s : State) (m : Mode) : (changeMode s m).engine = s.engine := by
  unfold changeMode
  split <;> rfl

/-- What is left of an access that is refused where one is held (R74). -/
def accessRefused (a : AccessUnit) : AccessUnit :=
  if a.held.isSome then { held := none, answer := some .refuse } else a

theorem refuseHeld_eq (s : State) : refuseHeld s = s.setAccess (accessRefused s.access) := by
  unfold refuseHeld accessRefused
  cases held : s.access.held <;> rfl

@[simp] theorem enterConfig_access (s : State) (r : LongResult) :
    (enterConfig s r).access = accessRefused s.access := by
  unfold enterConfig completeLong
  simp [refuseHeld_eq, raise]

@[simp] theorem enterConfig_engine (s : State) (r : LongResult) : (enterConfig s r).engine = s.engine := by
  unfold enterConfig completeLong
  simp [refuseHeld_eq, raise]

@[simp] theorem flushCheck_engine (s : State) : (flushCheck s).engine = s.engine := by
  unfold flushCheck
  split <;> rfl

@[simp] theorem handoverCheck_engine (s : State) : (handoverCheck s).engine = s.engine := by
  unfold handoverCheck
  split
  · exact enterConfig_engine _ _
  · rfl

/-- The group table ends as the engine leaves it when it looks for a group (R35). -/
theorem settle_groups {s : State} (works : arbiterWorks s) : (settle s).groups = (takeNextGroup s).groups := by
  rw [(settle_leaves works).groups, checked]
  simp

/-- The engine ends as it is when it has looked for a group (R35). -/
theorem settle_engine {s : State} (works : arbiterWorks s) : (settle s).engine = (takeNextGroup s).engine := by
  rw [(settle_leaves works).engine, checked]
  simp

/-- The group the engine takes stands in the end as it was taken (R35). -/
theorem settle_oldestTaken {s : State} (mode : serving s = true) : OldestTaken s.groups.table (settle s) := by
  have works : arbiterWorks s := (arbiterWorks_iff s).mpr (.inl mode)
  intro free g oldest
  exact (takeNextGroup_oldest mode free g oldest).of_same (by rw [settle_groups works]) (by rw [settle_engine works])
    (by rw [settle_engine works]) (by rw [settle_engine works]) (by rw [settle_engine works])

/-- The end of a handling records nothing (R155). -/
theorem settle_noIncident {s : State} (works : arbiterWorks s) : NoIncident s (settle s) := by
  have same := settle_served works
  exact ⟨congrArg Served.incidents same, congrArg Served.overflow same, congrArg Served.fault same⟩

/-- With no access held the end of a handling leaves the access alone. -/
theorem settle_access_idle {s : State} (works : arbiterWorks s) (idle : s.access.held = none) :
    (settle s).access = s.access := by
  have same : (checked s).access = s.access := by
    obtain ⟨control, recorder, flushed, -⟩ := flushCheck_eq (takeNextGroup s)
    have kept : (flushCheck (takeNextGroup s)).access = s.access := by rw [flushed]; simp
    unfold checked handoverCheck
    split
    · simp [kept, accessRefused, idle]
    · exact kept
  rcases (settle_leaves works).access with access | ⟨-, h, held, -⟩
  · exact access.trans same
  · rw [same, idle] at held
    cases held

/-- What the end of a handling leaves where a handover waits for something, or none is in progress: the engine may take a group,
a FLUSH may complete, and the free port may be granted (R35, R85, R114, R119). -/
structure Settles (s t : State) : Prop where
  mode : t.control.mode = s.control.mode
  haltCause : t.control.haltCause = s.control.haltCause
  configRequest : t.control.configRequest = s.control.configRequest
  handoverLoss : t.control.handoverLoss = s.control.handoverLoss
  flush : t.control = (flushCheck (takeNextGroup s)).control
  commandDone : t.recorder = (flushCheck (takeNextGroup s)).recorder
  event : t.recorder.pendingEvents.mode = s.recorder.pendingEvents.mode
  incidents : NoIncident s t
  groups : t.groups = (takeNextGroup s).groups
  engine : t.engine = (takeNextGroup s).engine
  writer : t.writer = s.writer
  layout : t.layout = s.layout
  confinement : t.confinement = s.confinement
  entries : ∃ mark : Entry → Entry, t.queue = { s.queue with entries := s.queue.entries.map mark } ∧
    ∀ e, mark e = e ∨ (s.port.op = none ∧ mark e = { e with state := .writing })
  access : t.access = s.access ∨
    (s.port.op = none ∧ ∃ h, s.access.held = some h ∧ h.wait = .grant ∧
      t.access = { s.access with held := some { h with wait := .operation } })
  mem : t.mem = s.mem

theorem settle_settles {s : State} (works : arbiterWorks s) (waits : HandoverWaits s) : Settles s (settle s) := by
  have leaves := settle_leaves works
  rw [checked_of_waits waits] at leaves
  obtain ⟨control, recorder, flushed, mode, haltCause, request, loss, incidents, overflow, fault, event⟩ :=
    flushCheck_eq (takeNextGroup s)
  refine
    { mode := ?_, haltCause := ?_, configRequest := ?_, handoverLoss := ?_, flush := leaves.control
      commandDone := leaves.recorder, event := ?_, incidents := settle_noIncident works, groups := settle_groups works
      engine := settle_engine works, writer := ?_, layout := ?_
      confinement := congrArg Served.confinement (settle_served works), entries := ?_, access := ?_
      mem := mem_of_outer (settle_outer s) }
  case refine_8 =>
    obtain ⟨mark, queue, marks⟩ := leaves.entries
    rw [flushed] at queue marks
    exact ⟨mark, by simpa using queue, by simpa using marks⟩
  case refine_9 =>
    have access := leaves.access
    rw [flushed] at access
    simpa using access
  all_goals
    simp [leaves.control, leaves.recorder, leaves.writer, leaves.layout, flushed, mode, haltCause, request, loss, event,
      takeNextGroup_control]

end Sys2Proof.Machine
end

section
/-! Incidents and their reactions: what the account of an initiator and the incident list change, a HALT carried out, and the
end of the handling behind it (R110, R146 to R148, R155, R158). -/

namespace Sys2Proof.Machine

/-! ## The accounts -/

/-- Only the initiators' accounts, the incident list with its events, and the free values used up differ (R145, R155). -/
def Accounted (s t : State) : Prop :=
  ∃ confinement recorder free, t = ((s.setConfinement confinement).setRecorder recorder).setFree free ∧
    recorder.mask = s.recorder.mask ∧ recorder.stamp = s.recorder.stamp ∧
    recorder.pendingEvents.mode = s.recorder.pendingEvents.mode ∧
    recorder.pendingEvents.commandDone = s.recorder.pendingEvents.commandDone

theorem Accounted.refl (s : State) : Accounted s s :=
  ⟨s.confinement, s.recorder, s.free, rfl, rfl, rfl, rfl, rfl⟩

theorem Accounted.trans {s t u : State} (h : Accounted s t) (k : Accounted t u) : Accounted s u := by
  obtain ⟨c, r, f, rfl, mask, stamp, mode, done⟩ := h
  obtain ⟨c', r', f', rfl, mask', stamp', mode', done'⟩ := k
  exact ⟨c', r', f', rfl, mask'.trans mask, stamp'.trans stamp, mode'.trans mode, done'.trans done⟩

theorem Accounted.ite {c : Prop} [Decidable c] {s t u : State} (ht : Accounted s t) (hu : Accounted s u) :
    Accounted s (if c then t else u) := by
  split
  · exact ht
  · exact hu

theorem recordIncident_accounted (s : State) (r : Report) : Accounted s (recordIncident s r) := by
  refine ⟨s.confinement, (recordIncident s r).recorder, (recordIncident s r).free, rfl, ?_⟩
  unfold recordIncident
  dsimp only
  split <;> exact ⟨rfl, rfl, rfl, rfl⟩

theorem copyReported_accounted (s : State) : Accounted s (raise (copyReported s) .confinement) :=
  ⟨(copyReported s).confinement, (raise s .confinement).recorder, s.free, rfl, rfl, rfl, rfl, rfl⟩

theorem judgeChange_accounted (s : State) (i : Initiator) (old new : Standing) :
    Accounted s (judgeChange s i old new) := by
  rw [judgeChange_eq]
  exact .ite (copyReported_accounted s) (.refl s)

theorem setStanding_accounted (s : State) (i : Initiator) (counter : Nat) (state : Standing) :
    Accounted s (setStanding s i counter state) :=
  ⟨(setStanding s i counter state).confinement, s.recorder, s.free, rfl, rfl, rfl, rfl, rfl⟩

theorem changeCounter_accounted (s : State) (i : Initiator) (counter : Nat) :
    Accounted s (changeCounter s i counter) := by
  have judged := (setStanding_accounted s i counter (standingOf counter)).trans
    (judgeChange_accounted _ i s.confinement[i].state (standingOf counter))
  unfold changeCounter
  exact .ite (.refl s) (.ite (setStanding_accounted s i counter _) (.ite (judged.trans (recordIncident_accounted _ _)) judged))

theorem fenceInitiator_accounted (s : State) (i : Initiator) : Accounted s (fenceInitiator s i) :=
  .ite (.refl s) (((setStanding_accounted s i 320 .fenced).trans (judgeChange_accounted _ i _ _)).trans
    (recordIncident_accounted _ _))

section
variable {s t : State} (h : Accounted s t)
include h

theorem Accounted.control : t.control = s.control := by
  obtain ⟨c, r, f, rfl, -⟩ := h
  rfl

theorem Accounted.groups : t.groups = s.groups := by
  obtain ⟨c, r, f, rfl, -⟩ := h
  rfl

theorem Accounted.access : t.access = s.access := by
  obtain ⟨c, r, f, rfl, -⟩ := h
  rfl

theorem Accounted.queue : t.queue = s.queue := by
  obtain ⟨c, r, f, rfl, -⟩ := h
  rfl

theorem Accounted.engine : t.engine = s.engine := by
  obtain ⟨c, r, f, rfl, -⟩ := h
  rfl

theorem Accounted.writer : t.writer = s.writer := by
  obtain ⟨c, r, f, rfl, -⟩ := h
  rfl

theorem Accounted.layout : t.layout = s.layout := by
  obtain ⟨c, r, f, rfl, -⟩ := h
  rfl

theorem Accounted.port : t.port = s.port := by
  obtain ⟨c, r, f, rfl, -⟩ := h
  rfl

theorem Accounted.event : t.recorder.pendingEvents.mode = s.recorder.pendingEvents.mode := by
  obtain ⟨c, r, f, rfl, -, -, mode, -⟩ := h
  exact mode

end

/-! ## HALT -/

theorem closeOpen_table (s : State) (cause : CloseCause) :
    (closeOpen s cause).groups.table = closedTable s.groups.table cause := by
  simp [closeOpen, closedTable]

/-- What a held write leaves of the access once it is refused (R8, R29, R74). -/
def writeRefused (a : AccessUnit) : AccessUnit :=
  match a.held with
  | none => a
  | some h => if opIsWrite h.access.op then { held := none, answer := some .refuse } else a

theorem refuseHeldWrite_eq (s : State) : refuseHeldWrite s = s.setAccess (writeRefused s.access) := by
  unfold refuseHeldWrite writeRefused
  cases held : s.access.held with
  | none => rfl
  | some h =>
    by_cases write : opIsWrite h.access.op = true
    · simp only [write, if_true]
      rfl
    · simp only [write]
      rfl

/-- The entry to HALTED from RUN (R110). -/
theorem enterHalted_eq {s : State} (run : s.control.mode = .run) (d : Detail) :
    enterHalted s d =
      (((s.setControl { s.control with mode := .halted, haltCause := some d }).setRecorder
        { s.recorder with pendingEvents := { s.recorder.pendingEvents with mode := true } }).setAccess
          (writeRefused s.access)).setGroups { s.groups with table := closedTable s.groups.table .halt } := by
  have moved := changeMode_of_ne (s := s.setControl { s.control with haltCause := some d }) (m := .halted)
    (by simp [run])
  unfold enterHalted
  dsimp only
  rw [moved, refuseHeldWrite_eq, closeOpen]
  simp only [closedTable, beq_iff_eq]
  rfl

/-- A HALT that leaves no group STALLED takes RUN to HALTED and nothing else (R110). -/
theorem haltReaction_eq {s : State} {d : Detail} (quiet : stallsGroup d = false) :
    haltReaction s d = if s.control.mode = .run then enterHalted s d else s := by
  unfold haltReaction
  cases mode : s.control.mode <;> simp [quiet]

/-! ## The reaction carried out -/

/-- A reaction that leaves no group STALLED changes accounts and incidents, or takes RUN to HALTED (R110, R148, R158). -/
theorem carryOut_cases {s : State} {x : Reaction} {r : Report} (quiet : stallsGroup r.detail = false) :
    (Accounted s (carryOut s x r) ∧ (x = .halt → s.control.mode ≠ .run)) ∨
      (x = .halt ∧ s.control.mode = .run ∧ carryOut s x r = enterHalted s r.detail) := by
  cases x with
  | record | none => exact .inl ⟨.refl s, nofun⟩
  | fence =>
    refine .inl ⟨?_, nofun⟩
    unfold carryOut
    cases r.initiator with
    | none => exact .refl s
    | some i => exact fenceInitiator_accounted s i
  | halt =>
    have reacts : carryOut s .halt r = if s.control.mode = .run then enterHalted s r.detail else s := haltReaction_eq quiet
    by_cases run : s.control.mode = .run
    · exact .inr ⟨rfl, run, reacts.trans (if_pos run)⟩
    · refine .inl ⟨?_, fun _ => run⟩
      rw [reacts, if_neg run]
      exact .refl s

theorem closedTable_nil (table : List Group) (cause : CloseCause) : closedTable table cause = [] ↔ table = [] := by
  simp [closedTable]

theorem serving_iff (s : State) : serving s = true ↔ s.control.mode = .run ∨ s.control.mode = .halted := by
  simp [serving]

theorem arbiterWorks_of_serving {s : State} (serves : serving s = true) : arbiterWorks s :=
  (arbiterWorks_iff s).mpr (.inl serves)

theorem Accounted.handoverWaits {s t : State} (h : Accounted s t) (waits : HandoverWaits s) : HandoverWaits t := by
  rw [HandoverWaits, h.control, h.groups, h.queue]
  exact waits

theorem Accounted.serving {s t : State} (h : Accounted s t) (serves : serving s = true) : serving t = true := by
  rw [Machine.serving, h.control]
  exact serves

theorem enterHalted_handoverWaits {s : State} (run : s.control.mode = .run) (d : Detail) (waits : HandoverWaits s) :
    HandoverWaits (enterHalted s d) := by
  rw [enterHalted_eq run]
  exact fun request => (waits request).imp_left fun table => (closedTable_nil _ _).not.mpr table

/-- With the OPEN group closed none is open (R30). -/
theorem closedTable_open (table : List Group) (cause : CloseCause) : ∀ g ∈ closedTable table cause, g.state ≠ .open := by
  intro g record
  obtain ⟨x, -, rfl⟩ := List.mem_map.mp record
  split
  · simp
  · assumption

/-- The group that was OPEN is closed with its cause, and its other items stay (R30). -/
theorem mem_closedTable {table : List Group} {g : Group} (record : g ∈ table) (opened : g.state = .open)
    (cause : CloseCause) : { g with state := .closed, closeCause := some cause } ∈ closedTable table cause :=
  List.mem_map.mpr ⟨g, record, by simp [opened]⟩

theorem openGroup_of_closed {s : State} (closed : ∀ g ∈ s.groups.table, g.state ≠ .open) : openGroup s = none :=
  List.find?_eq_none.mpr fun g record => by simp [closed g record]

theorem openGroup_record {s : State} {g : Group} (opened : openGroup s = some g) :
    g ∈ s.groups.table ∧ g.state = .open :=
  ⟨List.mem_of_find?_eq_some opened, by simpa using List.find?_some opened⟩

/-- A group closed in a handling stands closed with its cause at its end, or is taken for commit (R30, R35). -/
theorem settle_closes {s u : State} {cause : CloseCause} (works : arbiterWorks u)
    (table : u.groups.table = closedTable s.groups.table cause) :
    openGroup (settle u) = none ∧ ∀ g, openGroup s = some g → ∃ r ∈ (settle u).groups.table,
      r.sequence = g.sequence ∧ r.closeCause = some cause ∧ r.lineCount = g.lineCount := by
  have closed : ∀ g ∈ u.groups.table, g.state ≠ .open := by
    rw [table]
    exact closedTable_open _ cause
  refine ⟨openGroup_of_closed (by rw [settle_groups works]; exact takeNextGroup_open closed), fun g opened => ?_⟩
  obtain ⟨record, state⟩ := openGroup_record opened
  obtain ⟨r, member, sequence, lines, ended⟩ :=
    takeNextGroup_record (s := u) (by rw [table]; exact mem_closedTable record state cause)
  rw [settle_groups works]
  exact ⟨r, member, sequence, ended, lines⟩

/-- A reaction to an incident that leaves no group STALLED, carried out in RUN or HALTED, and the end of the handling (R110,
R158). `w` is the state in which it is carried out: of its mode, its groups and its held access as at the start, or with the
access refused. -/
theorem haltCarriedOut {s w : State} {x : Reaction} {r : Report} (quiet : stallsGroup r.detail = false)
    (serves : serving s = true) (control : w.control = s.control) (table : w.groups.table = s.groups.table)
    (access : w.access = s.access ∨ w.access = { held := none, answer := some .refuse }) (waits : HandoverWaits w) :
    Settles (carryOut w x r) (settle (carryOut w x r)) ∧ HaltCarriedOut s (settle (carryOut w x r)) r.detail x := by
  have servesW : serving w = true := by
    rw [Machine.serving, control]
    exact serves
  rcases carryOut_cases (s := w) (x := x) quiet with ⟨accounted, stays⟩ | ⟨rfl, run, halts⟩
  · have settles := settle_settles (arbiterWorks_of_serving (accounted.serving servesW)) (accounted.handoverWaits waits)
    have halted (halt : x = .halt) : s.control.mode ≠ .run := by
      rw [← control]
      exact stays halt
    have mode := settles.mode.trans (congrArg ModeController.mode (accounted.control.trans control))
    have cause := settles.haltCause.trans (congrArg ModeController.haltCause (accounted.control.trans control))
    refine ⟨settles,
      { request := settles.configRequest.trans (congrArg ModeController.configRequest (accounted.control.trans control))
        kept := fun _ => ⟨mode, cause⟩
        halted := fun halt => ⟨mode.trans (((serving_iff s).mp serves).resolve_left (halted halt)), ?_⟩
        event := fun halt run => absurd run (halted halt)
        heldWrite := fun halt run => absurd run (halted halt)
        closed := fun halt run => absurd run (halted halt) }⟩
    rw [cause, if_neg (halted halt)]
  · have halted := enterHalted_eq run r.detail
    have servesU : serving (enterHalted w r.detail) = true := by
      rw [halted]
      rfl
    rw [halts]
    have settles := settle_settles (arbiterWorks_of_serving servesU) (enterHalted_handoverWaits run r.detail waits)
    have closedTables : (enterHalted w r.detail).groups.table = closedTable s.groups.table .halt := by
      rw [halted, State.setGroups_groups, table]
    have runS : s.control.mode = .run := by
      rw [← control]
      exact run
    obtain ⟨noneOpen, causes⟩ := settle_closes (arbiterWorks_of_serving servesU) closedTables
    refine ⟨settles,
      { request := ?_, kept := fun other => absurd rfl other, halted := fun _ => ⟨?_, ?_⟩, event := fun _ _ => ?_
        heldWrite := fun _ _ h held write => ?_
        closed := fun _ _ => ⟨noneOpen, fun g opened => ?_, ?_⟩ }⟩
    · rw [settles.configRequest, halted]
      simp [control]
    · rw [settles.mode, halted]
      simp
    · rw [settles.haltCause, halted, if_pos runS]
      simp
    · rw [settles.event, halted]
      simp
    · have refused : (enterHalted w r.detail).access = { held := none, answer := some .refuse } := by
        rw [halted]
        simp only [State.setGroups_access, State.setAccess_access, writeRefused]
        rcases access with same | already
        · simp [same, held, write]
        · simp [already]
      rcases settles.access with same | ⟨-, h, waiting, -⟩
      · exact same.trans refused
      · simp [refused] at waiting
    · obtain ⟨r, member, sequence, cause, -⟩ := causes g opened
      exact ⟨r, member, sequence, cause⟩
    · rw [← closedTables]
      exact settle_oldestTaken servesU

end Sys2Proof.Machine
end

section
/-! The statements on the controller bus and the scan boundary: a stall limit, a refusal, a boundary, and what they leave as it
was (R31, R70, R75, R110); CLOSE_GROUP (R32). -/

namespace Sys2Proof.Machine

/-! ## What is recorded stays recorded -/

/-- The incident list goes on from here: records stand, and the overflow flag and FAULT stay once set (R155). -/
def Adds (s t : State) : Prop :=
  s.recorder.incidents <+: t.recorder.incidents ∧ (s.recorder.overflow = true → t.recorder.overflow = true) ∧
    (s.recorder.pendingEvents.fault = true → t.recorder.pendingEvents.fault = true)

theorem NoIncident.adds {s t : State} (h : NoIncident s t) : Adds s t := by
  obtain ⟨incidents, overflow, fault⟩ := h
  exact ⟨by rw [incidents], by rw [overflow]; exact id, by rw [fault]; exact id⟩

theorem Adds.trans {s t u : State} (h : Adds s t) (k : Adds t u) : Adds s u :=
  ⟨h.1.trans k.1, k.2.1 ∘ h.2.1, k.2.2 ∘ h.2.2⟩

theorem recordIncident_adds (s : State) (r : Report) : Adds s (recordIncident s r) := by
  refine ⟨?_, fun overflow => ?_, fun _ => by rw [recordIncident_events]⟩
  · rw [recordIncident_incidents]
    split
    · exact List.prefix_append _ _
    · exact List.prefix_rfl
  · rw [recordIncident_overflow]
    split
    · exact overflow
    · rfl

/-- What stands in the list is not moved by what is recorded behind it. -/
theorem Records.adds {s t u : State} {r : Report} {x : Reaction} (h : Records s t r x) (k : Adds t u) :
    Records s u r x := by
  obtain ⟨fault, list⟩ := h
  refine ⟨k.2.2 fault, ?_⟩
  split
  · next room =>
    rw [if_pos room] at list
    obtain ⟨rest, behind⟩ := k.1
    rw [← behind, List.getElem?_append_left (List.getElem?_eq_some_iff.mp list).1]
    exact list
  · next full =>
    rw [if_neg full] at list
    exact k.2.1 list

theorem fenceInitiator_adds (s : State) (i : Initiator) : Adds s (fenceInitiator s i) := by
  unfold fenceInitiator
  split
  · exact (NoIncident.refl s).adds
  · exact (judgeChange_noIncident (setStanding s i 320 .fenced) i _ _).adds.trans (recordIncident_adds _ _)

theorem changeMode_noIncident (s : State) (m : Mode) : NoIncident s (changeMode s m) := by
  unfold changeMode
  split
  · exact .refl s
  · exact ⟨rfl, rfl, rfl⟩

theorem completeLong_noIncident (s : State) (r : LongResult) : NoIncident s (completeLong s r) := ⟨rfl, rfl, rfl⟩

theorem NoIncident.of_recorder {s t u : State} (h : NoIncident s t) (same : u.recorder = t.recorder) : NoIncident s u := by
  rw [NoIncident, same]
  exact h

theorem enterConfig_noIncident (s : State) (r : LongResult) : NoIncident s (enterConfig s r) := by
  unfold enterConfig
  dsimp only
  rw [refuseHeld_eq]
  exact ((changeMode_noIncident (s.setControl { s.control with configRequest := false }) .config).of_recorder rfl).trans
    (completeLong_noIncident _ r)

theorem enterHalted_noIncident (s : State) (d : Detail) : NoIncident s (enterHalted s d) := by
  unfold enterHalted
  dsimp only
  rw [refuseHeldWrite_eq]
  exact (changeMode_noIncident (s.setControl { s.control with haltCause := some d }) .halted).of_recorder rfl

/-- Every entry and every group record given up, the engine released (R112). -/
def emptied (s : State) : State :=
  (releaseEngine (s.setGroups { s.groups with table := [], flushTarget := none })).setQueue
    { s.queue with entries := [], outstanding := 0 }

@[simp] theorem emptied_recorder (s : State) : (emptied s).recorder = s.recorder := rfl

/-- The two losses an abandoned path to CONFIG records (R112, R145). -/
def abandonLosses (s : State) : Report × Report :=
  ({ detail := .d611, count := some (BitVec.ofNat 32 (s.queue.entries.filter (fun e => e.group.isNone)).length) },
    { detail := .d612, count := some (BitVec.ofNat 32 (s.queue.entries.filter (fun e => e.group.isSome)).length) })

theorem abandonPath_eq (s : State) :
    abandonPath s =
      enterConfig (recordIncident (recordIncident (emptied s) (abandonLosses s).1) (abandonLosses s).2) .doneWithLoss :=
  rfl

theorem abandonPath_adds (s : State) : Adds s (abandonPath s) := by
  rw [abandonPath_eq]
  have base : Adds s (emptied s) := ((NoIncident.refl s).of_recorder (emptied_recorder s)).adds
  exact (base.trans (recordIncident_adds _ _)).trans
    ((recordIncident_adds _ _).trans (enterConfig_noIncident _ _).adds)

theorem haltReaction_adds (s : State) (d : Detail) : Adds s (haltReaction s d) := by
  have same : Adds s s := (NoIncident.refl s).adds
  unfold haltReaction
  split
  · split
    · exact abandonPath_adds s
    · exact (enterHalted_noIncident s d).adds
  · split
    · exact abandonPath_adds s
    · exact same
  all_goals exact same

theorem carryOut_adds (s : State) (x : Reaction) (r : Report) : Adds s (carryOut s x r) := by
  have same : Adds s s := (NoIncident.refl s).adds
  unfold carryOut
  split
  · exact same
  · exact same
  · split
    · exact fenceInitiator_adds s _
    · exact same
  · exact haltReaction_adds s _

/-- A report stands in the list with its reaction, whatever the reaction records behind it (R155, R158). -/
theorem reportIncident_records (s : State) (r : Report) :
    Records s (reportIncident s r) r (reactionTaken s r.detail) :=
  (recordIncident_records s r).adds (carryOut_adds _ _ r)

/-! ## A reaction that leaves no group STALLED -/

/-- What such a reaction leaves of the blocks, carried out in RUN or HALTED (R110, R148). -/
structure Reacted (s t : State) (x : Reaction) : Prop where
  works : arbiterWorks t
  queue : t.queue = s.queue
  layout : t.layout = s.layout
  writer : t.writer = s.writer
  engine : t.engine = s.engine
  port : t.port = s.port
  access : t.access = s.access ∨ t.access = writeRefused s.access
  confinement : x ≠ .fence → t.confinement = s.confinement
  table : t.groups.table = s.groups.table ∨ t.groups.table = closedTable s.groups.table .halt

theorem carryOut_reacted {s : State} {x : Reaction} {r : Report} (quiet : stallsGroup r.detail = false)
    (serves : serving s = true) : Reacted s (carryOut s x r) x := by
  rcases carryOut_cases (s := s) (x := x) quiet with ⟨accounted, -⟩ | ⟨rfl, run, halts⟩
  · refine ⟨arbiterWorks_of_serving (accounted.serving serves), accounted.queue, accounted.layout, accounted.writer,
      accounted.engine, accounted.port, .inl accounted.access, fun other => ?_, .inl (by rw [accounted.groups])⟩
    cases x with
    | fence => exact absurd rfl other
    | record | none => rfl
    | halt =>
      show (haltReaction s r.detail).confinement = s.confinement
      rw [haltReaction_eq quiet]
      split
      · next run => rw [enterHalted_eq run]; simp
      · rfl
  · rw [halts, enterHalted_eq run]
    exact ⟨.inr (.inr (.inr rfl)), rfl, rfl, rfl, rfl, rfl, .inr rfl, fun _ => rfl, .inr rfl⟩

/-! ## STALL_LIMIT_EXPIRY -/

theorem reactionTaken_congr {s t : State} (layout : t.layout = s.layout) (mode : t.control.mode = s.control.mode)
    (free : t.free = s.free) (d : Detail) : reactionTaken t d = reactionTaken s d := by
  rw [reactionTaken, reactionTaken, shownAsRecord, shownAsRecord, reactionInForce, reactionInForce, serving, serving, layout,
    mode, free]

/-- A held access refused with an incident that leaves no group STALLED, in RUN or HALTED, and the end of the handling (R70,
R75, R110). -/
theorem refusedWithIncident {s : State} {r : Report} (quiet : stallsGroup r.detail = false) (serves : serving s = true) :
    let x := reactionTaken s r.detail
    let t := settle (reportIncident (finishAccess s .refuse) r)
    t.access = { held := none, answer := some .refuse } ∧ Records s t r x ∧ (x ≠ .fence → t.confinement = s.confinement) ∧
      t.queue.entries.map Entry.slot = s.queue.entries.map Entry.slot ∧
      (HandoverWaits s → HaltCarriedOut s t r.detail x) := by
  intro x t
  have reaction : reactionTaken (finishAccess s .refuse) r.detail = x := reactionTaken_congr rfl rfl rfl _
  have recorded := recordIncident_accounted (finishAccess s .refuse) r
  have reacted := carryOut_reacted (x := x) quiet (recorded.serving serves)
  have carried : reportIncident (finishAccess s .refuse) r = carryOut (recordIncident (finishAccess s .refuse) r) x r := by
    rw [reportIncident, reaction]
  have access : (recordIncident (finishAccess s .refuse) r).access = { held := none, answer := some .refuse } :=
    recorded.access
  have refused : (carryOut (recordIncident (finishAccess s .refuse) r) x r).access =
      { held := none, answer := some .refuse } := by
    rcases reacted.access with same | same
    · exact same.trans access
    · rw [same, access]
      rfl
  refine ⟨?_, ?_, fun other => ?_, ?_, fun waits => ?_⟩
  · rw [show t = settle _ from rfl, carried, settle_access_idle reacted.works (by rw [refused]), refused]
  · have stands := reportIncident_records (finishAccess s .refuse) r
    rw [reaction] at stands
    have ended := settle_noIncident reacted.works
    rw [← carried] at ended
    exact Records.of_noIncident ⟨rfl, rfl, rfl⟩ rfl (stands.noIncident ended)
  · have kept := congrArg Served.confinement (settle_served reacted.works)
    rw [← carried] at kept
    refine kept.trans ?_
    rw [carried]
    exact reacted.confinement other
  · have slots := settle_slots reacted.works
    rw [reacted.queue, recorded.queue, ← carried] at slots
    exact slots
  · have result := haltCarriedOut (s := s) (w := recordIncident (finishAccess s .refuse) r) (x := x) quiet serves
      recorded.control (by rw [recorded.groups]; rfl) (.inr access) (recorded.handoverWaits waits)
    rw [← carried] at result
    exact result.2

theorem stallDetail_eq (w : Wait) (d : Detail) : stallDetail w = some d ↔
    (w = .slot ∧ d = .d311) ∨ (w = .groupRecord ∧ d = .d312) ∨ (w = .writingEntry ∧ d = .d313) ∨
      (w = .grant ∧ d = .d314) := by
  cases w <;> simp [stallDetail, eq_comm]

/-- The stall limit leaves no group STALLED (R24). -/
theorem stallDetail_quiet {w : Wait} {d : Detail} (limit : stallDetail w = some d) : stallsGroup d = false := by
  rcases (stallDetail_eq w d).mp limit with ⟨-, rfl⟩ | ⟨-, rfl⟩ | ⟨-, rfl⟩ | ⟨-, rfl⟩ <;> rfl

/-- Settles O35: the refusal with its reaction is `refusedWithIncident`. -/
theorem stallLimitRefusesTheHeldAccess : Obligations.StallLimitRefusesTheHeldAccess := by
  refine ⟨fun s h d powered held waits serves => ?_, fun s powered idle => ?_⟩
  · have limit := (stallDetail_eq h.wait d).mpr waits
    have expires : stallExpiry s =
        settle (reportIncident (finishAccess s .refuse) (accessReport d h.access h.cls.window)) := by
      simp only [stallExpiry, held, limit]
    obtain ⟨access, records, confinement, slots, halt⟩ :=
      refusedWithIncident (r := accessReport d h.access h.cls.window) (stallDetail_quiet limit) serves
    refine ⟨_, ?_, access, records, confinement, slots, halt⟩
    rw [exec_stallLimitExpiry, handle_of_powered powered, expires]
  · rw [exec_stallLimitExpiry, handle_of_powered powered]
    rcases idle with held | ⟨h, held, wait⟩
    · simp only [stallExpiry, held]
    · simp only [stallExpiry, held, wait, stallDetail]

/-! ## The open group closed -/

/-- Outside UNFORMATTED, CONFIG, RUN and HALTED the end of a handling records nothing and changes no group, provided the
shutdown sequencer waits for its operation. -/
theorem settle_outside {s : State} (outside : ¬arbiterWorks s)
    (busy : s.control.mode = .shutdown → s.port.op.isSome = true) :
    (settle s).groups = s.groups ∧ (settle s).recorder = s.recorder := by
  rw [arbiterWorks_iff, not_or] at outside
  rw [settle_of_not_serving (by simpa using outside.1)]
  generalize cleared : s.setPort { s.port with passOver := 0 } = u
  have groups : u.groups = s.groups := by rw [← cleared]; rfl
  have recorder : u.recorder = s.recorder := by rw [← cleared]; rfl
  have control : u.control = s.control := by rw [← cleared]; rfl
  have port : u.port.op = s.port.op := by rw [← cleared]; rfl
  rw [← groups, ← recorder]
  have starts (op : ArrayOp) : (startOp u op).groups = u.groups ∧ (startOp u op).recorder = u.recorder := by
    simp
  cases hop : u.port.op with
  | some op =>
    rw [drivePort_of_busy hop]
    exact ⟨rfl, rfl⟩
  | none =>
    cases mode : u.control.mode with
    | starting =>
      simp only [drivePort, hop, mode]
      split
      · exact ⟨rfl, rfl⟩
      · exact starts _
    | recovering =>
      simp only [drivePort, hop, mode]
      split
      · exact starts _
      · exact ⟨rfl, rfl⟩
    | shutdown =>
      have inFlight := busy (control ▸ mode)
      rw [← port, hop] at inFlight
      cases inFlight
    | ended => simp only [drivePort, hop, mode, and_self]
    | unformatted | config | run | halted => simp [serving, ← control, mode] at outside

/-- What a handling that closes the open group leaves of the group table and of the incidents (R31, R32, R35). -/
structure Closes (s t : State) (cause : CloseCause) : Prop where
  noneOpen : openGroup t = none
  record : ∀ g, openGroup s = some g → ∃ r ∈ t.groups.table,
    r.sequence = g.sequence ∧ r.closeCause = some cause ∧ r.lineCount = g.lineCount
  causes : openGroup s = none → t.groups.table.map Group.closeCause = s.groups.table.map Group.closeCause
  sequences : t.groups.table.map Group.sequence = s.groups.table.map Group.sequence
  incidents : NoIncident s t
  taken : serving s = true → OldestTaken (closedTable s.groups.table cause) t

theorem closedTable_sequences (table : List Group) (cause : CloseCause) :
    (closedTable table cause).map Group.sequence = table.map Group.sequence := by
  simp only [closedTable, List.map_map]
  refine List.map_congr_left fun g _ => ?_
  simp only [Function.comp]
  split <;> rfl

theorem closedTable_of_none {s : State} (none : openGroup s = none) (cause : CloseCause) :
    closedTable s.groups.table cause = s.groups.table := by
  refine (List.map_congr_left fun g record => ?_).trans (List.map_id _)
  have closed : g.state ≠ .open := by simpa using List.find?_eq_none.mp none g record
  exact if_neg closed

theorem closeOpen_closes {s : State} (cause : CloseCause)
    (busy : s.control.mode = .shutdown → s.port.op.isSome = true) : Closes s (settle (closeOpen s cause)) cause := by
  have table := closeOpen_table s cause
  have incidents : NoIncident s (closeOpen s cause) := ⟨rfl, rfl, rfl⟩
  by_cases works : arbiterWorks s
  · have works' : arbiterWorks (closeOpen s cause) := works
    obtain ⟨noneOpen, record⟩ := settle_closes works' table
    exact
      { noneOpen, record
        causes := fun none => by rw [settle_causes works', table, closedTable_of_none none]
        sequences := by rw [settle_sequences works', table, closedTable_sequences]
        incidents := incidents.trans (settle_noIncident works')
        taken := fun serves => table ▸ settle_oldestTaken (s := closeOpen s cause) serves }
  · obtain ⟨groups, recorder⟩ := settle_outside (s := closeOpen s cause) works busy
    have same : (settle (closeOpen s cause)).groups.table = closedTable s.groups.table cause := by rw [groups, table]
    exact
      { noneOpen := openGroup_of_closed (by rw [same]; exact closedTable_open _ _)
        record := fun g opened => by
          obtain ⟨record, state⟩ := openGroup_record opened
          rw [same]
          exact ⟨_, mem_closedTable record state cause, rfl, rfl, rfl⟩
        causes := fun none => by rw [same, closedTable_of_none none]
        sequences := by rw [same, closedTable_sequences]
        incidents := incidents.of_recorder recorder
        taken := fun serves => absurd ((arbiterWorks_iff s).mpr (.inl serves)) works }

/-- The group the engine takes has its first record taken into the running check (R45, log 23). -/
theorem settle_runningCheck {s : State} {g : Group} {e : Entry} {rest : List Entry} (serves : serving s = true)
    (free : ∀ g ∈ s.groups.table, groupInCommit g = false)
    (oldest : s.groups.table.find? (fun x => x.state == .closed) = some g)
    (entries : groupEntries s g.sequence = e :: rest) :
    (settle s).engine.runningCheck = crc32Update 0xFFFFFFFF (recordBytes (lineRecord g.sequence 0 e)) := by
  rw [settle_engine (arbiterWorks_of_serving serves), takeNextGroup_taken serves free oldest, journalCheck, entries]
  rfl

theorem closedTable_free {table : List Group} (free : ∀ g ∈ table, groupInCommit g = false) (cause : CloseCause) :
    ∀ g ∈ closedTable table cause, groupInCommit g = false := by
  intro g record
  obtain ⟨x, member, rfl⟩ := List.mem_map.mp record
  split
  · rfl
  · exact free x member

/-- Settles O36: `closeOpen_closes` in RUN. -/
theorem scanBoundaryClosesTheOpenGroup : Obligations.ScanBoundaryClosesTheOpenGroup := by
  refine fun s powered => ⟨fun run => ?_, fun other => ?_⟩
  · have serves : serving s = true := (serving_iff s).mpr (.inl run)
    have closes := closeOpen_closes (s := s) .boundary (by simp [run])
    refine ⟨settle (closeOpen s .boundary), ?_, closes.noneOpen, closes.record, closes.causes, closes.sequences,
      closes.incidents, closes.taken serves, fun free g e rest oldest entries => ?_⟩
    · rw [exec_scanBRise, handle_of_powered powered, scanBoundary, if_pos run]
    · exact settle_runningCheck (s := closeOpen s .boundary) serves
        (by rw [closeOpen_table]; exact closedTable_free free _) (by rw [closeOpen_table]; exact oldest) entries
  · rw [exec_scanBRise, handle_of_powered powered, scanBoundary, if_neg other]

/-- Settles O46: `closeOpen_closes` in every mode. -/
theorem closeGroupClosesTheOpenGroup : Obligations.CloseGroupClosesTheOpenGroup := by
  intro s listening busy
  have closes := closeOpen_closes .command busy
  refine ⟨settle (closeOpen s .command), ?_, closes.noneOpen, closes.incidents, closes.sequences, closes.record,
    closes.causes, closes.taken⟩
  have answered := answers_of_run listening (c := .closeGroup (crc8 [0x1A])) (arguments := []) (run := closeGroupRun) rfl
  cases opened : openGroup s with
  | none | some g =>
    simp only [closeGroupRun, closeGroupData, opened] at answered
    exact answered

end Sys2Proof.Machine
end

section
/-! A refused access: its incidents, its count and its reaction (R70, R110, R146 to R148, R155). -/

namespace Sys2Proof.Machine

/-! ## The incidents added, in their order -/

/-- The incident list with `added` behind it, in the room there is (R155). -/
structure Logged (s t : State) (added : List Incident) : Prop where
  incidents : t.recorder.incidents = (s.recorder.incidents ++ added).take 16
  overflow : t.recorder.overflow = (s.recorder.overflow || decide (16 < s.recorder.incidents.length + added.length))
  stamp : t.recorder.stamp = s.recorder.stamp

theorem Logged.nil {s t : State} (room : s.recorder.incidents.length ≤ 16) (none : NoIncident s t)
    (stamp : t.recorder.stamp = s.recorder.stamp) : Logged s t [] := by
  obtain ⟨incidents, overflow, -⟩ := none
  refine ⟨?_, ?_, stamp⟩
  · rw [incidents, List.append_nil, List.take_of_length_le room]
  · rw [overflow, List.length_nil, Nat.add_zero, decide_eq_false (by omega), Bool.or_false]

theorem Logged.room {s t : State} {added : List Incident} (h : Logged s t added) :
    t.recorder.incidents.length ≤ 16 := by
  rw [h.incidents, List.length_take]
  exact Nat.min_le_left _ _

theorem Logged.trans {s t u : State} {a b : List Incident} (h : Logged s t a) (k : Logged t u b) :
    Logged s u (a ++ b) := by
  refine ⟨?_, ?_, k.stamp.trans h.stamp⟩
  · rw [k.incidents, h.incidents, ← List.append_assoc]
    by_cases full : 16 ≤ (s.recorder.incidents ++ a).length
    · rw [List.take_append_of_le_length (by rw [List.length_take]; omega), List.take_take, Nat.min_self,
        List.take_append_of_le_length full]
    · rw [List.take_of_length_le (by omega : (s.recorder.incidents ++ a).length ≤ 16)]
  · rw [k.overflow, h.overflow, h.incidents, Bool.or_assoc, ← Bool.decide_or]
    simp only [List.length_take, List.length_append]
    congr 1
    exact decide_eq_decide.mpr (by omega)

theorem recordIncident_logged {s : State} (room : s.recorder.incidents.length ≤ 16) (r : Report) :
    Logged s (recordIncident s r)
      [{ report := r, stamp := s.recorder.stamp, reaction := reactionTaken s r.detail }] := by
  obtain ⟨c, v, f, recorded, -, stamp, -⟩ := recordIncident_accounted s r
  refine ⟨?_, ?_, by rw [recorded]; exact stamp⟩
  · rw [recordIncident_incidents]
    by_cases free : s.recorder.incidents.length < 16
    · rw [if_pos free, List.take_of_length_le (by simp; omega)]
    · rw [if_neg free, List.take_append_of_le_length (by omega), List.take_of_length_le room]
  · rw [recordIncident_overflow]
    by_cases free : s.recorder.incidents.length < 16
    · rw [if_pos free, List.length_singleton, decide_eq_false (by omega), Bool.or_false]
    · rw [if_neg free, List.length_singleton, decide_eq_true (by omega), Bool.or_true]

/-! ## A change of an initiator's account -/

/-- The initiator's account after a change; the other initiators keep counter and standing (R146 to R148). -/
structure Stands (s t : State) (i : Initiator) (counter : Nat) (fenced : Prop) : Prop where
  counter : t.confinement[i].counter = counter
  fenced : t.confinement[i].state = .fenced ↔ fenced
  others : ∀ j : Initiator, j ≠ i →
    t.confinement[j].counter = s.confinement[j].counter ∧ t.confinement[j].state = s.confinement[j].state

theorem Stands.of_same {s t : State} (same : t.confinement = s.confinement) (i : Initiator) :
    Stands s t i s.confinement[i].counter (s.confinement[i].state = .fenced) := by
  rw [← same]
  exact ⟨rfl, .rfl, fun j _ => by rw [same]; exact ⟨rfl, rfl⟩⟩

theorem Stands.congr {s t u : State} {i : Initiator} {c : Nat} {p : Prop} (h : Stands s t i c p)
    (same : u.confinement = t.confinement) : Stands s u i c p := by
  refine ⟨?_, ?_, ?_⟩
  · rw [same]
    exact h.counter
  · rw [same]
    exact h.fenced
  · rw [same]
    exact h.others

theorem Stands.trans {s t u : State} {i : Initiator} {c d : Nat} {p q : Prop} (h : Stands s t i c p)
    (k : Stands t u i d q) : Stands s u i d q :=
  ⟨k.counter, k.fenced, fun j other =>
    ⟨(k.others j other).1.trans (h.others j other).1, (k.others j other).2.trans (h.others j other).2⟩⟩

/-- The account set, judged, and what is recorded of it. -/
theorem judged_stands (s : State) (i : Initiator) (counter : Nat) (old new : Standing) :
    Stands s (judgeChange (setStanding s i counter new) i old new) i counter (new = .fenced) := by
  have judged (j : Initiator) := judgeChange_standing (setStanding s i counter new) i j old new
  refine ⟨?_, ?_, fun j other => ?_⟩
  · rw [(judged i).1, setStanding_same]
  · rw [(judged i).2, setStanding_same]
  · rw [(judged j).1, (judged j).2, setStanding_other s counter new other]
    exact ⟨rfl, rfl⟩

theorem judged_quiet (s : State) (i : Initiator) (counter : Nat) (old new : Standing) :
    NoIncident s (judgeChange (setStanding s i counter new) i old new) ∧
      (judgeChange (setStanding s i counter new) i old new).recorder.stamp = s.recorder.stamp := by
  refine ⟨judgeChange_noIncident (setStanding s i counter new) i old new, ?_⟩
  rw [judgeChange_eq]
  split <;> rfl

/-- The notice of a fencing (R147, R148). -/
def fencing (s : State) (d : Detail) (i : Initiator) (n : Nat) : Incident :=
  { report := { detail := d, initiator := some i, count := some (BitVec.ofNat 32 n) }
    stamp := s.recorder.stamp, reaction := .none }

theorem recordFencing_logged {s u : State} (room : s.recorder.incidents.length ≤ 16) (quiet : NoIncident s u)
    (stamp : u.recorder.stamp = s.recorder.stamp) {d : Detail} (notice : isNotice d = true) (i : Initiator) (n : Nat) :
    Logged s (recordIncident u { detail := d, initiator := some i, count := some (BitVec.ofNat 32 n) })
      [fencing s d i n] := by
  have kept := Logged.nil room quiet stamp
  have recorded := recordIncident_logged kept.room
    { detail := d, initiator := some i, count := some (BitVec.ofNat 32 n) }
  rw [reactionTaken_notice notice, stamp] at recorded
  exact kept.trans recorded

/-- What a change of the counter leaves, with 71/711 where it fences the initiator (R146, R147). -/
theorem changeCounter_leaves {s : State} {i : Initiator} (ok : InitiatorOk s.confinement[i])
    (room : s.recorder.incidents.length ≤ 16) (counter : Nat) :
    Stands s (changeCounter s i counter) i counter (s.confinement[i].state = .fenced ∨ 320 ≤ counter) ∧
      Logged s (changeCounter s i counter)
        (if s.confinement[i].state = .fenced then [] else if 320 ≤ counter then [fencing s .d711 i counter] else []) := by
  by_cases same : s.confinement[i].counter = counter
  · rw [changeCounter_of_same same]
    have below (free : s.confinement[i].state ≠ .fenced) : ¬320 ≤ counter := fun above =>
      free ((ok.2 free).trans ((standingOf_fenced_iff _).mpr (by rw [same]; exact above)))
    refine ⟨⟨same, ?_, fun j _ => ⟨rfl, rfl⟩⟩, ?_⟩
    · exact ⟨.inl, fun either => either.elim id fun above => by_contra fun free => below free above⟩
    · by_cases fenced : s.confinement[i].state = .fenced
      · rw [if_pos fenced]
        exact .nil room (.refl s) rfl
      · rw [if_neg fenced, if_neg (below fenced)]
        exact .nil room (.refl s) rfl
  · by_cases fenced : s.confinement[i].state = .fenced
    · rw [changeCounter_of_fenced same fenced, if_pos fenced]
      refine ⟨⟨by rw [setStanding_same], by rw [setStanding_same]; exact iff_of_true rfl (.inl fenced), fun j other => ?_⟩,
        .nil room ⟨rfl, rfl, rfl⟩ rfl⟩
      rw [setStanding_other s counter .fenced other]
      exact ⟨rfl, rfl⟩
    · have stands := judged_stands s i counter s.confinement[i].state (standingOf counter)
      obtain ⟨quiet, stamp⟩ := judged_quiet s i counter s.confinement[i].state (standingOf counter)
      have selected : s.confinement[i].state = .fenced ∨ 320 ≤ counter ↔ standingOf counter = .fenced := by
        rw [standingOf_fenced_iff]
        exact or_iff_right fenced
      rw [changeCounter_of_moved same fenced, if_neg fenced, selected]
      dsimp only
      by_cases above : 320 ≤ counter
      · rw [if_pos above, if_pos above]
        exact ⟨stands.congr (recordIncident_confinement _ _), recordFencing_logged room quiet stamp rfl i counter⟩
      · rw [if_neg above, if_neg above]
        exact ⟨stands, .nil room quiet stamp⟩

/-- What a FENCE reaction leaves, with 71/712 where it fences the initiator (R148). -/
theorem fenceInitiator_leaves {s : State} (i : Initiator) (room : s.recorder.incidents.length ≤ 16) :
    Stands s (fenceInitiator s i) i (if s.confinement[i].state = .fenced then s.confinement[i].counter else 320) True ∧
      Logged s (fenceInitiator s i) (if s.confinement[i].state = .fenced then [] else [fencing s .d712 i 320]) := by
  by_cases fenced : s.confinement[i].state = .fenced
  · have stays : fenceInitiator s i = s := if_pos fenced
    rw [stays, if_pos fenced, if_pos fenced]
    exact ⟨⟨rfl, iff_of_true fenced trivial, fun j _ => ⟨rfl, rfl⟩⟩, .nil room (.refl s) rfl⟩
  · have stands := judged_stands s i 320 s.confinement[i].state .fenced
    rw [eq_self] at stands
    obtain ⟨quiet, stamp⟩ := judged_quiet s i 320 s.confinement[i].state .fenced
    have fences : fenceInitiator s i =
        recordIncident (judgeChange (setStanding s i 320 .fenced) i s.confinement[i].state .fenced)
          { detail := .d712, initiator := some i, count := some (BitVec.ofNat 32 320) } := if_neg fenced
    rw [fences, if_neg fenced, if_neg fenced]
    exact ⟨stands.congr (recordIncident_confinement _ _), recordFencing_logged room quiet stamp rfl i 320⟩

/-! ## The reaction -/

/-- What the reaction to an incident of this initiator leaves of its account and of the list (R110, R147, R148). -/
theorem carryOut_leaves {s : State} {r : Report} {i : Initiator} (quiet : stallsGroup r.detail = false)
    (mine : r.initiator = some i) (room : s.recorder.incidents.length ≤ 16) (x : Reaction) :
    Stands s (carryOut s x r) i
        (if x = .fence ∧ s.confinement[i].state ≠ .fenced then 320 else s.confinement[i].counter)
        (s.confinement[i].state = .fenced ∨ x = .fence) ∧
      Logged s (carryOut s x r)
        (if x = .fence ∧ s.confinement[i].state ≠ .fenced then [fencing s .d712 i 320] else []) := by
  have unchanged {t : State} (other : x ≠ .fence) (same : t.confinement = s.confinement) (none : NoIncident s t)
      (stamp : t.recorder.stamp = s.recorder.stamp) :
      Stands s t i (if x = .fence ∧ s.confinement[i].state ≠ .fenced then 320 else s.confinement[i].counter)
          (s.confinement[i].state = .fenced ∨ x = .fence) ∧
        Logged s t (if x = .fence ∧ s.confinement[i].state ≠ .fenced then [fencing s .d712 i 320] else []) := by
    simp only [other, false_and, if_false, or_false]
    exact ⟨.of_same same i, .nil room none stamp⟩
  cases x with
  | record | none => exact unchanged nofun rfl (.refl s) rfl
  | halt =>
    have halts : carryOut s .halt r = if s.control.mode = .run then enterHalted s r.detail else s := haltReaction_eq quiet
    rw [halts]
    split
    · next run => exact unchanged nofun (by simp [enterHalted_eq run]) (enterHalted_noIncident s _) (by simp [enterHalted_eq run])
    · exact unchanged nofun rfl (.refl s) rfl
  | fence =>
    have fences : carryOut s .fence r = fenceInitiator s i := by simp only [carryOut, mine]
    obtain ⟨stands, logged⟩ := fenceInitiator_leaves i room
    rw [fences]
    by_cases fenced : s.confinement[i].state = .fenced
    · simp only [fenced, if_true] at stands logged
      simp only [fenced, ne_eq, not_true, and_false, if_false, or_true]
      exact ⟨stands, logged⟩
    · simp only [fenced, if_false] at stands logged
      simp only [fenced, ne_eq, not_false_iff, and_true, if_true, or_true]
      exact ⟨stands, logged⟩

/-! ## The refusal -/

/-- A detail that a check of an access reports: no group is STALLED by it, and 25/250 is for a FENCED initiator (R69). -/
def CheckDetail (s : State) (a : Access) (d : Detail) : Prop :=
  stallsGroup d = false ∧ (d = .d250 → s.confinement[a.initiator].state = .fenced)

theorem byDirection_checkDetail (s : State) (a : Access) {d e : Detail}
    (quiet : (stallsGroup d || stallsGroup e) = false) (other : d ≠ .d250 ∧ e ≠ .d250) :
    CheckDetail s a (byDirection a d e) := by
  obtain ⟨first, second⟩ := Bool.or_eq_false_iff.mp quiet
  unfold byDirection
  split
  · exact ⟨second, fun same => absurd same other.2⟩
  · exact ⟨first, fun same => absurd same other.1⟩

theorem geometryFailure_detail {s : State} {a : Access} {d : Detail} (fails : geometryFailure s.layout a = some d) :
    CheckDetail s a d := by
  rw [geometryFailure_eq] at fails
  split_ifs at fails <;> cases fails <;> exact byDirection_checkDetail s a rfl (by decide)

theorem classFailure_detail {s : State} {a : Access} {c : Classification} {d : Detail}
    (fails : classFailure s a c = some d) : CheckDetail s a d := by
  rw [classFailure_eq] at fails
  split_ifs at fails with closed locked writers fenced <;> cases fails
  · exact byDirection_checkDetail s a rfl (by decide)
  · exact ⟨rfl, nofun⟩
  · exact ⟨rfl, nofun⟩
  · exact ⟨rfl, fun _ => fenced.2⟩

/-- What the checks report of a refused access (R62 to R69). -/
theorem checkAccess_report {s : State} {a : Access} {r : Report} (refused : checkAccess s a = .refused r) :
    r.initiator = some a.initiator ∧ CheckDetail s a r.detail := by
  unfold checkAccess at refused
  split at refused
  · cases refused
  · split at refused
    · next d fails =>
      cases refused
      exact ⟨rfl, geometryFailure_detail fails⟩
    · split at refused
      · cases refused
      · split at refused
        · next d fails =>
          cases refused
          exact ⟨rfl, classFailure_detail fails⟩
        · cases refused

/-- The reaction of 25/250 is RECORD in force, in RUN and HALTED (R157). -/
theorem reactionTaken_fenced (s : State) : reactionTaken s .d250 ≠ .fence := by
  have force : reactionInForce s .d250 = .record := rfl
  rw [reactionTaken, force]
  split
  · exact nofun
  · split <;> exact nofun

theorem serving_of_passes {s : State} {write : Bool} (passes : modePasses s write = true) : serving s = true :=
  (serving_iff s).mpr (((modePasses_iff s write).mp passes).imp And.left And.left)

/-- An access that reaches the checks behind the mode check finds RUN or HALTED (R63). -/
theorem serving_of_refused {s : State} {a : Access} {r : Report} (refused : checkAccess s a = .refused r) :
    serving s = true := by
  refine serving_of_passes (write := opIsWrite a.op) ?_
  by_contra fails
  rw [(checkAccess_modeRefused_iff s a).mpr (by simpa using fails)] at refused
  cases refused

theorem exec_controllerAccess_of_refused {s : State} {a : Access} {r : Report} (powered : s.powered = true)
    (idle : s.access.held = none) (refused : checkAccess s a = .refused r) :
    exec (.controllerAccess a) s = .next (settle (refuseAccess s a r)) := by
  have arm : exec (.controllerAccess a) s = execControllerAccess a s := rfl
  simp [arm, execControllerAccess, powered, idle, refused]

/-- The incidents of a refused access, by the account before the count and after it (R70, R147, R148). -/
theorem refusalIncidents_eq (s : State) (r : Report) (i : Initiator) (counted : Nat) :
    refusalIncidents s r i counted =
      { report := r, stamp := s.recorder.stamp, reaction := reactionTaken s r.detail } ::
        (if s.confinement[i].state = .fenced then []
        else if 320 ≤ counted then [fencing s .d711 i counted]
        else if reactionTaken s r.detail = .fence then [fencing s .d712 i 320]
        else []) := by
  simp only [refusalIncidents, List.map_cons]
  congr 1
  split_ifs <;> rfl

/-- The state of a refused access before its reaction: answered, recorded and counted (R70, R146). -/
def refusalCounted (s : State) (a : Access) (r : Report) : State :=
  let recorded := recordIncident (finishAccess s .refuse) r
  if countedRefusal r.detail then countRefusal recorded a.initiator (opIsWrite a.op) else recorded

theorem refuseAccess_eq (s : State) (a : Access) (r : Report) :
    refuseAccess s a r = carryOut (refusalCounted s a r) (reactionTaken s r.detail) r := rfl

theorem refusalCounted_accounted (s : State) (a : Access) (r : Report) :
    Accounted (finishAccess s .refuse) (refusalCounted s a r) :=
  .ite ((recordIncident_accounted _ r).trans (changeCounter_accounted _ _ _)) (recordIncident_accounted _ r)

/-- What the counter of a refused initiator becomes before the reaction (R70, R146). -/
def refusalCount (s : State) (a : Access) (d : Detail) : Nat :=
  if d = .d250 then s.confinement[a.initiator].counter
  else min 511 (s.confinement[a.initiator].counter + if opIsWrite a.op then 8 else 2)

theorem refusalCounted_leaves {s : State} {a : Access} {r : Report} (sound : Sound s)
    (fencedOnly : r.detail = .d250 → s.confinement[a.initiator].state = .fenced) :
    let i := a.initiator
    let c := refusalCount s a r.detail
    Stands s (refusalCounted s a r) i c (s.confinement[i].state = .fenced ∨ 320 ≤ c) ∧
      Logged s (refusalCounted s a r)
        ({ report := r, stamp := s.recorder.stamp, reaction := reactionTaken s r.detail } ::
          (if s.confinement[i].state = .fenced then [] else if 320 ≤ c then [fencing s .d711 i c] else [])) := by
  intro i c
  have logged : Logged s (recordIncident (finishAccess s .refuse) r)
      [{ report := r, stamp := s.recorder.stamp, reaction := reactionTaken s r.detail }] := by
    have recorded := recordIncident_logged (s := finishAccess s .refuse) sound.incidents r
    rw [reactionTaken_congr (s := s) (t := finishAccess s .refuse) rfl rfl rfl] at recorded
    exact ⟨recorded.incidents, recorded.overflow, recorded.stamp⟩
  by_cases uncounted : r.detail = .d250
  · have stays : refusalCounted s a r = recordIncident (finishAccess s .refuse) r := by
      simp [refusalCounted, countedRefusal, uncounted]
    have fenced : s.confinement[i].state = .fenced := fencedOnly uncounted
    have same : c = s.confinement[i].counter := if_pos uncounted
    rw [stays, if_pos fenced, same]
    exact ⟨⟨rfl, iff_of_true fenced (.inl fenced), fun j _ => ⟨rfl, rfl⟩⟩, logged⟩
  · have counts : refusalCounted s a r = changeCounter (recordIncident (finishAccess s .refuse) r) i c := by
      simp only [refusalCounted, countedRefusal, c, refusalCount, if_neg uncounted]
      exact if_pos (by simpa using uncounted)
    obtain ⟨stands, added⟩ := changeCounter_leaves (s := recordIncident (finishAccess s .refuse) r) (i := i)
      (sound.initiators i) logged.room c
    rw [counts]
    refine ⟨⟨stands.counter, stands.fenced, stands.others⟩, ?_⟩
    have both := logged.trans added
    rw [fencing, logged.stamp] at both
    exact both

theorem changeCounter_adds (s : State) (i : Initiator) (counter : Nat) : Adds s (changeCounter s i counter) := by
  by_cases same : s.confinement[i].counter = counter
  · rw [changeCounter_of_same same]
    exact (NoIncident.refl s).adds
  · by_cases fenced : s.confinement[i].state = .fenced
    · rw [changeCounter_of_fenced same fenced]
      exact NoIncident.adds ⟨rfl, rfl, rfl⟩
    · rw [changeCounter_of_moved same fenced]
      have quiet := (judged_quiet s i counter s.confinement[i].state (standingOf counter)).1.adds
      dsimp only
      split
      · exact quiet.trans (recordIncident_adds _ _)
      · exact quiet

/-- The report of a refusal stands in the list, whatever count and reaction record behind it (R70, R155). -/
theorem refuseAccess_records (s : State) (a : Access) (r : Report) :
    Records s (refuseAccess s a r) r (reactionTaken s r.detail) := by
  have recorded := recordIncident_records (finishAccess s .refuse) r
  rw [reactionTaken_congr (s := s) (t := finishAccess s .refuse) rfl rfl rfl] at recorded
  have counts : Adds (recordIncident (finishAccess s .refuse) r) (refusalCounted s a r) := by
    unfold refusalCounted
    split
    · exact changeCounter_adds _ _ _
    · exact (NoIncident.refl _).adds
  exact ((Records.of_noIncident ⟨rfl, rfl, rfl⟩ rfl recorded).adds counts).adds (carryOut_adds _ _ _)

/-- The account and the list after count and reaction (R70, R146 to R148). -/
theorem refuseAccess_leaves {s : State} {a : Access} {r : Report} (sound : Sound s)
    (refused : checkAccess s a = .refused r) :
    let old := s.confinement[a.initiator]
    let c := refusalCount s a r.detail
    let x := reactionTaken s r.detail
    Stands s (refuseAccess s a r) a.initiator (if x = .fence ∧ old.state ≠ .fenced then max 320 c else c)
        (old.state = .fenced ∨ x = .fence ∨ 320 ≤ c) ∧
      Logged s (refuseAccess s a r)
        (refusalIncidents s r a.initiator (min 511 (old.counter + if opIsWrite a.op then 8 else 2))) := by
  intro old c x
  obtain ⟨mine, quiet, fencedOnly⟩ := checkAccess_report refused
  obtain ⟨counted, logged⟩ := refusalCounted_leaves sound fencedOnly
  obtain ⟨reacted, more⟩ := carryOut_leaves quiet mine logged.room x
  rw [← refuseAccess_eq] at reacted more
  rw [fencing, logged.stamp] at more
  have stands := counted.trans reacted
  have added := logged.trans more
  simp only [counted.counter, ne_eq, counted.fenced] at stands added
  rw [refusalIncidents_eq]
  by_cases fenced : old.state = .fenced
  · have was : s.confinement[a.initiator].state = .fenced := fenced
    simp only [was, true_or, not_true, and_false, if_false, if_true, List.append_nil] at stands added
    simp only [fenced, was, ne_eq, not_true, and_false, if_false, if_true, true_or]
    exact ⟨stands, added⟩
  · have other : r.detail ≠ .d250 := fun same => fenced (fencedOnly same)
    have same : refusalCount s a r.detail = min 511 (old.counter + if opIsWrite a.op then 8 else 2) := if_neg other
    have free : ¬s.confinement[a.initiator].state = .fenced := fenced
    rw [← same]
    simp only [fenced, free, false_or, if_false, not_false_iff, and_true, ne_eq, Nat.not_le, List.cons_append, c] at stands added ⊢
    by_cases above : 320 ≤ refusalCount s a r.detail
    · have capped : max 320 (refusalCount s a r.detail) = refusalCount s a r.detail := Nat.max_eq_right above
      simp only [above, capped, if_true, not_lt.mpr above, and_false, if_false, List.append_nil, ite_self, or_true,
        true_or] at stands added ⊢
      exact ⟨stands, added⟩
    · have raised : max 320 (refusalCount s a r.detail) = 320 := Nat.max_eq_left (not_le.mp above).le
      simp only [above, raised, if_false, not_le.mp above, and_true, List.nil_append, false_or, or_false] at stands added ⊢
      exact ⟨stands, added⟩

/-- Settles O31: the incident, the count and the reaction, one after another. -/
theorem refusedAccessIsCounted : Obligations.RefusedAccessIsCounted := by
  intro a s r powered sound idle refused
  obtain ⟨mine, quiet, -⟩ := checkAccess_report refused
  have serves : serving s = true := serving_of_refused refused
  have accounted := refusalCounted_accounted s a r
  obtain ⟨stands, added⟩ := refuseAccess_leaves sound refused
  have blocks := carryOut_reacted (x := reactionTaken s r.detail) quiet (accounted.serving (s := finishAccess s .refuse) serves)
  rw [← refuseAccess_eq] at blocks
  have kept := settle_served blocks.works
  have quietEnd := settle_noIncident blocks.works
  have answered : (refuseAccess s a r).access = { held := none, answer := some .refuse } := by
    rcases blocks.access with same | same
    · exact same.trans accounted.access
    · rw [same, accounted.access]
      rfl
  have standsEnd := stands.congr (congrArg Served.confinement kept : (settle (refuseAccess s a r)).confinement = _)
  have addedEnd := added.trans (.nil added.room quietEnd (congrArg Served.stamp kept))
  rw [List.append_nil] at addedEnd
  refine ⟨settle (refuseAccess s a r), ?_, ?_, (refuseAccess_records s a r).noIncident quietEnd,
    mem_of_outer ((settle_outer _).trans (refuseAccess_outer s a r)), ?_, ⟨standsEnd.counter, standsEnd.fenced⟩,
    standsEnd.others, ⟨addedEnd.incidents, addedEnd.overflow⟩, fun waits => ?_⟩
  case refine_1 => exact exec_controllerAccess_of_refused powered idle refused
  case refine_2 => rw [settle_access_idle blocks.works (by rw [answered]), answered]
  case refine_3 =>
    have counter : (settle (refuseAccess s a r)).queue.arrivalCounter = (refuseAccess s a r).queue.arrivalCounter :=
      congrArg Served.arrivalCounter kept
    rw [counter, blocks.queue, accounted.queue]
    rfl
  case refine_4 =>
    exact (haltCarriedOut quiet serves accounted.control (by rw [accounted.groups]; rfl) (.inr accounted.access)
      (accounted.handoverWaits waits)).2

end Sys2Proof.Machine
end

section
/-! What the end of a handling grants: READY entries alone are marked, a held access that waits for a grant, a new POSTED entry
(R3, R13, R14, R50, R60, R85). -/

namespace Sys2Proof.Machine

/-! ## Entries that are not READY -/

theorem drainChoice_ready {s : State} {e : Entry} (chosen : drainChoice s = some e) :
    e ∈ s.queue.entries ∧ e.state = .ready := by
  obtain ⟨before, after, entries, ⟨-, ready, -, -⟩, -⟩ := ((lowestPriority_chosen s s.queue.entries []).1 e chosen).split
  exact ⟨by rw [entries]; simp, ready⟩

theorem nextInPlace_ready {s : State} {q : Seq} {e : Entry} (next : nextInPlace s q = some e) :
    e ∈ s.queue.entries ∧ e.state = .ready :=
  ⟨List.mem_of_mem_filter (List.mem_of_find?_eq_some next), by simpa using List.find?_some next⟩

/-- A grant may mark the entry: it is READY, and POSTED or of a group in APPLYING (R13, R50). -/
def Markable (s : State) (e : Entry) : Prop :=
  e.state = .ready ∧ (e.group = none ∨ s.engine.phase = some .applying)

/-- The slot that a granted operation marks holds a READY entry (R13, R50). -/
theorem markedSlot_ready {s : State} {p n : Nat} {op : ArrayOp} {k : Fin 32}
    (choice : arbiterChoice p n (requestsOf s) = some op) (marks : markedSlot op.requester = some k) :
    ∃ e ∈ s.queue.entries, e.slot = k ∧ Markable s e := by
  have marked {e : Entry} {verified : Bool} (ready : e ∈ s.queue.entries ∧ e.state = .ready)
      (kind : e.group = none ∨ s.engine.phase = some .applying) (same : some e.slot = some k) :
      ∃ e ∈ s.queue.entries, e.slot = k ∧ Markable s e :=
    ⟨e, ready.1, Option.some.inj same, ready.2, kind⟩
  rcases arbiterChoice_mem choice with asks | asks | asks | asks
  · simp only [requestsOf, controllerOp] at asks
    split at asks
    · cases asks
    · split at asks
      · split at asks <;> cases asks <;> cases marks
      · cases asks
  · simp only [requestsOf] at asks
    split at asks
    · obtain ⟨e, chosen, rfl⟩ := Option.map_eq_some_iff.mp asks
      exact marked (verified := true) (drainChoice_ready chosen) (.inl (drainChoice_posted chosen)) marks
    · cases asks
  · simp only [requestsOf] at asks
    split at asks
    · unfold engineOp at asks
      split at asks
      · rw [recordOp_requester asks] at marks
        cases marks
      · rw [recordOp_requester asks] at marks
        cases marks
      · next applying =>
        obtain ⟨q, -, next⟩ := Option.bind_eq_some_iff.mp asks
        obtain ⟨e, chosen, rfl⟩ := Option.map_eq_some_iff.mp next
        exact marked (verified := true) (nextInPlace_ready chosen) (.inr applying) marks
      · obtain ⟨n, r⟩ := copyOp_requester asks
        rw [r] at marks
        cases marks
      · cases asks
    · cases asks
  · obtain ⟨m, r | r⟩ := writer_requester asks <;> rw [r] at marks <;> cases marks

/-- A grant leaves the entries that it may not mark as they are. -/
theorem arbitrate_keeps {s : State} (slots : (s.queue.entries.map Entry.slot).Nodup) {e : Entry}
    (entry : e ∈ s.queue.entries) (other : ¬Markable s e) : e ∈ (arbitrate s).queue.entries := by
  cases choice : arbiterChoice s.port.passOver (freeSlotCount s.queue) (requestsOf s) with
  | none =>
    rw [arbitrate_of_none choice]
    exact entry
  | some op =>
    rw [arbitrate_of_choice choice, startOp_queue, markGranted_entries]
    refine List.mem_map.mpr ⟨e, entry, if_neg fun marks => ?_⟩
    obtain ⟨x, member, slot, ready⟩ := markedSlot_ready choice marks
    obtain rfl : x = e := List.inj_on_of_nodup_map slots member entry slot
    exact other ready

theorem drivePort_keepsEntry {s : State} (works : arbiterWorks s) (slots : (s.queue.entries.map Entry.slot).Nodup) {e : Entry}
    (entry : e ∈ s.queue.entries) (other : ¬Markable s e) : e ∈ (drivePort s).queue.entries := by
  cases hop : s.port.op with
  | some op =>
    rw [drivePort_of_busy hop]
    exact entry
  | none =>
    rw [drivePort_of_arbiter works hop]
    split
    · exact entry
    · exact arbitrate_keeps slots entry other

/-- What the drive of the port finds where a handover waits: all but the group table, the engine and the completion of a FLUSH
are as the handling left them (R35, R114, R119). -/
theorem checked_blocks {s : State} (waits : HandoverWaits s) :
    (checked s).queue = s.queue ∧ (checked s).access = s.access ∧ (checked s).port = s.port ∧
      (checked s).layout = s.layout ∧ (checked s).control.mode = s.control.mode ∧
      (checked s).pins = s.pins := by
  obtain ⟨control, recorder, flushed, mode, -⟩ := flushCheck_eq (takeNextGroup s)
  rw [checked_of_waits waits, flushed]
  refine ⟨?_, ?_, ?_, ?_, ?_, ?_⟩
  case refine_5 => exact mode.trans (by rw [takeNextGroup_control])
  all_goals simp

/-- The end of a handling leaves the entries that no grant may mark as they are (R13, R50). -/
theorem settle_unmarked {s : State} (works : arbiterWorks s) (waits : HandoverWaits s)
    (slots : (s.queue.entries.map Entry.slot).Nodup) {e : Entry} (entry : e ∈ s.queue.entries)
    (other : ¬Markable (checked s) e) : e ∈ (settle s).queue.entries := by
  obtain ⟨n, cleared⟩ := clearPassOver_eq (checked s)
  have queue := (checked_blocks waits).1
  rw [settle_eq, cleared]
  refine drivePort_keepsEntry (s := (checked s).setPort { (checked s).port with passOver := n }) (checked_works works) ?_ ?_ other
  · rw [State.setPort_queue, queue]
    exact slots
  · rw [State.setPort_queue, queue]
    exact entry

theorem settle_keeps {s : State} (works : arbiterWorks s) (waits : HandoverWaits s)
    (slots : (s.queue.entries.map Entry.slot).Nodup) {e : Entry} (entry : e ∈ s.queue.entries) (other : e.state ≠ .ready) :
    e ∈ (settle s).queue.entries :=
  settle_unmarked works waits slots entry fun markable => other markable.1

/-- A busy port keeps its operation to the end of the handling (R85). -/
theorem settle_port_busy {s : State} {op : ArrayOp} (waits : HandoverWaits s) (busy : s.port.op = some op) :
    (settle s).port.op = some op := by
  obtain ⟨n, cleared⟩ := clearPassOver_eq (checked s)
  have port : (clearPassOver (checked s)).port.op = some op := by
    rw [cleared, State.setPort_port, (checked_blocks waits).2.2.1]
    exact busy
  rw [settle_eq, drivePort_of_busy port, port]

/-! ## A held access that waits for a grant -/

/-- The operation that a held access asks for (R12, R73). -/
def heldOp (h : Held) : ArrayOp :=
  if opIsWrite h.access.op then
    lineWrite (.throughWrite h.access h.cls.window) h.cls.verify (accessLine h.access) (accessData h.access)
      (accessBytes h.access)
  else lineRead (.controllerRead h.access h.cls.window) (accessLine h.access)

theorem controllerOp_of_grant {s : State} {h : Held} (held : s.access.held = some h) (wait : h.wait = .grant) :
    controllerOp s = some (heldOp h) := by
  simp only [controllerOp, held, wait, if_true, heldOp]
  split <;> rfl

theorem drivePort_controller {s : State} {h : Held} (works : arbiterWorks s) (held : s.access.held = some h)
    (wait : h.wait = .grant) :
    ((drivePort s).access = s.access ∧ (drivePort s).port.op.isSome = true) ∨
      ((drivePort s).access = { s.access with held := some { h with wait := .operation } } ∧
        (drivePort s).port.op = some { heldOp h with presented := s.pins.arrayReady }) := by
  cases hop : s.port.op with
  | some op =>
    rw [drivePort_of_busy hop, hop]
    exact .inl ⟨rfl, rfl⟩
  | none =>
    have asks : (requestsOf s).controller = some (heldOp h) := controllerOp_of_grant held wait
    have due : ¬readDue s = true := by
      rw [readDue_iff]
      rintro ⟨x, same, waiting, -⟩
      obtain rfl : h = x := Option.some.inj (held.symm.trans same)
      rw [wait] at waiting
      cases waiting
    rw [drivePort_of_arbiter works hop, if_neg due]
    cases choice : arbiterChoice s.port.passOver (freeSlotCount s.queue) (requestsOf s) with
    | none =>
      rw [arbiterChoice_none choice] at asks
      cases asks
    | some op =>
      rw [arbitrate_of_choice choice, startOp_access, startOp_port]
      rcases markGranted_access (s.setPort { s.port with passOver := passOverAfter s.port.passOver (requestsOf s) op })
        op.requester with same | ⟨access, x, same, marked⟩
      · exact .inl ⟨same, rfl⟩
      · obtain rfl : h = x := Option.some.inj (held.symm.trans same)
        obtain rfl : heldOp h = op := Option.some.inj (asks.symm.trans (choice_controller choice access))
        exact .inr ⟨marked, rfl⟩

/-- A held access that waits for a grant goes on waiting, with another operation in flight, or its own operation has been
granted (R60, R73, R85). -/
theorem settle_controller {s : State} {h : Held} (works : arbiterWorks s) (waits : HandoverWaits s)
    (held : s.access.held = some h) (wait : h.wait = .grant) :
    ((settle s).access = s.access ∧ (settle s).port.op.isSome = true) ∨
      ((settle s).access = { s.access with held := some { h with wait := .operation } } ∧
        (settle s).port.op = some { heldOp h with presented := s.pins.arrayReady }) := by
  obtain ⟨n, cleared⟩ := clearPassOver_eq (checked s)
  obtain ⟨-, access, -, -, -, pins⟩ := checked_blocks waits
  have driven := drivePort_controller (s := (checked s).setPort { (checked s).port with passOver := n }) (h := h)
    (checked_works works) (by rw [State.setPort_access, access]; exact held) wait
  rw [← cleared, ← settle_eq, cleared] at driven
  simp only [State.setPort_access, access, State.setPort_pins, pins] at driven
  exact driven

/-! ## A POSTED entry that can drain -/

theorem drainChoice_isSome {s : State} {before after : List Entry} {e : Entry}
    (entries : s.queue.entries = before ++ e :: after) (eligible : Eligible [] before e) : (drainChoice s).isSome = true := by
  by_contra none
  rw [Bool.not_eq_true, Option.isSome_eq_false_iff, Option.isNone_iff_eq_none] at none
  exact (lowestPriority_chosen s s.queue.entries []).2 none before e after entries eligible

/-- With an entry that can drain in the queue, and no access held, the end of a handling does not leave the port free
(R13, R85). -/
theorem settle_drains {s : State} (serves : serving s = true) (waits : HandoverWaits s) (carried : Carried s)
    (idle : s.access.held = none) {before after : List Entry} {e : Entry}
    (entries : s.queue.entries = before ++ e :: after) (eligible : Eligible [] before e) :
    (settle s).port.op.isSome = true := by
  have works := arbiterWorks_of_serving serves
  have settles := settle_settles works waits
  by_contra free
  rw [Bool.not_eq_true, Option.isSome_eq_false_iff, Option.isNone_iff_eq_none] at free
  have servesEnd : serving (settle s) = true := by
    rw [serving, settles.mode]
    exact serves
  have nothing := (settle_waits s).requests (.inl servesEnd) free fun h held => by
    rw [settle_access_idle works idle, idle] at held
    cases held
  obtain ⟨mark, queue, marks⟩ := settles.entries
  have same : (settle s).queue.entries = s.queue.entries := by
    rw [queue]
    refine (List.map_congr_left fun x entry => ?_).trans (List.map_id _)
    refine (marks x).resolve_right fun ⟨_, writing⟩ => ?_
    refine (settle_carried carried).free free (mark x) ?_ (by rw [writing])
    rw [queue]
    exact List.mem_map_of_mem entry
  have chosen := drainChoice_isSome (s := settle s) (same.trans entries) eligible
  have asks : drainOp (settle s) = none := by
    have drain := congrArg Requests.drain nothing
    simpa [requestsOf, servesEnd] using drain
  rw [drainOp, Option.map_eq_none_iff] at asks
  rw [asks] at chosen
  cases chosen

end Sys2Proof.Machine
end

section
/-! Accesses taken by their class: POSTED, GROUPED and THROUGH writes, reads, and held accesses taken anew (R5 to R12, R26 to
R29, R72, R73). -/

namespace Sys2Proof.Machine

/-! ## FREE slots -/

theorem LowestFree.unique {s : State} {j k : Fin 32} (h : LowestFree s j) (i : LowestFree s k) : j = k := by
  have least {a b : Fin 32} (free : LowestFree s a) (other : LowestFree s b) : ¬a < b := fun below => by
    obtain ⟨e, entry, slot⟩ := other.2 a below
    exact free.1 e entry slot
  exact le_antisymm (not_lt.mp (least i h)) (not_lt.mp (least h i))

theorem LowestFree.notFull {s : State} {k : Fin 32} (h : LowestFree s k) : ¬QueueFull s := fun full => by
  obtain ⟨e, entry, slot⟩ := full k
  exact h.1 e entry slot

theorem slotFree_false_iff (q : PostingQueue) (k : Fin 32) : slotFree q k.val = false ↔ ∃ e ∈ q.entries, e.slot = k := by
  rw [← Bool.not_eq_true, slotFree_iff]
  push Not
  simp [Fin.ext_iff]

/-- The lowest-numbered FREE slot, or none (R5). -/
theorem lowestFreeSlot_cases (s : State) :
    (∃ k, lowestFreeSlot s.queue = some k ∧ LowestFree s k) ∨ (lowestFreeSlot s.queue = none ∧ QueueFull s) := by
  have first : (freeSlots s.queue).head? = (List.range 32).find? (slotFree s.queue) := List.head?_filter
  cases found : (List.range 32).find? (slotFree s.queue) with
  | none =>
    refine .inr ⟨by rw [lowestFreeSlot, first, found]; rfl, fun k => ?_⟩
    have taken := List.find?_eq_none.mp found k.val (List.mem_range.mpr k.isLt)
    exact (slotFree_false_iff _ k).mp (by simpa using taken)
  | some n =>
    obtain ⟨free, inside, below⟩ := List.find?_range_eq_some.mp found
    have lt : n < 32 := List.mem_range.mp inside
    have slot : lowestFreeSlot s.queue = some ⟨n, lt⟩ := by
      rw [lowestFreeSlot, first, found]
      exact congrArg some (Fin.ext (Nat.mod_eq_of_lt lt))
    refine .inl ⟨⟨n, lt⟩, slot, lowestFreeSlot_free slot, fun j less => ?_⟩
    exact (slotFree_false_iff _ j).mp (by simpa using below j.val less)

theorem lowestFreeSlot_of_full {s : State} (full : QueueFull s) : lowestFreeSlot s.queue = none := by
  rcases lowestFreeSlot_cases s with ⟨k, -, free⟩ | ⟨none, -⟩
  · exact absurd full free.notFull
  · exact none

theorem lowestFreeSlot_of_lowest {s : State} {k : Fin 32} (free : LowestFree s k) : lowestFreeSlot s.queue = some k := by
  rcases lowestFreeSlot_cases s with ⟨j, slot, other⟩ | ⟨-, full⟩
  · rw [slot, other.unique free]
  · exact absurd full free.notFull

/-! ## The entry of a write -/

theorem newEntry_from (s : State) {h : Held} (ok : aligned h.access = true) (k : Fin 32) (group : Option Seq) :
    EntryFrom h.access h.cls.window group s.queue.arrivalCounter (newEntry s h k group) where
  line := rfl
  data n inside := by
    by_cases enabled : (accessBytes h.access).getLsbD n = true
    · rw [if_pos enabled]
      rfl
    · rw [if_neg enabled]
      exact outside_zero_iff.mp (accessData_outside ok) n inside (by simpa using enabled)
  valid := rfl
  window i present := by simp [newEntry, present]
  group := rfl
  lastWriter := rfl
  arrival := rfl
  flushMark := rfl

theorem EntryFrom.marked {a : Access} {w : Option WindowIndex} {group : Option Seq} {arrival : BitVec 32} {e : Entry}
    (h : EntryFrom a w group arrival e) (st : EntryState) : EntryFrom a w group arrival { e with state := st } :=
  ⟨h.line, h.data, h.valid, h.window, h.group, h.lastWriter, h.arrival, h.flushMark⟩

theorem mergeEntry_from (a : Access) (e : Entry) : MergedFrom a e (mergeEntry a e) where
  slot := rfl
  line := rfl
  data _ inside := byteOf_mergeBytes _ _ _ inside
  valid := rfl
  window := rfl
  group := rfl
  lastWriter := rfl
  arrival := rfl
  flushMark := rfl

theorem MergedFrom.marked {a : Access} {e x : Entry} (h : MergedFrom a e x) (st : EntryState) :
    MergedFrom a e { x with state := st } :=
  ⟨h.slot, h.line, h.data, h.valid, h.window, h.group, h.lastWriter, h.arrival, h.flushMark⟩

theorem mergeInto_mem {s : State} {e : Entry} (entry : e ∈ s.queue.entries) (a : Access) :
    mergeEntry a e ∈ (mergeInto s e.slot a).queue.entries :=
  List.mem_map.mpr ⟨e, entry, by simp⟩

/-! ## A write answered DONE -/

theorem finishWrite_accounted (s : State) (i : Initiator) : Accounted (finishAccess s (.done [])) (finishWrite s i) :=
  changeCounter_accounted _ _ _

theorem finishWrite_done {s w : State} {a : Access} (ok : InitiatorOk s.confinement[a.initiator])
    (same : w.confinement = s.confinement) (room : w.recorder.incidents.length ≤ 16) :
    WriteDone s (finishWrite w a.initiator) a := by
  have counted := (changeCounter_leaves (s := finishAccess w (.done [])) (i := a.initiator)
    (by rw [show (finishAccess w (.done [])).confinement = s.confinement from same]; exact ok) room
    (w.confinement[a.initiator].counter - 1)).1.counter
  refine ⟨(finishWrite_accounted w a.initiator).access, counted.trans ?_⟩
  rw [same]

theorem WriteDone.settle {s u : State} {a : Access} (done : WriteDone s u a) (works : arbiterWorks u) :
    WriteDone s (settle u) a := by
  obtain ⟨access, counter⟩ := done
  have confinement : (Machine.settle u).confinement = u.confinement := congrArg Served.confinement (settle_served works)
  exact ⟨by rw [settle_access_idle works (by rw [access]), access], by rw [confinement, counter]⟩

/-- An access that does not wait for a grant stays held as it is to the end of the handling. -/
theorem HeldFor.settle {u : State} {h : Held} {w : Wait} (held : HeldFor u h w) (other : w ≠ .grant)
    (works : arbiterWorks u) (waits : HandoverWaits u) : HeldFor (settle u) h w := by
  rcases (settle_settles works waits).access with same | ⟨-, x, holds, grant, -⟩
  · exact same.trans held
  · rw [held] at holds
    obtain rfl := Option.some.inj holds
    exact absurd grant other

/-! ## POSTED writes -/

/-- A settled state has each entry of the handling, marked or not (R3). -/
theorem Settles.entry {u t : State} (h : Settles u t) {e : Entry} (entry : e ∈ u.queue.entries) :
    ∃ x ∈ t.queue.entries, x = e ∨ (u.port.op = none ∧ x = { e with state := .writing }) := by
  obtain ⟨mark, queue, marks⟩ := h.entries
  exact ⟨mark e, by rw [queue]; exact List.mem_map_of_mem entry, marks e⟩

theorem Settles.queue_length {u t : State} (h : Settles u t) : t.queue.entries.length = u.queue.entries.length := by
  obtain ⟨mark, queue, -⟩ := h.entries
  rw [queue, List.length_map]

theorem Settles.arrivalCounter {u t : State} (h : Settles u t) : t.queue.arrivalCounter = u.queue.arrivalCounter := by
  obtain ⟨mark, queue, -⟩ := h.entries
  rw [queue]

theorem Settles.slots {u t : State} (h : Settles u t) :
    t.queue.entries.map Entry.slot = u.queue.entries.map Entry.slot := by
  obtain ⟨mark, queue, marks⟩ := h.entries
  rw [queue, List.map_map]
  refine List.map_congr_left fun e _ => ?_
  rcases marks e with same | ⟨-, marked⟩
  · exact congrArg Entry.slot same
  · exact (congrArg Entry.slot marked).trans rfl

theorem handoverWaits_of_noRequest {s : State} (quiet : s.control.configRequest = false) : HandoverWaits s :=
  fun request => Bool.noConfusion (quiet.symm.trans request)

theorem takePosted_merges {s : State} {h : Held} {e : Entry} (found : postedEntry s (accessLine h.access) = some e) :
    takePosted s h = finishWrite (mergeInto s e.slot h.access) h.access.initiator := by
  simp only [takePosted, found]

theorem takePosted_creates {s : State} {h : Held} {k : Fin 32} (found : postedEntry s (accessLine h.access) = none)
    (free : lowestFreeSlot s.queue = some k) :
    takePosted s h = finishWrite (createEntry s h k none) h.access.initiator := by
  simp only [takePosted, found, free]

theorem takePosted_waits {s : State} {h : Held} (found : postedEntry s (accessLine h.access) = none)
    (full : lowestFreeSlot s.queue = none) : takePosted s h = holdAccess s { h with wait := .slot } := by
  simp only [takePosted, found, full]

/-- With no entry to take the write, and no WRITING one in a free port, no POSTED entry of its line is left (R5, R9). -/
theorem postedEntry_none {s : State} {line : LineNo} (found : postedEntry s line = none) {e : Entry}
    (entry : e ∈ s.queue.entries) (posted : e.group = none) (quiet : e.state ≠ .writing) : e.line ≠ line := by
  have no := List.find?_eq_none.mp found e entry
  simp only [posted, Option.isNone_none, Bool.and_true, Bool.and_eq_true, beq_iff_eq, bne_iff_ne, not_and, not_not] at no
  exact fun same => quiet (no same)

/-- What becomes of a write of a POSTED line in RUN, with no configuration request pending (R5, R8, R72). -/
theorem takePosted_taken {s : State} {h : Held} (sound : Sound s) (carried : WritingCarried s)
    (ok : aligned h.access = true) (run : s.control.mode = .run) (quiet : s.control.configRequest = false) :
    PostedTaken s h (settle (takePosted s h)) := by
  have ends {u : State} (control : u.control = s.control) : serving u = true ∧ HandoverWaits u :=
    ⟨(serving_iff u).mpr (.inl (by rw [control]; exact run)), handoverWaits_of_noRequest (by rw [control]; exact quiet)⟩
  unfold PostedTaken
  cases found : postedEntry s (accessLine h.access) with
  | some e =>
    have entry : e ∈ s.queue.entries := List.mem_of_find?_eq_some found
    rw [takePosted_merges found]
    have accounted := finishWrite_accounted (mergeInto s e.slot h.access) h.access.initiator
    obtain ⟨serves, waits⟩ := ends accounted.control
    have works := arbiterWorks_of_serving serves
    have settles := settle_settles works waits
    have done : WriteDone s (finishWrite (mergeInto s e.slot h.access) h.access.initiator) h.access :=
      finishWrite_done (sound.initiators _) rfl sound.incidents
    obtain ⟨x, member, marked⟩ := settles.entry (by rw [accounted.queue]; exact mergeInto_mem entry h.access)
    split
    · next x' same =>
      obtain rfl : e = x' := Option.some.inj (found.symm.trans same)
      refine ⟨done.settle works, ?_, ?_, x, member, ?_⟩
      · rw [settles.arrivalCounter, accounted.queue]
        rfl
      · rw [settles.queue_length, accounted.queue]
        exact List.length_map _
      · rcases marked with rfl | ⟨free, rfl⟩
        · exact ⟨mergeEntry_from _ _, .inl rfl⟩
        · exact ⟨(mergeEntry_from _ _).marked _, .inr ⟨by rw [accounted.port] at free; exact free, rfl⟩⟩
    · next same => cases found.symm.trans same
  | none =>
    split
    · next x' same => cases found.symm.trans same
    · refine ⟨fun k free => ?_, fun full => ?_⟩
      · rw [takePosted_creates found (lowestFreeSlot_of_lowest free)]
        have accounted := finishWrite_accounted (createEntry s h k none) h.access.initiator
        obtain ⟨serves, waits⟩ := ends accounted.control
        have works := arbiterWorks_of_serving serves
        have settles := settle_settles works waits
        have done : WriteDone s (finishWrite (createEntry s h k none) h.access.initiator) h.access :=
          finishWrite_done (sound.initiators _) rfl sound.incidents
        have entries : (finishWrite (createEntry s h k none) h.access.initiator).queue.entries =
            s.queue.entries ++ newEntry s h k none :: [] := by rw [accounted.queue]; rfl
        obtain ⟨x, member, marked⟩ := settles.entry (e := newEntry s h k none) (by rw [entries]; simp)
        refine ⟨done.settle works, ?_, ?_, ?_, x, member, ?_⟩
        · rw [settles.arrivalCounter, accounted.queue]
          rfl
        · rw [settles.queue_length, entries, List.length_append, List.length_singleton]
        · cases hop : s.port.op with
          | some op => rw [settle_port_busy waits (by rw [accounted.port]; exact hop)]; rfl
          | none =>
            have still : Carried s := ⟨sound.queue.slots, carried⟩
            refine settle_drains serves waits ((still.createEntry (lowestFreeSlot_of_lowest free)).finishWrite _)
              (by rw [accounted.access]; rfl) entries ⟨rfl, rfl, by simp, fun y entry posted => ?_⟩
            exact postedEntry_none found entry posted (still.free hop y entry)
        · rcases marked with rfl | ⟨free, rfl⟩
          · exact ⟨rfl, newEntry_from s ok k none, .inl rfl⟩
          · exact ⟨rfl, (newEntry_from s ok k none).marked _, .inr ⟨by rw [accounted.port] at free; exact free, rfl⟩⟩
      · rw [takePosted_waits found (lowestFreeSlot_of_full full)]
        obtain ⟨serves, waits⟩ := ends (u := holdAccess s { h with wait := .slot }) rfl
        have works := arbiterWorks_of_serving serves
        have settles := settle_settles works waits
        exact ⟨HeldFor.settle (w := .slot) rfl nofun works waits, settles.arrivalCounter, settles.slots⟩

/-! ## GROUPED writes -/

theorem settle_lineCounts {s : State} (works : arbiterWorks s) :
    (settle s).groups.table.map Group.lineCount = s.groups.table.map Group.lineCount := by
  have same := congrArg (List.map Group.lineCount) (congrArg Served.records (settle_served works))
  simpa [served, Group.still, Function.comp_def] using same

/-- The record of a group that a write has just opened, or that a HALT in the same handling has closed (R27, R28). -/
def openedRecord (q : Seq) (state : GroupState) (cause : Option CloseCause) : Group :=
  { sequence := q, state := state, lineCount := 1, closeCause := cause, journalPosition := 0 }

/-- A record that the engine does not take is not changed by what it takes (R35). -/
theorem takeNextGroup_other {s : State} {g : Group} (record : g ∈ s.groups.table)
    (other : ∀ x, (∀ y ∈ s.groups.table, groupInCommit y = false) →
      s.groups.table.find? (fun y => y.state == .closed) = some x → x.sequence ≠ g.sequence) :
    g ∈ (takeNextGroup s).groups.table := by
  rcases takeNextGroup_cases s with same | ⟨mode, free, x, oldest⟩
  · rw [same]
    exact record
  · rw [takeNextGroup_taken mode free oldest]
    refine List.mem_map.mpr ⟨g, record, if_neg ?_⟩
    simpa using (other x free oldest).symm

/-- The record of a group just opened after the engine has looked for a group (R27, R35). -/
theorem takeNextGroup_opened {u : State} {older : List Group} {q : Seq} {state : GroupState} {cause : Option CloseCause}
    (table : u.groups.table = older ++ [openedRecord q state cause])
    (passed : state = .open ∨ ∃ g ∈ older, g.state = .closed) :
    ∃ r ∈ (takeNextGroup u).groups.table, r.sequence = q ∧ r.lineCount = 1 ∧ r.journalPosition = 0 ∧
      ((∀ x ∈ older, x.sequence ≠ q) → r.state = state ∧ r.closeCause = cause) := by
  have record : openedRecord q state cause ∈ u.groups.table := by rw [table]; simp
  by_cases fresh : ∀ x ∈ older, x.sequence ≠ q
  · refine ⟨_, takeNextGroup_other record fun x free oldest => ?_, rfl, rfl, rfl, fun _ => ⟨rfl, rfl⟩⟩
    refine fresh x ?_
    rw [table, List.find?_append] at oldest
    cases found : older.find? (fun y => y.state == .closed) with
    | some y =>
      rw [found] at oldest
      obtain rfl : y = x := Option.some.inj oldest
      exact List.mem_of_find?_eq_some found
    | none =>
      rw [found] at oldest
      exfalso
      rcases passed with rfl | ⟨g, member, closed⟩
      · simp [openedRecord] at oldest
      · simpa [closed] using List.find?_eq_none.mp found g member
  · rcases takeNextGroup_cases u with same | ⟨mode, free, x, oldest⟩
    · rw [same]
      exact ⟨_, record, rfl, rfl, rfl, fun unused => absurd unused fresh⟩
    · rw [takeNextGroup_taken mode free oldest]
      refine ⟨_, List.mem_map.mpr ⟨_, record, rfl⟩, ?_⟩
      split <;> exact ⟨rfl, rfl, rfl, fun unused => absurd unused fresh⟩

/-- A group that a write has opened, at the end of the handling (R27, R28). -/
theorem groupOpened_settle {s u : State} {h : Held} {k : Fin 32} {older : List Group} {state : GroupState}
    {cause : Option CloseCause} (works : arbiterWorks u) (waits : HandoverWaits u) (sound : Sound u)
    (ok : aligned h.access = true) (done : WriteDone s u h.access)
    (next : u.groups.nextSequence = s.groups.nextSequence + 1)
    (table : u.groups.table = older ++ [openedRecord s.groups.nextSequence state cause])
    (same : older.map Group.sequence = s.groups.table.map Group.sequence)
    (passed : state = .open ∨ ∃ g ∈ older, g.state = .closed)
    (entry : newEntry s h k (some s.groups.nextSequence) ∈ u.queue.entries) :
    GroupOpened s h k state cause (settle u) := by
  obtain ⟨r, record, sequence, lines, position, fresh⟩ := takeNextGroup_opened table passed
  have groups := settle_groups works
  refine ⟨done.settle works, ?_, ?_, ⟨r, by rw [groups]; exact record, sequence, lines, position, fun unused => ?_⟩,
    _, settle_keeps works waits sound.queue.slots entry nofun, rfl, rfl, newEntry_from s ok k _⟩
  · exact (congrArg Served.nextSequence (settle_served works)).trans next
  · have length := congrArg List.length (settle_sequences works)
    have before := congrArg List.length same
    simp only [List.length_map] at length before
    rw [length, table, List.length_append, List.length_singleton, before]
  · refine fresh fun x member same' => ?_
    have : x.sequence ∈ s.groups.table.map Group.sequence := same ▸ List.mem_map_of_mem member
    obtain ⟨y, old, bears⟩ := List.mem_map.mp this
    exact unused y old (bears.trans same')

theorem takeInNewGroup_opens {s : State} {h : Held} {k : Fin 32} (room : s.groups.table.length < 4)
    (free : lowestFreeSlot s.queue = some k) : takeInNewGroup s h = openGroupWith s h k := by
  simp [takeInNewGroup, Config.groupRecords, room, free]

theorem takeInNewGroup_noSlot {s : State} {h : Held} (room : s.groups.table.length < 4)
    (full : lowestFreeSlot s.queue = none) : takeInNewGroup s h = holdAccess s { h with wait := .slot } := by
  simp [takeInNewGroup, Config.groupRecords, room, full]

theorem takeInNewGroup_noRecord {s : State} {h : Held} (full : 4 ≤ s.groups.table.length) :
    takeInNewGroup s h = holdAccess s { h with wait := .groupRecord } := by
  simp [takeInNewGroup, Config.groupRecords, not_lt.mpr full]

theorem newEntry_congr {s w : State} (queue : w.queue = s.queue) (h : Held) (k : Fin 32) (group : Option Seq) :
    newEntry w h k group = newEntry s h k group := by
  rw [newEntry, newEntry, queue]

/-- A group opened with its first entry, before the write is answered (R27). -/
def groupBegun (s : State) (h : Held) (k : Fin 32) : State :=
  createEntry (s.setGroups
    { s.groups with
      table := s.groups.table ++ [openedRecord s.groups.nextSequence .open none]
      nextSequence := s.groups.nextSequence + 1 }) h k (some s.groups.nextSequence)

theorem openGroupWith_accounted (s : State) (h : Held) (k : Fin 32) :
    Accounted (finishAccess (groupBegun s h k) (.done [])) (openGroupWith s h k) :=
  finishWrite_accounted _ _

/-- The state `w` in which a write needs a new group differs from `s` in its group table, its incidents and the events (R26,
R28). -/
structure NeedsGroup (s w : State) (older : List Group) : Prop where
  queue : w.queue = s.queue
  groups : w.groups = { s.groups with table := older }
  confinement : w.confinement = s.confinement
  room : w.recorder.incidents.length ≤ 16
  sequences : older.map Group.sequence = s.groups.table.map Group.sequence

theorem NeedsGroup.length {s w : State} {older : List Group} (n : NeedsGroup s w older) :
    w.groups.table.length = s.groups.table.length := by
  rw [n.groups, ← List.length_map (f := Group.sequence), n.sequences, List.length_map]

/-- What opening a group leaves before the handling ends (R27). -/
theorem NeedsGroup.opens {s w : State} {older : List Group} (n : NeedsGroup s w older) (sound : Sound s) (h : Held)
    (k : Fin 32) :
    let v := openGroupWith w h k
    WriteDone s v h.access ∧ v.groups.nextSequence = s.groups.nextSequence + 1 ∧
      v.groups.table = older ++ [openedRecord s.groups.nextSequence .open none] ∧
      newEntry s h k (some s.groups.nextSequence) ∈ v.queue.entries := by
  intro v
  have wrote := openGroupWith_accounted w h k
  have next : w.groups.nextSequence = s.groups.nextSequence := by rw [n.groups]
  refine ⟨finishWrite_done (sound.initiators _) n.confinement n.room, ?_, ?_, ?_⟩
  · rw [wrote.groups, ← next]
    rfl
  · rw [wrote.groups, ← next]
    exact congrArg (· ++ _) (congrArg GroupTracker.table n.groups)
  · rw [wrote.queue, ← next, ← newEntry_congr n.queue]
    exact List.mem_append_right _ (List.mem_singleton.mpr rfl)

theorem NeedsGroup.takes {s w : State} {older : List Group} (n : NeedsGroup s w older) {h : Held} {k : Fin 32}
    (room : s.groups.table.length < 4) (lowest : LowestFree s k) : takeInNewGroup w h = openGroupWith w h k :=
  takeInNewGroup_opens (by rw [n.length]; exact room) (by rw [n.queue]; exact lowestFreeSlot_of_lowest lowest)

theorem NeedsGroup.noSlot {s w : State} {older : List Group} (n : NeedsGroup s w older) {h : Held}
    (room : s.groups.table.length < 4) (full : QueueFull s) : takeInNewGroup w h = holdAccess w { h with wait := .slot } :=
  takeInNewGroup_noSlot (by rw [n.length]; exact room) (by rw [n.queue]; exact lowestFreeSlot_of_full full)

theorem NeedsGroup.noRecord {s w : State} {older : List Group} (n : NeedsGroup s w older) {h : Held}
    (full : 4 ≤ s.groups.table.length) : takeInNewGroup w h = holdAccess w { h with wait := .groupRecord } :=
  takeInNewGroup_noRecord (by rw [n.length]; exact full)

/-- A write that needs a new group at the end of its handling (R26 step 4): `u` is the state it is settled in, with no more than
accounts and incidents behind the write. -/
theorem NeedsGroup.taken {s w u : State} {h : Held} {older : List Group} (n : NeedsGroup s w older) (sound : Sound s)
    (ok : aligned h.access = true) (accounted : Accounted (takeInNewGroup w h) u) (works : arbiterWorks u)
    (waits : HandoverWaits u) (soundU : Sound u) :
    (u.confinement = (takeInNewGroup w h).confinement → s.groups.table.length < 4 →
        ∀ k, LowestFree s k → GroupOpened s h k .open none (settle u)) ∧
      (s.groups.table.length < 4 → QueueFull s → HeldFor (settle u) h .slot) ∧
      (4 ≤ s.groups.table.length → HeldFor (settle u) h .groupRecord) := by
  refine ⟨fun counts room k lowest => ?_, fun room full => ?_, fun full => ?_⟩
  · obtain ⟨⟨access, counter⟩, next, table, entry⟩ := n.opens sound h k
    rw [n.takes room lowest] at accounted counts
    refine groupOpened_settle (older := older) works waits soundU ok ⟨accounted.access.trans access, ?_⟩ ?_ ?_ n.sequences
      (.inl rfl) ?_
    · rw [counts, counter]
    · rw [accounted.groups, next]
    · rw [accounted.groups, table]
    · rw [accounted.queue]
      exact entry
  · rw [n.noSlot room full] at accounted
    exact HeldFor.settle accounted.access nofun works waits
  · rw [n.noRecord full] at accounted
    exact HeldFor.settle accounted.access nofun works waits

theorem takeInNewGroup_control (s : State) (h : Held) : (takeInNewGroup s h).control = s.control := by
  unfold takeInNewGroup
  split
  · split
    · exact (openGroupWith_accounted _ _ _).control
    · rfl
  · rfl

theorem groupBegun_noIncident (s : State) (h : Held) (k : Fin 32) :
    NoIncident s (finishAccess (groupBegun s h k) (.done [])) :=
  (NoIncident.refl s).of_recorder (by simp [groupBegun, finishAccess, createEntry])

theorem finishWrite_adds (s : State) (i : Initiator) : Adds (finishAccess s (.done [])) (finishWrite s i) :=
  changeCounter_adds _ _ _

theorem takeInNewGroup_adds (s : State) (h : Held) : Adds s (takeInNewGroup s h) := by
  have held (w : Wait) : Adds s (holdAccess s { h with wait := w }) := NoIncident.adds ⟨rfl, rfl, rfl⟩
  unfold takeInNewGroup
  split
  · split
    · next k _ => exact (groupBegun_noIncident s h k).adds.trans (finishWrite_adds (groupBegun s h k) _)
    · exact held _
  · exact held _

/-- The table after a write that needs a new group: the older records, and the new one where a group was opened. -/
theorem takeInNewGroup_table (s : State) (h : Held) : ∃ new, (takeInNewGroup s h).groups.table = s.groups.table ++ new ∧
    (new = [] ∨ new = [openedRecord s.groups.nextSequence .open none]) := by
  have held (w : Wait) : ∃ new, (holdAccess s { h with wait := w }).groups.table = s.groups.table ++ new ∧
      (new = [] ∨ new = [openedRecord s.groups.nextSequence .open none]) := ⟨[], (List.append_nil _).symm, .inl rfl⟩
  unfold takeInNewGroup
  split
  · split
    · exact ⟨_, by rw [(openGroupWith_accounted _ _ _).groups]; rfl, .inr rfl⟩
    · exact held _
  · exact held _

/-! ### The close at the line limit (R28) -/

/-- The state in which a write that finds the line limit goes on to a new group (R28). -/
def limitClosed (s : State) (h : Held) (g : Group) : State :=
  recordIncident (closeOpen s .limit) (limitReport s h g)

theorem takeGrouped_limit {s : State} {h : Held} {g : Group} (opened : openGroup s = some g)
    (found : groupedEntry s (accessLine h.access) g.sequence = none)
    (full : ¬g.lineCount < s.layout.settings.lineLimit.toNat) :
    takeGrouped s h =
      carryOut (takeInNewGroup (limitClosed s h g) h) (reactionTaken s .d320) (limitReport s h g) := by
  have reaction : reactionTaken (closeOpen s .limit) .d320 = reactionTaken s .d320 := reactionTaken_congr rfl rfl rfl _
  simp only [takeGrouped, opened, found, if_neg full, reaction]
  rfl

theorem closedTable_closed {table : List Group} (closed : ∀ g ∈ table, g.state ≠ .open) (cause : CloseCause) :
    closedTable table cause = table :=
  (List.map_congr_left fun g record => if_neg (closed g record)).trans (List.map_id _)

/-- The oldest CLOSED group of a table is taken also where younger records stand behind it (R35). -/
theorem oldestTaken_append {older new : List Group} {t : State} (taken : OldestTaken (older ++ new) t)
    (free : ∀ g ∈ new, groupInCommit g = false) : OldestTaken older t := by
  intro olderFree g oldest
  refine taken (fun x record => ?_) g (by rw [List.find?_append, oldest]; rfl)
  rcases List.mem_append.mp record with old | young
  · exact olderFree x old
  · exact free x young

theorem limitClosed_needs {s : State} (sound : Sound s) (h : Held) (g : Group) :
    NeedsGroup s (limitClosed s h g) (closedTable s.groups.table .limit) := by
  have recorded := recordIncident_accounted (closeOpen s .limit) (limitReport s h g)
  refine ⟨recorded.queue, ?_, recordIncident_confinement _ _, ?_, closedTable_sequences _ _⟩
  · rw [limitClosed, recorded.groups, ← closeOpen_table]
    rfl
  · exact (recordIncident_logged (s := closeOpen s .limit) sound.incidents (limitReport s h g)).room

/-- The table behind the reaction at the line limit: the records closed, and none in commit behind them (R28, R110). -/
theorem limited_table {s : State} {h : Held} {g : Group} (n : NeedsGroup s (limitClosed s h g) (closedTable s.groups.table .limit))
    (x : Reaction) :
    ∃ new, (carryOut (takeInNewGroup (limitClosed s h g) h) x (limitReport s h g)).groups.table =
      closedTable s.groups.table .limit ++ new ∧ ∀ r ∈ new, groupInCommit r = false := by
  obtain ⟨new, table, opens⟩ := takeInNewGroup_table (limitClosed s h g) h
  rw [n.groups] at table opens
  have free : ∀ r ∈ new, groupInCommit r = false := by
    rcases opens with rfl | rfl <;> simp [openedRecord, groupInCommit]
  rcases carryOut_cases (s := takeInNewGroup (limitClosed s h g) h) (x := x) (r := limitReport s h g) rfl with
    ⟨accounted, -⟩ | ⟨rfl, run, halts⟩
  · exact ⟨new, by rw [accounted.groups, table], free⟩
  · refine ⟨closedTable new .halt, ?_, closedTable_free free _⟩
    rw [halts, enterHalted_eq run, State.setGroups_groups, table]
    have older := closedTable_closed (closedTable_open s.groups.table .limit) .halt
    exact (List.map_append ..).trans (congrArg (· ++ _) older)

/-- The end of the handling of a write that finds the line limit: the report, the closed record, the group the engine takes
(R28, R35). -/
theorem limited_closes {s : State} {h : Held} {g : Group} {x : Reaction} (sound : Sound s) (opened : openGroup s = some g)
    (reaction : x = reactionTaken s .d320)
    (serves : serving (carryOut (takeInNewGroup (limitClosed s h g) h) x (limitReport s h g)) = true) :
    let t := settle (carryOut (takeInNewGroup (limitClosed s h g) h) x (limitReport s h g))
    Records s t (limitReport s h g) x ∧
      (∃ r ∈ t.groups.table, r.sequence = g.sequence ∧ r.closeCause = some .limit ∧ r.lineCount = g.lineCount) ∧
      OldestTaken (closedTable s.groups.table .limit) t := by
  have works := arbiterWorks_of_serving serves
  obtain ⟨new, table, free⟩ := limited_table (limitClosed_needs sound h g) x
  refine ⟨?_, ?_, ?_⟩
  · have recorded := recordIncident_records (closeOpen s .limit) (limitReport s h g)
    rw [reactionTaken_congr (s := s) (t := closeOpen s .limit) rfl rfl rfl] at recorded
    have stands := (Records.of_noIncident (s := s) ⟨rfl, rfl, rfl⟩ rfl recorded).adds
      ((takeInNewGroup_adds (limitClosed s h g) h).trans (carryOut_adds _ x (limitReport s h g)))
    rw [reaction]
    rw [reaction] at stands works
    exact stands.noIncident (settle_noIncident works)
  · obtain ⟨record, state⟩ := openGroup_record opened
    obtain ⟨r, member, sequence, lines, cause⟩ := takeNextGroup_record
      (s := carryOut (takeInNewGroup (limitClosed s h g) h) x (limitReport s h g))
      (by rw [table]; exact List.mem_append_left _ (mem_closedTable record state .limit))
    exact ⟨r, by rw [settle_groups works]; exact member, sequence, cause, lines⟩
  · have taken := settle_oldestTaken serves
    rw [table] at taken
    exact oldestTaken_append taken free

theorem limited_control (s : State) (h : Held) (g : Group) :
    (takeInNewGroup (limitClosed s h g) h).control = s.control :=
  (takeInNewGroup_control _ h).trans (recordIncident_accounted (closeOpen s .limit) _).control

/-- The reaction at the line limit leaves RUN as it is (R28, R110). -/
theorem limited_stays {s : State} {h : Held} {g : Group} {x : Reaction} (sound : Sound s) (ok : aligned h.access = true)
    (run : s.control.mode = .run) (quiet : s.control.configRequest = false) (stays : x ≠ .halt)
    (soundU : Sound (carryOut (takeInNewGroup (limitClosed s h g) h) x (limitReport s h g))) :
    let t := settle (carryOut (takeInNewGroup (limitClosed s h g) h) x (limitReport s h g))
    serving (carryOut (takeInNewGroup (limitClosed s h g) h) x (limitReport s h g)) = true ∧
      t.control.mode = s.control.mode ∧
      (x ≠ .fence → s.groups.table.length < 4 → ∀ k, LowestFree s k → GroupOpened s h k .open none t) ∧
      (s.groups.table.length < 4 → QueueFull s → HeldFor t h .slot) ∧
      (4 ≤ s.groups.table.length → HeldFor t h .groupRecord) := by
  have control := limited_control s h g
  rcases carryOut_cases (s := takeInNewGroup (limitClosed s h g) h) (x := x) (r := limitReport s h g) rfl with
    ⟨accounted, -⟩ | ⟨halt, -⟩
  · have same := accounted.control.trans control
    have serves : serving (carryOut (takeInNewGroup (limitClosed s h g) h) x (limitReport s h g)) = true :=
      (serving_iff _).mpr (.inl (by rw [same]; exact run))
    have waits := handoverWaits_of_noRequest (s := carryOut (takeInNewGroup (limitClosed s h g) h) x (limitReport s h g))
      (by rw [same]; exact quiet)
    have works := arbiterWorks_of_serving serves
    obtain ⟨opens, noSlot, noRecord⟩ := (limitClosed_needs sound h g).taken sound ok accounted works waits soundU
    refine ⟨serves, ?_, fun other => opens ?_, noSlot, noRecord⟩
    · rw [(settle_settles works waits).mode, same]
    · cases x with
      | fence => exact absurd rfl other
      | halt => exact absurd rfl stays
      | record | none => rfl
  · exact absurd halt stays

/-- The HALT at the line limit takes RUN to HALTED behind the write (R28, R110). -/
theorem limited_halts {s : State} {h : Held} {g : Group} (sound : Sound s) (ok : aligned h.access = true)
    (write : opIsWrite h.access.op = true) (run : s.control.mode = .run) (quiet : s.control.configRequest = false)
    (opened : openGroup s = some g)
    (soundU : Sound (carryOut (takeInNewGroup (limitClosed s h g) h) .halt (limitReport s h g))) :
    let t := settle (carryOut (takeInNewGroup (limitClosed s h g) h) .halt (limitReport s h g))
    serving (carryOut (takeInNewGroup (limitClosed s h g) h) .halt (limitReport s h g)) = true ∧
      t.control.mode = .halted ∧ t.control.haltCause = some .d320 ∧ t.recorder.pendingEvents.mode = true ∧
      (s.groups.table.length < 4 → ∀ k, LowestFree s k → GroupOpened s h k .closed (some .halt) t) ∧
      (QueueFull s ∨ 4 ≤ s.groups.table.length → t.access = { held := none, answer := some .refuse }) := by
  have control := limited_control s h g
  have needs := limitClosed_needs sound h g
  have runV : (takeInNewGroup (limitClosed s h g) h).control.mode = .run := by rw [control]; exact run
  have halts : carryOut (takeInNewGroup (limitClosed s h g) h) .halt (limitReport s h g) =
      enterHalted (takeInNewGroup (limitClosed s h g) h) .d320 := by
    show haltReaction (takeInNewGroup (limitClosed s h g) h) .d320 = _
    rw [haltReaction_eq rfl, if_pos runV]
  rw [halts, enterHalted_eq runV] at soundU ⊢
  intro t
  have t_eq : t = settle _ := rfl
  generalize halted : State.setGroups _ _ = u at soundU t_eq ⊢
  have serves : serving u = true := by rw [← halted]; rfl
  have works := arbiterWorks_of_serving serves
  have waits : HandoverWaits u := handoverWaits_of_noRequest (by rw [← halted]; simp [control, quiet])
  have settles := settle_settles works waits
  rw [← t_eq] at settles
  refine ⟨serves, ?_, ?_, ?_, fun room k lowest => ?_, fun full => ?_⟩
  · rw [settles.mode, ← halted]
    simp
  · rw [settles.haltCause, ← halted]
    simp
  · rw [settles.event, ← halted]
    simp
  · obtain ⟨⟨access, counter⟩, next, table, entry⟩ := needs.opens sound h k
    obtain ⟨record, state⟩ := openGroup_record opened
    rw [needs.takes room lowest] at halted
    rw [t_eq]
    refine groupOpened_settle (older := closedTable s.groups.table .limit) works waits soundU ok ⟨?_, ?_⟩ ?_ ?_
      needs.sequences (.inr ⟨_, mem_closedTable record state .limit, rfl⟩) ?_
    · rw [← halted]
      simp [writeRefused, access]
    · rw [← halted]
      simpa only [State.setGroups_confinement, State.setAccess_confinement, State.setRecorder_confinement,
        State.setControl_confinement] using counter
    · rw [← halted, State.setGroups_groups]
      exact next
    · rw [← halted, State.setGroups_groups, table]
      have older := closedTable_closed (closedTable_open s.groups.table .limit) .halt
      exact (List.map_append ..).trans (congrArg (· ++ _) older)
    · rw [← halted]
      simpa only [State.setGroups_queue, State.setAccess_queue, State.setRecorder_queue, State.setControl_queue] using entry
  · have waiting : ∃ wait, takeInNewGroup (limitClosed s h g) h = holdAccess (limitClosed s h g) { h with wait := wait } := by
      by_cases room : s.groups.table.length < 4
      · exact ⟨_, needs.noSlot room (full.resolve_right (by omega))⟩
      · exact ⟨_, needs.noRecord (by omega)⟩
    obtain ⟨wait, held⟩ := waiting
    have refused : u.access = { held := none, answer := some .refuse } := by
      rw [← halted, held]
      simp [writeRefused, holdAccess, write]
    rw [t_eq, settle_access_idle works (by rw [refused]), refused]

theorem takeGrouped_merges {s : State} {h : Held} {g : Group} {e : Entry} (opened : openGroup s = some g)
    (found : groupedEntry s (accessLine h.access) g.sequence = some e) :
    takeGrouped s h = finishWrite (mergeInto s e.slot h.access) h.access.initiator := by
  simp only [takeGrouped, opened, found]

theorem takeGrouped_opened {s : State} {h : Held} {g : Group} (opened : openGroup s = some g)
    (found : groupedEntry s (accessLine h.access) g.sequence = none)
    (below : g.lineCount < s.layout.settings.lineLimit.toNat) : takeGrouped s h = takeInOpenGroup s h g := by
  simp only [takeGrouped, opened, found, if_pos below]

theorem takeGrouped_new {s : State} {h : Held} (noneOpen : openGroup s = none) :
    takeGrouped s h = takeInNewGroup s h := by
  simp only [takeGrouped, noneOpen]

/-- The open group takes one line more (R26 step 3). -/
def lineAdded (s : State) (h : Held) (g : Group) (k : Fin 32) : State :=
  createEntry (changeGroup s g.sequence (fun r => { r with lineCount := r.lineCount + 1 })) h k (some g.sequence)

theorem takeInOpenGroup_adds {s : State} {h : Held} {g : Group} {k : Fin 32} (free : lowestFreeSlot s.queue = some k) :
    takeInOpenGroup s h g = finishWrite (lineAdded s h g k) h.access.initiator := by
  simp only [takeInOpenGroup, free, lineAdded]

theorem takeInOpenGroup_waits {s : State} {h : Held} {g : Group} (full : lowestFreeSlot s.queue = none) :
    takeInOpenGroup s h g = holdAccess s { h with wait := .slot } := by
  simp only [takeInOpenGroup, full]

/-- What becomes of a write of a GROUPED line in RUN, with no configuration request pending (R26 to R29). -/
theorem takeGrouped_taken {s : State} {h : Held} (sound : Sound s) (ok : aligned h.access = true)
    (write : opIsWrite h.access.op = true) (run : s.control.mode = .run) (quiet : s.control.configRequest = false) :
    GroupedTaken s h (settle (takeGrouped s h)) := by
  have soundU : Sound (takeGrouped s h) := takeGrouped_sound sound ok
  have ends {u : State} (control : u.control = s.control) : arbiterWorks u ∧ HandoverWaits u :=
    ⟨arbiterWorks_of_serving ((serving_iff u).mpr (.inl (by rw [control]; exact run))),
      handoverWaits_of_noRequest (by rw [control]; exact quiet)⟩
  unfold GroupedTaken
  split
  · next noneOpen =>
    have control : (takeInNewGroup s h).control = s.control := takeInNewGroup_control s h
    have needs : NeedsGroup s s s.groups.table := ⟨rfl, rfl, rfl, sound.incidents, rfl⟩
    rw [takeGrouped_new noneOpen] at soundU ⊢
    obtain ⟨opens, noSlot, noRecord⟩ := needs.taken sound ok (.refl _) (ends control).1 (ends control).2 soundU
    exact ⟨opens rfl, noSlot, noRecord⟩
  · next g opened =>
    split
    · next e found =>
      have entry : e ∈ s.queue.entries := List.mem_of_find?_eq_some found
      rw [takeGrouped_merges opened found] at soundU ⊢
      have accounted := finishWrite_accounted (mergeInto s e.slot h.access) h.access.initiator
      obtain ⟨works, waits⟩ := ends accounted.control
      have settles := settle_settles works waits
      have done : WriteDone s (finishWrite (mergeInto s e.slot h.access) h.access.initiator) h.access :=
        finishWrite_done (sound.initiators _) rfl sound.incidents
      have merged : mergeEntry h.access e ∈ (finishWrite (mergeInto s e.slot h.access) h.access.initiator).queue.entries := by
        rw [accounted.queue]
        exact mergeInto_mem entry h.access
      refine ⟨done.settle works, ?_, ?_⟩
      · rw [settle_lineCounts works, accounted.groups]
        rfl
      · by_cases held : e.state = .held
        · exact ⟨_, settle_keeps works waits soundU.queue.slots merged (by simp [mergeEntry, held]), mergeEntry_from _ _,
            fun _ => held⟩
        · obtain ⟨x, member, marked⟩ := settles.entry merged
          refine ⟨x, member, ?_, fun same => absurd same held⟩
          rcases marked with rfl | ⟨-, rfl⟩
          · exact mergeEntry_from _ _
          · exact (mergeEntry_from _ _).marked _
    · next found =>
      split
      · next below =>
        rw [takeGrouped_opened opened found below] at soundU ⊢
        refine ⟨fun k lowest => ?_, fun full => ?_⟩
        · rw [takeInOpenGroup_adds (lowestFreeSlot_of_lowest lowest)] at soundU ⊢
          have accounted := finishWrite_accounted (lineAdded s h g k) h.access.initiator
          obtain ⟨works, waits⟩ := ends accounted.control
          have done : WriteDone s (finishWrite (lineAdded s h g k) h.access.initiator) h.access :=
            finishWrite_done (sound.initiators _) rfl sound.incidents
          have record : { g with lineCount := g.lineCount + 1 } ∈ (lineAdded s h g k).groups.table :=
            List.mem_map.mpr ⟨g, (openGroup_record opened).1, by simp⟩
          obtain ⟨r, member, sequence, lines, -⟩ := takeNextGroup_record
            (s := finishWrite (lineAdded s h g k) h.access.initiator) (by rw [accounted.groups]; exact record)
          refine ⟨done.settle works, ?_, ⟨r, by rw [settle_groups works]; exact member, sequence, lines⟩,
            newEntry s h k (some g.sequence), ?_, rfl, rfl, newEntry_from s ok k _⟩
          · refine (congrArg Served.nextSequence (settle_served works)).trans ?_
            show (finishWrite (lineAdded s h g k) h.access.initiator).groups.nextSequence = _
            rw [accounted.groups]
            rfl
          · refine settle_keeps works waits soundU.queue.slots ?_ nofun
            rw [accounted.queue]
            exact List.mem_append_right _ (List.mem_singleton.mpr rfl)
        · rw [takeInOpenGroup_waits (lowestFreeSlot_of_full full)]
          obtain ⟨works, waits⟩ := ends (u := holdAccess s { h with wait := .slot }) rfl
          exact HeldFor.settle (w := .slot) rfl nofun works waits
      · next limit =>
        rw [takeGrouped_limit opened found limit] at soundU ⊢
        by_cases halt : reactionTaken s .d320 = .halt
        · rw [halt] at soundU ⊢
          obtain ⟨serves, mode, cause, event, opens, refused⟩ := limited_halts sound ok write run quiet opened soundU
          obtain ⟨records, closed, taken⟩ := limited_closes sound opened halt.symm serves
          exact ⟨records, closed, taken, fun other => absurd rfl other, fun _ => ⟨mode, cause, event, opens, refused⟩⟩
        · obtain ⟨serves, mode, opens, noSlot, noRecord⟩ := limited_stays sound ok run quiet halt soundU
          obtain ⟨records, closed, taken⟩ := limited_closes sound opened rfl serves
          exact ⟨records, closed, taken, fun _ => ⟨mode, opens, noSlot, noRecord⟩, fun same => absurd same halt⟩

end Sys2Proof.Machine
end

section
/-! Accesses that the array answers, reads from the queue, and held accesses taken anew (R8, R10 to R12, R29, R73). -/

namespace Sys2Proof.Machine

/-! ## THROUGH writes -/

theorem holdAccess_held (s : State) (h : Held) (w : Wait) : HeldFor (holdAccess s { h with wait := w }) h w := rfl

theorem holdAccess_works {s : State} (serves : serving s = true) (h : Held) : arbiterWorks (holdAccess s h) :=
  arbiterWorks_of_serving (s := holdAccess s h) serves

/-- An access held for a grant, at the end of its handling (R60, R85). -/
theorem holdForGrant_taken {s : State} (h : Held) (serves : serving s = true) (waits : HandoverWaits s) :
    let t := settle (holdAccess s { h with wait := .grant })
    (HeldFor t h .grant ∧ t.port.op.isSome = true) ∨
      (HeldFor t h .operation ∧ t.port.op = some { heldOp h with presented := s.pins.arrayReady }) := by
  intro t
  rcases settle_controller (s := holdAccess s { h with wait := .grant }) (holdAccess_works serves _) waits rfl rfl with
    ⟨access, busy⟩ | ⟨access, op⟩
  · exact .inl ⟨access, busy⟩
  · exact .inr ⟨access, op⟩

theorem takeThrough_taken {s : State} {h : Held} (write : opIsWrite h.access.op = true) (serves : serving s = true)
    (waits : HandoverWaits s) : ThroughTaken h (settle (holdAccess s { h with wait := .grant })) := by
  refine (holdForGrant_taken h serves waits).imp_right fun ⟨access, op⟩ => ⟨access, _, op, ?_⟩
  simp only [heldOp, write, if_true]
  exact ⟨rfl, rfl, rfl, rfl⟩

/-! ## What entries carry -/

theorem carriedBytes_iff (es : List Entry) (n : Nat) :
    (carriedBytes es).getLsbD n = es.any (fun e => e.valid.getLsbD n) := by
  induction es using List.reverseRecOn with
  | nil => simp [carriedBytes]
  | append_singleton es e ih =>
    have last : carriedBytes (es ++ [e]) = carriedBytes es ||| e.valid := by simp [carriedBytes]
    rw [last, BitVec.getLsbD_or, ih, List.any_append, List.any_cons, List.any_nil, Bool.or_false]

/-- Entries laid over a line: each byte is that of the newest entry that carries it (R10, R12). -/
theorem byteOf_overlay (base : LineData) (es : List Entry) {n : Nat} (inside : n < 8) :
    byteOf (overlay base es) n =
      (((es.filter (fun e => e.valid.getLsbD n)).getLast?.map fun e => byteOf e.data n).getD (byteOf base n)) := by
  induction es using List.reverseRecOn with
  | nil => rfl
  | append_singleton es e ih =>
    have last : overlay base (es ++ [e]) = mergeBytes (overlay base es) e.data e.valid := by simp [overlay]
    rw [last, byteOf_mergeBytes _ _ _ inside, ih, List.filter_append]
    by_cases carries : e.valid.getLsbD n = true
    · simp [carries]
    · simp [carries]

theorem newestCarrying_isSome (s : State) (line : LineNo) (n : Nat) :
    (newestCarrying s line n).isSome = (carriedBytes (quietEntries s line)).getLsbD n := by
  rw [Bool.eq_iff_iff, newestCarrying, carriedBytes_iff, List.getLast?_isSome, List.any_eq_true, ne_eq,
    List.filter_eq_nil_iff]
  push Not
  rfl

/-! ## Reads -/

/-- The entries carry every requested byte (R10). -/
theorem carried_iff {a : Access} (ok : aligned a = true) (es : List Entry) :
    accessBytes a &&& ~~~(carriedBytes es) = 0 ↔
      ∀ i < opBytes a.op, (carriedBytes es).getLsbD (lineOffset a.address + i) = true := by
  have room := lineOffset_aligned ok
  constructor
  · intro none i inside
    have bit := congrArg (fun v => BitVec.getLsbD v (lineOffset a.address + i)) none
    have asked : (accessBytes a).getLsbD (lineOffset a.address + i) = true :=
      (accessBytes_iff a (by omega)).mpr ⟨by omega, by omega⟩
    simpa [asked, show lineOffset a.address + i < 8 by omega] using bit
  · intro all
    refine BitVec.eq_of_getLsbD_eq fun n inside => ?_
    rw [BitVec.getLsbD_and, BitVec.getLsbD_not]
    by_cases asked : (accessBytes a).getLsbD n = true
    · obtain ⟨low, high⟩ := (accessBytes_iff a inside).mp asked
      have carries := all (n - lineOffset a.address) (by omega)
      rw [show lineOffset a.address + (n - lineOffset a.address) = n by omega] at carries
      simp [carries]
    · simp [asked]

/-- The entries of a line that are not WRITING carry every requested byte. -/
theorem carried_iff_newest {s : State} {a : Access} (ok : aligned a = true) :
    accessBytes a &&& ~~~(carriedBytes (quietEntries s (accessLine a))) = 0 ↔
      ∀ i < opBytes a.op, (newestCarrying s (lineOf a.address) (lineOffset a.address + i)).isSome = true := by
  rw [carried_iff ok]
  simp only [newestCarrying_isSome]
  rfl

theorem lineWriting_iff (s : State) (line : LineNo) :
    lineWriting s line = true ↔ ∃ e ∈ s.queue.entries, e.line = line ∧ e.state = .writing := by
  simp [lineWriting]

theorem requestedBytes_length (a : Access) (d : LineData) : (requestedBytes a d).length = opBytes a.op := by
  simp [requestedBytes]

theorem requestedBytes_getElem? (a : Access) (d : LineData) {i : Nat} (inside : i < opBytes a.op) :
    (requestedBytes a d)[i]? = some (byteOf d (lineOffset a.address + i)) := by
  simp [requestedBytes, List.getElem?_range inside]

/-- What becomes of a read in RUN and HALTED (R10 to R12). -/
theorem takeRead_taken {s : State} {h : Held} (ok : aligned h.access = true) (read : opIsWrite h.access.op = false)
    (serves : serving s = true) (waits : HandoverWaits s) :
    ReadTaken s h (settle (takeRead s h)) ∧ NoIncident s (settle (takeRead s h)) ∧
      (settle (takeRead s h)).confinement = s.confinement := by
  have room := lineOffset_aligned ok
  have kept {u : State} (serves : serving u = true) (same : u.recorder = s.recorder) (accounts : u.confinement = s.confinement) :
      NoIncident s (settle u) ∧ (settle u).confinement = s.confinement := by
    have works := arbiterWorks_of_serving serves
    refine ⟨((NoIncident.refl s).of_recorder same).trans (settle_noIncident works), ?_⟩
    exact (congrArg Served.confinement (settle_served works)).trans accounts
  unfold takeRead
  dsimp only
  split
  · next carried =>
    have all := (carried_iff_newest (s := s) ok).mp carried
    set bytes := requestedBytes h.access (overlay 0 (quietEntries s (accessLine h.access))) with answer
    have works : arbiterWorks (finishAccess s (.done bytes)) := arbiterWorks_of_serving (s := finishAccess s _) serves
    refine ⟨⟨fun _ => ⟨bytes, settle_access_idle works rfl, requestedBytes_length _ _, fun i inside e newest => ?_⟩,
      fun other => absurd all other, fun other => absurd all other⟩, kept (u := finishAccess s (.done bytes)) serves rfl rfl⟩
    rw [answer, requestedBytes_getElem? _ _ inside, byteOf_overlay _ _ (by omega)]
    have found : ((quietEntries s (accessLine h.access)).filter
        (fun e => e.valid.getLsbD (lineOffset h.access.address + i))).getLast? = some e := newest
    rw [found]
    rfl
  · next missing =>
    have notAll := fun all => missing ((carried_iff_newest (s := s) ok).mpr all)
    split
    · next writing =>
      have present := (lineWriting_iff s _).mp writing
      refine ⟨⟨fun all => absurd all notAll, fun _ _ => ?_, fun _ none => absurd present none⟩,
        kept (u := holdAccess s { h with wait := .writingEntry }) serves rfl rfl⟩
      exact HeldFor.settle (holdAccess_held s h .writingEntry) nofun (holdAccess_works serves _) waits
    · next quiet =>
      have absent := (lineWriting_iff s (accessLine h.access)).not.mp quiet
      refine ⟨⟨fun all => absurd all notAll, fun _ writing => absurd writing absent, fun _ _ => ?_⟩,
        kept (u := holdAccess s { h with wait := .grant }) serves rfl rfl⟩
      refine (holdForGrant_taken h serves waits).imp_right fun ⟨access, op⟩ => ⟨access, _, op, ?_⟩
      simp only [heldOp, read]
      exact ⟨rfl, rfl⟩

/-! ## Arrival -/

theorem exec_controllerAccess_of_accepted {s : State} {a : Access} {c : Classification} (powered : s.powered = true)
    (idle : s.access.held = none) (accepted : checkAccess s a = .accepted c) :
    exec (.controllerAccess a) s = .next (settle (takeAccess s (arriving s a c))) := by
  have arm : exec (.controllerAccess a) s = execControllerAccess a s := rfl
  simp [arm, execControllerAccess, powered, idle, accepted]

theorem takeAccess_write {s : State} {h : Held} (write : opIsWrite h.access.op = true) :
    takeAccess s h = takeWrite s h :=
  if_pos write

theorem takeAccess_read {s : State} {h : Held} (read : opIsWrite h.access.op = false) : takeAccess s h = takeRead s h :=
  if_neg (by simp [read])

/-- What becomes of a write in RUN, with no configuration request pending, by its class (R72, R73). -/
theorem takeWrite_taken {s : State} {h : Held} (sound : Sound s) (carried : WritingCarried s)
    (ok : aligned h.access = true) (write : opIsWrite h.access.op = true) (run : s.control.mode = .run)
    (quiet : s.control.configRequest = false) :
    (h.cls.cls = .posted → PostedTaken s h (settle (takeWrite s h))) ∧
      (h.cls.cls = .grouped → GroupedTaken s h (settle (takeWrite s h))) ∧
      (h.cls.cls = .through → ThroughTaken h (settle (takeWrite s h))) := by
  refine ⟨fun cls => ?_, fun cls => ?_, fun cls => ?_⟩
  · rw [show takeWrite s h = takePosted s h by simp only [takeWrite, cls]]
    exact takePosted_taken sound carried ok run quiet
  · rw [show takeWrite s h = takeGrouped s h by simp only [takeWrite, cls]]
    exact takeGrouped_taken sound ok write run quiet
  · rw [show takeWrite s h = holdAccess s { h with wait := .grant } by simp only [takeWrite, cls]]
    exact takeThrough_taken write ((serving_iff s).mpr (.inl run)) (handoverWaits_of_noRequest quiet)

/-- Settles O32. -/
theorem acceptedWriteIsTakenByItsClass : Obligations.AcceptedWriteIsTakenByItsClass := by
  intro a s c powered sound carried idle write accepted h
  have passes := checkAccess_mode accepted
  rw [write, modePasses_iff] at passes
  obtain ⟨run, quiet⟩ : s.control.mode = .run ∧ s.control.configRequest = false := by simpa using passes
  obtain ⟨posted, grouped, through⟩ :=
    takeWrite_taken (h := h) sound carried (checkAccess_aligned accepted) write run quiet
  have taken : takeAccess s (arriving s a c) = takeWrite s h := takeAccess_write (h := h) write
  refine ⟨settle (takeWrite s h), ?_, posted, grouped, through, ?_⟩
  · rw [exec_controllerAccess_of_accepted powered idle accepted, taken]
  · exact mem_of_outer ((settle_outer _).trans (takeWrite_outer s h))

/-- Settles O33. -/
theorem acceptedReadIsTaken : Obligations.AcceptedReadIsTaken := by
  intro a s c powered sound idle waits read accepted
  have serves := serving_of_passes (checkAccess_mode accepted)
  have taken : takeAccess s (arriving s a c) = takeRead s (arriving s a c) := takeAccess_read read
  refine ⟨settle (takeRead s (arriving s a c)), ?_,
    takeRead_taken (h := arriving s a c) (checkAccess_aligned accepted) read serves waits⟩
  rw [exec_controllerAccess_of_accepted powered idle accepted, taken]

/-! ## Held accesses taken anew -/

theorem freeSlotCount_pos (s : State) : 0 < freeSlotCount s.queue ↔ ¬QueueFull s := by
  rcases lowestFreeSlot_cases s with ⟨k, found, free⟩ | ⟨none, full⟩
  · refine iff_of_true ?_ free.notFull
    rw [freeSlotCount, List.length_pos_iff]
    intro empty
    simp [lowestFreeSlot, empty] at found
  · refine iff_of_false ?_ (not_not.mpr full)
    rw [freeSlotCount, List.length_pos_iff, not_not, ← List.head?_eq_none_iff]
    simpa [lowestFreeSlot] using none

/-- What a held access waits for has come (R8, R11, R29). -/
theorem heldDue_iff {s : State} {h : Held} (held : s.access.held = some h) : heldDue s = true ↔
    (h.wait = .slot ∧ ¬QueueFull s) ∨ (h.wait = .groupRecord ∧ s.groups.table.length < 4) ∨
      (h.wait = .writingEntry ∧ ∀ e ∈ s.queue.entries, e.line = lineOf h.access.address → e.state ≠ .writing) := by
  unfold heldDue
  rw [held]
  cases wait : h.wait with
  | slot => simp [wait, freeSlotCount_pos]
  | groupRecord =>
    simp only [wait, decide_eq_true_iff]
    simp [Config.groupRecords]
  | writingEntry =>
    simp only [wait, Bool.not_eq_true', ← Bool.not_eq_true, lineWriting_iff]
    simp [accessLine]
  | grant | operation => simp [wait]

theorem takeAnew_of_due {s : State} {h : Held} {write : Bool} (held : s.access.held = some h)
    (due : heldDue s = true) (direction : opIsWrite h.access.op = write) : takeAnew s write = settle (takeAccess s h) := by
  simp only [takeAnew, held]
  exact if_pos (by simp [due, direction])

theorem takeAnew_of_notDue {s : State} {h : Held} (held : s.access.held = some h) (due : heldDue s = false)
    (write : Bool) : takeAnew s write = s := by
  simp only [takeAnew, held]
  exact if_neg (by simp [due])

/-- Settles O34: a held access that is due is taken as at arrival, another stays as it is. -/
theorem heldAccessIsTakenAnew : Obligations.HeldAccessIsTakenAnew := by
  intro s h powered sound carried serves waits held
  have ok : aligned h.access = true := sound.access h held
  refine ⟨fun write run quiet comes => ?_, fun read wait quietLine => ?_, fun still => ?_⟩
  · have due : heldDue s = true := (heldDue_iff held).mpr <| by
      rcases comes with ⟨wait, k, free⟩ | ⟨wait, room⟩
      · refine .inl ⟨wait, fun full => ?_⟩
        obtain ⟨e, entry, slot⟩ := full k
        exact free e entry slot
      · exact .inr (.inl ⟨wait, room⟩)
    obtain ⟨posted, grouped, -⟩ := takeWrite_taken sound carried ok write run quiet
    refine ⟨settle (takeWrite s h), ?_, posted, grouped⟩
    rw [exec_heldWriteTakenAnew, handle_of_powered powered, takeAnew_of_due held due write, takeAccess_write write]
  · have due : heldDue s = true := (heldDue_iff held).mpr (.inr (.inr ⟨wait, quietLine⟩))
    refine ⟨settle (takeRead s h), ?_, (takeRead_taken ok read serves waits).1⟩
    rw [exec_heldReadTakenAnew, handle_of_powered powered, takeAnew_of_due held due read, takeAccess_read read]
  · have due : heldDue s = false := by
      rw [← Bool.not_eq_true, heldDue_iff held]
      rcases still with ⟨wait, full⟩ | ⟨wait, full⟩ | ⟨wait, e, entry, line, writing⟩ | wait | wait
      · simp [wait, full]
      · simpa [wait] using full
      · simpa [wait] using ⟨e, entry, line, writing⟩
      · simp [wait]
      · simp [wait]
    rw [exec_heldWriteTakenAnew, exec_heldReadTakenAnew, handle_of_powered powered, handle_of_powered powered,
      takeAnew_of_notDue held due, takeAnew_of_notDue held due]
    exact ⟨rfl, rfl⟩

end Sys2Proof.Machine
end

section
/-! What the commands of the controller bus and of SCAN_B leave as it was (R31, R62, R110). -/

namespace Sys2Proof.Machine

/-- The items that the controller bus and SCAN_B do not touch. -/
def busRest (s : State) :
    (Layout × ControlWriter × Option Recovery × StartSequence × ShutdownSequencer × Bool × EventSet × Stamp × Bool) ×
      Memory × Session × List Instr × Bool × Bool × Bool :=
  ((s.layout, s.writer, s.recovery, s.start, s.shutdown, s.engine.journalPending, s.recorder.mask, s.recorder.stamp,
    s.powered), outer s)

/-- A part of a handling leaves those items, and the mode controller unless it takes RUN to HALTED. -/
structure OnBus (s t : State) : Prop where
  rest : busRest t = busRest s
  control : t.control = s.control ∨ (s.control.mode = .run ∧ t.control.mode = .halted)

theorem OnBus.refl (s : State) : OnBus s s :=
  ⟨rfl, .inl rfl⟩

/-- The mode controller has not moved in the first part. -/
theorem OnBus.trans {s t u : State} (h : OnBus s t) (still : t.control = s.control) (k : OnBus t u) : OnBus s u :=
  ⟨k.rest.trans h.rest, by rw [← still]; exact k.control⟩

theorem Accounted.onBus {s t : State} (h : Accounted s t) : OnBus s t := by
  refine ⟨?_, .inl h.control⟩
  obtain ⟨c, r, f, rfl, mask, stamp, -⟩ := h
  simp [busRest, outer, mask, stamp]

theorem enterHalted_onBus {s : State} (run : s.control.mode = .run) (d : Detail) : OnBus s (enterHalted s d) := by
  rw [enterHalted_eq run]
  exact ⟨by simp [busRest, outer], .inr ⟨run, by simp⟩⟩

theorem carryOut_onBus {s : State} {x : Reaction} {r : Report} (quiet : stallsGroup r.detail = false) :
    OnBus s (carryOut s x r) := by
  rcases carryOut_cases (s := s) (x := x) quiet with ⟨accounted, -⟩ | ⟨-, run, halts⟩
  · exact accounted.onBus
  · rw [halts]
    exact enterHalted_onBus run _

theorem setAccess_onBus (s : State) (v : AccessUnit) : OnBus s (s.setAccess v) :=
  ⟨rfl, .inl rfl⟩

theorem finishWrite_onBus {s w : State} (rest : busRest w = busRest s) (control : w.control = s.control) (i : Initiator) :
    OnBus s (finishWrite w i) := by
  have accounted := finishWrite_accounted w i
  have answered : OnBus s (finishAccess w (.done [])) := ⟨rest, .inl control⟩
  exact answered.trans control accounted.onBus

theorem takeInNewGroup_onBus (s : State) (h : Held) : OnBus s (takeInNewGroup s h) := by
  unfold takeInNewGroup
  split
  · split
    · next k _ => exact finishWrite_onBus (s := s) (w := groupBegun s h k) rfl rfl h.access.initiator
    · exact setAccess_onBus s _
  · exact setAccess_onBus s _

theorem takeGrouped_onBus (s : State) (h : Held) : OnBus s (takeGrouped s h) := by
  unfold takeGrouped
  split
  · exact takeInNewGroup_onBus s h
  · next g opened =>
    split
    · next e _ => exact finishWrite_onBus (s := s) (w := mergeInto s e.slot h.access) rfl rfl h.access.initiator
    · split
      · unfold takeInOpenGroup
        split
        · next k _ => exact finishWrite_onBus (s := s) (w := lineAdded s h g k) rfl rfl h.access.initiator
        · exact setAccess_onBus s _
      · have closes : OnBus s (closeOpen s .limit) := ⟨rfl, .inl rfl⟩
        have records := closes.trans rfl (recordIncident_accounted (closeOpen s .limit) (limitReport s h g)).onBus
        have control := limited_control s h g
        have takes := records.trans (recordIncident_accounted (closeOpen s .limit) (limitReport s h g)).control
          (takeInNewGroup_onBus (limitClosed s h g) h)
        exact takes.trans control (carryOut_onBus rfl)

theorem takeAccess_onBus (s : State) (h : Held) : OnBus s (takeAccess s h) := by
  unfold takeAccess
  split
  · unfold takeWrite
    split
    · unfold takePosted
      split
      · next e _ => exact finishWrite_onBus (s := s) (w := mergeInto s e.slot h.access) rfl rfl h.access.initiator
      · split
        · next k _ => exact finishWrite_onBus (s := s) (w := createEntry s h k none) rfl rfl h.access.initiator
        · exact setAccess_onBus s _
    · exact takeGrouped_onBus s h
    · exact setAccess_onBus s _
    · exact .refl s
    · exact .refl s
  · unfold takeRead
    dsimp only
    split
    · exact setAccess_onBus s _
    · split <;> exact setAccess_onBus s _

theorem enterConfig_mode (s : State) (r : LongResult) : (enterConfig s r).control.mode = .config :=
  congrArg ModeView.mode (enterConfig_view s r)

theorem settle_mode_cases {s : State} (works : arbiterWorks s) :
    (settle s).control.mode = s.control.mode ∨ (settle s).control.mode = .config := by
  rw [(settle_leaves works).control, checked]
  have before : (flushCheck (takeNextGroup s)).control.mode = s.control.mode := by
    rw [flushCheck_mode, takeNextGroup_control]
  unfold handoverCheck
  split
  · exact .inr (by rw [enterConfig_mode])
  · exact .inl before

/-- The end of the handling leaves those items, and the halt cause, as the part has left them. -/
theorem OnBus.settled {s u : State} (h : OnBus s u) (works : arbiterWorks u) :
    busRest (settle u) = busRest s ∧ ((settle u).control.haltCause = s.control.haltCause ∨
      (s.control.mode = .run ∧ (settle u).control.mode ≠ .run)) := by
  have served := settle_served works
  refine ⟨?_, ?_⟩
  · rw [← h.rest]
    simp only [busRest, Prod.mk.injEq]
    exact ⟨⟨congrArg Served.layout served, congrArg Served.writer served, congrArg Served.recovery served,
      congrArg Served.start served, congrArg Served.shutdown served, congrArg Served.journalPending served,
      congrArg Served.mask served, congrArg Served.stamp served, congrArg Served.powered served⟩, settle_outer u⟩
  · rcases h.control with same | ⟨run, halted⟩
    · have cause : (settle u).control.haltCause = u.control.haltCause := congrArg Served.haltCause served
      exact .inl (cause.trans (congrArg ModeController.haltCause same))
    · refine .inr ⟨run, ?_⟩
      rcases settle_mode_cases works with mode | mode
      · rw [mode, halted]
        exact nofun
      · rw [mode]
        exact nofun

/-- In RUN and HALTED what a part of a handling on the bus leaves can be settled. -/
theorem OnBus.works {s u : State} (h : OnBus s u) (serves : serving s = true) : arbiterWorks u := by
  refine arbiterWorks_of_serving ?_
  rcases h.control with same | ⟨-, halted⟩
  · rw [serving, same]
    exact serves
  · exact (serving_iff u).mpr (.inr halted)

/-- A handling on the bus changes nothing, answers alone, or is a part on the bus with its end. -/
theorem onBus_outcome {s t : State} (serves : serving s = true)
    (outcome : OnBus s t ∨ ∃ u, OnBus s u ∧ t = settle u) :
    busRest t = busRest s ∧ (t.control.haltCause = s.control.haltCause ∨
      (s.control.mode = .run ∧ t.control.mode ≠ .run)) := by
  rcases outcome with same | ⟨u, part, rfl⟩
  · refine ⟨same.rest, ?_⟩
    rcases same.control with control | ⟨run, halted⟩
    · exact .inl (congrArg ModeController.haltCause control)
    · exact .inr ⟨run, by rw [halted]; exact nofun⟩
  · exact part.settled (part.works serves)

theorem takeAnew_outcome (s : State) (write : Bool) :
    OnBus s (takeAnew s write) ∨ ∃ u, OnBus s u ∧ takeAnew s write = settle u := by
  unfold takeAnew
  split
  · exact .inl (.refl s)
  · split
    · exact .inr ⟨_, takeAccess_onBus s _, rfl⟩
    · exact .inl (.refl s)

theorem reportIncident_onBus {s : State} {r : Report} (quiet : stallsGroup r.detail = false) :
    OnBus s (reportIncident s r) :=
  (recordIncident_accounted s r).onBus.trans (recordIncident_accounted s r).control (carryOut_onBus quiet)

theorem stallExpiry_outcome (s : State) : OnBus s (stallExpiry s) ∨ ∃ u, OnBus s u ∧ stallExpiry s = settle u := by
  unfold stallExpiry
  split
  · exact .inl (.refl s)
  · next h _ =>
    split
    · exact .inl (.refl s)
    · next d limit =>
      have answered : OnBus s (finishAccess s .refuse) := setAccess_onBus s _
      have reported := reportIncident_onBus (s := finishAccess s .refuse) (r := accessReport d h.access h.cls.window)
        (stallDetail_quiet limit)
      exact .inr ⟨_, answered.trans rfl reported, rfl⟩

theorem refuseAccess_onBus {s : State} {a : Access} {r : Report} (quiet : stallsGroup r.detail = false) :
    OnBus s (refuseAccess s a r) := by
  have counted := refusalCounted_accounted s a r
  rw [refuseAccess_eq]
  have answered : OnBus s (finishAccess s .refuse) := setAccess_onBus s _
  exact (answered.trans rfl counted.onBus).trans counted.control (carryOut_onBus quiet)

/-- What a command of the bus or of SCAN_B leaves, in RUN and HALTED. -/
theorem bus_outcome {c : Instr} {s t : State}
    (bus : (∃ a, c = .controllerAccess a) ∨ c = .heldWriteTakenAnew ∨ c = .heldReadTakenAnew ∨ c = .stallLimitExpiry ∨
      c = .scanBRise) (next : exec c s = .next t) : OnBus s t ∨ ∃ u, OnBus s u ∧ t = settle u := by
  have handled {f : State → State} (next : handle s f = .next t)
      (outcome : OnBus s (f s) ∨ ∃ u, OnBus s u ∧ f s = settle u) : OnBus s t ∨ ∃ u, OnBus s u ∧ t = settle u := by
    obtain rfl : (if s.powered then f s else s) = t := Host.Outcome.next.inj next
    split
    · exact outcome
    · exact .inl (.refl s)
  rcases bus with ⟨a, rfl⟩ | rfl | rfl | rfl | rfl
  · have arm : execControllerAccess a s = .next t := next
    unfold execControllerAccess at arm
    split at arm
    · split at arm
      · cases arm
        exact .inl (setAccess_onBus s _)
      · next r refused =>
        cases arm
        exact .inr ⟨_, refuseAccess_onBus (checkAccess_report refused).2.1, rfl⟩
      · cases arm
        exact .inr ⟨_, takeAccess_onBus s _, rfl⟩
      · cases arm
    · cases arm
      exact .inl (.refl s)
  · exact handled (f := fun s => takeAnew s true) next (takeAnew_outcome s true)
  · exact handled (f := fun s => takeAnew s false) next (takeAnew_outcome s false)
  · exact handled (f := stallExpiry) next (stallExpiry_outcome s)
  · refine handled (f := scanBoundary) next ?_
    unfold scanBoundary
    split
    · exact .inr ⟨closeOpen s .boundary, ⟨rfl, .inl rfl⟩, rfl⟩
    · exact .inl (.refl s)

/-- Settles O11: the blocks by `onBus_outcome`, the lines, the session and the memory by the frame of the model. -/
theorem busCommandsLeaveTheRest : Obligations.BusCommandsLeaveTheRest := by
  intro c s t serves bus next
  obtain ⟨rest, cause⟩ := onBus_outcome serves (bus_outcome bus next)
  simp only [busRest, Prod.mk.injEq] at rest
  obtain ⟨⟨layout, writer, recovery, start, shutdown, journalPending, mask, stamp, powered⟩, frame⟩ := rest
  obtain ⟨mem, session, pending, pfwN, crstN, mselN⟩ : t.mem = s.mem ∧ t.session = s.session ∧ t.pending = s.pending ∧
      t.pins.pfwN = s.pins.pfwN ∧ t.pins.crstN = s.pins.crstN ∧ t.pins.mselN = s.pins.mselN := by
    simpa only [outer, Prod.mk.injEq] using frame
  exact ⟨layout, writer, recovery, start, shutdown, session, powered, pending, pfwN, crstN, mselN,
    fun x => by rw [mem], journalPending, mask, stamp, cause⟩

end Sys2Proof.Machine
end

section
/-! STORE_LAYOUT and FORMAT (R78, R99, R100, R103, R131, R132). -/

namespace Sys2Proof.Machine

/-! ## The control area writer at the end of a handling -/

/-- Outside RUN and HALTED nothing completes before the port is driven. -/
theorem checked_of_not_serving {s : State} (idle : serving s = false) : checked s = s := by
  simp [checked, takeNextGroup, flushCheck, handoverCheck, idle]

/-- In CONFIG and UNFORMATTED the end of a handling leaves what a grant leaves (R85). -/
theorem settle_leaves_idle {s : State} (works : arbiterWorks s) (idle : serving s = false) :
    GrantLeaves s (settle s) := by
  have leaves := settle_leaves works
  rwa [checked_of_not_serving idle] at leaves

theorem writerWorks_idle {s : State} (works : writerWorks s = true) : serving s = false ∧ arbiterWorks s := by
  rcases (writerWorks_iff s).mp works with mode | mode
  · exact ⟨serving_of_mode mode (by decide), (arbiterWorks_iff s).mpr (.inr (.inl mode))⟩
  · exact ⟨serving_of_mode mode (by decide), (arbiterWorks_iff s).mpr (.inr (.inr mode))⟩

/-- The free port is given to the control area writer where no access is held (R84, R85). -/
theorem settle_writer {s : State} {op : ArrayOp} (works : writerWorks s = true) (free : s.port.op = none)
    (noAccess : s.access.held = none) (asks : writerOp s = some op) :
    (settle s).port.op = some { op with presented := s.pins.arrayReady } := by
  obtain ⟨idle, arbiter⟩ := writerWorks_idle works
  rw [settle_of_not_serving idle]
  generalize cleared : s.setPort { s.port with passOver := 0 } = u
  have control : u.control = s.control := by rw [← cleared]; rfl
  have freeU : u.port.op = none := by rw [← cleared]; exact free
  have arbiterU : arbiterWorks u := by rw [arbiterWorks, control]; exact arbiter
  have due : ¬readDue u = true := by
    rw [readDue_iff]
    rintro ⟨h, held, -⟩
    rw [← cleared, State.setPort_access, noAccess] at held
    cases held
  have requests : requestsOf u = { controller := none, drain := none, engine := none, writer := some op } := by
    rw [← cleared]
    have same : writerOp (s.setPort { s.port with passOver := 0 }) = writerOp s := rfl
    have mode : serving (s.setPort { s.port with passOver := 0 }) = false := idle
    have writes : writerWorks (s.setPort { s.port with passOver := 0 }) = true := works
    simp [requestsOf, controllerOp, noAccess, mode, writes, same, asks]
  have choice : arbiterChoice u.port.passOver (freeSlotCount u.queue) (requestsOf u) = some op := by
    rw [requests]
    simp [arbiterChoice]
  rw [drivePort_of_arbiter arbiterU freeU, if_neg due, arbitrate_of_choice choice, startOp_port, ← cleared]
  rfl

/-! ## STORE_LAYOUT -/

/-- The copy that STORE_LAYOUT begins (R99, R103). -/
def storeCopy (s : State) : CopyWrite :=
  { content := .layout s.layout, target := targetCopy s.writer.newestLayout
    generation := nextGeneration s.writer.newestLayout s.writer.layoutGeneration, written := 0 }

theorem storeLayoutRun_accepted {s : State} (mode : s.control.mode = .config) (complete : s.writer.formatIncomplete = false)
    (idle : s.control.longCommand = none) (clean : s.engine.journalPending = false) :
    storeLayoutRun s = (settle (beginLayout (acceptLong s .storeLayout)), Reply.bare .accepted) := by
  simp [storeLayoutRun, mode, complete, idle, clean]

/-- Settles O52. -/
theorem storeLayoutBeginsTheCopy : Obligations.StoreLayoutBeginsTheCopy := by
  intro s listening c ok
  have arm : exec c s = command s 0x30 [] (crc8 [0x30]) storeLayoutRun := rfl
  refine ⟨fun wrong => ?_, fun right busy => ?_, fun right idle pending => ?_, fun right idle clean => ?_⟩
  · refine declines_of_run listening arm (status := .wrongMode) ?_
    have refuses : (decide (s.control.mode ≠ .config) || s.writer.formatIncomplete) = true := by
      by_cases config : s.control.mode = .config
      · simpa [config] using fun complete => wrong ⟨config, complete⟩
      · simp [config]
    exact if_pos refuses
  · obtain ⟨mode, complete⟩ := right
    exact declines_of_run listening arm (status := .busy) (by simp [storeLayoutRun, mode, complete, busy])
  · obtain ⟨mode, complete⟩ := right
    exact declines_of_run listening arm (status := .journalPending)
      (by simp [storeLayoutRun, mode, complete, idle, pending])
  · obtain ⟨mode, complete⟩ := right
    have answered := answers_of_run listening arm
    rw [storeLayoutRun_accepted mode complete idle clean] at answered
    set u := beginLayout (acceptLong s .storeLayout) with begun
    have config : u.control.mode = .config := mode
    have notServing : serving u = false := serving_of_mode config (by decide)
    have works : arbiterWorks u := (arbiterWorks_iff u).mpr (.inr (.inl config))
    have leaves := settle_leaves_idle works notServing
    have generation : (storeCopy s).generation = _ := nextGeneration_eq _ _
    refine ⟨settle u, storeCopy s, answered, ?_, ?_, ?_, rfl, rfl, targetCopy_ne _, fun fresh => ?_, fun known => ?_, ?_, ?_,
      ?_, fun free noAccess noFormat => ?_⟩
    · rw [leaves.control, config]
    · rw [leaves.control]
      rfl
    · rw [leaves.writer]
      rfl
    · exact ⟨by rw [storeCopy, fresh]; rfl, by rw [generation, if_pos fresh]⟩
    · rw [generation, if_neg known]
    · rw [leaves.writer]
      rfl
    · rw [leaves.writer]
      rfl
    · have begins : NoIncident s u := ⟨rfl, rfl, rfl⟩
      exact begins.trans (settle_noIncident works)
    · have asks : writerOp u = some (copyLineOp (.storeLayoutLine 0) .verifiedWrite (storeCopy s)) := by
        have format : u.writer.format = none := noFormat
        have long : u.control.longCommand = some .storeLayout := rfl
        have copy : u.writer.copyWrite = some (storeCopy s) := rfl
        simp only [writerOp, format, long, if_true, copyOp_eq, copy]
        rfl
      rw [settle_writer ((writerWorks_iff u).mpr (.inl config)) free noAccess asks]
      simp only [copyLineOp, storeCopy]
      cases targetCopy s.writer.newestLayout <;> rfl

/-! ## The consistency check -/

theorem reactionsConsistent_iff (r : ReactionCodes) : reactionsConsistent r = true ↔
    (∀ c ∈ [r.class21, r.class22, r.class23, r.class24, r.class27, r.class28], c ≠ 3) ∧
      ∀ c ∈ [r.class31, r.class32, r.arrayFailures], c = 0 ∨ c = 2 := by
  simp [reactionsConsistent, reactionAllowsFence, reactionRecordOrHalt, and_assoc]

/-- The check passes exactly the layouts in range (R76 to R78). -/
theorem consistent_iff (l : Layout) : consistent l = true ↔ InRange l := by
  have windows : l.windows.toList.all (fun w => decide (w.cls.toNat ≤ 4)) = true ↔
      ∀ i : WindowIndex, l.windows[i].cls.toNat ≤ 4 := by
    simp only [List.all_eq_true, decide_eq_true_eq, Vector.mem_toList_iff, Vector.mem_iff_getElem]
    exact ⟨fun all i => all _ ⟨i.val, i.isLt, rfl⟩, fun all w ⟨i, inside, place⟩ => place ▸ all ⟨i, inside⟩⟩
  simp only [consistent, settingsConsistent, Bool.and_eq_true, windows, reactionsConsistent_iff,
    decide_eq_true_eq]
  constructor
  · rintro ⟨⟨⟨⟨⟨⟨⟨⟨⟨⟨⟨⟨⟨capacity, multiple⟩, above⟩, area⟩, linesLow⟩, linesHigh⟩, stall⟩, timeout⟩, budgetLow⟩, budgetHigh⟩,
      cls⟩, auto⟩, fences, halts⟩, classes⟩
    exact ⟨capacity, ⟨multiple, above⟩, area, ⟨linesLow, linesHigh⟩, stall, timeout, ⟨budgetLow, budgetHigh⟩, ⟨cls, auto⟩, fences,
      halts, classes⟩
  · rintro ⟨capacity, ⟨multiple, above⟩, area, ⟨linesLow, linesHigh⟩, stall, timeout, ⟨budgetLow, budgetHigh⟩, ⟨cls, auto⟩, fences,
      halts, classes⟩
    exact ⟨⟨⟨⟨⟨⟨⟨⟨⟨⟨⟨⟨⟨capacity, multiple⟩, above⟩, area⟩, linesLow⟩, linesHigh⟩, stall⟩, timeout⟩, budgetLow⟩, budgetHigh⟩,
      cls⟩, auto⟩, fences, halts⟩, classes⟩

/-! ## FORMAT -/

/-- The work of FORMAT as it begins (R131). -/
def formatBegun (s : State) : FormatWork :=
  { image := s.layout, journalBase := s.layout.settings.journalBase, written := 0 }

theorem formatRun_accepted {s : State} (mode : layoutWritable s = true) (idle : s.control.longCommand = none)
    (fits : consistent s.layout = true) :
    formatRun s = (settle (beginFormat (acceptLong s .format)), Reply.bare .accepted) := by
  simp [formatRun, mode, idle, fits]

/-- Settles O53. -/
theorem formatForgetsBothPairs : Obligations.FormatForgetsBothPairs := by
  refine ⟨consistent_iff, ?_⟩
  intro s listening c ok
  have arm : exec c s = command s 0x31 [] (crc8 [0x31]) formatRun := rfl
  have writable : layoutWritable s = true ↔ ok := layoutWritable_iff s
  refine ⟨fun wrong => ?_, fun right busy => ?_, fun right idle unfit => ?_, fun right idle fits => ?_⟩
  · have closed : layoutWritable s = false := by
      rw [← Bool.not_eq_true, writable]
      exact wrong
    exact declines_of_run listening arm (status := .wrongMode) (by simp [formatRun, closed])
  · exact declines_of_run listening arm (status := .busy) (by simp [formatRun, writable.mpr right, busy])
  · exact declines_of_run listening arm (status := .badLayout) (by simp [formatRun, writable.mpr right, idle, unfit])
  · have answered := answers_of_run listening arm
    rw [formatRun_accepted (writable.mpr right) idle fits] at answered
    set u := beginFormat (acceptLong s .format) with begun
    have writes : writerWorks u = true := (writerWorks_iff u).mpr right
    obtain ⟨notServing, works⟩ := writerWorks_idle writes
    have leaves := settle_leaves_idle works notServing
    have begins : NoIncident s u := ⟨rfl, rfl, rfl⟩
    have writer : (settle u).writer =
        { s.writer with
          newestLayout := none, layoutGeneration := 0, storedImage := none
          newestProgress := none, progressGeneration := 0, retiredThrough := 0
          format := some (formatBegun s), formatIncomplete := true } := leaves.writer
    refine ⟨settle u, answered, ?_, ?_, ?_, ?_, ?_, ?_, ?_, ?_, ?_, ?_, begins.trans (settle_noIncident works),
      fun free noAccess => ?_⟩
    · rw [leaves.control]
      rfl
    · rw [leaves.control]
      rfl
    · rw [writer]
    · rw [writer]
    · rw [writer]
    · rw [writer]
    · rw [writer]
    · rw [writer]
    · rw [writer]
    · rw [writer]
      rfl
    · have asks : writerOp u = some (formatOp (formatBegun s)) := rfl
      rw [settle_writer writes free noAccess asks]
      rfl

end Sys2Proof.Machine
end

section
/-! FLUSH, accepted and completed (R19, R32, R119). -/

namespace Sys2Proof.Machine

/-! ## A FLUSH at the end of a handling -/

/-- The last target of a FLUSH completes it at the end of the handling (R19, R119). -/
theorem settle_completes_flush {u : State} (serves : serving u = true) (waits : HandoverWaits u)
    (long : u.control.longCommand = some .flush) (posted : u.queue.outstanding = 0) (groups : u.groups.flushTarget = none) :
    LongCompleted (settle u) (if u.queue.lossNote then .doneWithLoss else .done) := by
  have settles := settle_settles (arbiterWorks_of_serving serves) waits
  have completes := flushCheck_completes (s := takeNextGroup u) (by rw [takeNextGroup_serving]; exact serves)
    (by rw [takeNextGroup_control]; exact long) (by rw [takeNextGroup_queue]; exact posted)
    (by rw [takeNextGroup_flushTarget]; exact groups)
  rw [LongCompleted, settles.flush, settles.commandDone, completes, takeNextGroup_queue]
  exact ⟨rfl, rfl, rfl⟩

/-- A FLUSH with a target left goes on (R19, R119). -/
theorem settle_flush_waits {u : State} (works : arbiterWorks u) (waits : HandoverWaits u)
    (left : u.control.longCommand ≠ some .flush ∨ u.queue.outstanding ≠ 0 ∨ u.groups.flushTarget ≠ none) :
    (settle u).control = u.control ∧ (settle u).recorder = u.recorder := by
  have settles := settle_settles works waits
  have goesOn : flushCheck (takeNextGroup u) = takeNextGroup u := flushCheck_of_not <| by
    rw [takeNextGroup_control, takeNextGroup_queue, takeNextGroup_flushTarget]
    rintro ⟨-, long, posted, groups⟩
    rcases left with other | other | other
    · exact other long
    · exact other posted
    · exact other groups
  exact ⟨by rw [settles.flush, goesOn, takeNextGroup_control], by rw [settles.commandDone, goesOn, takeNextGroup_recorder]⟩

theorem targetGroups_table (s : State) : (targetGroups s).groups.table = closedTable s.groups.table .command := by
  have closed := closeOpen_table s .command
  exact closed

theorem targetGroups_target (s : State) :
    (targetGroups s).groups.flushTarget = s.groups.table.getLast?.map Group.sequence := by
  have closed := closeOpen_table s .command
  have target : (targetGroups s).groups.flushTarget = (closeOpen s .command).groups.table.getLast?.map Group.sequence := rfl
  rw [target, closed, ← List.getLast?_map, closedTable_sequences, List.getLast?_map]

/-- The state in which an accepted FLUSH is settled (R172). -/
def flushAccepted (s : State) (all : Bool) : State :=
  if all then targetGroups (markPosted (acceptLong s .flush)) else markPosted (acceptLong s .flush)

theorem flushAccepted_queue (s : State) (all : Bool) : (flushAccepted s all).queue = (markPosted s).queue := by
  cases all <;> rfl

theorem flushAccepted_control (s : State) (all : Bool) :
    (flushAccepted s all).control = { s.control with longCommand := some .flush } := by
  cases all <;> rfl

theorem flushAccepted_target (s : State) (all : Bool) (none : s.groups.flushTarget = none) :
    (flushAccepted s all).groups.flushTarget =
      if all then s.groups.table.getLast?.map Group.sequence else Option.none := by
  cases all with
  | false => exact none
  | true => exact targetGroups_target _

/-- What an accepted FLUSH leaves at the end of its handling (R19, R32). -/
theorem acceptFlush_leaves {s : State} (serves : serving s = true) (quiet : s.control.configRequest = false)
    (none : s.groups.flushTarget = none) (all : Bool) :
    let t := acceptFlush s all
    let posted := (s.queue.entries.filter (fun e => e.group.isNone)).length
    let target := if all then s.groups.table.getLast?.map Group.sequence else Option.none
    t.queue.outstanding = posted ∧ t.queue.lossNote = false ∧
      t.queue.entries.map Entry.slot = s.queue.entries.map Entry.slot ∧
      (∀ e ∈ t.queue.entries, e.group = Option.none → e.flushMark = true) ∧
      t.groups.flushTarget = target ∧ (all = true → openGroup t = Option.none) ∧
      (posted = 0 ∧ target = Option.none →
        t.control.longCommand = Option.none ∧ t.control.lastResult = some .done ∧
          t.recorder.pendingEvents.commandDone = true) ∧
      (posted ≠ 0 ∨ target ≠ Option.none →
        t.control.longCommand = some .flush ∧ t.control.lastResult = s.control.lastResult) := by
  intro t posted target
  have t_eq : t = settle (flushAccepted s all) := by
    cases all <;> rfl
  have control := flushAccepted_control s all
  have queue := flushAccepted_queue s all
  have targets : _ = target := flushAccepted_target s all none
  have closes (scope : all = true) : (flushAccepted s all).groups.table = closedTable s.groups.table .command := by
    rw [scope]
    exact targetGroups_table _
  generalize flushAccepted s all = u at t_eq control queue targets closes
  have servesU : serving u = true := by rw [serving, control]; exact serves
  have works := arbiterWorks_of_serving servesU
  have waits : HandoverWaits u := handoverWaits_of_noRequest (by rw [control]; exact quiet)
  have settles := settle_settles works waits
  have outstanding : u.queue.outstanding = posted := by rw [queue]; rfl
  rw [t_eq]
  refine ⟨?_, ?_, ?_, fun e entry ungrouped => ?_, ?_, fun scope => ?_, fun ⟨posted0, target0⟩ => ?_, fun left => ?_⟩
  · exact (congrArg Served.outstanding (settle_served works)).trans outstanding
  · refine (congrArg Served.lossNote (settle_served works)).trans ?_
    show u.queue.lossNote = false
    rw [queue]
    rfl
  · rw [settles.slots, queue]
    simp only [markPosted, State.setQueue_queue, List.map_map]
    refine List.map_congr_left fun e _ => ?_
    simp only [Function.comp]
    split <;> rfl
  · obtain ⟨mark, marked, marks⟩ := settles.entries
    rw [marked, queue] at entry
    obtain ⟨x, member, rfl⟩ := List.mem_map.mp entry
    obtain ⟨y, -, rfl⟩ := List.mem_map.mp member
    have flags : ∀ z : Entry, (mark z).flushMark = z.flushMark ∧ (mark z).group = z.group := fun z => by
      rcases marks z with same | ⟨-, same⟩ <;> rw [same] <;> exact ⟨rfl, rfl⟩
    rw [(flags _).2] at ungrouped
    rw [(flags _).1]
    by_cases grouped : y.group.isNone = true
    · simp [grouped]
    · simp only [grouped, if_false, Bool.false_eq_true] at ungrouped
      simp [ungrouped] at grouped
  · exact (congrArg Served.flushTarget (settle_served works)).trans targets
  · exact (settle_closes works (closes scope)).1
  · have done := settle_completes_flush servesU waits (by rw [control]) (outstanding.trans posted0) (targets.trans target0)
    have lossless : u.queue.lossNote = false := by rw [queue]; rfl
    rw [lossless] at done
    exact done
  · obtain ⟨same, -⟩ := settle_flush_waits works waits
      (.inr (left.imp (fun p => by rw [outstanding]; exact p) (fun p => by rw [targets]; exact p)))
    rw [same, control]
    exact ⟨rfl, rfl⟩

/-- Settles O47. -/
theorem flushMarksAndCounts : Obligations.FlushMarksAndCounts := by
  intro s scope listening c
  have arm : exec c s = command s 0x1B [scope] (crc8 [0x1B, scope]) (flushRun scope) := rfl
  refine ⟨fun idle => ?_, fun serves busy => ?_, fun serves free notOne notTwo => ?_, fun serves free quiet none known => ?_⟩
  · exact declines_of_run listening arm (status := .wrongMode) (by simp [flushRun, idle])
  · exact declines_of_run listening arm (status := .busy) (by simp [flushRun, serves, busy])
  · exact declines_of_run listening arm (status := .badArgument) (by
      simp only [flushRun, serves, free, Bool.not_true, Option.isSome_none, Bool.false_eq_true, if_false, if_neg notOne,
        if_neg notTwo])
  · intro posted target
    have answered := answers_of_run listening arm
    have accepted : flushRun scope s = (acceptFlush s (decide (scope = 2)), Reply.bare .accepted) := by
      rcases known with rfl | rfl <;> simp [flushRun, serves, free]
    rw [accepted] at answered
    have leaves := acceptFlush_leaves serves quiet none (decide (scope = 2))
    simp only [decide_eq_true_eq] at leaves
    exact ⟨acceptFlush s (decide (scope = 2)), answered, leaves⟩

end Sys2Proof.Machine
end

section
/-! The end of a handover, and the abandon path (R56, R114, R115). -/

namespace Sys2Proof.Machine

/-! ## The end of a handover -/

/-- What the drive of the port leaves of a handover that has ended (R114, R115). -/
theorem HandoverCompleted.granted {s u t : State} {loss : Bool} (h : HandoverCompleted s u loss) (k : GrantLeaves u t) :
    HandoverCompleted s t loss := by
  have access : t.access = u.access := by
    rcases k.access with same | ⟨-, x, held, -⟩
    · exact same
    · rw [h.held] at held
      cases held
  have recorder := k.recorder
  refine ⟨by rw [k.control]; exact h.mode, by rw [recorder]; exact h.event, by rw [k.control]; exact h.request,
    ⟨by rw [k.control]; exact h.result.1, by rw [k.control]; exact h.result.2.1, by rw [recorder]; exact h.result.2.2⟩, ?_,
    by rw [access]; exact h.held, by rw [access]; exact h.refused⟩
  have mode : t.control.mode = .config := by rw [k.control]; exact h.mode
  have idle : serving t = false := serving_of_mode mode (by decide)
  simp [readyOut, idle]

/-- A handover is seen from another state with an access held or not alike (R115). -/
theorem HandoverCompleted.seenFrom {s u t : State} {loss : Bool} (h : HandoverCompleted u t loss)
    (access : s.access.held.isSome = true → u.access.held.isSome = true) : HandoverCompleted s t loss :=
  ⟨h.mode, h.event, h.request, h.result, h.ready, h.held, fun held => h.refused (access held)⟩

/-- With no group and no entry left the handover ends in CONFIG (R114). -/
theorem settle_completes_handover {u : State} (serves : serving u = true) (request : u.control.configRequest = true)
    (noGroups : u.groups.table = []) (noEntries : u.queue.entries = []) :
    HandoverCompleted u (settle u) u.control.handoverLoss := by
  have works := arbiterWorks_of_serving serves
  obtain ⟨control, recorder, flushed, mode, -, requested, loss, -⟩ := flushCheck_eq (takeNextGroup u)
  have servesF : serving (flushCheck (takeNextGroup u)) = true := by
    rw [serving, flushCheck_mode, takeNextGroup_control]
    exact serves
  have ends : checked u = enterConfig (flushCheck (takeNextGroup u)) (if u.control.handoverLoss then .doneWithLoss else .done) := by
    have request' : (flushCheck (takeNextGroup u)).control.configRequest = true := by
      rw [flushed]
      simp [requested, takeNextGroup_control, request]
    have loss' : (flushCheck (takeNextGroup u)).control.handoverLoss = u.control.handoverLoss := by
      rw [flushed]
      simp [loss, takeNextGroup_control]
    have groups' : (flushCheck (takeNextGroup u)).groups.table = [] := by
      rw [flushed]
      simp [noGroups]
    have entries' : (flushCheck (takeNextGroup u)).queue.entries = [] := by
      rw [flushed]
      simp [noEntries]
    rw [checked, handoverCheck, if_pos ⟨servesF, request', groups', entries'⟩, loss']
  have completed := enterConfig_completes servesF u.control.handoverLoss
  rw [← ends] at completed
  have access : (flushCheck (takeNextGroup u)).access = u.access := by
    rw [flushed]
    simp
  exact (completed.granted (settle_leaves works)).seenFrom fun held => by rw [access]; exact held

/-! ## The abandon path -/

/-- The entry to CONFIG from RUN or HALTED (R114, R115). -/
theorem enterConfig_eq {s : State} (outside : s.control.mode ≠ .config) (r : LongResult) :
    enterConfig s r =
      ((s.setControl
        { s.control with mode := .config, configRequest := false, longCommand := none, lastResult := some r }).setRecorder
          { s.recorder with pendingEvents := { s.recorder.pendingEvents with mode := true, commandDone := true } }).setAccess
            (accessRefused s.access) := by
  have moved := changeMode_of_ne (s := s.setControl { s.control with configRequest := false }) (m := .config) outside
  unfold enterConfig
  dsimp only
  rw [moved, refuseHeld_eq]
  rfl

/-- What the abandon path leaves of the blocks (R56, R115). -/
structure Abandoned (s t : State) : Prop where
  handover : HandoverCompleted s t true
  haltCause : t.control.haltCause = s.control.haltCause
  groups : t.groups = { s.groups with table := [], flushTarget := none }
  entries : t.queue.entries = []
  engine : t.engine = JournalEngine.idle s.engine.journalPending
  writer : t.writer = s.writer
  mem : t.mem = s.mem
  incidents : s.recorder.incidents.length ≤ 16 → Logged s t
    [{ report := (abandonLosses s).1, stamp := s.recorder.stamp, reaction := .none },
      { report := (abandonLosses s).2, stamp := s.recorder.stamp, reaction := .none }]

theorem settle_abandonPath {s : State} (serves : serving s = true) :
    Abandoned s (settle (abandonPath s)) := by
  set w := recordIncident (recordIncident (emptied s) (abandonLosses s).1) (abandonLosses s).2 with w_eq
  have accounted : Accounted (emptied s) w := (recordIncident_accounted _ _).trans (recordIncident_accounted _ _)
  have logged (room : s.recorder.incidents.length ≤ 16) : Logged (emptied s) w
      ([{ report := (abandonLosses s).1, stamp := s.recorder.stamp, reaction := .none }] ++
        [{ report := (abandonLosses s).2, stamp := s.recorder.stamp, reaction := .none }]) := by
    have first := recordIncident_logged (s := emptied s) room (abandonLosses s).1
    have second := recordIncident_logged first.room (abandonLosses s).2
    rw [reactionTaken_notice rfl] at first second
    rw [first.stamp] at second
    exact first.trans second
  have servesW : serving w = true := accounted.serving (s := emptied s) serves
  have path : abandonPath s = enterConfig w .doneWithLoss := abandonPath_eq s
  have outside : w.control.mode ≠ .config := fun mode => by simp [serving, mode] at servesW
  have mode : (abandonPath s).control.mode = .config := by rw [path, enterConfig_mode]
  have works : arbiterWorks (abandonPath s) := (arbiterWorks_iff _).mpr (.inr (.inl mode))
  have leaves := settle_leaves_idle works (serving_of_mode mode (by decide))
  have quiet := settle_noIncident works
  have completed : HandoverCompleted w (abandonPath s) true := by rw [path]; exact enterConfig_completes servesW true
  have equation := enterConfig_eq outside .doneWithLoss
  rw [← path] at equation
  have recorder : (abandonPath s).recorder.incidents = w.recorder.incidents ∧
      (abandonPath s).recorder.overflow = w.recorder.overflow ∧ (abandonPath s).recorder.stamp = w.recorder.stamp := by
    rw [equation]
    exact ⟨rfl, rfl, rfl⟩
  have access : w.access = s.access := accounted.access
  have control : w.control = s.control := accounted.control
  have groups : w.groups = { s.groups with table := [], flushTarget := none } := accounted.groups
  have queue : w.queue = { s.queue with entries := [], outstanding := 0 } := accounted.queue
  have engine : w.engine = JournalEngine.idle s.engine.journalPending := accounted.engine
  have writer : w.writer = s.writer := accounted.writer
  have handover : HandoverCompleted w (settle (abandonPath s)) true := completed.granted leaves
  have seen : HandoverCompleted s (settle (abandonPath s)) true := handover.seenFrom (fun held => by rw [access]; exact held)
  refine
    { handover := seen
      haltCause := ?_, groups := ?_, entries := ?_, engine := ?_, writer := ?_
      mem := mem_of_outer ((settle_outer _).trans (abandonPath_outer s)), incidents := fun room => ⟨?_, ?_, ?_⟩ }
  · rw [leaves.control, equation]
    simp [control]
  · rw [leaves.groups, equation]
    simp [groups]
  · obtain ⟨mark, queue', -⟩ := leaves.entries
    rw [queue', equation]
    simp [queue]
  · rw [leaves.engine, equation]
    simp [engine]
  · rw [leaves.writer, equation]
    simp [writer]
  · rw [quiet.1, recorder.1]
    exact (logged room).incidents
  · rw [quiet.2.1, recorder.2.1]
    exact (logged room).overflow
  · have stamp : (settle (abandonPath s)).recorder.stamp = (abandonPath s).recorder.stamp := congrArg Served.stamp (settle_served works)
    rw [stamp, recorder.2.2]
    exact (logged room).stamp

end Sys2Proof.Machine
end

section
/-! REQUEST_CONFIG: the handover begun, completed at once, or abandoned (R113 to R115). -/

namespace Sys2Proof.Machine

/-- The state of an accepted REQUEST_CONFIG before a STALLED group is looked for (R113). -/
def configRequested (s : State) : State :=
  closeOpen
    ((s.setControl
      { s.control with longCommand := some .requestConfig, configRequest := true, handoverLoss := false }).setAccess
        (writeRefused s.access)) .mode

theorem acceptConfig_eq (s : State) :
    acceptConfig s =
      settle (if s.groups.table.any groupStalled then abandonPath (configRequested s) else configRequested s) := by
  have stalled : (configRequested s).groups.table.any groupStalled = s.groups.table.any groupStalled := by
    rw [configRequested, closeOpen_table, closedTable, List.any_map]
    refine List.any_congr rfl fun g => ?_
    simp only [Function.comp]
    split
    · next opened => simp [groupStalled, opened]
    · rfl
  unfold acceptConfig
  dsimp only
  rw [refuseHeldWrite_eq]
  exact congrArg settle (if_congr (by rw [← stalled]; rfl) rfl rfl)

theorem configRequested_table (s : State) :
    (configRequested s).groups.table = closedTable s.groups.table .mode :=
  closeOpen_table _ _

theorem configRequested_recorder (s : State) : (configRequested s).recorder = s.recorder := by
  simp [configRequested, closeOpen]

theorem configRequested_queue (s : State) : (configRequested s).queue = s.queue := by
  simp [configRequested, closeOpen]

theorem abandonLosses_congr {s t : State} (queue : t.queue = s.queue) : abandonLosses t = abandonLosses s := by
  rw [abandonLosses, abandonLosses, queue]

theorem groupStalled_iff (g : Group) : groupStalled g = true ↔ ∃ p, g.state = .stalled p := by
  unfold groupStalled
  cases g.state <;> simp

theorem requestConfigRun_accepted {s : State} (serves : serving s = true) (idle : s.control.longCommand = none) :
    requestConfigRun s = (acceptConfig s, Reply.bare .accepted) := by
  have outside : s.control.mode ≠ .config := fun mode => by simp [serving, mode] at serves
  simp [requestConfigRun, outside, serves, idle]

/-- With groups or entries left and no group STALLED the handover waits for them (R113, R114). -/
theorem configRequested_waits {s : State} (serves : serving s = true)
    (left : s.groups.table ≠ [] ∨ s.queue.entries ≠ []) :
    let t := settle (configRequested s)
    t.control.mode = s.control.mode ∧ t.control.configRequest = true ∧
      t.control.longCommand = some .requestConfig ∧ t.control.handoverLoss = false ∧ openGroup t = none ∧
      (∀ h, s.access.held = some h → opIsWrite h.access.op = true →
        t.access = { held := none, answer := some .refuse }) ∧
      (∀ g, openGroup s = some g → ∃ r ∈ t.groups.table, r.sequence = g.sequence ∧ r.closeCause = some .mode) ∧
      OldestTaken (closedTable s.groups.table .mode) t := by
  have servesU : serving (configRequested s) = true := serves
  have works := arbiterWorks_of_serving servesU
  have table := configRequested_table s
  have waits : HandoverWaits (configRequested s) := fun _ =>
    left.imp_left fun groups => by rw [table]; exact (closedTable_nil _ _).not.mpr groups
  obtain ⟨control, -⟩ := settle_flush_waits works waits (.inl (by simp [configRequested, closeOpen]))
  obtain ⟨noneOpen, record⟩ := settle_closes works table
  have taken := settle_oldestTaken servesU
  rw [table] at taken
  dsimp only
  rw [control]
  refine ⟨rfl, rfl, rfl, rfl, noneOpen, fun h held write => ?_, fun g opened => ?_, taken⟩
  · have refused : (configRequested s).access = { held := none, answer := some .refuse } := by
      simp [configRequested, closeOpen, writeRefused, held, write]
    rw [settle_access_idle works (by rw [refused]), refused]
  · obtain ⟨r, member, sequence, cause, -⟩ := record g opened
    exact ⟨r, member, sequence, cause⟩

/-- The report and the reaction of each incident added, with room for two (R115, R155). -/
theorem Abandoned.reports {s t : State} (h : Abandoned s t) (room : s.recorder.incidents.length < 15) :
    (t.recorder.incidents.drop s.recorder.incidents.length).map (fun i => (i.report, i.reaction)) =
      [((abandonLosses s).1, .none), ((abandonLosses s).2, .none)] := by
  rw [(h.incidents (by omega)).incidents, List.take_of_length_le (by rw [List.length_append]; simp; omega), List.drop_left]
  rfl

/-- Settles O48. -/
theorem requestConfigBeginsTheHandover : Obligations.RequestConfigBeginsTheHandover := by
  intro s listening c
  have arm : exec c s = command s 0x20 [] (crc8 [0x20]) requestConfigRun := rfl
  refine ⟨fun config => ?_, fun outside idle => ?_, fun serves busy => ?_, fun serves idle => ?_⟩
  · have answered := answers_of_run listening arm
    rw [requestConfigRun, if_pos config] at answered
    exact answered
  · exact declines_of_run listening arm (status := .wrongMode) (by simp [requestConfigRun, outside, idle])
  · have outside : s.control.mode ≠ .config := fun mode => by simp [serving, mode] at serves
    exact declines_of_run listening arm (status := .busy) (by simp [requestConfigRun, outside, serves, busy])
  · have answered := answers_of_run listening arm
    rw [requestConfigRun_accepted serves idle, acceptConfig_eq] at answered
    have servesU : serving (configRequested s) = true := serves
    refine ⟨settle (if s.groups.table.any groupStalled then abandonPath (configRequested s) else configRequested s), answered,
      fun working left => ?_, fun noGroups noEntries => ?_, fun ⟨g, record, p, stalled⟩ => ?_⟩
    · have none : s.groups.table.any groupStalled = false := by
        rw [← Bool.not_eq_true, List.any_eq_true]
        rintro ⟨g, record, stalled⟩
        obtain ⟨p, state⟩ := (groupStalled_iff g).mp stalled
        exact working g record p state
      rw [none]
      exact configRequested_waits serves left
    · rw [noGroups]
      have completed := settle_completes_handover servesU rfl (by rw [configRequested_table, noGroups]; rfl) noEntries
      exact ⟨completed.mode, completed.request, completed.result.1, completed.result.2.1, completed.result.2.2, completed.event,
        completed.held, completed.ready⟩
    · have any : s.groups.table.any groupStalled = true :=
        List.any_eq_true.mpr ⟨g, record, (groupStalled_iff g).mpr ⟨p, stalled⟩⟩
      rw [any, if_pos rfl]
      have abandoned := settle_abandonPath servesU
      have completed := abandoned.handover
      refine ⟨completed.mode, completed.request, completed.result.1, completed.result.2.1, ?_, abandoned.entries, ?_, ?_,
        completed.held, fun room => ?_⟩
      · rw [abandoned.groups]
      · rw [abandoned.engine]
        rfl
      · rw [abandoned.engine]
        rfl
      · have reports := abandoned.reports (by rw [configRequested_recorder]; exact room)
        rw [configRequested_recorder, abandonLosses_congr (configRequested_queue s)] at reports
        exact reports

end Sys2Proof.Machine
end

section
/-! RESUME: the stalled phase begun again (R57, R112). -/

namespace Sys2Proof.Machine

/-! ## What a restart changes -/

/-- A restart changes the group table, the engine, the states of entries and the copy write, and empties neither table nor
queue (R57). -/
structure Restarts (s t : State) : Prop where
  control : t.control = s.control
  recorder : t.recorder = s.recorder
  confinement : t.confinement = s.confinement
  port : t.port = s.port
  groups : t.groups.table = [] ↔ s.groups.table = []
  entries : t.queue.entries = [] ↔ s.queue.entries = []

theorem Restarts.refl (s : State) : Restarts s s :=
  ⟨rfl, rfl, rfl, rfl, .rfl, .rfl⟩

theorem Restarts.trans {s t u : State} (h : Restarts s t) (k : Restarts t u) : Restarts s u :=
  ⟨k.control.trans h.control, k.recorder.trans h.recorder, k.confinement.trans h.confinement, k.port.trans h.port,
    k.groups.trans h.groups, k.entries.trans h.entries⟩

theorem setEngine_restarts (s : State) (v : JournalEngine) : Restarts s (s.setEngine v) :=
  ⟨rfl, rfl, rfl, rfl, .rfl, .rfl⟩

theorem setWriter_restarts (s : State) (v : ControlWriter) : Restarts s (s.setWriter v) :=
  ⟨rfl, rfl, rfl, rfl, .rfl, .rfl⟩

theorem changeCommitGroup_restarts (s : State) (f : Group → Group) : Restarts s (changeCommitGroup s f) := by
  unfold changeCommitGroup
  split
  · exact ⟨rfl, rfl, rfl, rfl, List.map_eq_nil_iff, .rfl⟩
  · exact .refl s

theorem enterPhase_restarts (s : State) (p : Phase) : Restarts s (enterPhase s p) :=
  (changeCommitGroup_restarts s _).trans (setEngine_restarts _ _)

theorem composeRecord_restarts (s : State) : Restarts s (composeRecord s) := by
  rw [composeRecord_eq]
  exact setEngine_restarts s _

theorem setCommitEntries_restarts (s : State) (p : EntryState → Bool) (st : EntryState) :
    Restarts s (setCommitEntries s p st) := by
  unfold setCommitEntries
  split
  · exact .refl s
  · exact ⟨rfl, rfl, rfl, rfl, .rfl, List.map_eq_nil_iff⟩

theorem startRetiring_restarts (s : State) : Restarts s (startRetiring s) := by
  unfold startRetiring
  dsimp only
  split
  · exact (enterPhase_restarts s .retiring).trans (setWriter_restarts _ _)
  · exact enterPhase_restarts s .retiring

theorem restartPhase_restarts (s : State) (p : Phase) : Restarts s (restartPhase s p) := by
  cases p with
  | journaling =>
    exact ((enterPhase_restarts s .journaling).trans (setEngine_restarts _ _)).trans (composeRecord_restarts _)
  | marking => exact enterPhase_restarts s .marking
  | applying =>
    exact (enterPhase_restarts s .applying).trans (setCommitEntries_restarts _ (fun st => st == .applied) .ready)
  | retiring => exact startRetiring_restarts s

theorem restartStalled_restarts (s : State) : Restarts s (restartStalled s) := by
  unfold restartStalled
  split
  · exact .refl s
  · exact restartPhase_restarts s _

/-! ## The phase begun again -/

theorem restartStalled_of_stalled {s : State} {g : Group} {p : Phase} (found : s.groups.table.find? groupStalled = some g)
    (state : g.state = .stalled p) : restartStalled s = restartPhase s p := by
  have phase : stalledPhase s = some p := by simp [stalledPhase, found, state]
  simp only [restartStalled, phase]

theorem restartStalled_of_none {s : State} (none : ∀ g ∈ s.groups.table, groupStalled g = false) :
    restartStalled s = s := by
  have found : s.groups.table.find? groupStalled = Option.none :=
    List.find?_eq_none.mpr fun g record => by simp [none g record]
  have phase : stalledPhase s = Option.none := by simp [stalledPhase, found]
  simp only [restartStalled, phase]

/-- RETIRING begins: the group's record and the engine take it, and the progress copy is begun (R51, R57). -/
theorem startRetiring_eq {s : State} {q : Seq} (inCommit : s.engine.inCommit = some q) :
    startRetiring s = beginProgress (enterPhase s .retiring) (progressOf .dirty q) := by
  have same : (enterPhase s .retiring).engine.inCommit = some q := by
    rw [enterPhase_eq inCommit]
    exact inCommit
  simp only [startRetiring, same]

theorem beginProgress_begun {s t : State} {p : ProgressContent} (writer : t.writer = s.writer) :
    CopyBegun s (beginProgress t p) p := by
  refine ⟨_, rfl, rfl, rfl, ?_, ?_⟩
  · rw [← writer]
    exact targetCopy_ne _
  · rw [← writer]
    exact nextGeneration_eq _ _

theorem enterPhase_writer (s : State) (p : Phase) : (enterPhase s p).writer = s.writer := by
  unfold enterPhase changeCommitGroup
  cases s.engine.inCommit <;> rfl

theorem enterPhase_queue (s : State) (p : Phase) : (enterPhase s p).queue = s.queue := by
  unfold enterPhase changeCommitGroup
  cases s.engine.inCommit <;> rfl

/-- The stalled phase is begun again from its start (R57). -/
structure Restarted (s t : State) (q : Seq) (p : Phase) : Prop where
  step : AtStep t q p 0 .first
  journalPending : t.engine.journalPending = s.engine.journalPending
  journaling : p = .journaling → t.engine.runningCheck = journalCheck s q
  marking : p = .marking → t.engine.runningCheck = s.engine.runningCheck
  applying : p = .applying → ∀ e ∈ s.queue.entries, e.group = some q → e.state = .applied ∨ e.state = .ready →
    { e with state := .ready } ∈ t.queue.entries
  retiring : p = .retiring → CopyBegun s t (progressOf .dirty q)

theorem restartPhase_restarted {s : State} {q : Seq} {g : Group} (inCommit : s.engine.inCommit = some q)
    (record : g ∈ s.groups.table) (bears : g.sequence = q) (p : Phase) : Restarted s (restartPhase s p) q p := by
  have step := enterPhase_atStep inCommit record bears p
  have entered := enterPhase_eq inCommit p
  cases p with
  | journaling =>
    have begun : restartPhase s .journaling = _ := startJournaling_eq inCommit
    refine ⟨?_, ?_, fun _ => ?_, nofun, nofun, nofun⟩
    · rw [begun]
      exact ⟨inCommit, rfl, rfl, rfl, _, mem_placed .journaling 0 record bears, bears, rfl, rfl⟩
    · rw [begun]
      rfl
    · rw [begun]
      rfl
  | marking =>
    refine ⟨step, ?_, nofun, fun _ => ?_, nofun, nofun⟩
    · show (enterPhase s .marking).engine.journalPending = _
      rw [entered]
      rfl
    · show (enterPhase s .marking).engine.runningCheck = _
      rw [entered]
      rfl
  | applying =>
    have same : (enterPhase s .applying).engine.inCommit = some q := step.1
    have begun : restartPhase s .applying =
        changeEntries (enterPhase s .applying) (fun e => e.group == some q && e.state == .applied)
          (fun e => { e with state := .ready }) := by
      simp only [restartPhase, setCommitEntries, same]
    refine ⟨?_, ?_, nofun, nofun, fun _ e entry grouped state => ?_, nofun⟩
    · rw [begun]
      exact step.of_same rfl rfl rfl rfl rfl
    · rw [begun]
      show (enterPhase s .applying).engine.journalPending = _
      rw [entered]
      rfl
    · rw [begun, changeEntries, State.setQueue_queue, enterPhase_queue]
      refine List.mem_map.mpr ⟨e, entry, ?_⟩
      rcases state with applied | ready
      · simp [grouped, applied]
      · rw [if_neg (by simp [ready]), ← ready]
  | retiring =>
    have begun : restartPhase s .retiring = _ := startRetiring_eq inCommit
    refine ⟨?_, ?_, nofun, nofun, nofun, fun _ => ?_⟩
    · rw [begun]
      exact step.of_same rfl rfl rfl rfl rfl
    · rw [begun]
      show (enterPhase s .retiring).engine.journalPending = _
      rw [entered]
      rfl
    · rw [begun]
      exact beginProgress_begun (enterPhase_writer s .retiring)

/-! ## RESUME -/

/-- The state of a RESUME before a stalled phase is looked for (R112). -/
def resumed (s : State) : State :=
  (s.setControl { s.control with haltCause := none, mode := .run }).setRecorder
    { s.recorder with pendingEvents := { s.recorder.pendingEvents with mode := true } }

theorem resume_eq {s : State} (halted : s.control.mode = .halted) : resume s = settle (restartStalled (resumed s)) := by
  have moved := changeMode_of_ne (s := s.setControl { s.control with haltCause := none }) (m := .run) (by simp [halted])
  have same : changeMode (s.setControl { s.control with haltCause := none }) .run = resumed s := by
    rw [moved]
    rfl
  unfold resume
  dsimp only
  rw [same]

/-- With a group in commit the engine takes none, and its items stand to the end of the handling (R35). -/
theorem settle_inCommit {s : State} (works : arbiterWorks s) (commit : ∃ g ∈ s.groups.table, groupInCommit g = true) :
    (settle s).groups = s.groups ∧ (settle s).engine = s.engine := by
  rw [settle_groups works, settle_engine works, takeNextGroup_none (.inl commit)]
  exact ⟨rfl, rfl⟩

theorem AtStep.inCommit {t : State} {q : Seq} {p : Phase} {n : Nat} {half : Half} (h : AtStep t q p n half) :
    ∃ g ∈ t.groups.table, groupInCommit g = true := by
  obtain ⟨-, -, -, -, r, record, -, state, -⟩ := h
  exact ⟨r, record, by simp [groupInCommit, state]⟩

theorem settle_atStep {s : State} {q : Seq} {p : Phase} {n : Nat} {half : Half} (works : arbiterWorks s)
    (h : AtStep s q p n half) : AtStep (settle s) q p n half := by
  obtain ⟨groups, engine⟩ := settle_inCommit works h.inCommit
  exact h.of_same (by rw [groups]) (by rw [engine]) (by rw [engine]) (by rw [engine]) (by rw [engine])

/-- A restarted phase at the end of the handling. -/
theorem Restarted.settled {s u : State} {q : Seq} {p : Phase} (h : Restarted s u q p) (works : arbiterWorks u)
    (waits : HandoverWaits u) (port : u.port = s.port) :
    AtStep (settle u) q p 0 .first ∧ (settle u).engine.journalPending = s.engine.journalPending ∧
      (p = .journaling → (settle u).engine.runningCheck = journalCheck s q) ∧
      (p = .marking → (settle u).engine.runningCheck = s.engine.runningCheck) ∧
      (p = .applying → ∀ e ∈ s.queue.entries, e.group = some q → e.state = .applied ∨ e.state = .ready →
        ∃ x ∈ (settle u).queue.entries,
          x = { e with state := .ready } ∨ (s.port.op = none ∧ x = { e with state := .writing })) ∧
      (p = .retiring → CopyBegun s (settle u) (progressOf .dirty q)) := by
  have settles := settle_settles works waits
  have engine := (settle_inCommit works h.step.inCommit).2
  rw [engine]
  refine ⟨settle_atStep works h.step, h.journalPending, h.journaling, h.marking, fun applying e entry grouped state => ?_,
    fun retiring => ?_⟩
  · obtain ⟨x, member, marked⟩ := settles.entry (h.applying applying e entry grouped state)
    rw [port] at marked
    exact ⟨x, member, marked⟩
  · rw [CopyBegun, settles.writer]
    exact h.retiring retiring

/-- Settles O50. -/
theorem resumeReturnsToRun : Obligations.ResumeReturnsToRun := by
  intro s listening
  have arm : exec (.resume (crc8 [0x22])) s = command s 0x22 [] (crc8 [0x22]) resumeRun := rfl
  refine ⟨fun other => ?_, fun halted waits => ?_⟩
  · exact declines_of_run listening arm (status := .wrongMode) (by simp [resumeRun, other])
  · have answered := answers_of_run listening arm
    rw [resumeRun, if_pos halted, resume_eq halted] at answered
    set u := restartStalled (resumed s) with u_eq
    have restarts : Restarts (resumed s) u := restartStalled_restarts (resumed s)
    have control : u.control = { s.control with haltCause := none, mode := .run } := restarts.control
    have serves : serving u = true := by
      rw [serving, control]
      rfl
    have works := arbiterWorks_of_serving serves
    have waitsU : HandoverWaits u := by
      rw [HandoverWaits, control, ne_eq, ne_eq, restarts.groups, restarts.entries]
      exact waits
    have settles := settle_settles works waitsU
    have begins : NoIncident s (resumed s) := ⟨rfl, rfl, rfl⟩
    refine ⟨settle u, answered, ?_, ?_, ?_, ?_, ?_, fun g p found state inCommit => ?_, fun working commit => ?_⟩
    · rw [settles.mode, control]
    · rw [settles.haltCause, control]
    · rw [settles.event, restarts.recorder]
      rfl
    · exact (begins.of_recorder restarts.recorder).trans settles.incidents
    · exact settles.confinement.trans restarts.confinement
    · have record : g ∈ (resumed s).groups.table := List.mem_of_find?_eq_some found
      have again := restartPhase_restarted (s := resumed s) inCommit record rfl p
      rw [← restartStalled_of_stalled (s := resumed s) found state, ← u_eq] at again
      obtain ⟨step, pending, journaling, marking, applying, retiring⟩ := again.settled works waitsU restarts.port
      refine ⟨step, pending, fun same => ?_, marking, applying, retiring⟩
      rw [journaling same, journalCheck]
      rfl
    · have same : u = resumed s := restartStalled_of_none working
      rw [same] at works ⊢
      obtain ⟨groups, engine⟩ := settle_inCommit works commit
      rw [same] at settles
      exact ⟨engine, settles.writer, groups⟩

end Sys2Proof.Machine
end

section
/-! The end of an array step: the next step of the operation, its completion, its failure (R80 to R83). -/

namespace Sys2Proof.Machine

/-! ## The state an operation leaves behind -/

/-- The operation in flight has ended: the port is free, and the memory and the ready line are as its last step left them. -/
def freed (s : State) (m : Memory) (ready : Bool) : State :=
  freePort ((s.setMem m).setPins { s.pins with arrayReady := ready })

@[simp] theorem freed_control (s : State) (m : Memory) (ready : Bool) : (freed s m ready).control = s.control := rfl

@[simp] theorem freed_access (s : State) (m : Memory) (ready : Bool) : (freed s m ready).access = s.access := rfl

@[simp] theorem freed_queue (s : State) (m : Memory) (ready : Bool) : (freed s m ready).queue = s.queue := rfl

@[simp] theorem freed_groups (s : State) (m : Memory) (ready : Bool) : (freed s m ready).groups = s.groups := rfl

@[simp] theorem freed_engine (s : State) (m : Memory) (ready : Bool) : (freed s m ready).engine = s.engine := rfl

@[simp] theorem freed_writer (s : State) (m : Memory) (ready : Bool) : (freed s m ready).writer = s.writer := rfl

@[simp] theorem freed_recovery (s : State) (m : Memory) (ready : Bool) : (freed s m ready).recovery = s.recovery := rfl

@[simp] theorem freed_start (s : State) (m : Memory) (ready : Bool) : (freed s m ready).start = s.start := rfl

@[simp] theorem freed_shutdown (s : State) (m : Memory) (ready : Bool) : (freed s m ready).shutdown = s.shutdown := rfl

@[simp] theorem freed_layout (s : State) (m : Memory) (ready : Bool) : (freed s m ready).layout = s.layout := rfl

@[simp] theorem freed_recorder (s : State) (m : Memory) (ready : Bool) : (freed s m ready).recorder = s.recorder := rfl

@[simp] theorem freed_confinement (s : State) (m : Memory) (ready : Bool) :
    (freed s m ready).confinement = s.confinement := rfl

@[simp] theorem freed_session (s : State) (m : Memory) (ready : Bool) : (freed s m ready).session = s.session := rfl

@[simp] theorem freed_free (s : State) (m : Memory) (ready : Bool) : (freed s m ready).free = s.free := rfl

@[simp] theorem freed_powered (s : State) (m : Memory) (ready : Bool) : (freed s m ready).powered = s.powered := rfl

@[simp] theorem freed_pending (s : State) (m : Memory) (ready : Bool) : (freed s m ready).pending = s.pending := rfl

@[simp] theorem freed_mem (s : State) (m : Memory) (ready : Bool) : (freed s m ready).mem = m := rfl

@[simp] theorem freed_port (s : State) (m : Memory) (ready : Bool) :
    (freed s m ready).port = { s.port with op := none } := rfl

@[simp] theorem freed_pins (s : State) (m : Memory) (ready : Bool) :
    (freed s m ready).pins = { s.pins with arrayReady := ready } := rfl

@[simp] theorem freed_serving (s : State) (m : Memory) (ready : Bool) : serving (freed s m ready) = serving s := rfl

theorem freed_reaction (s : State) (m : Memory) (ready : Bool) (d : Detail) :
    reactionTaken (freed s m ready) d = reactionTaken s d :=
  reactionTaken_congr rfl rfl rfl d

theorem freed_noIncident (s : State) (m : Memory) (ready : Bool) : NoIncident s (freed s m ready) :=
  .refl s

/-- What is recorded once the port is free is recorded of the state before. -/
theorem freed_records {s t : State} {m : Memory} {ready : Bool} {r : Report} {x : Reaction}
    (h : Records (freed s m ready) t r x) : Records s t r x :=
  .of_noIncident (freed_noIncident s m ready) rfl h

theorem freed_sound {s : State} (h : Sound s) {m : Memory} (wf : m.wf = true) (ready : Bool) : Sound (freed s m ready) :=
  freePort_sound ((h.setMem wf).setPins _)

/-! ## The ready line -/

theorem landStep_read {s : State} {op : ArrayOp} (other : op.step ≠ .write) (took : LineData) : landStep s op took = s := by
  unfold landStep
  cases step : op.step with
  | write => exact absurd step other
  | read => rfl
  | readBack => rfl

theorem landStep_eq (s : State) (op : ArrayOp) (took : LineData) :
    landStep s op took = s.setMem (landStep s op took).mem := by
  unfold landStep
  cases op.step <;> rfl

/-- The array's ready line is asserted and the step in progress has landed. -/
def stepLanded (s : State) (op : ArrayOp) (took : LineData) : State :=
  (s.setMem (landStep s op took).mem).setPins { s.pins with arrayReady := true }

theorem exec_arrayReady_free {s : State} (powered : s.powered = true) (free : s.port.op = none) (took : LineData) :
    exec (.arrayReady took) s = .next (s.setPins { s.pins with arrayReady := true }) := by
  rw [exec_arrayReady, handle_of_powered powered]
  unfold readyAsserted
  simp [free]

theorem exec_arrayReady_waiting {s : State} {op : ArrayOp} (powered : s.powered = true) (busy : s.port.op = some op)
    (waiting : op.presented = false) (took : LineData) :
    exec (.arrayReady took) s = .next (beginStep (s.setPins { s.pins with arrayReady := true }) op) := by
  rw [exec_arrayReady, handle_of_powered powered]
  unfold readyAsserted
  simp [busy, waiting]

theorem exec_arrayReady_presented {s : State} {op : ArrayOp} (powered : s.powered = true) (busy : s.port.op = some op)
    (presented : op.presented = true) (took : LineData) :
    exec (.arrayReady took) s = .next (settle (stepEnded (stepLanded s op took) op took)) := by
  rw [exec_arrayReady, handle_of_powered powered]
  unfold readyAsserted
  simp only [State.setPins_port, busy, presented, if_true]
  rw [landStep_mem_pins, landStep_eq s op took]
  rfl

/-- A step that begins on an asserted ready line is presented at once (R82). -/
theorem beginStep_of_ready {s : State} (ready : s.pins.arrayReady = true) (op : ArrayOp) :
    beginStep s op =
      (s.setPins { s.pins with arrayReady := false }).setPort { s.port with op := some { op with presented := true } } :=
  if_pos ready

/-! ## Completion -/

/-- A read-back that matches differs at no enabled byte (R81). -/
theorem readBackMatches_iff (op : ArrayOp) (m : Memory) : readBackMatches op (m.readLine op.line) = true ↔
    ∀ n < 8, op.enables.getLsbD n = true → m.read (byteAddress op.line n) = byteOf op.data n := by
  rw [← Bool.not_eq_false, readBackMatches_false_iff]
  push Not
  rfl

theorem compareReadBack_matches {s : State} {op : ArrayOp}
    (same : ∀ n < 8, op.enables.getLsbD n = true → s.mem.read (byteAddress op.line n) = byteOf op.data n)
    (took : LineData) : compareReadBack s op (s.mem.readLine op.line) took =
      opCompleted (freePort s) op (s.mem.readLine op.line) :=
  if_pos ((readBackMatches_iff op s.mem).mpr same)

/-- The read-back finds an enabled byte otherwise than it was written (R81). -/
def Differs (s : State) (op : ArrayOp) : Prop :=
  ∃ n < 8, op.enables.getLsbD n = true ∧ s.mem.read (byteAddress op.line n) ≠ byteOf op.data n

theorem readBackMatches_of_differs {s : State} {op : ArrayOp} (differs : Differs s op) :
    ¬readBackMatches op (s.mem.readLine op.line) = true := by
  rw [(readBackMatches_false_iff op s.mem).mpr differs]
  exact Bool.false_ne_true

theorem compareReadBack_again {s : State} {op : ArrayOp} (differs : Differs s op) (early : op.attempt < 3)
    (took : LineData) : compareReadBack s op (s.mem.readLine op.line) took =
      beginStep s { op with attempt := op.attempt + 1, step := .write } :=
  (if_neg (readBackMatches_of_differs differs)).trans (if_pos early)

theorem compareReadBack_fails {s : State} {op : ArrayOp} (differs : Differs s op) (last : op.attempt = 3)
    (took : LineData) : compareReadBack s op (s.mem.readLine op.line) took =
      opFailed (freePort (spoilCopy s op took)) op .miscompare :=
  (if_neg (readBackMatches_of_differs differs)).trans (if_neg (by rw [last]; decide))

theorem stepEnded_readBack {s : State} {op : ArrayOp} (mode : s.control.mode ≠ .shutdown)
    (kind : op.kind = .verifiedWrite) (step : op.step = .readBack) (took : LineData) :
    stepEnded s op took = compareReadBack s op (s.mem.readLine op.line) took := by
  unfold stepEnded
  refine (if_neg mode).trans ?_
  rw [kind, step]

theorem stepEnded_write {s : State} {op : ArrayOp} (mode : s.control.mode ≠ .shutdown)
    (kind : op.kind = .verifiedWrite) (step : op.step = .write) (took : LineData) :
    stepEnded s op took = beginStep s { op with step := .readBack } := by
  unfold stepEnded
  refine (if_neg mode).trans ?_
  rw [kind, step]

/-- The ready line is asserted. -/
def readied (s : State) : State :=
  s.setPins { s.pins with arrayReady := true }

/-- A step that reads lands nothing. -/
theorem stepLanded_of_read {s : State} {op : ArrayOp} (other : op.step ≠ .write) (took : LineData) :
    stepLanded s op took = readied s := by
  unfold stepLanded
  rw [landStep_read other]
  rfl

/-- This assertion of ready ends the operation without failure: it completes by itself, or the sequence of SHUTDOWN takes
whatever step it is in for its end (R80, R81, R89). -/
structure Ends (s : State) (op : ArrayOp) : Prop where
  busy : s.port.op = some op
  presented : op.presented = true
  last : s.control.mode = .shutdown ∨ op.kind = .lineRead ∨ op.kind = .maskedWrite ∨
    (op.kind = .verifiedWrite ∧ op.step = .readBack ∧
      ∀ n < 8, op.enables.getLsbD n = true → s.mem.read (byteAddress op.line n) = byteOf op.data n)

theorem Ends.of_completes {s : State} {op : ArrayOp} (done : Completes s op) : Ends s op :=
  ⟨done.1, done.2.1, .inr (done.2.2.imp And.left (Or.imp_left And.left))⟩

theorem stepEnded_completes {s : State} {op : ArrayOp} (ends : Ends s op) (took : LineData) :
    stepEnded (stepLanded s op took) op took =
      opCompleted (freed s (landStep s op took).mem true) op ((landStep s op took).mem.readLine op.line) := by
  by_cases mode : s.control.mode = .shutdown
  · exact if_pos mode
  rcases ends.last.resolve_left mode with kind | kind | ⟨kind, step, same⟩
  · refine (if_neg mode).trans ?_
    rw [kind]
    rfl
  · refine (if_neg mode).trans ?_
    rw [kind]
    rfl
  · have reads : op.step ≠ .write := by simp [step]
    rw [landStep_read reads, stepLanded_of_read reads]
    exact (stepEnded_readBack (s := readied s) mode kind step took).trans
      (compareReadBack_matches (s := readied s) same took)

/-- An operation that ends hands its outcome to its requester, and the free port is driven (R83, R85). -/
theorem exec_ends {s : State} {op : ArrayOp} (powered : s.powered = true) (ends : Ends s op) (took : LineData) :
    exec (.arrayReady took) s = .next (settle
      (opCompleted (freed s (landStep s op took).mem true) op ((landStep s op took).mem.readLine op.line))) := by
  rw [exec_arrayReady_presented powered ends.busy ends.presented, stepEnded_completes ends]

/-- A line read that completes reads the line as it stands. -/
theorem landStep_of_lineRead {s : State} {op : ArrayOp} (done : Completes s op) (kind : op.kind = .lineRead)
    (took : LineData) : landStep s op took = s := by
  rcases done.2.2 with ⟨-, step⟩ | ⟨other, -⟩ | ⟨other, -⟩
  · exact landStep_read (by simp [step]) took
  · exact absurd (kind.symm.trans other) (by decide)
  · exact absurd (kind.symm.trans other) (by decide)

theorem exec_lineRead {s : State} {op : ArrayOp} (powered : s.powered = true) (done : Completes s op)
    (kind : op.kind = .lineRead) (took : LineData) :
    exec (.arrayReady took) s =
      .next (settle (opCompleted (freed s s.mem true) op (s.mem.readLine op.line))) := by
  rw [exec_ends powered (.of_completes done), landStep_of_lineRead done kind]

/-! ## Failure -/

theorem recordIncident_mode (s : State) (r : Report) : (recordIncident s r).control.mode = s.control.mode :=
  congrArg ModeController.mode (recordIncident_accounted s r).control

/-- Carrying out a reaction leaves the mode, or takes the part to HALTED or to CONFIG (R110, R115). -/
theorem carryOut_mode (s : State) (x : Reaction) (r : Report) : (carryOut s x r).control.mode = s.control.mode ∨
    (carryOut s x r).control.mode = .halted ∨ (carryOut s x r).control.mode = .config := by
  unfold carryOut
  cases x with
  | record => exact .inl rfl
  | none => exact .inl rfl
  | fence =>
    cases r.initiator with
    | none => exact .inl rfl
    | some i => exact .inl (congrArg ModeController.mode (fenceInitiator_accounted s i).control)
  | halt =>
    have abandoned : (abandonPath s).control.mode = .config := congrArg ModeView.mode (abandonPath_view s)
    dsimp only
    unfold haltReaction
    cases mode : s.control.mode with
    | run =>
      dsimp only
      split
      · exact .inr (.inr abandoned)
      · rw [enterHalted_eq mode]
        exact .inr (.inl rfl)
    | halted =>
      dsimp only
      split
      · exact .inr (.inr abandoned)
      · exact .inl mode
    | _ => exact .inl mode

theorem reportIncident_notShutdown {s : State} (mode : s.control.mode ≠ .shutdown) (r : Report) :
    (reportIncident s r).control.mode ≠ .shutdown := by
  unfold reportIncident
  rcases carryOut_mode (recordIncident s r) (reactionTaken s r.detail) r with same | halted | config
  · rw [same, recordIncident_mode]
    exact mode
  · simp [halted]
  · simp [config]

theorem completeLong_mode (s : State) (r : LongResult) : (completeLong s r).control.mode = s.control.mode :=
  rfl

theorem endRecovery_mode (s : State) (m : Mode) : (endRecovery s m).control.mode = m :=
  changeMode_mode _ m

theorem recoveryFails_mode (s : State) (path : RecoveryPath) : (recoveryFails s path).control.mode = .config := by
  unfold recoveryFails
  cases path with
  | start => exact endRecovery_mode _ _
  | command => exact (completeLong_mode _ _).trans (endRecovery_mode _ _)

theorem stallGroup_control (s : State) : (stallGroup s).control = s.control := by
  unfold stallGroup
  split
  · rfl
  · unfold changeCommitGroup
    dsimp only
    split <;> rfl

/-- The queue without a drained entry (R15, R16). -/
def queueWithout (q : PostingQueue) (e : Entry) (k : Fin 32) (failed : Bool) : PostingQueue :=
  { q with
    entries := q.entries.filter (fun x => !(x.slot == k))
    outstanding := if e.flushMark then q.outstanding - 1 else q.outstanding
    lossNote := q.lossNote || (e.flushMark && failed) }

theorem removeDrained_of_gone {s : State} {k : Fin 32} (gone : drainedEntry s k = none) (failed : Bool) :
    removeDrained s k failed = s := by
  unfold removeDrained
  rw [gone]

theorem removeDrained_of_found {s : State} {k : Fin 32} {e : Entry} (found : drainedEntry s k = some e) (failed : Bool) :
    removeDrained s k failed = (s.setQueue (queueWithout s.queue e k failed)).setControl
      { s.control with handoverLoss := s.control.handoverLoss || (failed && s.control.configRequest) } := by
  unfold removeDrained
  rw [found]
  dsimp only
  by_cases loss : (failed && s.control.configRequest) = true
  · refine (if_pos loss).trans ?_
    rw [loss, Bool.or_true]
    rfl
  · refine (if_neg loss).trans ?_
    rw [Bool.not_eq_true] at loss
    rw [loss, Bool.or_false]
    rfl

theorem removeDrained_mode (s : State) (k : Fin 32) (failed : Bool) :
    (removeDrained s k failed).control.mode = s.control.mode := by
  cases found : drainedEntry s k with
  | none => rw [removeDrained_of_gone found]
  | some e =>
    rw [removeDrained_of_found found]
    rfl

/-- A failure takes no part into SHUTDOWN. -/
theorem opFailed_notShutdown {s : State} (mode : s.control.mode ≠ .shutdown) (op : ArrayOp) (f : Failure) :
    (opFailed s op f).control.mode ≠ .shutdown := by
  have reported (u : State) (same : u.control.mode = s.control.mode) (r : Report) :
      (reportIncident u r).control.mode ≠ .shutdown := reportIncident_notShutdown (by rwa [same]) r
  have recovers (r : Report) : (recoveryOpFailed s r).control.mode ≠ .shutdown := by
    unfold recoveryOpFailed
    dsimp only
    split
    · exact reported s rfl r
    · simp [recoveryFails_mode]
  have stalled (u : State) (same : u.control.mode = s.control.mode) (r : Report) :
      (commitFailed u r).control.mode ≠ .shutdown := by
    unfold commitFailed
    rw [same, if_neg mode]
    exact reported _ (by rw [stallGroup_control]; exact same) r
  have formats (r : Report) : (formatLineFailed s r).control.mode ≠ .shutdown := by
    unfold formatLineFailed
    split
    · exact reported s rfl r
    · exact fun shutdown => reported (s.setWriter { s.writer with format := none }) rfl r
        ((completeLong_mode _ _).symm.trans shutdown)
  unfold opFailed
  split
  case h_1 =>
    unfold readFailed
    split
    · exact reported (finishAccess s .refuse) rfl _
    · exact mode
  case h_2 =>
    unfold throughFailed
    dsimp only
    split
    · exact reported (finishAccess s .refuse) rfl _
    · exact reported s rfl _
  case h_3 => exact reported _ (removeDrained_mode s _ _) _
  case h_4 => exact reported _ (removeDrained_mode s _ _) _
  case h_5 => exact stalled s rfl _
  case h_6 k _ _ _ => exact stalled (setEntryState s k .ready) rfl _
  case h_7 => exact stalled (endCopyWrite s) rfl _
  case h_8 =>
    unfold storeLineFailed
    split
    · exact reported s rfl _
    · exact fun shutdown => reported (endCopyWrite s) rfl _ ((completeLong_mode _ _).symm.trans shutdown)
  case h_9 => exact formats _
  case h_10 =>
    unfold startReadFailed
    dsimp only
    split
    · exact reported s rfl _
    · exact reported s rfl _
  case h_11 => exact recovers _
  case h_12 => exact recovers _
  case h_13 => exact recovers _
  case h_14 => exact reported s rfl _
  case h_15 => exact reported (endCopyWrite s) rfl _

/-- The state that a step which runs out of time leaves behind, its requester not yet told (R82, R101). -/
def timedOut (s : State) (op : ArrayOp) (took : LineData) : State :=
  freed s (spoilCopy (if op.presented then landStep s op took else s) op took).mem s.pins.arrayReady

theorem timedOut_eq (s : State) (op : ArrayOp) (took : LineData) :
    freePort (spoilCopy (if op.presented then landStep s op took else s) op took) = timedOut s op took := by
  have landed : (if op.presented then landStep s op took else s) =
      s.setMem (if op.presented then landStep s op took else s).mem := by
    split
    · exact landStep_eq s op took
    · rfl
  obtain ⟨m, spoilt, -⟩ := spoilCopy_eq (if op.presented then landStep s op took else s) op took
  unfold timedOut
  rw [spoilt, landed]
  rfl

theorem exec_arrayTimeout_busy {s : State} {op : ArrayOp} (powered : s.powered = true) (busy : s.port.op = some op)
    (took : LineData) :
    exec (.arrayTimeout took) s = .next (settle
      (if (opFailed (timedOut s op took) op .timeout).control.mode = .shutdown then
        endShutdown (opFailed (timedOut s op took) op .timeout)
      else opFailed (timedOut s op took) op .timeout)) := by
  rw [exec_arrayTimeout, handle_of_powered powered]
  unfold stepTimedOut
  rw [busy]
  dsimp only
  rw [timedOut_eq]

/-- A failure outside SHUTDOWN hands its cause to the requester, and the free port is driven (R83, R85). -/
theorem exec_fails {c : Instr} {s : State} {op : ArrayOp} {f : Failure} (powered : s.powered = true)
    (busy : s.port.op = some op) (fails : FailsWith s op c f) (mode : s.control.mode ≠ .shutdown) :
    ∃ m ready, exec c s = .next (settle (opFailed (freed s m ready) op f)) ∧ (s.mem.wf = true → m.wf = true) := by
  rcases fails with ⟨took, rfl, rfl⟩ | ⟨took, rfl, rfl, kind, step, presented, last, differs⟩
  · have stays : (opFailed (timedOut s op took) op .timeout).control.mode ≠ .shutdown :=
      opFailed_notShutdown (s := timedOut s op took) mode op _
    refine ⟨_, _, (exec_arrayTimeout_busy powered busy took).trans (by rw [if_neg stays]; rfl), fun wf => ?_⟩
    obtain ⟨m, spoilt, kept⟩ := spoilCopy_eq (if op.presented then landStep s op took else s) op took
    rw [spoilt]
    refine kept ?_
    split
    · exact landStep_wf wf op took
    · exact wf
  · obtain ⟨m, spoilt, wf⟩ := spoilCopy_eq s op took
    have failed : stepEnded (stepLanded s op took) op took = opFailed (freed s m true) op .miscompare := by
      rw [stepLanded_of_read (by simp [step])]
      refine (stepEnded_readBack (s := readied s) mode kind step took).trans
        ((compareReadBack_fails (s := readied s) differs last took).trans ?_)
      unfold readied
      rw [spoilCopy_setPins, spoilt]
      rfl
    exact ⟨m, true, by rw [exec_arrayReady_presented powered busy presented, failed], wf⟩

end Sys2Proof.Machine
end

section
/-! The steps of an operation follow the ready line (R81, R82). -/

namespace Sys2Proof.Machine

/-! ## A busy port through a handling's last acts -/

theorem changeMode_port (s : State) (m : Mode) : (changeMode s m).port = s.port ∧ (changeMode s m).pins = s.pins := by
  unfold changeMode
  split
  · exact ⟨rfl, rfl⟩
  · exact ⟨rfl, rfl⟩

theorem enterConfig_port (s : State) (r : LongResult) :
    (enterConfig s r).port = s.port ∧ (enterConfig s r).pins = s.pins := by
  unfold enterConfig
  dsimp only
  rw [refuseHeld_eq]
  exact changeMode_port (s.setControl { s.control with configRequest := false }) .config

theorem checked_port (s : State) : (checked s).port = s.port ∧ (checked s).pins = s.pins := by
  have flushed : (flushCheck (takeNextGroup s)).port = s.port ∧ (flushCheck (takeNextGroup s)).pins = s.pins := by
    obtain ⟨control, recorder, same, -⟩ := flushCheck_eq (takeNextGroup s)
    rw [same]
    exact ⟨takeNextGroup_port s, takeNextGroup_pins s⟩
  unfold checked handoverCheck
  split
  · exact ⟨(enterConfig_port _ _).1.trans flushed.1, (enterConfig_port _ _).2.trans flushed.2⟩
  · exact flushed

/-- While an operation is in flight, what a handling does last grants nothing (R85). -/
theorem settle_busy {s : State} {op : ArrayOp} (busy : s.port.op = some op) : settle s = clearPassOver (checked s) := by
  obtain ⟨n, same⟩ := clearPassOver_eq (checked s)
  rw [settle_eq, same]
  exact drivePort_of_busy ((congrArg ArrayPort.op (checked_port s).1).trans busy)

theorem settle_busy_port {s : State} {op : ArrayOp} (busy : s.port.op = some op) :
    (settle s).port.op = some op ∧ (settle s).pins = s.pins := by
  obtain ⟨n, same⟩ := clearPassOver_eq (checked s)
  rw [settle_busy busy, same]
  exact ⟨(congrArg ArrayPort.op (checked_port s).1).trans busy, (checked_port s).2⟩

theorem settle_busy_noIncident {s : State} (busy : s.port.op.isSome = true) : NoIncident s (settle s) := by
  by_cases serves : serving s = true
  · exact settle_noIncident (arbiterWorks_of_serving serves)
  · rw [Bool.not_eq_true] at serves
    rw [settle_of_busy serves busy]
    exact .refl s

/-! ## The next step -/

/-- The step that follows is presented at once, on the ready line that ended the one before (R82). -/
theorem nextStep_presented (s : State) (op next : ArrayOp) (took : LineData) :
    let t := settle (beginStep (stepLanded s op took) next)
    t.port.op = some { next with presented := true } ∧ t.pins.arrayReady = false ∧ NoIncident s t := by
  intro t
  have begun : beginStep (stepLanded s op took) next =
      ((stepLanded s op took).setPins { s.pins with arrayReady := false }).setPort
        { s.port with op := some { next with presented := true } } := beginStep_of_ready rfl next
  have port : (beginStep (stepLanded s op took) next).port.op = some { next with presented := true } := by rw [begun]; rfl
  have settled := settle_busy_port port
  refine ⟨settled.1, ?_, ?_⟩
  · have pins : t.pins = (beginStep (stepLanded s op took) next).pins := settled.2
    rw [pins, begun]
    rfl
  · have quiet : NoIncident s (beginStep (stepLanded s op took) next) := by
      rw [begun]
      exact .refl s
    exact quiet.trans (settle_busy_noIncident (by rw [port]; rfl))

/-- Settles O16: a step without an outcome of its requester is followed by the next one of its operation. -/
theorem stepsFollowTheReadyLine : Obligations.StepsFollowTheReadyLine := by
  refine ⟨fun took s powered => ⟨fun free => exec_arrayReady_free powered free took, fun op busy waiting => ?_⟩,
    fun took s op powered busy presented mode kind => ⟨fun step => ?_, fun step early differs => ?_⟩⟩
  · rw [exec_arrayReady_waiting powered busy waiting, beginStep_of_ready rfl]
    rfl
  · have next := exec_arrayReady_presented powered busy presented took
    rw [stepEnded_write (s := stepLanded s op took) mode kind step] at next
    obtain ⟨port, ready, -⟩ := nextStep_presented s op { op with step := .readBack } took
    exact ⟨_, next, by rw [port, presented], ready⟩
  · have next := exec_arrayReady_presented powered busy presented took
    rw [stepLanded_of_read (by simp [step]), stepEnded_readBack (s := readied s) mode kind step,
      compareReadBack_again (s := readied s) differs early] at next
    rw [← stepLanded_of_read (op := op) (by simp [step]) took] at next
    obtain ⟨port, ready, quiet⟩ := nextStep_presented s op { op with attempt := op.attempt + 1, step := .write } took
    exact ⟨_, next, by rw [port, presented], ready, quiet⟩

end Sys2Proof.Machine
end

section
/-! What an array event leaves in the memory (R80, R83, R101). -/

namespace Sys2Proof.Machine

/-- The state with what the memory took of the step in progress. -/
def stepTaken (s : State) (op : ArrayOp) (took : LineData) : State :=
  if op.presented then landStep s op took else s

theorem stepTaken_eq (s : State) (op : ArrayOp) (took : LineData) :
    stepTaken s op took = s.setMem (stepTaken s op took).mem := by
  unfold stepTaken
  split
  · exact landStep_eq s op took
  · rfl

theorem stepTaken_wf {s : State} (wf : s.mem.wf = true) (op : ArrayOp) (took : LineData) :
    (stepTaken s op took).mem.wf = true := by
  unfold stepTaken
  split
  · exact landStep_wf wf op took
  · exact wf

theorem stepTaken_lineBefore (s : State) (op : ArrayOp) (took : LineData) :
    (stepTaken s op took).lineBefore = s.lineBefore := by
  rw [stepTaken_eq]
  rfl

/-- A byte after the step: at an enabled byte of a presented write the new data in the bits of `took` (R80). -/
theorem read_stepTaken {s : State} (wf : s.mem.wf = true) (op : ArrayOp) (took : LineData) (x : Addr) :
    (stepTaken s op took).mem.read x =
      if op.presented = true ∧ op.step = .write ∧ lineOf x = op.line ∧ op.enables.getLsbD (lineOffset x) = true then
        (byteOf op.data (lineOffset x) &&& byteOf took (lineOffset x)) |||
          (s.mem.read x &&& ~~~(byteOf took (lineOffset x)))
      else s.mem.read x := by
  unfold stepTaken
  by_cases presented : op.presented = true
  · rw [if_pos presented, read_landStep wf]
    simp [presented]
  · rw [if_neg presented]
    simp [presented]

theorem read_stepTaken_same {s : State} (wf : s.mem.wf = true) {op : ArrayOp} (same : s.mem.readLine op.line = op.data)
    (took : LineData) (x : Addr) : (stepTaken s op took).mem.read x = s.mem.read x := by
  unfold stepTaken
  split
  · exact read_landStep_same wf same took x
  · rfl

theorem readyAsserted_mem {s : State} {op : ArrayOp} (busy : s.port.op = some op) (took : LineData) :
    (readyAsserted s took).mem =
      (if op.presented = true ∧ MiscompareEnds (landStep s op took) op then spoilCopy (stepTaken s op took) op took
        else stepTaken s op took).mem := by
  rw [mem_of_outer (readyAsserted_outer s took)]
  unfold landed stepTaken
  rw [busy]
  by_cases presented : op.presented = true <;> simp [presented]

theorem stepTimedOut_mem {s : State} {op : ArrayOp} (busy : s.port.op = some op) (took : LineData) :
    (stepTimedOut s took).mem = (spoilCopy (stepTaken s op took) op took).mem := by
  rw [mem_of_outer (stepTimedOut_outer s took)]
  unfold landed stepTaken
  rw [busy]
  by_cases presented : op.presented = true <;> simp [presented]

/-- The two events of the array port, in a part with supply. -/
theorem exec_arrayEvent {c : Instr} {s t : State} {took : LineData} (event : c = .arrayReady took ∨ c = .arrayTimeout took)
    (powered : s.powered = true) (next : exec c s = .next t) :
    (c = .arrayReady took ∧ t = readyAsserted s took) ∨ (c = .arrayTimeout took ∧ t = stepTimedOut s took) := by
  rcases event with rfl | rfl
  · rw [exec_arrayReady, handle_of_powered powered] at next
    exact .inl ⟨rfl, (Host.Outcome.next.inj next).symm⟩
  · rw [exec_arrayTimeout, handle_of_powered powered] at next
    exact .inr ⟨rfl, (Host.Outcome.next.inj next).symm⟩

theorem miscompareEnds_iff {s : State} {op : ArrayOp} (attempts : op.attempt ≤ 3) (took : LineData) :
    op.presented = true ∧ MiscompareEnds (landStep s op took) op ↔
      s.control.mode ≠ .shutdown ∧ FailsWith s op (.arrayReady took) .miscompare := by
  have mode : (landStep s op took).control.mode = s.control.mode := by rw [landStep_eq]; rfl
  unfold MiscompareEnds FailsWith
  rw [mode]
  constructor
  · rintro ⟨presented, outside, kind, step, differs, third⟩
    rw [landStep_read (by simp [step]), readBackMatches_false_iff] at differs
    exact ⟨outside, .inr ⟨took, rfl, rfl, kind, step, presented, by omega, differs⟩⟩
  · rintro ⟨outside, ⟨_, event, -⟩ | ⟨_, -, -, kind, step, presented, third, differs⟩⟩
    · exact absurd event (by simp)
    · refine ⟨presented, outside, kind, step, ?_, by omega⟩
      rw [landStep_read (by simp [step]), readBackMatches_false_iff]
      exact differs

/-- A failure leaves what `spoilCopy` makes of the line, but for a miscompare in SHUTDOWN, where no read-back is compared
(R83, R89, R101). -/
theorem failure_mem {c : Instr} {s t : State} {op : ArrayOp} {f : Failure} {took : LineData} (powered : s.powered = true)
    (busy : s.port.op = some op) (event : c = .arrayReady took ∨ c = .arrayTimeout took) (fails : FailsWith s op c f)
    (next : exec c s = .next t) :
    (f = .timeout ∨ s.control.mode ≠ .shutdown → t.mem = (spoilCopy (stepTaken s op took) op took).mem) ∧
      (t.mem = (spoilCopy (stepTaken s op took) op took).mem ∨ t.mem = (stepTaken s op took).mem) := by
  rcases exec_arrayEvent event powered next with ⟨rfl, rfl⟩ | ⟨rfl, rfl⟩
  · rw [readyAsserted_mem busy]
    rcases fails with ⟨_, other, -⟩ | ⟨w, same, rfl, kind, step, presented, third, differs⟩
    · exact absurd other (by simp)
    · refine ⟨fun outside => ?_, ?_⟩
      · have mode : s.control.mode ≠ .shutdown := outside.resolve_left (by simp)
        exact congrArg State.mem (if_pos ((miscompareEnds_iff third.le took).mpr
          ⟨mode, .inr ⟨took, rfl, rfl, kind, step, presented, third, differs⟩⟩))
      · split
        · exact .inl rfl
        · exact .inr rfl
  · exact ⟨fun _ => stepTimedOut_mem busy took, .inl (stepTimedOut_mem busy took)⟩

/-- A failure of a copy write that changes its copy leaves the copy not valid (R101, R103, R104). -/
theorem spoilt_notValid {s : State} {op : ArrayOp} (wf : s.mem.wf = true) (copy : CopyRequester op.requester)
    (changes : ChangesTheCopy s op) (took : LineData) :
    CopyNotValid (spoilCopy (stepTaken s op took) op took).mem op.line := by
  refine spoilCopy_notValid (stepTaken_wf wf op took) copy (fun before => ?_) took
  rw [stepTaken_lineBefore] at before
  obtain ⟨holds, invalid⟩ := changes before
  exact (copyNotValid_congr (read_stepTaken_same wf holds took) _).mpr invalid

theorem failure_notValid {c : Instr} {s t : State} {op : ArrayOp} {f : Failure} (powered : s.powered = true)
    (busy : s.port.op = some op) (fails : FailsWith s op c f) (next : exec c s = .next t)
    (outside : f = .timeout ∨ s.control.mode ≠ .shutdown) (wf : s.mem.wf = true) (copy : CopyRequester op.requester)
    (changes : ChangesTheCopy s op) : CopyNotValid t.mem op.line := by
  have event : ∃ took, c = .arrayReady took ∨ c = .arrayTimeout took :=
    fails.elim (fun ⟨took, timeout, _⟩ => ⟨took, .inr timeout⟩) (fun ⟨took, ready, _⟩ => ⟨took, .inl ready⟩)
  obtain ⟨took, event⟩ := event
  rw [(failure_mem powered busy event fails next).1 outside]
  exact spoilt_notValid wf copy changes took

/-- The bits of the line of a failed copy write are those written, those held at the grant, or those it had (R83). -/
theorem spoilt_bits {s : State} {op : ArrayOp} (wf : s.mem.wf = true) (took : LineData) {x : Addr} {b : Nat}
    (place : lineOf x = op.line) (inside : b < 8) :
    let after := (spoilCopy (stepTaken s op took) op took).mem.read x
    after.getLsbD b = (byteOf op.data (lineOffset x)).getLsbD b ∨
      after.getLsbD b = (byteOf s.lineBefore (lineOffset x)).getLsbD b ∨
      after.getLsbD b = ((stepTaken s op took).mem.read x).getLsbD b := by
  have offset := lineOffset_lt x
  have byte (m : Memory) : m.read x = byteOf (m.readLine op.line) (lineOffset x) := by
    rw [byteOf_readLine m op.line offset, ← place, byteAddress_lineOf]
  have bit (d : LineData) : (byteOf d (lineOffset x)).getLsbD b = d.getLsbD (56 - 8 * lineOffset x + b) := by
    unfold byteOf
    simp [inside]
  by_cases copy : writesCopy op.requester = true
  · have spoilt : (spoilCopy (stepTaken s op took) op took).mem =
        (stepTaken s op took).mem.spoilLine op.line op.data s.lineBefore took := by
      unfold spoilCopy
      rw [if_pos copy, stepTaken_lineBefore]
      rfl
    intro after
    simp only [after, spoilt, byte, bit]
    exact bits_spoilLine (stepTaken_wf wf op took) op.data s.lineBefore took (by omega)
  · have kept : spoilCopy (stepTaken s op took) op took = stepTaken s op took := by
      unfold spoilCopy
      exact if_neg copy
    intro after
    exact .inr (.inr (by rw [← kept]))

theorem stepTaken_bits {s : State} (wf : s.mem.wf = true) (op : ArrayOp) (took : LineData) (x : Addr) {b : Nat}
    (inside : b < 8) :
    ((stepTaken s op took).mem.read x).getLsbD b = (byteOf op.data (lineOffset x)).getLsbD b ∨
      ((stepTaken s op took).mem.read x).getLsbD b = (s.mem.read x).getLsbD b := by
  rw [read_stepTaken wf]
  split
  · simp only [BitVec.getLsbD_or, BitVec.getLsbD_and, BitVec.getLsbD_not, inside, decide_true, Bool.true_and]
    cases (byteOf took (lineOffset x)).getLsbD b <;> simp
  · exact .inr rfl

/-- The line that a grant keeps: that of a copy write (log 27). -/
theorem startOp_lineBefore (s : State) (op : ArrayOp) :
    (startOp s op).lineBefore = if writesCopy op.requester then s.mem.readLine op.line else s.lineBefore := by
  rw [startOp_eq]
  unfold keepLine
  split <;> rfl

/-- Settles O10: what an event of the array port leaves of each byte, and what a grant keeps of its line. -/
theorem arrayStepsWriteTheEnabledBytes : Obligations.ArrayStepsWriteTheEnabledBytes := by
  refine ⟨fun took c s t event powered sound next => ?event, fun s op => ?grant⟩
  case grant =>
    refine ⟨fun copy => ?_, fun other => ?_⟩
    · rw [startOp_lineBefore, if_pos ((writesCopy_iff _).mpr copy)]
    · rw [startOp_lineBefore, if_neg (fun writes => other ((writesCopy_iff _).mp writes))]
  case event =>
    have wf : s.mem.wf = true := sound.mem
    intro landed
    have landed_busy {op : ArrayOp} (busy : s.port.op = some op) (x : Addr) :
        landed x = (stepTaken s op took).mem.read x := by
      rw [read_stepTaken wf]
      simp only [landed, busy]
    refine ⟨fun succeeds x => ?_, fun op f busy copy fails => ?_⟩
    · cases busy : s.port.op with
      | none =>
        have same : t.mem = s.mem := by
          rcases exec_arrayEvent event powered next with ⟨-, rfl⟩ | ⟨-, rfl⟩
          · rw [mem_of_outer (readyAsserted_outer s took)]
            unfold Machine.landed
            rw [busy]
          · rw [mem_of_outer (stepTimedOut_outer s took)]
            unfold Machine.landed
            rw [busy]
        rw [same]
        simp only [landed, busy]
      | some op =>
        have attempts : op.attempt ≤ 3 := (sound.port.op op busy).2.1
        have kept : t.mem = (stepTaken s op took).mem := by
          by_cases copy : CopyRequester op.requester
          · rcases exec_arrayEvent event powered next with ⟨rfl, rfl⟩ | ⟨rfl, rfl⟩
            · rw [readyAsserted_mem busy]
              exact congrArg State.mem (if_neg fun ends =>
                succeeds op .miscompare busy copy ((miscompareEnds_iff attempts took).mp ends).2)
            · exact absurd (.inl ⟨took, rfl, rfl⟩) (succeeds op .timeout busy copy)
          · have unspoilt := spoilCopy_other (s := stepTaken s op took) copy took
            rcases exec_arrayEvent event powered next with ⟨rfl, rfl⟩ | ⟨rfl, rfl⟩
            · rw [readyAsserted_mem busy, unspoilt]
              exact congrArg State.mem (ite_self _)
            · rw [stepTimedOut_mem busy, unspoilt]
        rw [landed_busy busy, kept]
    · have left := failure_mem powered busy event fails next
      have reads := landed_busy busy
      refine ⟨fun outside changes => failure_notValid powered busy fails next outside wf copy changes,
        fun x other => ?_, fun m same invalid x => ?_, fun before x => ?_, fun x b place inside => ?_⟩
      · have untaken : (stepTaken s op took).mem.read x = s.mem.read x := by
          rw [read_stepTaken wf]
          exact if_neg fun taken => other taken.2.2.1
        rcases left.2 with spoilt | taken
        · rw [spoilt, read_spoilCopy (stepTaken_wf wf op took) took other, untaken]
        · rw [taken, untaken]
      · have invalidTaken : CopyNotValid (stepTaken s op took).mem op.line :=
          (copyNotValid_congr (fun y => (reads y).symm.trans (same y).symm) _).mpr invalid
        rw [reads]
        rcases left.2 with spoilt | taken
        · rw [spoilt, spoilCopy_of_not invalidTaken]
        · rw [taken]
      · have unspoilt : spoilCopy (stepTaken s op took) op took = stepTaken s op took := by
          unfold spoilCopy
          rw [stepTaken_lineBefore, before, spoilLine_same]
          exact ite_self _
        rw [reads]
        rcases left.2 with spoilt | taken
        · rw [spoilt, unspoilt]
        · rw [taken]
      · have bits := stepTaken_bits wf op took x inside
        rcases left.2 with spoilt | taken
        · rw [spoilt]
          rcases spoilt_bits wf took place inside with new | old | held
          · exact .inl new
          · exact .inr (.inl old)
          · exact bits.imp (held.trans ·) (fun stood => .inr (held.trans stood))
        · rw [taken]
          exact bits.imp_right .inr

end Sys2Proof.Machine
end

section
/-! The end of a handling in every mode, for an operation whose outcome leaves no trace (R74, R85, R89, R143). -/

namespace Sys2Proof.Machine

/-! ## STARTING, RECOVERING and ENDED -/

/-- An operation of the start sequence or of recovery marks nothing besides the port. -/
theorem startOp_unmarked {s : State} {op : ArrayOp} (unmarked : ∀ u : State, markGranted u op.requester = u) :
    ∃ pins v port, startOp s op = ((s.setPins pins).setLineBefore v).setPort port := by
  obtain ⟨v, kept⟩ := keepLine_eq s op
  obtain ⟨pins, began⟩ := beginStep_eq (s.setLineBefore v) op
  refine ⟨pins, v, { s.port with op := some { op with presented := s.pins.arrayReady } }, ?_⟩
  rw [startOp, kept, unmarked, began]
  rfl

theorem recoveryOp_unmarked {s : State} {r : Recovery} {op : ArrayOp} (next : recoveryOp s r = some op) (u : State) :
    markGranted u op.requester = u := by
  unfold recoveryOp at next
  split at next
  · rw [← Option.some.inj next]
    rfl
  · obtain ⟨_, -, rfl⟩ := Option.map_eq_some_iff.mp next
    rfl
  · obtain ⟨_, requester⟩ := copyOp_requester next
    rw [requester]
    rfl
  · obtain ⟨_, requester⟩ := copyOp_requester next
    rw [requester]
    rfl

/-- In STARTING, RECOVERING and ENDED the end of a handling touches the port and the lines alone (R85, R120, R124). -/
theorem settle_elsewhere {s : State} (outside : ¬arbiterWorks s) (mode : s.control.mode ≠ .shutdown) :
    ∃ pins v port, settle s = ((s.setPins pins).setLineBefore v).setPort port := by
  rw [arbiterWorks_iff, not_or] at outside
  rw [settle_of_not_serving (by simpa using outside.1)]
  generalize cleared : s.setPort { s.port with passOver := 0 } = u
  have still : ∃ pins v port, u = ((s.setPins pins).setLineBefore v).setPort port :=
    ⟨s.pins, s.lineBefore, _, cleared.symm⟩
  have starts {op : ArrayOp} (unmarked : ∀ u : State, markGranted u op.requester = u) :
      ∃ pins v port, startOp u op = ((s.setPins pins).setLineBefore v).setPort port := by
    obtain ⟨pins, v, port, started⟩ := startOp_unmarked (s := u) unmarked
    exact ⟨pins, v, port, by rw [started, ← cleared]; rfl⟩
  have control : u.control = s.control := by rw [← cleared]; rfl
  cases busy : u.port.op with
  | some op =>
    rw [drivePort_of_busy busy]
    exact still
  | none =>
    unfold drivePort
    rw [busy]
    dsimp only
    split
    · split
      · exact still
      · exact starts fun _ => rfl
    · split
      next op next =>
        obtain ⟨r, -, next⟩ := Option.bind_eq_some_iff.mp next
        exact starts (recoveryOp_unmarked next)
      next => exact still
    · next works => simp [← control, works] at outside
    · next works => simp [← control, works] at outside
    · next works => simp [serving, ← control, works] at outside
    · next works => simp [serving, ← control, works] at outside
    · next shutdown => exact absurd (control ▸ shutdown) mode
    · exact still

/-! ## SHUTDOWN -/

theorem settle_of_shutdown_low {s : State} (mode : s.control.mode = .shutdown) (low : supplyGood s = false) :
    settle (endShutdown s) = (endShutdown s).setPort { s.port with passOver := 0 } := by
  have ended := endShutdown_ended mode low
  rw [settle_of_ended (by rw [ended.control]), ended.port]

theorem settle_of_shutdown_good {s : State} (mode : s.control.mode = .shutdown) (good : supplyGood s = true) :
    settle (endShutdown s) = startedFrom s s.pins.mselN s.pins.arrayReady s.session := by
  have restarted := endShutdown_restarts mode good
  have starting : (startedFrom s s.pins.mselN s.pins.arrayReady s.session).control.mode = .starting := rfl
  rw [restarted, settle_of_busy (serving_of_mode starting (by decide)) rfl]
  rfl

/-- A handling that leaves the access, the standing of the initiators and the incidents. -/
structure NoEffect (s t : State) : Prop where
  access : t.access = s.access
  confinement : t.confinement = s.confinement
  quiet : NoIncident s t

theorem SequenceRuns.noEffect {s t : State} (h : SequenceRuns s t) : NoEffect s t :=
  ⟨h.access, h.confinement, .of_recorder (.refl s) h.recorder⟩

/-- The sequence of SHUTDOWN goes on without effect, or ends in a new start (R89, R143). -/
def GoesOn (s t : State) : Prop :=
  (supplyGood s = true ∧ t.control.mode = .starting) ∨ NoEffect s t

theorem GoesOn.of_same {s u t : State} (h : GoesOn u t) (pins : u.pins = s.pins) (access : u.access = s.access)
    (confinement : u.confinement = s.confinement) (recorder : u.recorder = s.recorder) : GoesOn s t := by
  rcases h with ⟨good, starting⟩ | ⟨access', confinement', quiet⟩
  · refine .inl ⟨?_, starting⟩
    rw [supplyGood, ← pins]
    exact good
  · refine .inr ⟨access'.trans access, confinement'.trans confinement, ?_⟩
    rw [NoIncident, ← recorder]
    exact quiet

theorem endShutdown_goesOn {s : State} (mode : s.control.mode = .shutdown) : GoesOn s (endShutdown s) := by
  cases good : supplyGood s with
  | true => exact .inl ⟨good, by rw [endShutdown_restarts mode good]; rfl⟩
  | false =>
    have ended := endShutdown_ended mode good
    exact .inr ⟨ended.access, ended.confinement, endShutdown_noIncident mode good⟩

theorem afterFinishing_goesOn {s : State} (mode : s.control.mode = .shutdown) : GoesOn s (afterFinishing s) := by
  have ends : GoesOn s (endShutdown (endCopyWrite s)) := (endShutdown_goesOn mode).of_same rfl rfl rfl rfl
  cases origin : s.shutdown.origin with
  | none =>
    rw [afterFinishing_none origin]
    exact ends
  | config =>
    rw [afterFinishing_config origin]
    split
    · exact ends
    · exact .inr ((startFinalProgress_runs _).of_same rfl rfl rfl rfl rfl).noEffect
  | full => exact .inr (afterFinishing_runs origin).noEffect

theorem advanceShutdown_goesOn {s : State} (mode : s.control.mode = .shutdown) : GoesOn s (advanceShutdown s) := by
  have stays : NoEffect s s := ⟨rfl, rfl, .refl s⟩
  unfold advanceShutdown
  split
  · exact afterFinishing_goesOn mode
  · exact .inr (continueGroup_runs s).noEffect
  · exact .inr (drainStage_runs s).noEffect
  · unfold finalProgressLine
    split
    next op next =>
      obtain ⟨n, requester⟩ := copyOp_requester next
      exact .inr (startOp_runs (by rw [requester]; rfl) (by rw [requester]; rfl)).noEffect
    next => exact .inr stays
  · exact .inr stays

theorem settle_shutdown_goesOn {s : State} (mode : s.control.mode = .shutdown) (free : s.port.op = none) :
    GoesOn s (settle s) := by
  rw [settle_of_shutdown mode free]
  exact (advanceShutdown_goesOn (s := s.setPort { s.port with passOver := 0 }) mode).of_same rfl rfl rfl rfl

theorem settle_endShutdown_goesOn {s : State} (mode : s.control.mode = .shutdown) : GoesOn s (settle (endShutdown s)) := by
  cases good : supplyGood s with
  | true => exact .inl ⟨good, by rw [settle_of_shutdown_good mode good]; rfl⟩
  | false =>
    have ended := endShutdown_ended mode good
    rw [settle_of_shutdown_low mode good]
    exact .inr ⟨ended.access, ended.confinement, endShutdown_noIncident mode good⟩

/-! ## Every other mode -/

/-- With no access held a handling with nothing to do leaves access, standings and incidents, and outside RUN and HALTED the
mode controller (R74, R85). -/
theorem settle_noEffect {s : State} (mode : s.control.mode ≠ .shutdown) (idle : s.access.held = none) :
    NoEffect s (settle s) ∧ (settle s).queue.entries.map Entry.slot = s.queue.entries.map Entry.slot ∧
      (serving s = false → (settle s).control = s.control) := by
  by_cases works : arbiterWorks s
  · have confinement := congrArg Served.confinement (settle_served works)
    exact ⟨⟨settle_access_idle works idle, confinement, settle_noIncident works⟩, settle_slots works,
      fun idle => (settle_leaves_idle works idle).control⟩
  · obtain ⟨pins, v, port, settled⟩ := settle_elsewhere works mode
    rw [settled]
    exact ⟨⟨rfl, rfl, .refl s⟩, rfl, fun _ => rfl⟩

end Sys2Proof.Machine
end

section
/-! The end of the controller's own operations: the line read of a held read, the THROUGH write (R12, R71, R73, R74). -/

namespace Sys2Proof.Machine

/-! ## Counting and reporting -/

/-- A counter takes the value it is changed to (R146). -/
theorem changeCounter_counter (s : State) (i : Initiator) (counter : Nat) :
    (changeCounter s i counter).confinement[i].counter = counter := by
  by_cases same : s.confinement[i].counter = counter
  · rw [changeCounter_of_same same, same]
  by_cases fenced : s.confinement[i].state = .fenced
  · rw [changeCounter_of_fenced same fenced, setStanding_same]
  have counted := (judged_stands s i counter s.confinement[i].state (standingOf counter)).counter
  rw [changeCounter_of_moved same fenced]
  dsimp only
  split
  · exact counted
  · exact counted

/-- A write that ends in RUN or HALTED is answered DONE and counted (R70, R72). -/
theorem finishWrite_settled {s w : State} {a : Access} (same : w.confinement = s.confinement) (serves : serving w = true) :
    WriteDone s (settle (finishWrite w a.initiator)) a := by
  have accounted := finishWrite_accounted w a.initiator
  have works : arbiterWorks (finishWrite w a.initiator) := arbiterWorks_of_serving (accounted.serving serves)
  refine WriteDone.settle ⟨accounted.access, ?_⟩ works
  refine (changeCounter_counter _ _ _).trans ?_
  rw [show (finishAccess w (.done [])).confinement = s.confinement from same]

/-- With no access held, a reaction that leaves no group STALLED leaves the access, and but for a FENCE the standings. -/
theorem carryOut_idle {s : State} {x : Reaction} {r : Report} (quiet : stallsGroup r.detail = false)
    (idle : s.access.held = none) :
    (carryOut s x r).access = s.access ∧ (x ≠ .fence → (carryOut s x r).confinement = s.confinement) := by
  have unheld : writeRefused s.access = s.access := by
    unfold writeRefused
    rw [idle]
  constructor
  · rcases carryOut_cases (s := s) (x := x) quiet with ⟨accounted, -⟩ | ⟨-, run, halts⟩
    · exact accounted.access
    · rw [halts, enterHalted_eq run]
      simp [unheld]
  · intro other
    cases x with
    | fence => exact absurd rfl other
    | record => rfl
    | none => rfl
    | halt =>
      show (haltReaction s r.detail).confinement = s.confinement
      rw [haltReaction_eq quiet]
      split
      · next run => rw [enterHalted_eq run]; simp
      · rfl

/-- An incident recorded outside SHUTDOWN while no access is held, and the end of the handling. -/
theorem incidentAlone {s : State} {r : Report} (quiet : stallsGroup r.detail = false) (mode : s.control.mode ≠ .shutdown)
    (idle : s.access.held = none) :
    let x := reactionTaken s r.detail
    let t := settle (reportIncident s r)
    t.access = s.access ∧ Records s t r x ∧ (x ≠ .fence → t.confinement = s.confinement) := by
  intro x t
  obtain ⟨access, confinement⟩ := carryOut_idle (s := recordIncident s r) (x := x) quiet idle
  have reported : reportIncident s r = carryOut (recordIncident s r) x r := rfl
  have still : (reportIncident s r).access = s.access := access.trans (recordIncident_accounted s r).access
  have effect := (settle_noEffect (reportIncident_notShutdown mode r) (by rw [still]; exact idle)).1
  exact ⟨effect.access.trans still, (reportIncident_records s r).noIncident effect.quiet,
    fun other => effect.confinement.trans (confinement other)⟩

/-! ## The operation of the access in progress -/

theorem opCompleted_read {s : State} {op : ArrayOp} {a : Access} {w : Option WindowIndex}
    (requester : op.requester = .controllerRead a w) (data : LineData) : opCompleted s op data = readCompleted s data := by
  unfold opCompleted
  rw [requester]

theorem opCompleted_through {s : State} {op : ArrayOp} {a : Access} {w : Option WindowIndex}
    (requester : op.requester = .throughWrite a w) (data : LineData) : opCompleted s op data = throughCompleted s := by
  unfold opCompleted
  rw [requester]

theorem opFailed_read {s : State} {op : ArrayOp} {a : Access} {w : Option WindowIndex}
    (requester : op.requester = .controllerRead a w) (f : Failure) : opFailed s op f = readFailed s a w := by
  unfold opFailed
  rw [requester]

theorem opFailed_through {s : State} {op : ArrayOp} {a : Access} {w : Option WindowIndex}
    (requester : op.requester = .throughWrite a w) (f : Failure) : opFailed s op f = throughFailed s f a w := by
  unfold opFailed
  rw [requester]

theorem operationHeld_of_held {s : State} {h : Held} (held : s.access.held = some h) (wait : h.wait = .operation) :
    operationHeld s = some h := by
  unfold operationHeld
  rw [held]
  exact if_pos wait

theorem operationHeld_of_idle {s : State} (idle : s.access.held = none) : operationHeld s = none := by
  unfold operationHeld
  rw [idle]
  rfl

theorem readFailed_held {s : State} {h : Held} (held : s.access.held = some h) (wait : h.wait = .operation) (a : Access)
    (w : Option WindowIndex) :
    readFailed s a w = reportIncident (finishAccess s .refuse) (accessReport .d411 a w) := by
  unfold readFailed
  rw [operationHeld_of_held held wait]
  rfl

theorem readFailed_idle {s : State} (idle : s.access.held = none) (a : Access) (w : Option WindowIndex) :
    readFailed s a w = s := by
  unfold readFailed
  rw [operationHeld_of_idle idle]
  rfl

theorem readCompleted_held {s : State} {h : Held} (held : s.access.held = some h) (wait : h.wait = .operation)
    (data : LineData) : readCompleted s data = answerRead s h.access data := by
  unfold readCompleted
  rw [operationHeld_of_held held wait]

theorem readCompleted_idle {s : State} (idle : s.access.held = none) (data : LineData) : readCompleted s data = s := by
  unfold readCompleted
  rw [operationHeld_of_idle idle]

theorem throughCompleted_held {s : State} {h : Held} (held : s.access.held = some h) (wait : h.wait = .operation) :
    throughCompleted s = finishWrite s h.access.initiator := by
  unfold throughCompleted
  rw [operationHeld_of_held held wait]

theorem throughFailed_held {s : State} {h : Held} (held : s.access.held = some h) (wait : h.wait = .operation)
    (f : Failure) (a : Access) (w : Option WindowIndex) :
    throughFailed s f a w =
      reportIncident (finishAccess s .refuse) (accessReport (failureDetail f .d412 .d422) a w) := by
  unfold throughFailed
  rw [operationHeld_of_held held wait]
  rfl

theorem throughFailed_idle {s : State} (idle : s.access.held = none) (f : Failure) (a : Access) (w : Option WindowIndex) :
    throughFailed s f a w = reportIncident s (accessReport (failureDetail f .d412 .d422) a w) := by
  unfold throughFailed
  rw [operationHeld_of_idle idle]
  rfl

/-- The requested bytes of a read answered from the array and the entries of its line (R12). -/
theorem answeredByte {s : State} {a : Access} (ok : aligned a = true) {i : Nat} (inside : i < opBytes a.op) :
    (requestedBytes a (overlay (s.mem.readLine (lineOf a.address)) (lineEntries s (accessLine a))))[i]? = some
      ((((s.queue.entries.filter (fun e => e.line == lineOf a.address)).filter
          (fun e => e.valid.getLsbD (lineOffset a.address + i))).getLast?.map
        fun e => byteOf e.data (lineOffset a.address + i)).getD
          (s.mem.read (byteAddress (lineOf a.address) (lineOffset a.address + i)))) := by
  have offset : lineOffset a.address + i < 8 := by
    have whole := lineOffset_aligned ok
    omega
  rw [requestedBytes_getElem? a _ inside, byteOf_overlay _ _ offset, byteOf_readLine _ _ offset]
  rfl

/-- A part in SHUTDOWN whose line read is for nobody goes on with its sequence. -/
theorem exec_readIdle {c : Instr} {s : State} {op : ArrayOp} {a : Access} {w : Option WindowIndex} {took : LineData}
    (powered : s.powered = true) (busy : s.port.op = some op) (requester : op.requester = .controllerRead a w)
    (idle : s.access.held = none)
    (event : c = .arrayTimeout took ∨ (c = .arrayReady took ∧ op.kind = .lineRead ∧ op.presented = true)) :
    ∃ m ready, exec c s = .next (settle (freed s m ready)) ∨
      (s.control.mode = .shutdown ∧ exec c s = .next (settle (endShutdown (freed s m ready)))) := by
  rcases event with rfl | ⟨rfl, kind, presented⟩
  · have failed : opFailed (timedOut s op took) op .timeout = timedOut s op took :=
      (opFailed_read requester _).trans (readFailed_idle (s := timedOut s op took) idle a w)
    have next := exec_arrayTimeout_busy powered busy took
    rw [failed] at next
    refine ⟨(spoilCopy (if op.presented then landStep s op took else s) op took).mem, s.pins.arrayReady, ?_⟩
    by_cases mode : s.control.mode = .shutdown
    · rw [if_pos (show (timedOut s op took).control.mode = .shutdown from mode)] at next
      exact .inr ⟨mode, next⟩
    · rw [if_neg (show (timedOut s op took).control.mode ≠ .shutdown from mode)] at next
      exact .inl next
  · have next := exec_ends powered ⟨busy, presented, .inr (.inl kind)⟩ took
    rw [opCompleted_read requester, readCompleted_idle (by exact idle)] at next
    exact ⟨_, true, .inl next⟩

/-- Settles O19: the read answered from the array and the entries, refused with its incident, or without effect. -/
theorem lineReadAnswersTheHeldRead : Obligations.LineReadAnswersTheHeldRead := by
  refine ⟨fun took s op a w h powered sound serves done kind requester held wait mine line => ?answered,
    fun took s op a w h powered serves busy requester held wait mine => ?refused,
    fun took c s op a w powered busy requester idle event => ⟨fun mode => ?quiet, fun mode => ?shutdown⟩⟩
  case answered =>
    subst mine
    have ok : aligned h.access = true := sound.access h held
    have next := exec_lineRead powered done kind took
    rw [opCompleted_read requester, readCompleted_held (s := freed s s.mem true) held wait, line] at next
    have works : arbiterWorks (answerRead (freed s s.mem true) h.access (s.mem.readLine (lineOf h.access.address))) :=
      arbiterWorks_of_serving serves
    refine ⟨_, _, next, settle_access_idle works rfl, mem_of_outer (settle_outer _), requestedBytes_length _ _,
      fun i inside => ?_⟩
    have byte := answeredByte (s := freed s s.mem true) ok inside
    rw [freed_queue, freed_mem] at byte
    refine byte.trans ?_
    cases List.getLast? _ <;> rfl
  case refused =>
    have mode : s.control.mode ≠ .shutdown := fun shutdown => by simp [serving, shutdown] at serves
    obtain ⟨m, ready, next, -⟩ := exec_fails powered busy (f := .timeout) (.inl ⟨took, rfl, rfl⟩) mode
    rw [opFailed_read requester, readFailed_held (s := freed s m ready) held wait] at next
    obtain ⟨access, records, confinement, slots, halt⟩ := refusedWithIncident (s := freed s m ready)
      (r := accessReport .d411 a w) rfl serves
    have reaction : reactionTaken (freed s m ready) (accessReport .d411 a w).detail = reactionTaken s .d411 :=
      freed_reaction s m ready .d411
    rw [reaction] at records confinement halt
    refine ⟨_, next, access, freed_records records, slots, confinement, fun quiet => ?_⟩
    have carried := halt (handoverWaits_of_noRequest quiet)
    refine ⟨fun reaction => ⟨(carried.halted reaction).1, fun run => ?_⟩, fun other => (carried.kept other).1⟩
    exact (carried.halted reaction).2.trans (if_pos run)
  case quiet =>
    have outside : s.control.mode ≠ .shutdown := by
      rcases mode with serves | config | recovering
      · exact fun shutdown => by simp [serving, shutdown] at serves
      · simp [config]
      · simp [recovering]
    obtain ⟨m, ready, next | ⟨shutdown, -⟩⟩ := exec_readIdle powered busy requester idle event
    · obtain ⟨effect, slots, control⟩ := settle_noEffect (s := freed s m ready) outside idle
      exact ⟨_, next, ⟨effect.access, effect.confinement, effect.quiet⟩, slots, control⟩
    · exact absurd shutdown outside
  case shutdown =>
    obtain ⟨m, ready, next⟩ := exec_readIdle powered busy requester idle event
    have goesOn {t : State} (on : GoesOn (freed s m ready) t) : (supplyGood s = true ∧ t.control.mode = .starting) ∨
        t.access = s.access ∧ t.confinement = s.confinement ∧ NoIncident s t :=
      on.imp id fun effect => ⟨effect.access, effect.confinement, effect.quiet⟩
    rcases next with next | ⟨-, next⟩
    · exact ⟨_, next, goesOn (settle_shutdown_goesOn (s := freed s m ready) mode rfl)⟩
    · exact ⟨_, next, goesOn (settle_endShutdown_goesOn (s := freed s m ready) mode)⟩

/-- Settles O20: the THROUGH write answered and counted, refused with its incident, or its incident alone. -/
theorem throughWriteEndsWithItsOperation : Obligations.ThroughWriteEndsWithItsOperation := by
  have quietDetail (f : Failure) : stallsGroup (f.detail .d412 .d422) = false := by cases f <;> rfl
  refine ⟨fun took s op a w h powered run busy requester held wait mine => ⟨fun done => ?done, fun c f fails => ?fails⟩,
    fun c f s op a w powered mode busy requester idle fails => ?alone⟩
  case done =>
    subst mine
    have next := exec_ends powered (.of_completes done) took
    rw [opCompleted_through requester, throughCompleted_held (by exact held) wait] at next
    have serves : serving (freed s (landStep s op took).mem true) = true := (serving_iff s).mpr (.inl run)
    have confinement := freed_confinement s (landStep s op took).mem true
    exact ⟨_, next, finishWrite_settled confinement serves⟩
  case fails =>
    intro d
    have serves : serving s = true := (serving_iff s).mpr (.inl run)
    obtain ⟨m, ready, next, -⟩ := exec_fails powered busy fails (by simp [run])
    rw [opFailed_through requester, throughFailed_held (s := freed s m ready) held wait, failureDetail_eq] at next
    obtain ⟨access, records, confinement, -, halt⟩ := refusedWithIncident (s := freed s m ready)
      (r := accessReport d a w) (quietDetail f) serves
    have same : reactionTaken (freed s m ready) (accessReport d a w).detail = reactionTaken s d :=
      freed_reaction s m ready d
    rw [same] at records confinement halt
    refine ⟨_, next, access, freed_records records, confinement, fun quiet reaction => ?_⟩
    have carried := halt (handoverWaits_of_noRequest quiet)
    have cause := (carried.halted reaction).2
    rw [freed_control, if_pos run] at cause
    exact ⟨(carried.halted reaction).1, cause⟩
  case alone =>
    intro d
    obtain ⟨m, ready, next, -⟩ := exec_fails powered busy fails mode
    rw [opFailed_through requester, throughFailed_idle (s := freed s m ready) idle, failureDetail_eq] at next
    obtain ⟨access, records, confinement⟩ := incidentAlone (s := freed s m ready) (r := accessReport d a w)
      (quietDetail f) mode idle
    have reaction : reactionTaken (freed s m ready) (accessReport d a w).detail = reactionTaken s d :=
      freed_reaction s m ready d
    rw [reaction] at records confinement
    refine ⟨_, next, access, ?_, confinement⟩
    exact freed_records records

end Sys2Proof.Machine
end

section
/-! Drain writes: the entry removed, the FLUSH and the handover that wait for it (R15, R16, R18, R19, R114). -/

namespace Sys2Proof.Machine

/-! ## What a reaction leaves of the mode controller -/

/-- A reaction that leaves no group STALLED changes the mode and the halt cause of the mode controller at most, and of the
group tracker the table (R110). -/
theorem carryOut_control {s : State} {x : Reaction} {r : Report} (quiet : stallsGroup r.detail = false) :
    (∃ mode cause, (carryOut s x r).control = { s.control with mode := mode, haltCause := cause }) ∧
      (carryOut s x r).groups.flushTarget = s.groups.flushTarget ∧
      (carryOut s x r).groups.nextSequence = s.groups.nextSequence := by
  rcases carryOut_cases (s := s) (x := x) quiet with ⟨accounted, -⟩ | ⟨-, run, halts⟩
  · rw [accounted.control, accounted.groups]
    exact ⟨⟨_, _, rfl⟩, rfl, rfl⟩
  · rw [halts, enterHalted_eq run]
    exact ⟨⟨.halted, some r.detail, rfl⟩, rfl, rfl⟩

/-- Outside RUN and HALTED a reaction leaves mode controller, queue and access. -/
theorem carryOut_outside {s : State} {x : Reaction} {r : Report} (quiet : stallsGroup r.detail = false)
    (outside : serving s = false) : Accounted s (carryOut s x r) := by
  rcases carryOut_cases (s := s) (x := x) quiet with ⟨accounted, -⟩ | ⟨-, run, -⟩
  · exact accounted
  · simp [serving, run] at outside

/-- Outside RUN and HALTED an incident is recorded, and its reaction changes the standing of an initiator at most. -/
theorem reportIncident_outside {s : State} {r : Report} (quiet : stallsGroup r.detail = false)
    (outside : serving s = false) : Accounted s (reportIncident s r) := by
  have recorded := recordIncident_accounted s r
  have still : serving (recordIncident s r) = false := by
    rw [serving, recorded.control]
    exact outside
  exact recorded.trans (carryOut_outside quiet still)

/-! ## The queue without its drained entry -/

theorem drainedEntry_of_writing {s : State} {e : Entry} (slots : (s.queue.entries.map Entry.slot).Nodup)
    (entry : e ∈ s.queue.entries) (posted : e.group = none) (writing : e.state = .writing) :
    drainedEntry s e.slot = some e := by
  unfold drainedEntry
  cases found : s.queue.entries.find? (fun x => x.slot == e.slot && x.group.isNone && x.state == .writing) with
  | none => exact absurd (List.find?_eq_none.mp found e entry) (by simp [posted, writing])
  | some x =>
    have same : x.slot = e.slot := by
      have meets := List.find?_some found
      simp only [Bool.and_eq_true, beq_iff_eq] at meets
      exact meets.1.1
    exact congrArg some (List.inj_on_of_nodup_map slots (List.mem_of_find?_eq_some found) entry same)

theorem drainedEntry_of_gone {s : State} {k : Fin 32}
    (gone : ∀ e ∈ s.queue.entries, e.slot = k → e.group = none → e.state ≠ .writing) : drainedEntry s k = none := by
  refine List.find?_eq_none.mpr fun e entry meets => ?_
  simp only [Bool.and_eq_true, beq_iff_eq, Option.isNone_iff_eq_none] at meets
  exact gone e entry meets.1.1 meets.1.2 meets.2

theorem queueWithout_slots (q : PostingQueue) (e : Entry) (k : Fin 32) (failed : Bool) :
    (queueWithout q e k failed).entries.map Entry.slot = (q.entries.map Entry.slot).filter (fun j => j != k) := by
  rw [List.filter_map]
  rfl

theorem queueWithout_entries (q : PostingQueue) (e : Entry) (k : Fin 32) (failed : Bool) :
    (queueWithout q e k failed).entries = q.entries.filter (fun x => decide (x.slot ≠ k)) := by
  refine List.filter_congr fun x _ => ?_
  by_cases same : x.slot = k <;> simp [same]

/-- The last entry leaves an empty queue, and any other one leaves entries behind. -/
theorem queueWithout_nil {q : PostingQueue} {e : Entry} (slots : (q.entries.map Entry.slot).Nodup) (entry : e ∈ q.entries)
    (failed : Bool) : (queueWithout q e e.slot failed).entries = [] ↔ q.entries = [e] := by
  rw [queueWithout_entries, List.filter_eq_nil_iff]
  constructor
  · intro same
    have all : ∀ x ∈ q.entries, x = e := fun x other =>
      List.inj_on_of_nodup_map slots other entry (by simpa using same x other)
    have single := List.eq_replicate_of_mem all
    have length : q.entries.length ≤ 1 := by
      by_contra longer
      rw [single, List.map_replicate, List.nodup_replicate] at slots
      omega
    have pos := List.length_pos_of_mem entry
    rw [single, show q.entries.length = 1 by omega]
    rfl
  · intro single x other
    rw [single, List.mem_singleton] at other
    simp [other]

/-- An entry of the queue is removed by the end of its drain write (R15, R16). -/
structure Drained (s v : State) (e : Entry) (failed : Bool) : Prop where
  queue : v.queue = queueWithout s.queue e e.slot failed
  control : v.control =
    { s.control with handoverLoss := s.control.handoverLoss || (failed && s.control.configRequest) }
  groups : v.groups = s.groups
  engine : v.engine = s.engine
  access : v.access = s.access
  layout : v.layout = s.layout
  recorder : v.recorder = s.recorder
  confinement : v.confinement = s.confinement
  free : v.free = s.free
  powered : v.powered = s.powered
  passOver : v.port.passOver = s.port.passOver
  op : v.port.op = none

theorem removeDrained_drained {s : State} {e : Entry} (slots : (s.queue.entries.map Entry.slot).Nodup)
    (entry : e ∈ s.queue.entries) (posted : e.group = none) (writing : e.state = .writing) (m : Memory)
    (ready failed : Bool) : Drained s (removeDrained (freed s m ready) e.slot failed) e failed ∧
      (removeDrained (freed s m ready) e.slot failed).pins = { s.pins with arrayReady := ready } := by
  rw [removeDrained_of_found (drainedEntry_of_writing (s := freed s m ready) slots entry posted writing)]
  exact ⟨⟨rfl, rfl, rfl, rfl, rfl, rfl, rfl, rfl, rfl, rfl, rfl, rfl⟩, rfl⟩

section
variable {s v : State} {e : Entry} {failed : Bool}

theorem Drained.serving (h : Drained s v e failed) : Machine.serving v = Machine.serving s := by
  rw [Machine.serving, h.control]
  rfl

theorem Drained.noIncident (h : Drained s v e failed) : NoIncident s v :=
  .of_recorder (.refl s) h.recorder

theorem Drained.entries_nil (h : Drained s v e failed) (slots : (s.queue.entries.map Entry.slot).Nodup)
    (entry : e ∈ s.queue.entries) : v.queue.entries = [] ↔ s.queue.entries = [e] := by
  rw [h.queue]
  exact queueWithout_nil slots entry failed

/-- The handover goes on while a record or another entry is left (R114). -/
theorem Drained.waits (h : Drained s v e failed) (slots : (s.queue.entries.map Entry.slot).Nodup)
    (entry : e ∈ s.queue.entries)
    (left : s.control.configRequest = false ∨ s.groups.table ≠ [] ∨ s.queue.entries ≠ [e]) : HandoverWaits v := by
  intro request
  rw [h.groups, Ne, Ne, h.entries_nil slots entry]
  refine left.resolve_left fun quiet => ?_
  rw [h.control] at request
  exact Bool.noConfusion (quiet.symm.trans request)

end

/-- What the end of the handling leaves of the queue without the drained entry. -/
theorem settled_queue {s u : State} {e : Entry} {failed : Bool} (works : arbiterWorks u)
    (queue : u.queue = queueWithout s.queue e e.slot failed) :
    (settle u).queue.entries.map Entry.slot = (s.queue.entries.map Entry.slot).filter (fun k => k != e.slot) ∧
      (settle u).queue.outstanding = (if e.flushMark then s.queue.outstanding - 1 else s.queue.outstanding) ∧
      (settle u).queue.lossNote = (s.queue.lossNote || (e.flushMark && failed)) := by
  have served := settle_served works
  refine ⟨?_, ?_, ?_⟩
  · rw [settle_slots works, queue, queueWithout_slots]
  · exact (congrArg Served.outstanding served).trans (congrArg PostingQueue.outstanding queue)
  · exact (congrArg Served.lossNote served).trans (congrArg PostingQueue.lossNote queue)

/-- The FLUSH completes with the last target of its posted part, its group part being complete (R19, R119). -/
theorem settled_flush {s u : State} (serves : serving u = true) (waits : HandoverWaits u)
    (request : u.control.configRequest = s.control.configRequest) (flush : u.control.longCommand = some .flush)
    (none : (settle u).queue.outstanding = 0) (groups : u.groups.flushTarget = Option.none) :
    FlushCompleted s (settle u) u.queue.lossNote := by
  have works := arbiterWorks_of_serving serves
  have same : (settle u).queue.outstanding = u.queue.outstanding := congrArg Served.outstanding (settle_served works)
  exact ⟨settle_completes_flush serves waits flush (same ▸ none) groups,
    (settle_settles works waits).configRequest.trans request⟩

/-- The port freed by a drain write is given to the arbiter, with the entry gone (R83, R85, R86). -/
theorem Drained.driven {s v : State} {e : Entry} {failed : Bool} {ready : Bool} (h : Drained s v e failed)
    (pins : v.pins = { s.pins with arrayReady := ready }) (serves : Machine.serving s = true) (waits : HandoverWaits v) :
    ∃ u : State, settle v = drivePort u ∧ u.port.op = none ∧ u.pins = { s.pins with arrayReady := ready } ∧
      u.control.mode = s.control.mode ∧ u.access = s.access ∧ u.layout = s.layout ∧
      u.queue.entries = s.queue.entries.filter (fun x => decide (x.slot ≠ e.slot)) ∧
      u.port.passOver = (if drainChoice u = none then 0 else s.port.passOver) ∧
      ((∃ g ∈ s.groups.table, groupInCommit g = true) → u.groups.table = s.groups.table ∧ u.engine = s.engine) := by
  obtain ⟨queue, access, port, layout, mode, samePins⟩ := checked_blocks waits
  have op : (checked v).port.op = none := by rw [port, h.op]
  have passOver : (checked v).port.passOver = s.port.passOver := by rw [port, h.passOver]
  have modeS : (checked v).control.mode = s.control.mode := by rw [mode, h.control]
  have servesC : Machine.serving (checked v) = true := by
    rw [Machine.serving, modeS]
    exact serves
  have entries : (checked v).queue.entries = s.queue.entries.filter (fun x => decide (x.slot ≠ e.slot)) := by
    rw [queue, h.queue, queueWithout_entries]
  have drains : (requestsOf (checked v)).drain.isSome = (drainChoice (checked v)).isSome := by
    unfold requestsOf
    simp only [servesC, if_true]
    unfold drainOp
    exact Option.isSome_map
  have groups (commit : ∃ g ∈ s.groups.table, groupInCommit g = true) :
      (checked v).groups.table = s.groups.table ∧ (checked v).engine = s.engine := by
    have kept : takeNextGroup v = v := takeNextGroup_none (.inl (by rw [h.groups]; exact commit))
    rw [checked_of_waits waits, kept, flushCheck_groups, flushCheck_engine, h.groups, h.engine]
    exact ⟨rfl, rfl⟩
  refine ⟨clearPassOver (checked v), settle_eq v, ?_⟩
  unfold clearPassOver
  by_cases choice : drainChoice (checked v) = none
  · have idle : (requestsOf (checked v)).drain.isSome = false := by rw [drains, choice]; rfl
    have same : drainChoice ((checked v).setPort { (checked v).port with passOver := 0 }) = none :=
      (drainChoice_congr (s := checked v) (t := (checked v).setPort { (checked v).port with passOver := 0 }) rfl rfl).trans
        choice
    simp only [idle, Bool.false_eq_true, if_false]
    exact ⟨op, samePins.trans pins, modeS, access.trans h.access, layout.trans h.layout, entries,
      (if_pos same).symm, groups⟩
  · have asks : (requestsOf (checked v)).drain.isSome = true := by
      rw [drains, Option.isSome_iff_ne_none]
      exact choice
    simp only [asks, if_true]
    exact ⟨op, samePins.trans pins, modeS, access.trans h.access, layout.trans h.layout, entries,
      by rw [if_neg choice, passOver], groups⟩

/-! ## Settling where nothing is drained -/

/-- The controller's own operation marks no entry. -/
theorem heldOp_queue (s : State) (h : Held) : (markGranted s (heldOp h).requester).queue = s.queue := by
  unfold heldOp
  split
  · cases held : s.access.held <;> simp [markGranted, held, lineWrite]
  · cases held : s.access.held <;> simp [markGranted, held, lineRead]

/-- Outside RUN and HALTED the arbiter's grants leave the queue (R84). -/
theorem arbitrate_idle_queue {s : State} (idle : serving s = false) : (arbitrate s).queue = s.queue := by
  cases choice : arbiterChoice s.port.passOver (freeSlotCount s.queue) (requestsOf s) with
  | none => rw [arbitrate_of_none choice]
  | some op =>
    rw [arbitrate_of_choice choice, startOp_queue]
    rcases arbiterChoice_mem choice with controller | drain | engine | writer
    · obtain ⟨h, held, wait⟩ := controller_waits controller
      have mine : op = heldOp h := Option.some.inj (controller.symm.trans (controllerOp_of_grant held wait))
      rw [mine]
      exact heldOp_queue _ h
    · simp [requestsOf, idle] at drain
    · simp [requestsOf, idle] at engine
    · obtain ⟨n, requester | requester⟩ := writer_requester writer
      · rw [requester]
        rfl
      · rw [requester]
        rfl

theorem settle_idle_queue {s : State} (idle : serving s = false) (mode : s.control.mode ≠ .shutdown) :
    (settle s).queue = s.queue := by
  by_cases works : arbiterWorks s
  · rw [settle_of_not_serving idle]
    generalize cleared : s.setPort { s.port with passOver := 0 } = u
    have queue : u.queue = s.queue := by rw [← cleared]; rfl
    have worksU : arbiterWorks u := by rw [← cleared]; exact works
    have idleU : serving u = false := by rw [← cleared]; exact idle
    rw [← queue]
    cases busy : u.port.op with
    | some op => rw [drivePort_of_busy busy]
    | none =>
      rw [drivePort_of_arbiter worksU busy]
      split
      · rfl
      · exact arbitrate_idle_queue idleU
  · obtain ⟨pins, v, port, settled⟩ := settle_elsewhere works mode
    rw [settled]
    rfl

end Sys2Proof.Machine
end

section
/-! Drain writes: the two outcomes (R15, R16, R18, R19, R114). -/

namespace Sys2Proof.Machine

theorem opCompleted_drain {s : State} {op : ArrayOp} {k : Fin 32} {w : WindowIndex} {i : Initiator}
    (requester : op.requester = .postedDrain k w i) (data : LineData) : opCompleted s op data = removeDrained s k false := by
  unfold opCompleted
  rw [requester]

theorem opFailed_drain {s : State} {op : ArrayOp} {k : Fin 32} {w : WindowIndex} {i : Initiator}
    (requester : op.requester = .postedDrain k w i) (f : Failure) :
    opFailed s op f = reportIncident (removeDrained s k true) (drainReport (f.detail .d413 .d423) op.line w i) := by
  unfold opFailed
  rw [requester, ← failureDetail_eq]

theorem notShutdown_of_serving {s : State} (serves : serving s = true) : s.control.mode ≠ .shutdown := fun shutdown => by
  simp [serving, shutdown] at serves

/-- An outcome that removes no entry, in a mode that goes on: the end of the handling keeps the queue (R18). -/
theorem settled_undrained {s : State} (mode : s.control.mode ≠ .shutdown) :
    (settle s).queue.entries.map Entry.slot = s.queue.entries.map Entry.slot ∧
      (settle s).queue.outstanding = s.queue.outstanding ∧ (settle s).queue.lossNote = s.queue.lossNote ∧
      NoIncident s (settle s) ∧ (serving s = false → (settle s).queue = s.queue ∧ (settle s).control = s.control) := by
  by_cases serves : serving s = true
  · have works := arbiterWorks_of_serving serves
    have served := settle_served works
    exact ⟨settle_slots works, congrArg Served.outstanding served, congrArg Served.lossNote served,
      settle_noIncident works, fun idle => by simp [serves] at idle⟩
  · rw [Bool.not_eq_true] at serves
    have queue := settle_idle_queue serves mode
    have control : (settle s).control = s.control ∧ NoIncident s (settle s) := by
      by_cases works : arbiterWorks s
      · exact ⟨(settle_leaves_idle works serves).control, settle_noIncident works⟩
      · obtain ⟨pins, v, port, settled⟩ := settle_elsewhere works mode
        rw [settled]
        exact ⟨rfl, .refl s⟩
    rw [queue]
    exact ⟨rfl, rfl, rfl, control.2, fun _ => ⟨rfl, control.1⟩⟩

theorem notShutdown_of_going {s : State}
    (mode : serving s = true ∨ s.control.mode = .config ∨ s.control.mode = .recovering) : s.control.mode ≠ .shutdown := by
  rcases mode with serves | config | recovering
  · exact notShutdown_of_serving serves
  · simp [config]
  · simp [recovering]

/-- Settles O17: the entry leaves the queue, and FLUSH, handover and arbiter follow in the same handling. -/
theorem drainWriteRemovesItsEntry : Obligations.DrainWriteRemovesItsEntry := by
  refine ⟨fun took s op e w i powered sound serves done requester entry posted writing => ?removed,
    fun took s op k w i powered done requester mode gone => ?gone⟩
  case removed =>
    have slots := sound.queue.slots
    have next := exec_ends powered (.of_completes done) took
    rw [opCompleted_drain requester] at next
    obtain ⟨drained, pins⟩ := removeDrained_drained slots entry posted writing (landStep s op took).mem true false
    generalize removeDrained (freed s (landStep s op took).mem true) e.slot false = v at next drained pins
    have servesV : serving v = true := drained.serving.trans serves
    have works := arbiterWorks_of_serving servesV
    obtain ⟨slotsT, outstanding, loss⟩ := settled_queue works drained.queue
    rw [Bool.and_false, Bool.or_false] at loss
    have control : v.control = s.control := by
      rw [drained.control, Bool.false_and, Bool.or_false]
    have lossV : v.queue.lossNote = s.queue.lossNote := by
      rw [drained.queue]
      simp [queueWithout]
    have quietWaits (quiet : s.control.configRequest = false) : HandoverWaits v :=
      drained.waits slots entry (.inl quiet)
    refine ⟨settle v, next, slotsT, outstanding, loss, drained.noIncident.trans (settle_noIncident works),
      fun quiet flush => ⟨fun none groups => ?_, fun left => ?_⟩,
      fun quiet => drained.driven pins serves (quietWaits quiet), fun request table entries => ?_⟩
    · have completed := settled_flush (s := s) servesV (quietWaits quiet) (by rw [control]) (by rw [control, flush]) none
        (by rw [drained.groups, groups])
      rwa [lossV] at completed
    · have waiting : v.queue.outstanding ≠ 0 ∨ v.groups.flushTarget ≠ none := by
        rw [drained.groups, ← Option.isSome_iff_ne_none]
        have same : (settle v).queue.outstanding = v.queue.outstanding := congrArg Served.outstanding (settle_served works)
        exact left.imp_left fun some zero => some (same.trans zero)
      exact (settle_flush_waits works (quietWaits quiet) (.inr waiting)).1.trans control
    · have completed := settle_completes_handover servesV (by rw [control, request]) (by rw [drained.groups, table])
        ((drained.entries_nil slots entry).mpr entries)
      rw [control] at completed
      exact completed.seenFrom fun held => by rw [drained.access]; exact held
  case gone =>
    have next := exec_ends powered (.of_completes done) took
    rw [opCompleted_drain requester,
      removeDrained_of_gone (s := freed s (landStep s op took).mem true) (drainedEntry_of_gone gone)] at next
    obtain ⟨slots, outstanding, loss, quiet, idle⟩ :=
      settled_undrained (s := freed s (landStep s op took).mem true) (notShutdown_of_going mode)
    exact ⟨_, next, quiet, slots, outstanding, loss, idle⟩

/-! ## Failure -/

theorem carryOut_serving {s : State} {x : Reaction} {r : Report} (quiet : stallsGroup r.detail = false)
    (serves : serving s = true) : serving (carryOut s x r) = true := by
  rcases carryOut_cases (s := s) (x := x) quiet with ⟨accounted, -⟩ | ⟨-, run, halts⟩
  · exact accounted.serving serves
  · rw [halts, enterHalted_eq run]
    rfl

theorem openGroup_congr {s t : State} (table : t.groups.table = s.groups.table) : openGroup t = openGroup s := by
  rw [openGroup, openGroup, table]

theorem HaltCarriedOut.seenFrom {s v t : State} {d : Detail} {x : Reaction} (h : HaltCarriedOut v t d x)
    (request : v.control.configRequest = s.control.configRequest) (mode : v.control.mode = s.control.mode)
    (cause : v.control.haltCause = s.control.haltCause) (access : v.access = s.access)
    (table : v.groups.table = s.groups.table) : HaltCarriedOut s t d x where
  request := h.request.trans request
  kept other := ⟨(h.kept other).1.trans mode, (h.kept other).2.trans cause⟩
  halted halt := by rw [← mode, ← cause]; exact h.halted halt
  event halt run := h.event halt (mode.trans run)
  heldWrite halt run held := by rw [← access]; exact h.heldWrite halt (mode.trans run) held
  closed halt run := by rw [← openGroup_congr table, ← table]; exact h.closed halt (mode.trans run)

/-- A handover that ends with the last entry refuses the access held until then, also one that the reaction has refused
already (R74, R114). -/
theorem handoverCompleted_after {s u : State} (serves : serving u = true) (request : u.control.configRequest = true)
    (noGroups : u.groups.table = []) (noEntries : u.queue.entries = [])
    (access : u.access = s.access ∨ u.access = writeRefused s.access) :
    HandoverCompleted s (settle u) u.control.handoverLoss := by
  have completed := settle_completes_handover serves request noGroups noEntries
  rcases access with same | refused
  · exact completed.seenFrom fun held => by rw [same]; exact held
  · refine ⟨completed.mode, completed.event, completed.request, completed.result, completed.ready, completed.held,
      fun held => ?_⟩
    cases idle : u.access.held with
    | some h => exact completed.refused (by rw [idle]; rfl)
    | none =>
      rw [settle_access_idle (arbiterWorks_of_serving serves) idle, refused]
      obtain ⟨h, holds⟩ := Option.isSome_iff_exists.mp held
      rw [refused] at idle
      unfold writeRefused at idle ⊢
      rw [holds] at idle ⊢
      by_cases write : opIsWrite h.access.op = true
      · exact congrArg AccessUnit.answer (if_pos write)
      · dsimp only at idle
        rw [if_neg write, holds] at idle
        cases idle

/-- What the failure of a drain write leaves before the end of the handling: the queue without the entry, the incident and
its reaction (R16, R110). -/
structure DrainFailed (s v u : State) (r : Report) : Prop where
  serves : serving u = true
  queue : u.queue = v.queue
  control : ∃ mode cause, u.control = { v.control with mode := mode, haltCause := cause }
  target : u.groups.flushTarget = s.groups.flushTarget
  table : s.groups.table = [] → u.groups.table = []
  access : u.access = s.access ∨ u.access = writeRefused s.access
  records : Records s u r (reactionTaken s r.detail)

theorem Drained.reported {s v : State} {e : Entry} (h : Drained s v e true) (serves : Machine.serving s = true) {r : Report}
    (quiet : stallsGroup r.detail = false) : DrainFailed s v (reportIncident v r) r := by
  have servesV : Machine.serving v = true := h.serving.trans serves
  have recorded := recordIncident_accounted v r
  have servesR : Machine.serving (recordIncident v r) = true := recorded.serving servesV
  have reacted := carryOut_reacted (x := reactionTaken v r.detail) quiet servesR
  obtain ⟨⟨mode, cause, control⟩, target, -⟩ :=
    carryOut_control (s := recordIncident v r) (x := reactionTaken v r.detail) quiet
  have reaction : reactionTaken v r.detail = reactionTaken s r.detail :=
    reactionTaken_congr h.layout (by rw [h.control]) h.free _
  refine ⟨carryOut_serving quiet servesR, reacted.queue.trans recorded.queue, ⟨mode, cause, ?_⟩, ?_, fun none => ?_, ?_, ?_⟩
  · rw [reportIncident, control, recorded.control]
  · rw [reportIncident, target, recorded.groups, h.groups]
  · have tableR : (recordIncident v r).groups.table = [] := by rw [recorded.groups, h.groups, none]
    rcases reacted.table with same | closed
    · exact same.trans tableR
    · exact closed.trans ((closedTable_nil _ _).mpr tableR)
  · have accessR : (recordIncident v r).access = s.access := recorded.access.trans h.access
    rw [← accessR]
    exact reacted.access
  · have records := reportIncident_records v r
    rw [reaction] at records
    exact .of_noIncident h.noIncident (by rw [h.recorder]) records

/-- Settles O18: the entry leaves the queue with its incident; FLUSH, handover and reaction follow. -/
theorem failedDrainWriteRemovesItsEntry : Obligations.FailedDrainWriteRemovesItsEntry := by
  have quietDetail (f : Failure) : stallsGroup (f.detail .d413 .d423) = false := by cases f <;> rfl
  refine ⟨fun took c d s op e w i powered sound serves busy requester entry posted writing event => ?removed,
    fun c f s op k w i powered busy fails requester mode gone => ?gone⟩
  case removed =>
    obtain ⟨f, fails, rfl⟩ : ∃ f, FailsWith s op c f ∧ d = f.detail .d413 .d423 := by
      rcases event with ⟨rfl, rfl⟩ | ⟨rfl, rfl, differs⟩
      · exact ⟨.timeout, .inl ⟨took, rfl, rfl⟩, rfl⟩
      · exact ⟨.miscompare, .inr ⟨took, rfl, rfl, differs⟩, rfl⟩
    have slots := sound.queue.slots
    obtain ⟨m, ready, next, -⟩ := exec_fails powered busy fails (notShutdown_of_serving serves)
    rw [opFailed_drain requester] at next
    obtain ⟨drained, -⟩ := removeDrained_drained slots entry posted writing m ready true
    generalize removeDrained (freed s m ready) e.slot true = v at next drained
    set r := drainReport (f.detail .d413 .d423) op.line w i with report
    have quiet : stallsGroup r.detail = false := quietDetail f
    have failed := drained.reported serves quiet
    have halts (waits : HandoverWaits (recordIncident v r)) :=
      haltCarriedOut (s := v) (w := recordIncident v r) (x := reactionTaken v r.detail) (r := r) quiet
        (drained.serving.trans serves) (recordIncident_accounted v r).control
        (congrArg GroupTracker.table (recordIncident_accounted v r).groups) (.inl (recordIncident_accounted v r).access)
        waits
    have carried : carryOut (recordIncident v r) (reactionTaken v r.detail) r = reportIncident v r := rfl
    rw [carried] at halts
    have reaction : reactionTaken v r.detail = reactionTaken s r.detail :=
      reactionTaken_congr drained.layout (by rw [drained.control]) drained.free _
    rw [reaction] at halts
    generalize reportIncident v r = u at next failed halts
    have works := arbiterWorks_of_serving failed.serves
    obtain ⟨mode, cause, control⟩ := failed.control
    have request : u.control.configRequest = s.control.configRequest := by rw [control, drained.control]
    have long : u.control.longCommand = s.control.longCommand := by rw [control, drained.control]
    have result : u.control.lastResult = s.control.lastResult := by rw [control, drained.control]
    have handoverLoss : u.control.handoverLoss = (s.control.handoverLoss || s.control.configRequest) := by
      rw [control, drained.control, Bool.true_and]
    have queue : u.queue = queueWithout s.queue e e.slot true := failed.queue.trans drained.queue
    obtain ⟨slotsT, outstanding, loss⟩ := settled_queue works queue
    rw [Bool.and_true] at loss
    have lossU : u.queue.lossNote = (s.queue.lossNote || e.flushMark) := by
      rw [queue]
      simp [queueWithout]
    have quietWaits (none : s.control.configRequest = false) : HandoverWaits u :=
      handoverWaits_of_noRequest (request.trans none)
    refine ⟨settle u, next, failed.records.noIncident (settle_noIncident works), slotsT, outstanding, loss,
      fun none flush => ⟨fun zero groups => ?_, fun left => ?_⟩, fun left => ?_, fun requested table entries => ?_⟩
    · have completed := settled_flush (s := s) failed.serves (quietWaits none) request (long.trans flush) zero
        (failed.target.trans groups)
      rwa [lossU] at completed
    · have waiting : u.queue.outstanding ≠ 0 ∨ u.groups.flushTarget ≠ Option.none := by
        rw [failed.target, ← Option.isSome_iff_ne_none]
        have same : (settle u).queue.outstanding = u.queue.outstanding := congrArg Served.outstanding (settle_served works)
        exact left.imp_left fun some zero => some (same.trans zero)
      have kept := (settle_flush_waits works (quietWaits none) (.inr waiting)).1
      rw [kept]
      exact ⟨long.trans flush, result⟩
    · have waits : HandoverWaits (recordIncident v r) :=
        (recordIncident_accounted v r).handoverWaits (drained.waits slots entry left)
      obtain ⟨settles, halted⟩ := halts waits
      have seen := halted.seenFrom (s := s) (by rw [drained.control]) (by rw [drained.control]) (by rw [drained.control])
        drained.access (by rw [drained.groups])
      exact ⟨seen, settles.handoverLoss.trans handoverLoss⟩
    · have completed := handoverCompleted_after failed.serves (request.trans requested) (failed.table table)
        (by rw [queue, queueWithout_nil slots entry]; exact entries) failed.access
      rwa [handoverLoss, requested, Bool.or_true] at completed
  case gone =>
    intro d
    have outside := notShutdown_of_going mode
    obtain ⟨m, ready, next, -⟩ := exec_fails powered busy fails outside
    rw [opFailed_drain requester, removeDrained_of_gone (s := freed s m ready) (drainedEntry_of_gone gone)] at next
    have quiet : stallsGroup (drainReport d op.line w i).detail = false := quietDetail f
    have records := reportIncident_records (freed s m ready) (drainReport d op.line w i)
    have reaction : reactionTaken (freed s m ready) (drainReport d op.line w i).detail = reactionTaken s d :=
      freed_reaction s m ready d
    rw [reaction] at records
    have recorded := recordIncident_accounted (freed s m ready) (drainReport d op.line w i)
    have still : (reportIncident (freed s m ready) (drainReport d op.line w i)).queue = s.queue := by
      by_cases serves : serving s = true
      · exact (carryOut_reacted quiet (recorded.serving serves)).queue.trans recorded.queue
      · rw [Bool.not_eq_true] at serves
        exact (reportIncident_outside (s := freed s m ready) quiet serves).queue
    have idleControl (idle : serving s = false) :
        (reportIncident (freed s m ready) (drainReport d op.line w i)).control = s.control :=
      (reportIncident_outside (s := freed s m ready) quiet idle).control
    have outsideU := reportIncident_notShutdown (s := freed s m ready) outside (drainReport d op.line w i)
    generalize reportIncident (freed s m ready) (drainReport d op.line w i) = u at next records still idleControl outsideU
    obtain ⟨slots, outstanding, loss, quietT, idle⟩ := settled_undrained outsideU
    rw [still] at slots outstanding loss idle
    refine ⟨_, next, (freed_records records).noIncident quietT, slots, outstanding, loss, fun outsideS => ?_⟩
    have idleU : serving u = false := by
      rw [serving, idleControl outsideS]
      exact outsideS
    exact ⟨(idle idleU).1, (idle idleU).2.trans (idleControl outsideS)⟩

end Sys2Proof.Machine
end

section
/-! The lines of a commit advance the group (R47 to R51). -/

namespace Sys2Proof.Machine

/-! ## The outcomes of the journal engine -/

theorem Carries.of_freed {s : State} {q : Seq} {g : Group} {p : Phase} (h : Carries s q g p) {m : Memory} {ready : Bool} :
    Carries (freed s m ready) q g p :=
  ⟨h.inCommit, h.phase, h.record, h.state⟩

theorem opCompleted_record {s : State} {op : ArrayOp} (requester : op.requester = .journalRecord) (data : LineData) :
    opCompleted s op data = recordLineWritten s := by
  unfold opCompleted
  rw [requester]

theorem opCompleted_inPlace {s : State} {op : ArrayOp} {k : Fin 32} {w : WindowIndex} {i : Initiator}
    (requester : op.requester = .inPlaceWrite k w i) (data : LineData) : opCompleted s op data = entryApplied s k := by
  unfold opCompleted
  rw [requester]

theorem groupOf_record {s : State} {q : Seq} {g : Group} (found : groupOf s q = some g) :
    g ∈ s.groups.table ∧ g.sequence = q := by
  unfold groupOf at found
  exact ⟨List.mem_of_find?_eq_some found, by simpa using List.find?_some found⟩

theorem commitLines_of_record {s : State} {q : Seq} {g : Group} (inCommit : s.engine.inCommit = some q)
    (record : groupOf s q = some g) : commitLines s = g.lineCount := by
  unfold commitLines commitGroup
  rw [inCommit]
  simp [record]

theorem AtStep.waits {t : State} {q : Seq} {p : Phase} {n : Nat} {half : Half} (h : AtStep t q p n half) :
    HandoverWaits t := by
  obtain ⟨-, -, -, -, r, record, -⟩ := h
  exact fun _ => .inl (List.ne_nil_of_mem record)

theorem sealGroup_restarts (s : State) : Restarts s (sealGroup s) := by
  unfold sealGroup
  exact (enterPhase_restarts s .applying).trans ((setEngine_restarts _ _).trans (setCommitEntries_restarts _ _ _))

theorem recordWritten_restarts (s : State) : Restarts s (recordWritten s) := by
  unfold recordWritten
  split
  · split
    · exact .trans (changeCommitGroup_restarts s _ |>.trans (setEngine_restarts _ _)) (composeRecord_restarts _)
    · exact (enterPhase_restarts s .marking).trans (setEngine_restarts _ _)
  · exact sealGroup_restarts s
  · exact .refl s
  · exact .refl s
  · exact .refl s

/-- A line of a record changes the group, the engine and the states of entries alone (R47, R49). -/
theorem recordLineWritten_restarts (s : State) : Restarts s (recordLineWritten s) := by
  unfold recordLineWritten
  split
  · exact setEngine_restarts s _
  · exact (setEngine_restarts s _).trans (recordWritten_restarts _)

theorem Restarts.works {s u : State} (h : Restarts s u) (serves : serving s = true) : arbiterWorks u :=
  arbiterWorks_of_serving (by rw [serving, h.control]; exact serves)

theorem Restarts.noIncident {s u : State} (h : Restarts s u) : NoIncident s u :=
  .of_recorder (.refl s) h.recorder

/-! ## The steps of a record -/

theorem recordLineWritten_first {s : State} (half : s.engine.half = .first) :
    recordLineWritten s = s.setEngine { s.engine with half := .second } := by
  unfold recordLineWritten
  rw [half]

/-- The second line of a record is written: half FIRST again (R47). -/
def halfReset (s : State) : State :=
  s.setEngine { s.engine with half := .first }

theorem recordLineWritten_second {s : State} (half : s.engine.half = .second) :
    recordLineWritten s = recordWritten (halfReset s) := by
  unfold recordLineWritten
  rw [half]
  rfl

section
variable {s : State} {q : Seq} {g : Group} {p : Phase}

/-- The first line of a record: the second one is next (R47). -/
theorem recordLineWritten_atSecond (carries : Carries s q g p) (position : g.journalPosition = s.engine.position)
    (half : s.engine.half = .first) : AtStep (recordLineWritten s) q p s.engine.position .second := by
  obtain ⟨inCommit, phase, record, state⟩ := carries
  obtain ⟨member, bears⟩ := groupOf_record record
  rw [recordLineWritten_first half]
  exact ⟨inCommit, phase, rfl, rfl, g, member, bears, state, position⟩

theorem recordWritten_next (carries : Carries s q g .journaling) (more : s.engine.position + 1 < g.lineCount) :
    recordWritten s = composeRecord (setPosition s (s.engine.position + 1) .first) := by
  unfold recordWritten
  rw [carries.phase]
  exact if_pos (by rw [commitLines_of_record carries.inCommit carries.record]; exact more)

theorem recordWritten_last (carries : Carries s q g .journaling) (last : g.lineCount ≤ s.engine.position + 1) :
    recordWritten s = (enterPhase s .marking).setEngine
      { (enterPhase s .marking).engine with runningCheck := ~~~(enterPhase s .marking).engine.runningCheck } := by
  unfold recordWritten
  rw [carries.phase]
  exact if_neg (by rw [commitLines_of_record carries.inCommit carries.record]; omega)

theorem Carries.halfReset (carries : Carries s q g p) : Carries (Machine.halfReset s) q g p :=
  ⟨carries.inCommit, carries.phase, carries.record, carries.state⟩

/-- The second line of a record but the last: the next record is composed and taken into the running check (R43, R45, R48). -/
theorem recordLineWritten_atNext (carries : Carries s q g .journaling) (half : s.engine.half = .second)
    (more : s.engine.position + 1 < g.lineCount) :
    AtStep (recordLineWritten s) q .journaling (s.engine.position + 1) .first ∧
      ∀ e, (groupEntries s q)[s.engine.position + 1]? = some e → (recordLineWritten s).engine.runningCheck =
        crc32Update s.engine.runningCheck (recordBytes (lineRecord q (s.engine.position + 1) e)) := by
  have reset := carries.halfReset
  obtain ⟨member, bears⟩ := groupOf_record reset.record
  have placed := setPosition_atStep reset.inCommit reset.phase member bears reset.state (s.engine.position + 1) .first
  have moved := setPosition_eq reset.inCommit (s.engine.position + 1) .first
  rw [recordLineWritten_second half, recordWritten_next reset more]
  refine ⟨composeRecord_atStep placed, fun e place => ?_⟩
  have entries : groupEntries (setPosition (halfReset s) (s.engine.position + 1) .first) q = groupEntries s q := by
    rw [moved]
    rfl
  have position : (setPosition (halfReset s) (s.engine.position + 1) .first).engine.position = s.engine.position + 1 := by
    rw [moved]
    rfl
  have check := composedCheck_of_entry placed.1 (e := e) (by rw [position, entries]; exact place)
  have running : (setPosition (halfReset s) (s.engine.position + 1) .first).engine.runningCheck =
      s.engine.runningCheck := by
    rw [moved]
    rfl
  rw [position, running] at check
  rw [show (Machine.halfReset s).engine.position = s.engine.position from rfl, composeRecord_eq]
  exact check

/-- The second line of the last record: MARKING begins, with the running check complemented (R45, R48). -/
theorem recordLineWritten_atMarking (carries : Carries s q g .journaling) (half : s.engine.half = .second)
    (last : g.lineCount ≤ s.engine.position + 1) :
    AtStep (recordLineWritten s) q .marking 0 .first ∧
      (recordLineWritten s).engine.runningCheck = ~~~s.engine.runningCheck := by
  have reset := carries.halfReset
  obtain ⟨member, bears⟩ := groupOf_record reset.record
  have marking := enterPhase_atStep reset.inCommit member bears .marking
  rw [recordLineWritten_second half, recordWritten_last reset last]
  refine ⟨marking.of_same rfl rfl rfl rfl rfl, ?_⟩
  rw [enterPhase_eq reset.inCommit]
  rfl

end

theorem recordWritten_sealed {s : State} (phase : s.engine.phase = some .marking) : recordWritten s = sealGroup s := by
  unfold recordWritten
  rw [phase]

/-- The sealed group stands at the start of APPLYING with journal-pending set, and its entries are READY (R49). -/
theorem sealGroup_sealed {s : State} {q : Seq} {g : Group} (inCommit : s.engine.inCommit = some q)
    (record : groupOf s q = some g) :
    AtStep (sealGroup s) q .applying 0 .first ∧ (sealGroup s).engine.journalPending = true ∧
      ∀ e ∈ (sealGroup s).queue.entries, e.group = some q → e.state = .ready := by
  obtain ⟨member, bears⟩ := groupOf_record record
  have entered := enterPhase_atStep inCommit member bears .applying
  have commit : (enterPhase s .applying).engine.inCommit = some q := entered.1
  unfold sealGroup setCommitEntries
  simp only [State.setEngine_engine, commit]
  refine ⟨entered.of_same rfl commit.symm rfl rfl rfl, rfl, fun e entry mine => ?_⟩
  obtain ⟨x, -, rfl⟩ := List.mem_map.mp entry
  by_cases bears : (x.group == some q && true) = true
  · rw [if_pos bears]
  · rw [if_neg bears] at mine
    exact absurd (by simp [mine]) bears

/-! ## In-place writes -/

theorem CopyBegun.seen {s u t : State} {p : ProgressContent} (h : CopyBegun s u p) (writer : t.writer = u.writer) :
    CopyBegun s t p := by
  obtain ⟨w, copy, rest⟩ := h
  exact ⟨w, (congrArg ControlWriter.copyWrite writer).trans copy, rest⟩

theorem setEntryState_slots (s : State) (k : Fin 32) (st : EntryState) :
    (setEntryState s k st).queue.entries.map Entry.slot = s.queue.entries.map Entry.slot := by
  unfold setEntryState changeEntries
  simp only [State.setQueue_queue, List.map_map]
  refine List.map_congr_left fun e _ => ?_
  dsimp only [Function.comp]
  split <;> rfl

theorem startRetiring_queue {s : State} {q : Seq} (inCommit : s.engine.inCommit = some q) :
    (startRetiring s).queue = s.queue ∧ (startRetiring s).recorder = s.recorder ∧ (startRetiring s).control = s.control := by
  rw [startRetiring_eq inCommit, enterPhase_eq inCommit]
  exact ⟨rfl, rfl, rfl⟩

/-- An in-place write completes: its entry is APPLIED, and the next one or RETIRING follows (R50, R51). -/
theorem entryApplied_applied {s : State} {q : Seq} {g : Group} (carries : Carries s q g .applying) (k : Fin 32) :
    let u := entryApplied s k
    u.control = s.control ∧ u.recorder = s.recorder ∧ u.queue = (setEntryState s k .applied).queue ∧
      (s.engine.position + 1 < g.lineCount → AtStep u q .applying (s.engine.position + 1) .first) ∧
      (g.lineCount ≤ s.engine.position + 1 → AtStep u q .retiring 0 .first ∧ CopyBegun s u (progressOf .dirty q)) := by
  obtain ⟨inCommit, phase, record, state⟩ := carries
  obtain ⟨member, bears⟩ := groupOf_record record
  have lines : commitLines (setEntryState s k .applied) = g.lineCount :=
    commitLines_of_record (s := setEntryState s k .applied) inCommit record
  intro u
  by_cases more : s.engine.position + 1 < g.lineCount
  · have moves : u = setPosition (setEntryState s k .applied) (s.engine.position + 1) .first :=
      if_pos (by rw [lines]; exact more)
    have step := setPosition_atStep (s := setEntryState s k .applied) inCommit phase member bears state
      (s.engine.position + 1) .first
    rw [← moves] at step
    rw [setPosition_eq (s := setEntryState s k .applied) inCommit] at moves
    refine ⟨?_, ?_, ?_, fun _ => step, fun last => absurd more (by omega)⟩
    · rw [moves]; rfl
    · rw [moves]; rfl
    · rw [moves]; rfl
  · have retires : u = startRetiring (setEntryState s k .applied) := if_neg (by rw [lines]; exact more)
    obtain ⟨queue, recorder, control⟩ := startRetiring_queue (s := setEntryState s k .applied) inCommit
    rw [← retires] at queue recorder control
    refine ⟨control, recorder, queue, fun less => absurd less more, fun _ => ?_⟩
    rw [retires, startRetiring_eq (s := setEntryState s k .applied) inCommit]
    have entered := enterPhase_atStep (s := setEntryState s k .applied) inCommit member bears .retiring
    refine ⟨entered.of_same rfl rfl rfl rfl rfl, beginProgress_begun ?_⟩
    exact enterPhase_writer _ _

/-- Settles O21: the steps of a record, of its group's seal, and of an in-place write. -/
theorem commitRecordMakesTheGroupDurable : Obligations.CommitRecordMakesTheGroupDurable := by
  refine ⟨fun took s op q g powered serves done requester phase half inCommit record => ?durable,
    fun took s op q g p powered serves done carries requester position => ?record,
    fun took s op q g e w i powered sound serves done carries requester entry mine half => ?applied⟩
  case durable =>
    have next := exec_ends powered (.of_completes done) took
    rw [opCompleted_record requester, recordLineWritten_second (by exact half), recordWritten_sealed (by exact phase)] at next
    obtain ⟨step, pending, entries⟩ :=
      sealGroup_sealed (s := halfReset (freed s (landStep s op took).mem true)) inCommit record
    have restarts : Restarts (freed s (landStep s op took).mem true)
        (sealGroup (halfReset (freed s (landStep s op took).mem true))) :=
      (setEngine_restarts _ _).trans (sealGroup_restarts _)
    generalize sealGroup (halfReset (freed s (landStep s op took).mem true)) = u at next step pending entries restarts
    have works := restarts.works serves
    obtain ⟨groups, engine⟩ := settle_inCommit works step.inCommit
    obtain ⟨commitT, phaseT, positionT, -, recordT⟩ := settle_atStep works step
    obtain ⟨mark, queue, marks⟩ := (settle_settles works step.waits).entries
    refine ⟨_, next, by rw [engine]; exact pending, phaseT, commitT, positionT, recordT, fun x inQueue mine => ?_⟩
    rw [queue] at inQueue
    obtain ⟨e, entry, rfl⟩ := List.mem_map.mp inQueue
    rcases marks e with same | ⟨-, marked⟩
    · rw [same] at mine ⊢
      exact .inl (entries e entry mine)
    · rw [marked]
      exact .inr rfl
  case record =>
    have next := exec_ends powered (.of_completes done) took
    rw [opCompleted_record requester] at next
    have carriesV : Carries (freed s (landStep s op took).mem true) q g p := carries.of_freed
    have restarts := recordLineWritten_restarts (freed s (landStep s op took).mem true)
    have works := restarts.works serves
    refine ⟨_, next, restarts.noIncident.trans (settle_noIncident works), fun half => ?_, fun half journaling => ?_⟩
    · exact settle_atStep works (recordLineWritten_atSecond carriesV position half)
    · subst journaling
      refine ⟨fun more => ?_, fun last => ?_⟩
      · obtain ⟨step, check⟩ := recordLineWritten_atNext carriesV half more
        rw [(settle_inCommit works step.inCommit).2]
        exact ⟨settle_atStep works step, check⟩
      · obtain ⟨step, check⟩ := recordLineWritten_atMarking carriesV half last
        rw [(settle_inCommit works step.inCommit).2]
        exact ⟨settle_atStep works step, check⟩
  case applied =>
    have next := exec_ends powered (.of_completes done) took
    rw [opCompleted_inPlace requester] at next
    have carriesV : Carries (freed s (landStep s op took).mem true) q g .applying := carries.of_freed
    have slots : ((freed s (landStep s op took).mem true).queue.entries.map Entry.slot).Nodup := sound.queue.slots
    obtain ⟨control, recorder, queue, onward, retiring⟩ := entryApplied_applied carriesV e.slot
    generalize entryApplied (freed s (landStep s op took).mem true) e.slot = u at next control recorder queue onward retiring
    have works : arbiterWorks u := arbiterWorks_of_serving (by rw [serving, control]; exact serves)
    have step : ∃ p n, AtStep u q p n .first := by
      by_cases more : s.engine.position + 1 < g.lineCount
      · exact ⟨_, _, onward more⟩
      · exact ⟨_, _, (retiring (by simpa using more)).1⟩
    obtain ⟨p, n, step⟩ := step
    refine ⟨_, next, .trans (.of_recorder (.refl s) recorder) (settle_noIncident works), ⟨_, ?_, rfl⟩,
      fun more => settle_atStep works (onward more), fun last => ?_⟩
    · have slotsU : (u.queue.entries.map Entry.slot).Nodup := by
        rw [queue, setEntryState_slots]
        exact slots
      refine settle_keeps works step.waits slotsU ?_ (by simp)
      rw [queue]
      exact List.mem_map.mpr ⟨e, entry, by simp⟩
    · obtain ⟨atRetiring, begun⟩ := retiring last
      refine ⟨settle_atStep works atRetiring, begun.seen ?_⟩
      exact (settle_settles works step.waits).writer

end Sys2Proof.Machine
end

section
/-! The lines of the retiring progress copy: the group retires (R38, R51, R100). -/

namespace Sys2Proof.Machine

theorem opCompleted_retiring {s : State} {op : ArrayOp} (requester : op.requester = .retiringProgress)
    (data : LineData) : opCompleted s op data = retiringLineWritten s := by
  unfold opCompleted
  rw [requester]

/-! ## The lines of a progress copy -/

section
variable {s : State} {c : CopyWrite} {p : ProgressContent}

/-- The first line of a progress copy counts as written (R100). -/
theorem copyLineWritten_progressFirst (copy : s.writer.copyWrite = some c) (content : c.content = .progress p)
    (written : c.written = 0) :
    copyLineWritten s = s.setWriter { s.writer with copyWrite := some { c with written := 1 } } := by
  unfold copyLineWritten
  rw [copy]
  dsimp only
  rw [written, content]
  rfl

/-- The writer's knowledge with a progress copy complete (R100). -/
def progressKnown (w : ControlWriter) (c : CopyWrite) (p : ProgressContent) : ControlWriter :=
  { w with
    newestProgress := some c.target, progressGeneration := c.generation, retiredThrough := p.retiredThrough,
    copyWrite := none }

/-- The second line completes the progress copy (R100). -/
theorem copyLineWritten_progressLast (copy : s.writer.copyWrite = some c) (content : c.content = .progress p)
    (written : c.written = 1) : copyLineWritten s = s.setWriter (progressKnown s.writer c p) := by
  have known : recordCopy s.writer c = progressKnown s.writer c p := by
    unfold recordCopy
    rw [content]
    rfl
  unfold copyLineWritten
  rw [copy]
  dsimp only
  rw [written, known, content]
  rfl

end

/-! ## The group retires -/

/-- The group record and the entries of `q` are gone, and the engine holds no group (R38, R51). -/
structure Retired (s u : State) (q : Seq) : Prop where
  control : u.control = s.control
  recorder : u.recorder = s.recorder
  access : u.access = s.access
  table : u.groups.table = s.groups.table.filter (fun r => decide (r.sequence ≠ q))
  target : u.groups.flushTarget = if s.groups.flushTarget = some q then none else s.groups.flushTarget
  entries : u.queue.entries = s.queue.entries.filter (fun e => decide (e.group ≠ some q))
  outstanding : u.queue.outstanding = s.queue.outstanding
  lossNote : u.queue.lossNote = s.queue.lossNote
  engine : u.engine = JournalEngine.idle false

theorem retireGroup_retired {s : State} {q : Seq} (inCommit : s.engine.inCommit = some q) :
    Retired s (retireGroup s) q ∧ (retireGroup s).writer = s.writer := by
  unfold retireGroup
  rw [inCommit]
  refine ⟨⟨rfl, rfl, rfl, ?_, ?_, ?_, rfl, rfl, rfl⟩, rfl⟩
  · refine List.filter_congr fun r _ => ?_
    by_cases same : r.sequence = q <;> simp [same]
  · show (if (s.groups.flushTarget == some q) = true then none else s.groups.flushTarget) = _
    simp only [beq_iff_eq]
  · refine List.filter_congr fun e _ => ?_
    by_cases same : e.group = some q <;> simp [same]

section
variable {s u : State} {q : Seq}

theorem Retired.serves (h : Retired s u q) (serves : serving s = true) : serving u = true := by
  rw [serving, h.control]
  exact serves

theorem Retired.gone (h : Retired s u q) (works : arbiterWorks u) :
    (∀ r ∈ (settle u).groups.table, r.sequence ≠ q) ∧ ∀ e ∈ (settle u).queue.entries, e.group ≠ some q := by
  refine ⟨fun r record => ?_, fun e entry => ?_⟩
  · have listed : r.sequence ∈ u.groups.table.map Group.sequence := by
      rw [← settle_sequences works]
      exact List.mem_map_of_mem record
    obtain ⟨x, record', same⟩ := List.mem_map.mp listed
    rw [h.table, List.mem_filter] at record'
    rw [← same]
    exact of_decide_eq_true record'.2
  · have listed : e.still ∈ u.queue.entries.map Entry.still := by
      have served : (settle u).queue.entries.map Entry.still = u.queue.entries.map Entry.still :=
        congrArg Served.entries (settle_served works)
      rw [← served]
      exact List.mem_map_of_mem entry
    obtain ⟨x, entry', same⟩ := List.mem_map.mp listed
    rw [h.entries, List.mem_filter] at entry'
    have group := congrArg Entry.group same
    rw [show e.group = x.group from group.symm]
    exact of_decide_eq_true entry'.2

/-- The FLUSH whose target was the group completes with it, or waits for its posted part (R19, R32, R119). -/
theorem Retired.flush (h : Retired s u q) (serves : Machine.serving s = true) (quiet : s.control.configRequest = false)
    (flush : s.control.longCommand = some .flush) (target : s.groups.flushTarget = some q) :
    (s.queue.outstanding = 0 → FlushCompleted s (settle u) s.queue.lossNote) ∧
      (s.queue.outstanding ≠ 0 → (settle u).control = s.control) := by
  have waits : HandoverWaits u := handoverWaits_of_noRequest (by rw [h.control]; exact quiet)
  have works := arbiterWorks_of_serving (h.serves serves)
  have met : u.groups.flushTarget = none := by rw [h.target, if_pos target]
  refine ⟨fun zero => ?_, fun left => ?_⟩
  · have completed := settle_completes_flush (h.serves serves) waits (by rw [h.control]; exact flush)
      (by rw [h.outstanding]; exact zero) met
    rw [h.lossNote] at completed
    exact ⟨completed, (settle_settles works waits).configRequest.trans (by rw [h.control])⟩
  · have waiting : u.queue.outstanding ≠ 0 := by rw [h.outstanding]; exact left
    exact (settle_flush_waits works waits (.inr (.inl waiting))).1.trans h.control

/-- The handover completes with the last record and the last entries (R114). -/
theorem Retired.handover (h : Retired s u q) (serves : Machine.serving s = true)
    (request : s.control.configRequest = true) (table : ∀ r ∈ s.groups.table, r.sequence = q)
    (entries : ∀ e ∈ s.queue.entries, e.group = some q) : HandoverCompleted s (settle u) s.control.handoverLoss := by
  have completed := settle_completes_handover (h.serves serves) (by rw [h.control]; exact request)
    (by rw [h.table, List.filter_eq_nil_iff]; exact fun r record => by simp [table r record])
    (by rw [h.entries, List.filter_eq_nil_iff]; exact fun e entry => by simp [entries e entry])
  rw [h.control] at completed
  exact completed.seenFrom fun held => by rw [h.access]; exact held

/-- The engine takes the oldest CLOSED group, or holds none (R35). -/
theorem Retired.taken (h : Retired s u q) (serves : Machine.serving s = true) :
    OldestTaken (s.groups.table.filter (fun r => decide (r.sequence ≠ q))) (settle u) ∧
      ((∀ r ∈ s.groups.table, r.sequence ≠ q → r.state ≠ .closed) → (settle u).engine = JournalEngine.idle false) := by
  have works := arbiterWorks_of_serving (h.serves serves)
  refine ⟨?_, fun none => ?_⟩
  · rw [← h.table]
    exact settle_oldestTaken (h.serves serves)
  · have noneClosed : u.groups.table.find? (fun r => r.state == .closed) = Option.none := by
      refine List.find?_eq_none.mpr fun r record => ?_
      rw [h.table, List.mem_filter] at record
      simpa using none r record.1 (of_decide_eq_true record.2)
    rw [settle_engine works, takeNextGroup_none (.inr noneClosed), h.engine]

end

/-! ## The two lines of the copy -/

/-- The first line of the retiring copy moves the record position to 1, half SECOND (R47, R51). -/
theorem retiringLineWritten_first {s : State} {q : Seq} {g : Group} {c : CopyWrite} {p : ProgressContent}
    (half : s.engine.half = .first) (carries : Carries s q g .retiring) (copy : s.writer.copyWrite = some c)
    (content : c.content = .progress p) (written : c.written = 0) :
    let u := retiringLineWritten s
    AtStep u q .retiring 1 .second ∧ u.control = s.control ∧ u.recorder = s.recorder ∧
      u.writer = { s.writer with copyWrite := some { c with written := 1 } } := by
  obtain ⟨member, bears⟩ := groupOf_record carries.record
  set v := s.setWriter { s.writer with copyWrite := some { c with written := 1 } } with line
  have commit : v.engine.inCommit = some q := carries.inCommit
  have moved : retiringLineWritten s = setPosition v 1 .second := by
    unfold retiringLineWritten
    rw [copyLineWritten_progressFirst copy content written, ← line]
    dsimp only
    rw [show v.engine.half = .first from half]
  intro u
  rw [show u = setPosition v 1 .second from moved]
  refine ⟨setPosition_atStep commit carries.phase member bears carries.state 1 .second, ?_⟩
  rw [setPosition_eq commit]
  exact ⟨rfl, rfl, rfl⟩

/-- The second line of the retiring copy retires the group, with the copy the newest of its pair (R51, R100). -/
theorem retiringLineWritten_second {s : State} {q : Seq} {c : CopyWrite} {p : ProgressContent}
    (half : s.engine.half = .second) (inCommit : s.engine.inCommit = some q) (copy : s.writer.copyWrite = some c)
    (content : c.content = .progress p) (written : c.written = 1) :
    Retired s (retiringLineWritten s) q ∧ (retiringLineWritten s).writer = progressKnown s.writer c p := by
  set v := s.setWriter (progressKnown s.writer c p) with line
  have retires : retiringLineWritten s = retireGroup v := by
    unfold retiringLineWritten
    rw [copyLineWritten_progressLast copy content written, ← line]
    dsimp only
    rw [show v.engine.half = .second from half]
  obtain ⟨retired, writer⟩ := retireGroup_retired (s := v) inCommit
  rw [retires]
  exact ⟨⟨retired.control, retired.recorder, retired.access, retired.table, retired.target, retired.entries,
    retired.outstanding, retired.lossNote, retired.engine⟩, writer⟩

theorem Retired.of_freed {s u : State} {q : Seq} {m : Memory} {ready : Bool} (h : Retired (freed s m ready) u q) :
    Retired s u q :=
  ⟨h.control, h.recorder, h.access, h.table, h.target, h.entries, h.outstanding, h.lossNote, h.engine⟩

/-- Settles O22: the copy's first line and the copy's last line. -/
theorem secondRetiringLineRetiresTheGroup : Obligations.SecondRetiringLineRetiresTheGroup := by
  refine ⟨fun took s op q g c p powered serves done requester half carries copy content written => ?first,
    fun took s op q c p powered serves done requester half inCommit copy content written => ?second⟩
  case first =>
    have next := exec_ends powered (.of_completes done) took
    rw [opCompleted_retiring requester] at next
    obtain ⟨step, control, recorder, writer⟩ := retiringLineWritten_first (s := freed s (landStep s op took).mem true) half
      carries.of_freed copy content written
    generalize retiringLineWritten (freed s (landStep s op took).mem true) = u at next step control recorder writer
    have works : arbiterWorks u := arbiterWorks_of_serving (by rw [serving, control]; exact serves)
    exact ⟨_, next, .trans (.of_recorder (.refl s) recorder) (settle_noIncident works), settle_atStep works step,
      (settle_settles works step.waits).writer.trans writer⟩
  case second =>
    have next := exec_ends powered (.of_completes done) took
    rw [opCompleted_retiring requester] at next
    obtain ⟨retired, writer⟩ := retiringLineWritten_second (s := freed s (landStep s op took).mem true) half inCommit copy
      content written
    generalize retiringLineWritten (freed s (landStep s op took).mem true) = u at next retired writer
    have retiredS : Retired s u q := retired.of_freed
    have works := arbiterWorks_of_serving (retiredS.serves serves)
    have served := settle_served works
    have writerT : (settle u).writer = progressKnown s.writer c p := (congrArg Served.writer served).trans writer
    have pendingU : u.engine.journalPending = false := by rw [retiredS.engine]; rfl
    have pending : (settle u).engine.journalPending = false := (congrArg Served.journalPending served).trans pendingU
    obtain ⟨records, entries⟩ := retiredS.gone works
    obtain ⟨oldest, idle⟩ := retiredS.taken serves
    refine ⟨_, next, records, entries, pending, by rw [writerT]; rfl, by rw [writerT]; rfl, by rw [writerT]; rfl,
      by rw [writerT]; rfl, fun target => ?_, retiredS.flush serves, retiredS.handover serves, oldest, fun none => ?_⟩
    · have met : u.groups.flushTarget = none := by rw [retiredS.target, if_pos target]
      exact (congrArg Served.flushTarget served).trans met
    · rw [idle none]
      exact ⟨rfl, rfl, rfl, rfl⟩

end Sys2Proof.Machine
end

section
/-! A failure of the journal engine: the group STALLED and the part HALTED, or the handover abandoned (R37, R53 to R56, R110,
R115). -/

namespace Sys2Proof.Machine

/-! ## The group stalls -/

/-- The group table with the group of sequence `q` STALLED in phase `p` (R37). -/
def stalledTable (table : List Group) (q : Seq) (p : Phase) : List Group :=
  table.map (fun g => if g.sequence == q then { g with state := .stalled p } else g)

theorem mem_stalledTable {table : List Group} {q : Seq} {g : Group} (p : Phase) (record : g ∈ table)
    (bears : g.sequence = q) : { g with state := .stalled p } ∈ stalledTable table q p :=
  List.mem_map.mpr ⟨g, record, by simp [bears]⟩

theorem stallGroup_eq {s : State} {q : Seq} {p : Phase} (inCommit : s.engine.inCommit = some q)
    (phase : s.engine.phase = some p) :
    stallGroup s = ((s.setGroups { s.groups with table := stalledTable s.groups.table q p }).setEngine
      { s.engine with phase := none }).setWriter { s.writer with copyWrite := none } := by
  unfold stallGroup changeCommitGroup
  rw [phase, inCommit]
  rfl

/-- A failure that stalls a group has no setting: HALT is in force (R157). -/
theorem reactionInForce_stalls {d : Detail} (stalls : stallsGroup d = true) (s : State) :
    reactionInForce s d = .halt := by
  have fixed : ∀ (r : ReactionCodes) (d : Detail), stallsGroup d = true →
      reactionSetting r d = none ∧ fixedReaction d = .halt := by
    intro r d
    cases d <;> simp [stallsGroup, reactionSetting, fixedReaction]
  obtain ⟨setting, halt⟩ := fixed s.layout.settings.reactions d stalls
  unfold reactionInForce
  rw [setting]
  exact halt

/-- The reaction to a failure of the journal engine is HALT, in RUN and HALTED (R157). -/
theorem reactionTaken_stalls {s : State} {d : Detail} (stalls : stallsGroup d = true) (serves : serving s = true) :
    reactionTaken s d = .halt := by
  have shown : shownAsRecord s d = false := by
    rcases (serving_iff s).mp serves with mode | mode <;> simp [shownAsRecord, mode]
  unfold reactionTaken
  rw [shown, reactionInForce_stalls stalls]
  simp [serves]

/-- A HALT that has made a group STALLED takes the handover to its abandon path, or RUN to HALTED (R56, R110). -/
theorem haltReaction_stalls {s : State} {d : Detail} (stalls : stallsGroup d = true) (serves : serving s = true) :
    haltReaction s d = if s.control.configRequest = true then abandonPath s
      else if s.control.mode = .run then enterHalted s d else s := by
  unfold haltReaction
  rcases (serving_iff s).mp serves with mode | mode
  · simp [mode, stalls]
  · simp [mode, stalls]

/-- A record in commit is not closed with the open group. -/
theorem mem_closedTable_other {table : List Group} {g : Group} (record : g ∈ table) (other : g.state ≠ .open)
    (cause : CloseCause) : g ∈ closedTable table cause :=
  List.mem_map.mpr ⟨g, record, if_neg other⟩

/-! ## The failure in RUN and HALTED -/

/-- The state with the failure's incident recorded and the group STALLED, its reaction not yet carried out. -/
def stalledWith (s : State) (r : Report) : State :=
  recordIncident (stallGroup s) r

section
variable {s : State} {q : Seq} {g : Group} {p : Phase} {r : Report}

theorem stalledWith_accounted : Accounted (stallGroup s) (stalledWith s r) :=
  recordIncident_accounted (stallGroup s) r

theorem stalledWith_control : (stalledWith s r).control = s.control :=
  stalledWith_accounted.control.trans (stallGroup_control s)

theorem stalledWith_serves (serves : serving s = true) : serving (stalledWith s r) = true := by
  rw [serving, stalledWith_control]
  exact serves

theorem commitFailed_eq (serves : serving s = true) (stalls : stallsGroup r.detail = true) :
    commitFailed s r = if s.control.configRequest = true then abandonPath (stalledWith s r)
      else if s.control.mode = .run then enterHalted (stalledWith s r) r.detail else stalledWith s r := by
  have servesG : serving (stallGroup s) = true := by
    rw [serving, stallGroup_control]
    exact serves
  have reported : reportIncident (stallGroup s) r = haltReaction (stalledWith s r) r.detail := by
    unfold reportIncident
    rw [reactionTaken_stalls stalls servesG]
    rfl
  unfold commitFailed
  rw [if_neg (notShutdown_of_serving serves), reported, haltReaction_stalls stalls (stalledWith_serves serves),
    stalledWith_control]

/-- What every failure of the journal engine leaves: its incident with HALT, journal-pending, and the writer's knowledge with
no copy write (R53 to R55, R101). -/
structure JournalFailed (s t : State) (r : Report) : Prop where
  records : Records s t r .halt
  pending : t.engine.journalPending = s.engine.journalPending
  writer : t.writer = { s.writer with copyWrite := none }

theorem stalledWith_failed (serves : serving s = true) (inCommit : s.engine.inCommit = some q)
    (phase : s.engine.phase = some p) (stalls : stallsGroup r.detail = true) : JournalFailed s (stalledWith s r) r := by
  have stalled := stallGroup_eq inCommit phase
  have servesG : serving (stallGroup s) = true := by
    rw [serving, stallGroup_control]
    exact serves
  have records := recordIncident_records (stallGroup s) r
  rw [reactionTaken_stalls stalls servesG] at records
  refine ⟨.of_noIncident ?_ ?_ records, ?_, ?_⟩
  · rw [stalled]; exact .refl s
  · rw [stalled]; rfl
  · rw [stalledWith_accounted.engine, stalled]; rfl
  · rw [stalledWith_accounted.writer, stalled]; rfl

/-- With no configuration request pending the group stays STALLED in its phase, and the part is HALTED (R37, R110). -/
structure CommitStalled (s t : State) (d : Detail) (q : Seq) (p : Phase) (position : Nat) : Prop where
  mode : t.control.mode = .halted
  run : s.control.mode = .run →
    t.control.haltCause = some d ∧ t.recorder.pendingEvents.mode = true ∧ openGroup t = none
  halted : s.control.mode = .halted → t.control.haltCause = s.control.haltCause ∧
    t.recorder.pendingEvents.mode = s.recorder.pendingEvents.mode
  record : ∃ r ∈ t.groups.table, r.sequence = q ∧ r.state = .stalled p ∧ r.journalPosition = position
  engine : t.engine = { s.engine with phase := none }
  grouped : (s.queue.entries.map Entry.slot).Nodup → ∀ e ∈ s.queue.entries, e.group.isSome = true →
    e ∈ t.queue.entries

/-- The group in commit is STALLED in its phase, and the reaction is still to be carried out (R37). -/
structure GroupStalled (s w : State) (q : Seq) (p : Phase) : Prop where
  control : w.control = s.control
  table : w.groups.table = stalledTable s.groups.table q p
  engine : w.engine = { s.engine with phase := none }
  queue : w.queue = s.queue
  event : w.recorder.pendingEvents.mode = s.recorder.pendingEvents.mode

theorem stalledWith_stalled (inCommit : s.engine.inCommit = some q) (phase : s.engine.phase = some p) :
    GroupStalled s (stalledWith s r) q p := by
  have accounted : Accounted (stallGroup s) (stalledWith s r) := stalledWith_accounted
  have stalled := stallGroup_eq inCommit phase
  refine ⟨stalledWith_control, ?_, ?_, ?_, ?_⟩
  · rw [accounted.groups, stalled]; rfl
  · rw [accounted.engine, stalled]; rfl
  · rw [accounted.queue, stalled]; rfl
  · rw [accounted.event, stalled]; rfl

/-- With a group STALLED the end of the handling leaves group table and engine, and the entries of the groups. -/
theorem settle_stalled {u : State} (record : { g with state := .stalled p } ∈ u.groups.table)
    (engine : u.engine = { s.engine with phase := none }) (queue : u.queue = s.queue) (halted : u.control.mode = .halted) :
    Settles u (settle u) ∧ (settle u).groups = u.groups ∧ (settle u).engine = u.engine ∧
      ((s.queue.entries.map Entry.slot).Nodup → ∀ e ∈ s.queue.entries, e.group.isSome = true →
        e ∈ (settle u).queue.entries) := by
  have works : arbiterWorks u := arbiterWorks_of_serving ((serving_iff u).mpr (.inr halted))
  have waits : HandoverWaits u := fun _ => .inl (List.ne_nil_of_mem record)
  have commit : ∃ x ∈ u.groups.table, groupInCommit x = true := ⟨_, record, rfl⟩
  obtain ⟨groups, same⟩ := settle_inCommit works commit
  refine ⟨settle_settles works waits, groups, same, fun slots e entry grouped => ?_⟩
  have idle : (checked u).engine.phase = none := by
    rw [checked_of_waits waits, takeNextGroup_none (.inl commit), flushCheck_engine, engine]
  refine settle_unmarked works waits (by rw [queue]; exact slots) (by rw [queue]; exact entry) fun markable => ?_
  rcases markable.2 with posted | applying
  · simp [posted] at grouped
  · rw [idle] at applying
    cases applying

/-- In HALTED the part stays as it is (R110). -/
theorem GroupStalled.stays {w : State} (h : GroupStalled s w q p) (member : g ∈ s.groups.table) (bears : g.sequence = q)
    (halted : s.control.mode = .halted) (d : Detail) :
    CommitStalled s (settle w) d q p g.journalPosition ∧ Settles w (settle w) := by
  have record : { g with state := .stalled p } ∈ w.groups.table := by
    rw [h.table]
    exact mem_stalledTable p member bears
  obtain ⟨settles, groups, same, grouped⟩ := settle_stalled record h.engine h.queue (by rw [h.control]; exact halted)
  exact ⟨⟨settles.mode.trans (by rw [h.control]; exact halted), fun run => absurd (run.symm.trans halted) (by decide),
    fun _ => ⟨settles.haltCause.trans (by rw [h.control]), settles.event.trans h.event⟩,
    ⟨{ g with state := .stalled p }, by rw [groups]; exact record, bears, rfl, rfl⟩, same.trans h.engine, grouped⟩, settles⟩

/-- In RUN the part enters HALTED, and its open group is closed (R110). -/
theorem GroupStalled.halts {w : State} (h : GroupStalled s w q p) (member : g ∈ s.groups.table) (bears : g.sequence = q)
    (run : s.control.mode = .run) (d : Detail) :
    CommitStalled s (settle (enterHalted w d)) d q p g.journalPosition ∧
      Settles (enterHalted w d) (settle (enterHalted w d)) ∧ (enterHalted w d).writer = w.writer := by
  have entered := enterHalted_eq (s := w) (by rw [h.control]; exact run) d
  have table : (enterHalted w d).groups.table = closedTable (stalledTable s.groups.table q p) .halt := by
    rw [entered, ← h.table]; rfl
  have engine : (enterHalted w d).engine = { s.engine with phase := none } := by rw [entered, ← h.engine]; rfl
  have queue : (enterHalted w d).queue = s.queue := by rw [entered, ← h.queue]; rfl
  have mode : (enterHalted w d).control.mode = .halted := by rw [entered]; rfl
  have cause : (enterHalted w d).control.haltCause = some d := by rw [entered]; rfl
  have event : (enterHalted w d).recorder.pendingEvents.mode = true := by rw [entered]; rfl
  have writer : (enterHalted w d).writer = w.writer := by rw [entered]; rfl
  have record : { g with state := .stalled p } ∈ (enterHalted w d).groups.table := by
    rw [table]
    exact mem_closedTable_other (mem_stalledTable p member bears) (by simp) .halt
  obtain ⟨settles, groups, same, grouped⟩ := settle_stalled record engine queue mode
  have closed : openGroup (settle (enterHalted w d)) = none := by
    rw [openGroup_congr (s := enterHalted w d) (by rw [groups])]
    exact openGroup_of_closed (by rw [table]; exact closedTable_open _ _)
  exact ⟨⟨settles.mode.trans mode, fun _ => ⟨settles.haltCause.trans cause, settles.event.trans event, closed⟩,
    fun halted => absurd (run.symm.trans halted) (by decide), ⟨{ g with state := .stalled p }, by rw [groups]; exact record, bears, rfl, rfl⟩,
    same.trans engine, grouped⟩, settles, writer⟩

theorem commitFailed_stalls (serves : serving s = true) (quiet : s.control.configRequest = false)
    (inCommit : s.engine.inCommit = some q) (phase : s.engine.phase = some p) (found : groupOf s q = some g)
    (stalls : stallsGroup r.detail = true) :
    CommitStalled s (settle (commitFailed s r)) r.detail q p g.journalPosition ∧
      JournalFailed s (settle (commitFailed s r)) r := by
  obtain ⟨member, bears⟩ := groupOf_record found
  have failed := stalledWith_failed serves inCommit phase stalls
  have stalled : GroupStalled s (stalledWith s r) q p := stalledWith_stalled inCommit phase
  have outcome := commitFailed_eq serves stalls
  rw [if_neg (by rw [quiet]; exact Bool.false_ne_true)] at outcome
  by_cases run : s.control.mode = .run
  · rw [if_pos run] at outcome
    rw [outcome]
    obtain ⟨halts, settles, writer⟩ := stalled.halts member bears run r.detail
    have quietly := (enterHalted_noIncident (stalledWith s r) r.detail).trans settles.incidents
    exact ⟨halts, failed.records.noIncident quietly, by rw [halts.engine], settles.writer.trans (writer.trans failed.writer)⟩
  · rw [if_neg run] at outcome
    rw [outcome]
    obtain ⟨stays, settles⟩ := stalled.stays member bears (((serving_iff s).mp serves).resolve_left run) r.detail
    exact ⟨stays, failed.records.noIncident settles.incidents, by rw [stays.engine], settles.writer.trans failed.writer⟩

/-- With a configuration request pending the handover takes its abandon path (R56, R115). -/
structure CommitAbandoned (s t : State) (r : Report) : Prop where
  handover : HandoverCompleted s t true
  haltCause : t.control.haltCause = s.control.haltCause
  groups : t.groups = { s.groups with table := [], flushTarget := none }
  entries : t.queue.entries = []
  engine : t.engine = JournalEngine.idle s.engine.journalPending
  incidents : s.recorder.incidents.length < 14 →
    t.recorder.incidents = s.recorder.incidents ++
      [(r, Reaction.halt), ((abandonLosses s).1, .none), ((abandonLosses s).2, .none)].map
        (fun x => { report := x.1, stamp := s.recorder.stamp, reaction := x.2 })

theorem commitFailed_abandons (serves : serving s = true) (request : s.control.configRequest = true)
    (inCommit : s.engine.inCommit = some q) (phase : s.engine.phase = some p) (stalls : stallsGroup r.detail = true) :
    CommitAbandoned s (settle (commitFailed s r)) r ∧ JournalFailed s (settle (commitFailed s r)) r := by
  have failed := stalledWith_failed serves inCommit phase stalls
  have stalled := stallGroup_eq inCommit phase
  have accounted : Accounted (stallGroup s) (stalledWith s r) := stalledWith_accounted
  have control : (stalledWith s r).control = s.control := stalledWith_control
  have outcome : commitFailed s r = abandonPath (stalledWith s r) := by
    rw [commitFailed_eq serves stalls, if_pos request]
  have abandoned := settle_abandonPath (stalledWith_serves (r := r) serves)
  have queue : (stalledWith s r).queue = s.queue := by rw [accounted.queue, stalled]; rfl
  have access : (stalledWith s r).access = s.access := by rw [accounted.access, stalled]; rfl
  have losses : abandonLosses (stalledWith s r) = abandonLosses s := abandonLosses_congr queue
  have works : arbiterWorks (abandonPath (stalledWith s r)) := by
    have mode : (abandonPath (stalledWith s r)).control.mode = .config := congrArg ModeView.mode (abandonPath_view _)
    exact (arbiterWorks_iff _).mpr (.inr (.inl mode))
  have logged (room : s.recorder.incidents.length < 14) : Logged s (stalledWith s r)
      [{ report := r, stamp := s.recorder.stamp, reaction := .halt }] := by
    have servesG : serving (stallGroup s) = true := by
      rw [serving, stallGroup_control]
      exact serves
    have recorder : (stallGroup s).recorder = s.recorder := by rw [stalled]; rfl
    have recorded := recordIncident_logged (s := stallGroup s) (by rw [recorder]; omega) r
    rw [reactionTaken_stalls stalls servesG] at recorded
    rw [← recorder]
    exact ⟨by rw [← recorder]; exact recorded.incidents, by rw [← recorder]; exact recorded.overflow,
      by rw [← recorder]; exact recorded.stamp⟩
  rw [outcome]
  refine ⟨⟨abandoned.handover.seenFrom fun held => by rw [access]; exact held,
    abandoned.haltCause.trans (by rw [control]), ?_, abandoned.entries, ?_, fun room => ?_⟩, ?_, ?_, ?_⟩
  · rw [abandoned.groups, accounted.groups, stalled]; rfl
  · rw [abandoned.engine, failed.pending]
  · have first := logged room
    have length : (stalledWith s r).recorder.incidents.length ≤ 16 := first.room
    have whole := (first.trans (abandoned.incidents length)).incidents
    rw [losses, first.stamp] at whole
    rw [whole, List.take_of_length_le (by simp; omega)]
    rfl
  · have path := abandonPath_adds (stalledWith s r)
    exact failed.records.adds (path.trans (settle_noIncident works).adds)
  · rw [abandoned.engine, failed.pending]; rfl
  · rw [abandoned.writer, failed.writer]

end

/-! ## The three requesters -/

theorem opFailed_record {s : State} {op : ArrayOp} (requester : op.requester = .journalRecord) (f : Failure) :
    opFailed s op f = commitFailed s (commitReport s (f.detail .d414 .d424) op.line) := by
  unfold opFailed
  rw [requester, ← failureDetail_eq]

theorem opFailed_inPlace {s : State} {op : ArrayOp} {k : Fin 32} {w : WindowIndex} {i : Initiator}
    (requester : op.requester = .inPlaceWrite k w i) (f : Failure) :
    opFailed s op f = commitFailed (setEntryState s k .ready)
      { commitReport s (f.detail .d415 .d425) op.line with initiator := some i, window := some w } := by
  unfold opFailed
  rw [requester, ← failureDetail_eq]
  rfl

theorem opFailed_retiring {s : State} {op : ArrayOp} (requester : op.requester = .retiringProgress) (f : Failure) :
    opFailed s op f = commitFailed (endCopyWrite s) (commitReport s (f.detail .d416 .d426) op.line) := by
  unfold opFailed
  rw [requester, ← failureDetail_eq]

/-- A change of an entry's state leaves the numbers of POSTED and GROUPED entries. -/
theorem setEntryState_losses (s : State) (k : Fin 32) (st : EntryState) :
    abandonLosses (setEntryState s k st) = abandonLosses s := by
  have counts (test : Entry → Bool) (same : ∀ e : Entry, test { e with state := st } = test e) :
      ((setEntryState s k st).queue.entries.filter test).length = (s.queue.entries.filter test).length := by
    unfold setEntryState changeEntries
    rw [State.setQueue_queue, List.filter_map, List.length_map]
    refine congrArg List.length (List.filter_congr fun e _ => ?_)
    dsimp only [Function.comp]
    split
    · exact same e
    · rfl
  unfold abandonLosses
  rw [counts (fun e => e.group.isNone) (fun _ => rfl), counts (fun e => e.group.isSome) (fun _ => rfl)]

/-- What the failure of one of the engine's operations leaves, seen from the state in which it was in flight. -/
structure EngineFails (s t : State) (r : Report) (q : Seq) (p : Phase) (position : Nat) : Prop where
  failed : JournalFailed s t r
  stalled : s.control.configRequest = false → CommitStalled s t r.detail q p position
  abandoned : s.control.configRequest = true → CommitAbandoned s t r

theorem commitFailed_fails {s : State} {q : Seq} {g : Group} {p : Phase} {r : Report} (serves : serving s = true)
    (inCommit : s.engine.inCommit = some q) (phase : s.engine.phase = some p) (found : groupOf s q = some g)
    (stalls : stallsGroup r.detail = true) : EngineFails s (settle (commitFailed s r)) r q p g.journalPosition := by
  by_cases request : s.control.configRequest = true
  · obtain ⟨abandoned, failed⟩ := commitFailed_abandons serves request inCommit phase stalls
    exact ⟨failed, fun quiet => absurd (quiet.symm.trans request) (by decide), fun _ => abandoned⟩
  · rw [Bool.not_eq_true] at request
    obtain ⟨stalled, failed⟩ := commitFailed_stalls serves request inCommit phase found stalls
    exact ⟨failed, fun _ => stalled, fun requested => absurd (request.symm.trans requested) (by decide)⟩

theorem EngineFails.seenFrom {s u t : State} {r : Report} {q : Seq} {p : Phase} {n : Nat} (h : EngineFails u t r q p n)
    (control : u.control = s.control) (recorder : u.recorder = s.recorder) (engine : u.engine = s.engine)
    (access : u.access = s.access) :
    Records s t r .halt ∧ t.engine.journalPending = s.engine.journalPending ∧
      (s.control.configRequest = false → CommitStalled u t r.detail q p n) ∧
      (s.control.configRequest = true → CommitAbandoned u t r ∧ HandoverCompleted s t true) := by
  refine ⟨.of_noIncident (.of_recorder (.refl s) recorder) (by rw [recorder]) h.failed.records, ?_, fun quiet => ?_,
    fun request => ?_⟩
  · rw [h.failed.pending, engine]
  · exact h.stalled (by rw [control]; exact quiet)
  · have abandoned := h.abandoned (by rw [control]; exact request)
    exact ⟨abandoned, abandoned.handover.seenFrom fun held => by rw [access]; exact held⟩

/-- Settles O23: the failure's report and its HALT, then the stall or the abandon path. -/
theorem journalTimeoutStallsAndHalts : Obligations.JournalTimeoutStallsAndHalts := by
  intro c f s op q g p powered sound serves busy fails inCommit phase found report stalled failsIn
  have outside := notShutdown_of_serving serves
  obtain ⟨m, ready, next, -⟩ := exec_fails powered busy fails outside
  have reported (d : Detail) : commitReport (freed s m ready) d op.line = report d none none := by
    unfold commitReport
    rw [freed_engine, inCommit]
  have assembled {u t : State} {d : Detail} {i : Option Initiator} {w : Option WindowIndex}
      (fails : EngineFails u t (report d i w) q p g.journalPosition) (control : u.control = s.control)
      (recorder : u.recorder = s.recorder) (engine : u.engine = s.engine) (access : u.access = s.access)
      (groups : u.groups = s.groups) (newest : u.writer.newestProgress = s.writer.newestProgress)
      (retired : u.writer.retiredThrough = s.writer.retiredThrough) (losses : abandonLosses u = abandonLosses s) :
      failsIn t d i w := by
    obtain ⟨records, pending, stalls, abandons⟩ := fails.seenFrom control recorder engine access
    refine ⟨records, pending, by rw [fails.failed.writer]; exact newest, by rw [fails.failed.writer]; exact retired,
      fun quiet => ?_, fun request => ?_⟩
    · have left := stalls quiet
      have engineT : t.engine = { s.engine with phase := none } := by rw [left.engine, engine]
      refine ⟨left.mode, fun run => left.run (by rw [control]; exact run), fun halted => ?_, left.record, ?_⟩
      · have kept := left.halted (by rw [control]; exact halted)
        rw [control, recorder] at kept
        exact kept
      · rw [engineT]
        exact ⟨inCommit, rfl, rfl, rfl⟩
    · obtain ⟨left, handover⟩ := abandons request
      refine ⟨handover, by rw [left.haltCause, control], by rw [left.groups], by rw [left.groups], left.entries,
        by rw [left.engine]; rfl, by rw [left.engine]; rfl, by rw [left.groups, groups], fun room => ?_⟩
      have list := left.incidents (by rw [recorder]; exact room)
      rw [losses, recorder] at list
      exact list
  refine ⟨fun requester => ?record, fun e w i requester entry mine => ?inPlace, fun requester => ?retiring⟩
  case record =>
    rw [opFailed_record requester, reported] at next
    refine ⟨_, next, assembled (commitFailed_fails (s := freed s m ready) serves inCommit phase found ?_) rfl rfl rfl rfl rfl
      rfl rfl rfl⟩
    cases f <;> rfl
  case inPlace =>
    rw [opFailed_inPlace requester, reported] at next
    have engineFails := commitFailed_fails (s := setEntryState (freed s m ready) e.slot .ready)
      (r := report (f.detail .d415 .d425) (some i) (some w)) serves inCommit phase found (by cases f <;> rfl)
    refine ⟨_, next, assembled engineFails rfl rfl rfl rfl rfl rfl rfl (setEntryState_losses (freed s m ready) e.slot .ready),
      fun quiet => ⟨_, ?_, rfl⟩⟩
    refine (engineFails.stalled quiet).grouped ?_ _ (List.mem_map.mpr ⟨e, entry, by simp⟩) (by simp [mine])
    rw [setEntryState_slots]
    exact sound.queue.slots
  case retiring =>
    rw [opFailed_retiring requester, reported] at next
    have engineFails := commitFailed_fails (s := endCopyWrite (freed s m ready))
      (r := report (f.detail .d416 .d426) none none) serves inCommit phase found (by cases f <;> rfl)
    refine ⟨_, next, assembled engineFails rfl rfl rfl rfl rfl rfl rfl rfl, by rw [engineFails.failed.writer],
      fun changes => ?_⟩
    exact failure_notValid powered busy fails next (.inr outside) sound.mem (.inl requester) changes

end Sys2Proof.Machine
end

section
/-! The start sequence: the 36 reads of the control area and their retry (R93, R121). -/

namespace Sys2Proof.Machine

/-! ## The end of a handling outside RUN, HALTED and SHUTDOWN -/

/-- What the end of a handling leaves where the journal engine and the drain do not work. -/
structure IdleSettles (s t : State) : Prop where
  control : t.control = s.control
  recorder : t.recorder = s.recorder
  layout : t.layout = s.layout
  writer : t.writer = s.writer
  start : t.start = s.start
  recovery : t.recovery = s.recovery
  groups : t.groups = s.groups
  engine : t.engine = s.engine
  queue : t.queue = s.queue
  powered : t.powered = s.powered

theorem settle_idle {s : State} (idle : serving s = false) (mode : s.control.mode ≠ .shutdown) :
    IdleSettles s (settle s) := by
  have queue := settle_idle_queue idle mode
  by_cases works : arbiterWorks s
  · have leaves := settle_leaves_idle works idle
    have served := settle_served works
    exact ⟨leaves.control, leaves.recorder, leaves.layout, leaves.writer, congrArg Served.start served,
      congrArg Served.recovery served, leaves.groups, leaves.engine, queue, congrArg Served.powered served⟩
  · obtain ⟨pins, v, port, settled⟩ := settle_elsewhere works mode
    rw [settled]
    exact ⟨rfl, rfl, rfl, rfl, rfl, rfl, rfl, rfl, rfl, rfl⟩

theorem IdleSettles.noIncident {s t : State} (h : IdleSettles s t) : NoIncident s t :=
  .of_recorder (.refl s) h.recorder

/-! ## What a report leaves -/

section
variable {s t : State} (h : Accounted s t)
include h

theorem Accounted.stamp : t.recorder.stamp = s.recorder.stamp := by
  obtain ⟨c, r, f, rfl, -, stamp, -⟩ := h
  exact stamp

theorem Accounted.commandDone : t.recorder.pendingEvents.commandDone = s.recorder.pendingEvents.commandDone := by
  obtain ⟨c, r, f, rfl, -, -, -, done⟩ := h
  exact done

theorem Accounted.start : t.start = s.start := by
  obtain ⟨c, r, f, rfl, -⟩ := h
  rfl

theorem Accounted.recovery : t.recovery = s.recovery := by
  obtain ⟨c, r, f, rfl, -⟩ := h
  rfl

theorem Accounted.mem : t.mem = s.mem := by
  obtain ⟨c, r, f, rfl, -⟩ := h
  rfl

theorem Accounted.powered : t.powered = s.powered := by
  obtain ⟨c, r, f, rfl, -⟩ := h
  rfl

end

/-! ## STARTING -/

theorem opCompleted_start {s : State} {op : ArrayOp} {n : Nat} (requester : op.requester = .startRead n)
    (data : LineData) : opCompleted s op data = startReadDone s data := by
  unfold opCompleted
  rw [requester]

theorem opFailed_start {s : State} {op : ArrayOp} {n : Nat} (requester : op.requester = .startRead n) (f : Failure) :
    opFailed s op f = startReadFailed s op.line n := by
  unfold opFailed
  rw [requester]

/-- In STARTING the free port takes the next control-area read (R121). -/
theorem settle_starting_reads {s : State} (mode : s.control.mode = .starting) (waits : s.start.waiting = false)
    (free : s.port.op = none) :
    settle s = startOp (s.setPort { s.port with passOver := 0 }) (startReadOp s) := by
  rw [settle_of_not_serving (serving_of_mode mode (by decide))]
  generalize cleared : s.setPort { s.port with passOver := 0 } = u
  have freeU : u.port.op = none := by rw [← cleared]; exact free
  have modeU : u.control.mode = .starting := by rw [← cleared]; exact mode
  have waitsU : u.start.waiting = false := by rw [← cleared]; exact waits
  have next : startReadOp u = startReadOp s := by rw [← cleared]; rfl
  unfold drivePort
  rw [freeU]
  dsimp only
  rw [modeU]
  dsimp only
  rw [waitsU, next]
  rfl

/-- In the retry wait the port stays free (R121). -/
theorem settle_starting_waits {s : State} (mode : s.control.mode = .starting) (waits : s.start.waiting = true) :
    settle s = s.setPort { s.port with passOver := 0 } := by
  rw [settle_of_not_serving (serving_of_mode mode (by decide))]
  generalize cleared : s.setPort { s.port with passOver := 0 } = u
  have modeU : u.control.mode = .starting := by rw [← cleared]; exact mode
  have waitsU : u.start.waiting = true := by rw [← cleared]; exact waits
  unfold drivePort
  split
  · rfl
  · rw [modeU]
    dsimp only
    rw [waitsU]
    rfl

/-- 41/417 has the fixed reaction RECORD, in every mode (R157). -/
theorem reactionTaken_417 (s : State) : reactionTaken s .d417 = .record := by
  have inForce : reactionInForce s .d417 = .record := rfl
  unfold reactionTaken
  rw [inForce]
  split
  · rfl
  · rfl

/-- Settles O25: the failed read drops what was read and begins the retry wait, whose end reads again from the first line. -/
theorem startReadTimeoutIsRetried : Obligations.StartReadTimeoutIsRetried := by
  refine ⟨fun took s op n powered mode busy requester => ?failed, fun s powered mode waits free => ?retried⟩
  case failed =>
    have idle : serving s = false := serving_of_mode mode (by decide)
    obtain ⟨m, ready, next, -⟩ := exec_fails powered busy (f := .timeout) (.inl ⟨took, rfl, rfl⟩) (by simp [mode])
    have reported := reportIncident_outside (s := freed s m ready) (r := writerReport .d417 op.line n) rfl idle
    have records := reportIncident_records (freed s m ready) (writerReport .d417 op.line n)
    rw [show reactionTaken (freed s m ready) (writerReport .d417 op.line n).detail = .record from reactionTaken_417 _]
      at records
    have modeU : (reportIncident (freed s m ready) (writerReport .d417 op.line n)).control.mode = .starting := by
      rw [reported.control]
      exact mode
    rw [opFailed_start requester, startReadFailed, if_pos modeU] at next
    have control := reported.control
    have port := reported.port
    have stamp := reported.stamp
    generalize reportIncident (freed s m ready) (writerReport .d417 op.line n) = u
      at next records control port stamp modeU
    rw [settle_starting_waits (s := u.setStart { lines := [], waiting := true }) modeU rfl] at next
    exact ⟨_, next, control, congrArg ArrayPort.op port, rfl, stamp, freed_records records⟩
  case retried =>
    rw [exec_startReadRetry, handle_of_powered powered, retryStartReads, if_pos ⟨mode, waits⟩,
      settle_starting_reads (s := s.setStart { lines := [], waiting := false }) mode rfl free, startOp_eq]
    rfl

/-- A read before the last is kept, and the next one starts (R93, R121). -/
theorem startRead_continues {took : LineData} {s : State} {op : ArrayOp} {n : Nat} (powered : s.powered = true)
    (mode : s.control.mode = .starting) (done : Completes s op) (kind : op.kind = .lineRead)
    (requester : op.requester = .startRead n) (early : s.start.lines.length < 35) (waits : s.start.waiting = false) :
    ∃ t, exec (.arrayReady took) s = .next t ∧ t.control = s.control ∧ NoIncident s t ∧ t.mem = s.mem ∧
      t.layout = s.layout ∧ t.writer = s.writer ∧
      t.start = { lines := s.start.lines ++ [s.mem.readLine op.line], waiting := false } ∧
      t.port.op = some { freshOp (.startRead (s.start.lines.length + 1)) .lineRead
        (BitVec.ofNat 21 (s.start.lines.length + 1)) 0 0 with presented := true } := by
  have next := exec_lineRead powered done kind took
  set v := (freed s s.mem true).setStart { lines := s.start.lines ++ [s.mem.readLine op.line], waiting := false } with kept
  have reads : startReadDone (freed s s.mem true) (s.mem.readLine op.line) = v := by
    unfold startReadDone
    rw [if_pos (by exact mode)]
    have more : (s.start.lines ++ [s.mem.readLine op.line]).length < Config.startReads := by
      simp only [List.length_append, List.length_singleton, Config.startReads]
      omega
    refine (if_pos more).trans ?_
    rw [kept, ← waits]
    rfl
  have length : v.start.lines.length = s.start.lines.length + 1 := by simp [kept]
  rw [opCompleted_start requester, reads, settle_starting_reads (s := v) mode rfl rfl] at next
  refine ⟨_, next, ?_, ?_, ?_, ?_, ?_, ?_, ?_⟩
  · rw [startOp_eq]; rfl
  · rw [startOp_eq]; exact .refl s
  · rw [startOp_eq]; rfl
  · rw [startOp_eq]; rfl
  · rw [startOp_eq]; rfl
  · rw [startOp_eq]; rfl
  · rw [startOp_eq, ← length]; rfl

end Sys2Proof.Machine
end

section
/-! The choice of copies after the last control-area read: knowledge, notices and mode (R93, R98, R122 to R124). -/

namespace Sys2Proof.Machine

/-! ## A row of notices in the recorder -/

/-- The incident that a notice leaves in the recorder (R155, R157). -/
def noticed (s : State) (r : Report) : Incident :=
  { report := r, stamp := s.recorder.stamp, reaction := .none }

/-- What a row of notices leaves. -/
structure Notices (s t : State) (rs : List Report) : Prop where
  accounted : Accounted s t
  logged : Logged s t (rs.map (noticed s))
  fault : t.recorder.pendingEvents.fault = (s.recorder.pendingEvents.fault || !(rs.map (noticed s)).isEmpty)

theorem recordIncident_notices {s : State} (room : s.recorder.incidents.length ≤ 16) {r : Report}
    (notice : isNotice r.detail = true) : Notices s (recordIncident s r) [r] := by
  have logged := recordIncident_logged room r
  rw [reactionTaken_notice notice] at logged
  exact ⟨recordIncident_accounted s r, logged, by rw [recordIncident_events]; simp⟩

theorem Notices.append {s t u : State} {rs qs : List Report} (h : Notices s t rs) (k : Notices t u qs) :
    Notices s u (rs ++ qs) := by
  have same : noticed t = noticed s := by
    funext r
    rw [noticed, h.logged.stamp, noticed]
  obtain ⟨accounted, logged, fault⟩ := k
  rw [same] at logged fault
  refine ⟨h.accounted.trans accounted, ?_, ?_⟩
  · rw [List.map_append]
    exact h.logged.trans logged
  · rw [fault, h.fault]
    cases rs with
    | nil => simp
    | cons r rs => simp

theorem recordIncidents_notices {rs : List Report} : ∀ {s : State}, s.recorder.incidents.length ≤ 16 →
    (∀ r ∈ rs, isNotice r.detail = true) → Notices s (rs.foldl recordIncident s) rs := by
  induction rs with
  | nil =>
    intro s room _
    exact ⟨.refl s, Logged.nil room (.refl s) rfl, by simp⟩
  | cons r rs ih =>
    intro s room notices
    have first := recordIncident_notices room (notices r (List.mem_cons_self ..))
    exact first.append (ih first.logged.room fun q hq => notices q (List.mem_cons_of_mem r hq))

/-! ## The start notices -/

theorem pairNotices_notice {a b : Bool} {neither one : Detail} {x y : Addr} (hn : isNotice neither = true)
    (ho : isNotice one = true) : ∀ r ∈ pairNotices a b neither one x y, isNotice r.detail = true := by
  cases a <;> cases b <;> simp [pairNotices, plainReport, hn, ho]

theorem progressNotices_notice (w : ControlWriter) : ∀ r ∈ progressNotices w, isNotice r.detail = true := by
  intro r among
  simp only [progressNotices, List.mem_append] at among
  rcases among with (dirty | posted) | groups
  · split at dirty
    · rw [List.mem_singleton.mp dirty]; rfl
    · exact absurd dirty (List.not_mem_nil)
  · split at posted
    · rw [List.mem_singleton.mp posted]; rfl
    · exact absurd posted (List.not_mem_nil)
  · split at groups
    · rw [List.mem_singleton.mp groups]; rfl
    · exact absurd groups (List.not_mem_nil)

theorem startNotices_notice (w : ControlWriter) (c : ReadCopies) :
    ∀ r ∈ startNotices w c, isNotice r.detail = true := by
  intro r among
  simp only [startNotices, List.mem_append] at among
  rcases among with (layout | progress) | previous
  · exact pairNotices_notice rfl rfl r layout
  · exact pairNotices_notice rfl rfl r progress
  · split at previous
    · exact progressNotices_notice w r previous
    · exact absurd previous (List.not_mem_nil)

/-! ## What the writer learns (R98, R122) -/

/-- The writer's knowledge after the choice of copies. -/
def learned (w : ControlWriter) (c : ReadCopies) : ControlWriter :=
  learnProgress (learnLayout w c) c

theorem learnProgress_layout (w : ControlWriter) (c : ReadCopies) :
    (learnProgress w c).newestLayout = w.newestLayout ∧ (learnProgress w c).layoutGeneration = w.layoutGeneration ∧
      (learnProgress w c).storedImage = w.storedImage := by
  unfold learnProgress
  split
  · exact ⟨rfl, rfl, rfl⟩
  · exact ⟨rfl, rfl, rfl⟩

theorem learned_layout {c : ReadCopies} {l : Copy} (chosen : newestLayoutOf c = some l) (w : ControlWriter) :
    (learned w c).newestLayout = some l ∧ (learned w c).layoutGeneration = layoutGenerationOf (c.layout l) ∧
      (learned w c).storedImage = some (layoutOfCopy (c.layout l)) := by
  obtain ⟨newest, generation, image⟩ := learnProgress_layout (learnLayout w c) c
  rw [learned, newest, generation, image, learnLayout, chosen]
  exact ⟨rfl, rfl, rfl⟩

theorem learned_noLayout {c : ReadCopies} (none : newestLayoutOf c = .none) (w : ControlWriter) :
    (learned w c).newestLayout = w.newestLayout ∧ (learned w c).storedImage = w.storedImage := by
  obtain ⟨newest, -, image⟩ := learnProgress_layout (learnLayout w c) c
  rw [learned, newest, image, learnLayout, none]
  exact ⟨rfl, rfl⟩

theorem learned_progress {c : ReadCopies} {p : Copy} (chosen : newestProgressOf c = some p) (w : ControlWriter) :
    (learned w c).newestProgress = some p ∧ (learned w c).progressGeneration = progressGenerationOf (c.progress p) ∧
      (learned w c).retiredThrough = (progressOfCopy (c.progress p)).retiredThrough ∧
      (learned w c).startState = (progressOfCopy (c.progress p)).state ∧
      (learned w c).startPosted = (progressOfCopy (c.progress p)).postedAbandoned ∧
      (learned w c).startGroups = (progressOfCopy (c.progress p)).groupsAbandoned := by
  rw [learned, learnProgress, chosen]
  exact ⟨rfl, rfl, rfl, rfl, rfl, rfl⟩

theorem learnLayout_progress (w : ControlWriter) (c : ReadCopies) :
    (learnLayout w c).newestProgress = w.newestProgress ∧ (learnLayout w c).startState = w.startState ∧
      (learnLayout w c).startPosted = w.startPosted ∧ (learnLayout w c).startGroups = w.startGroups := by
  unfold learnLayout
  split
  · exact ⟨rfl, rfl, rfl, rfl⟩
  · exact ⟨rfl, rfl, rfl, rfl⟩

theorem learned_noProgress {c : ReadCopies} (none : newestProgressOf c = .none) (w : ControlWriter) :
    (learned w c).newestProgress = w.newestProgress ∧ (learned w c).startState = w.startState ∧
      (learned w c).startPosted = w.startPosted ∧ (learned w c).startGroups = w.startGroups := by
  rw [learned, learnProgress, none]
  exact learnLayout_progress w c

/-! ## The choice of copies (R122 to R124) -/

/-- The state with the knowledge of the copies read, before the notices. -/
def knowing (s : State) (lines : List LineData) : State :=
  ((s.setStart { lines := [], waiting := false }).setWriter (learned s.writer (copiesOf lines))).setLayout
    ((learned s.writer (copiesOf lines)).storedImage.getD s.layout)

/-- What the choice of copies leaves beside the mode: the knowledge of `b` and the notices `rs`. -/
structure Selected (b t : State) (rs : List Report) : Prop where
  logged : Logged b t (rs.map (noticed b))
  fault : t.recorder.pendingEvents.fault = (b.recorder.pendingEvents.fault || !(rs.map (noticed b)).isEmpty)
  layout : t.layout = b.layout
  start : t.start = b.start
  writer : ∃ w, t.writer = { b.writer with copyWrite := w }

theorem Notices.selected {b u : State} {rs : List Report} (h : Notices b u rs) : Selected b u rs :=
  ⟨h.logged, h.fault, h.accounted.layout, h.accounted.start, b.writer.copyWrite, h.accounted.writer⟩

theorem Selected.setRecovery {b u : State} {rs : List Report} (h : Selected b u rs) (r : Option Recovery) :
    Selected b (u.setRecovery r) rs :=
  ⟨⟨h.logged.incidents, h.logged.overflow, h.logged.stamp⟩, h.fault, h.layout, h.start, h.writer⟩

theorem Selected.moded {b u : State} {rs : List Report} (h : Selected b u rs) {m : Mode}
    (other : u.control.mode ≠ m) : Selected b (changeMode u m) rs := by
  rw [changeMode_of_ne other]
  exact ⟨⟨h.logged.incidents, h.logged.overflow, h.logged.stamp⟩, h.fault, h.layout, h.start, h.writer⟩

theorem Selected.recorded {b u : State} {rs : List Report} (h : Selected b u rs)
    {r : Report} (notice : isNotice r.detail = true) :
    Selected b (recordIncident u r) (rs ++ [r]) := by
  have room' : u.recorder.incidents.length ≤ 16 := by rw [h.logged.incidents]; simp
  have ⟨accounted, logged, fault⟩ := recordIncident_notices (s := u) room' notice
  have same : noticed u = noticed b := by
    funext r
    rw [noticed, h.logged.stamp, noticed]
  rw [same] at logged fault
  refine ⟨?_, ?_, accounted.layout.trans h.layout, accounted.start.trans h.start, by rw [accounted.writer]; exact h.writer⟩
  · rw [List.map_append]
    exact h.logged.trans logged
  · rw [fault, h.fault]
    cases rs with
    | nil => simp
    | cons r rs => simp

/-- The state in which the end of recovery changes the mode (R25, R128, R129). -/
def recoveryReset (u : State) : State :=
  (u.setRecovery none).setGroups { u.groups with nextSequence := u.writer.retiredThrough + 1 }

theorem endRecovery_of_ne {u : State} {m : Mode} (other : u.control.mode ≠ m) :
    endRecovery u m = raise ((recoveryReset u).setControl { u.control with mode := m }) .mode :=
  changeMode_of_ne (s := recoveryReset u) other

/-- On path START recovery's failure ends its copy write and enters CONFIG (R129). -/
theorem recoveryFails_start {u : State} (other : u.control.mode ≠ .config) :
    recoveryFails u .start =
      raise ((recoveryReset (endCopyWrite u)).setControl { u.control with mode := .config }) .mode :=
  endRecovery_of_ne (u := endCopyWrite u) other

theorem Selected.failed {b u : State} {rs : List Report} (h : Selected b u rs) (other : u.control.mode ≠ .config) :
    Selected b (recoveryFails u .start) rs := by
  obtain ⟨w, writer⟩ := h.writer
  rw [recoveryFails_start other]
  exact ⟨⟨h.logged.incidents, h.logged.overflow, h.logged.stamp⟩, h.fault, h.layout, h.start, none,
    congrArg (fun w => { w with copyWrite := none }) writer⟩

/-- The report of an inconsistent layout (R124). -/
def inconsistentReport (copy : Copy) : Report :=
  { detail := .d512, address := some (layoutCopyAddress copy) }

/-- The mode that the choice of copies selects (R122, R124). -/
def selectedMode (w : ControlWriter) (l : Layout) : Mode :=
  if w.newestLayout.isSome && w.newestProgress.isSome then (if consistent l then .recovering else .config)
  else .unformatted

/-- The notice of an inconsistent layout, where a newest pair of copies holds one (R124). -/
def layoutNotices (w : ControlWriter) (l : Layout) : List Report :=
  if w.newestLayout.isSome && w.newestProgress.isSome then
    (if consistent l then [] else [inconsistentReport (w.newestLayout.getD .a)])
  else []

/-- The entry to RECOVERING notices an inconsistent layout and ends in CONFIG (R124, R129). -/
theorem enterRecovery_selected {b u : State} {rs : List Report} (h : Selected b u rs)
    (mode : u.control.mode = .starting) :
    Selected b (enterRecovery u .start)
        (rs ++ (if consistent b.layout then [] else [inconsistentReport (b.writer.newestLayout.getD .a)])) ∧
      (enterRecovery u .start).control.mode = (if consistent b.layout then .recovering else .config) ∧
      (enterRecovery u .start).recorder.pendingEvents.mode = true := by
  have other : (u.setRecovery (some (freshRecovery u .start))).control.mode ≠ .recovering := by simp [mode]
  have entered := (h.setRecovery (some (freshRecovery u .start))).moded other
  have event : (changeMode (u.setRecovery (some (freshRecovery u .start))) .recovering).recorder.pendingEvents.mode
      = true := by
    rw [changeMode_of_ne other]
    rfl
  have modeV := changeMode_mode (u.setRecovery (some (freshRecovery u .start))) .recovering
  obtain ⟨w, writer⟩ := entered.writer
  have unfolded : enterRecovery u .start =
      if consistent (changeMode (u.setRecovery (some (freshRecovery u .start))) .recovering).layout then
        changeMode (u.setRecovery (some (freshRecovery u .start))) .recovering
      else recoveryFails (recordIncident (changeMode (u.setRecovery (some (freshRecovery u .start))) .recovering)
        (inconsistentReport
          ((changeMode (u.setRecovery (some (freshRecovery u .start))) .recovering).writer.newestLayout.getD .a)))
        .start := rfl
  generalize changeMode (u.setRecovery (some (freshRecovery u .start))) .recovering = v
    at entered event modeV writer unfolded
  rw [unfolded, entered.layout, writer]
  split
  · rw [List.append_nil]
    exact ⟨entered, modeV, event⟩
  · have noted := entered.recorded (r := inconsistentReport (b.writer.newestLayout.getD .a)) rfl
    have modeR : (recordIncident v (inconsistentReport (b.writer.newestLayout.getD .a))).control.mode = .recovering :=
      modeV
    generalize recordIncident v (inconsistentReport (b.writer.newestLayout.getD .a)) = x at noted modeR
    have other : x.control.mode ≠ .config := by simp [modeR]
    refine ⟨noted.failed other, recoveryFails_mode x .start, ?_⟩
    rw [recoveryFails_start other]
    rfl

/-- The choice of copies: the knowledge, the notices and the mode (R122 to R124). -/
theorem selectCopies_selected {s : State} (mode : s.control.mode = .starting) (room : s.recorder.incidents.length ≤ 16)
    (lines : List LineData) :
    Selected (knowing s lines) (selectCopies s lines)
        (startNotices (knowing s lines).writer (copiesOf lines) ++
          layoutNotices (knowing s lines).writer (knowing s lines).layout) ∧
      (selectCopies s lines).control.mode = selectedMode (knowing s lines).writer (knowing s lines).layout ∧
      (selectCopies s lines).recorder.pendingEvents.mode = true := by
  have unfolded : selectCopies s lines =
      if (knowing s lines).writer.newestLayout.isSome && (knowing s lines).writer.newestProgress.isSome then
        enterRecovery ((startNotices (knowing s lines).writer (copiesOf lines)).foldl recordIncident (knowing s lines))
          .start
      else changeMode ((startNotices (knowing s lines).writer (copiesOf lines)).foldl recordIncident (knowing s lines))
        .unformatted := rfl
  have roomB : (knowing s lines).recorder.incidents.length ≤ 16 := room
  have modeB : (knowing s lines).control.mode = .starting := mode
  have noted := recordIncidents_notices roomB (startNotices_notice (knowing s lines).writer (copiesOf lines))
  rw [unfolded]
  generalize knowing s lines = b at noted roomB modeB
  generalize (startNotices b.writer (copiesOf lines)).foldl recordIncident b = u at noted
  have modeU : u.control.mode = .starting := by rw [noted.accounted.control]; exact modeB
  unfold selectedMode layoutNotices
  split
  · exact enterRecovery_selected noted.selected modeU
  · rw [List.append_nil]
    have other : u.control.mode ≠ .unformatted := by simp [modeU]
    refine ⟨noted.selected.moded other, changeMode_mode u .unformatted, ?_⟩
    rw [changeMode_of_ne other]
    rfl

/-- The last read of the start sequence chooses the copies (R122). -/
theorem startRead_selects {took : LineData} {s : State} {op : ArrayOp} {n : Nat} (powered : s.powered = true)
    (mode : s.control.mode = .starting) (done : Completes s op) (kind : op.kind = .lineRead)
    (requester : op.requester = .startRead n) (last : s.start.lines.length = 35)
    (room : s.recorder.incidents.length ≤ 16) :
    let lines := s.start.lines ++ [s.mem.readLine op.line]
    let w := learned s.writer (copiesOf lines)
    let l := w.storedImage.getD s.layout
    ∃ t, exec (.arrayReady took) s = .next t ∧ t.recorder.pendingEvents.mode = true ∧ t.control.mode = selectedMode w l ∧
      t.layout = l ∧ (∃ x, t.writer = { w with copyWrite := x }) ∧ t.start.lines = [] ∧
      Logged s t ((startNotices w (copiesOf lines) ++ layoutNotices w l).map (noticed s)) ∧
      t.recorder.pendingEvents.fault = (s.recorder.pendingEvents.fault ||
        !((startNotices w (copiesOf lines) ++ layoutNotices w l).map (noticed s)).isEmpty) := by
  intro lines w l
  have next := exec_lineRead powered done kind took
  have reads : startReadDone (freed s s.mem true) (s.mem.readLine op.line) = selectCopies (freed s s.mem true) lines := by
    unfold startReadDone
    rw [if_pos (by exact mode)]
    refine if_neg ?_
    simp [last, Config.startReads]
  obtain ⟨selected, modeT, event⟩ := selectCopies_selected (s := freed s s.mem true) mode room lines
  rw [opCompleted_start requester, reads] at next
  generalize selectCopies (freed s s.mem true) lines = u at next selected modeT event
  have modes : u.control.mode ≠ .shutdown ∧ serving u = false := by
    rw [serving, modeT, selectedMode]
    split
    · split
      · exact ⟨by decide, rfl⟩
      · exact ⟨by decide, rfl⟩
    · exact ⟨by decide, rfl⟩
  have ends := settle_idle modes.2 modes.1
  refine ⟨settle u, next, ?_, ?_, ?_, ?_, ?_, ?_, ?_⟩
  · rw [ends.recorder]
    exact event
  · rw [ends.control]
    exact modeT
  · rw [ends.layout]
    exact selected.layout
  · rw [ends.writer]
    exact selected.writer
  · rw [ends.start, selected.start]
    rfl
  · obtain ⟨incidents, overflow, stamp⟩ := selected.logged
    refine ⟨?_, ?_, ?_⟩
    · rw [ends.recorder]; exact incidents
    · rw [ends.recorder]; exact overflow
    · rw [ends.recorder]; exact stamp
  · rw [ends.recorder]
    exact selected.fault

/-- Settles O24: the reads before the last are kept; the last one chooses the copies, with notices, and selects the mode. -/
theorem startSequenceChoosesTheMode : Obligations.StartSequenceChoosesTheMode := by
  refine ⟨fun took s op n powered mode done kind requester early waits =>
    startRead_continues powered mode done kind requester early waits, ?_⟩
  intro took s op n powered mode done kind requester last noLayout noProgress noImage room c pair previousRun
    inconsistent notices
  obtain ⟨t, next, event, modeT, layout, ⟨x, writer⟩, start, logged, fault⟩ :=
    startRead_selects powered mode done kind requester last room (took := took)
  have samePair : ∀ a b neither one x y, pair a b neither one x y = pairNotices a b neither one x y := by
    intro a b neither one x y
    cases a <;> cases b <;> rfl
  have samePrevious : previousRun =
      if (learned s.writer c).newestProgress.isSome then progressNotices (learned s.writer c) else [] := by
    cases chosen : newestProgressOf c with
    | none =>
      simp only [previousRun, chosen, (learned_noProgress chosen s.writer).1, noProgress]
      rfl
    | some p =>
      obtain ⟨newest, -, retired, state, posted, groups⟩ := learned_progress chosen s.writer
      simp only [previousRun, chosen, newest, progressNotices, retired, state, posted, groups]
      cases (progressOfCopy (c.progress p)).state <;> simp
  have sameLayout : inconsistent = layoutNotices (learned s.writer c) ((learned s.writer c).storedImage.getD s.layout) := by
    cases layoutChosen : newestLayoutOf c with
    | none =>
      simp [inconsistent, layoutChosen, layoutNotices, (learned_noLayout layoutChosen s.writer).1, noLayout]
    | some l =>
      obtain ⟨newest, -, image⟩ := learned_layout layoutChosen s.writer
      cases progressChosen : newestProgressOf c with
      | none =>
        simp [inconsistent, layoutChosen, progressChosen, layoutNotices, (learned_noProgress progressChosen s.writer).1,
          noProgress]
      | some p =>
        simp only [inconsistent, layoutChosen, progressChosen, layoutNotices, newest, image,
          (learned_progress progressChosen s.writer).1, inconsistentReport]
        cases l <;> rfl
  have sameNotices : notices = (startNotices (learned s.writer c) c ++
      layoutNotices (learned s.writer c) ((learned s.writer c).storedImage.getD s.layout)).map (noticed s) := by
    simp only [notices, samePair, samePrevious, sameLayout]
    rfl
  refine ⟨t, next, event, start, fun l chosen => ?layout, fun p chosen => ?progress, fun none => ?noLayout,
    fun none => ?noProgress, ?incidents, ?overflow, ?fault, ?mode⟩
  case layout =>
    obtain ⟨newest, generation, image⟩ := learned_layout chosen s.writer
    rw [layout, writer]
    exact ⟨by rw [image]; rfl, newest, generation, by rw [image]; rfl⟩
  case progress =>
    rw [writer]
    exact learned_progress chosen s.writer
  case noLayout =>
    obtain ⟨newest, image⟩ := learned_noLayout none s.writer
    rw [layout, writer]
    exact ⟨by rw [image, noImage]; rfl, newest.trans noLayout⟩
  case noProgress =>
    obtain ⟨newest, reported⟩ := learned_noProgress none s.writer
    rw [writer]
    exact ⟨newest.trans noProgress, reported⟩
  case incidents =>
    rw [sameNotices]
    exact logged.incidents
  case overflow =>
    rw [sameNotices]
    exact logged.overflow
  case fault =>
    rw [sameNotices]
    exact fault
  case mode =>
    change t.control.mode = selectedMode (learned s.writer c) ((learned s.writer c).storedImage.getD s.layout) at modeT
    rw [modeT, layout, selectedMode]
    change (if _ then (if consistent ((learned s.writer c).storedImage.getD s.layout) then _ else _) else _) =
      if _ then _ else if consistent ((learned s.writer c).storedImage.getD s.layout) then _ else _
    cases layoutChosen : newestLayoutOf c with
    | none => simp [(learned_noLayout layoutChosen s.writer).1, noLayout]
    | some l =>
      cases progressChosen : newestProgressOf c with
      | none => simp [(learned_noProgress progressChosen s.writer).1, noProgress]
      | some p => simp [(learned_layout layoutChosen s.writer).1, (learned_progress progressChosen s.writer).1]

end Sys2Proof.Machine
end

section
/-! The lines of STORE_LAYOUT and FORMAT and of recovery's final progress copy, and their failures (R100, R103, R128,
R129, R132, R133). -/

namespace Sys2Proof.Machine

/-! ## Which part an operation belongs to -/

theorem opCompleted_store {s : State} {op : ArrayOp} {n : Nat} (requester : op.requester = .storeLayoutLine n)
    (data : LineData) : opCompleted s op data = storeLineWritten s := by
  unfold opCompleted
  rw [requester]

theorem opCompleted_format {s : State} {op : ArrayOp} {n : Nat} (requester : op.requester = .formatLine n)
    (data : LineData) : opCompleted s op data = formatLineWritten s := by
  unfold opCompleted
  rw [requester]

theorem opCompleted_recovery {s : State} {op : ArrayOp} {q : Seq} {replay : Bool} {n : Nat}
    (requester : op.requester = .recoveryProgress q replay n) (data : LineData) :
    opCompleted s op data = recoveryLineWritten s replay := by
  unfold opCompleted
  rw [requester]

theorem opFailed_store {s : State} {op : ArrayOp} {n : Nat} (requester : op.requester = .storeLayoutLine n)
    (f : Failure) : opFailed s op f = storeLineFailed s (writerReport (f.detail .d416 .d426) op.line n) := by
  unfold opFailed
  rw [requester]
  dsimp only
  rw [failureDetail_eq]

theorem opFailed_format {s : State} {op : ArrayOp} {n : Nat} (requester : op.requester = .formatLine n) (f : Failure) :
    opFailed s op f = formatLineFailed s (writerReport
      (if n = 2 ∨ n = 3 then f.detail .d414 .d424 else f.detail .d416 .d426) op.line n) := by
  unfold opFailed
  rw [requester]
  dsimp only
  rw [failureDetail_eq, failureDetail_eq]
  simp [formatLineInJournal]

/-! ## The lines before the last -/

theorem formatLineWritten_next {s : State} {f : FormatWork} (work : s.writer.format = some f) (early : f.written < 39) :
    formatLineWritten s = s.setWriter { s.writer with format := some { f with written := f.written + 1 } } := by
  unfold formatLineWritten
  rw [work]
  exact if_pos (by simp only [Config.formatWrites]; omega)

theorem copyLineWritten_layoutNext {s : State} {w : CopyWrite} {l : Layout} (copy : s.writer.copyWrite = some w)
    (content : w.content = .layout l) (early : w.written < 15) :
    copyLineWritten s = s.setWriter { s.writer with copyWrite := some { w with written := w.written + 1 } } := by
  unfold copyLineWritten
  rw [copy]
  refine if_pos ?_
  rw [content]
  simp only [copyLines]
  omega

theorem storeLineWritten_next {s : State} {w : CopyWrite} {l : Layout} (copy : s.writer.copyWrite = some w)
    (content : w.content = .layout l) (early : w.written < 15) :
    storeLineWritten s = s.setWriter { s.writer with copyWrite := some { w with written := w.written + 1 } } := by
  have next := copyLineWritten_layoutNext copy content early
  unfold storeLineWritten
  rw [copy, next]
  rfl

/-- A line of the writer's own work that is not the last is followed by the next (R100, R132). -/
theorem writerLine_continues {took : LineData} {s : State} {op next : ArrayOp} {w : ControlWriter}
    (powered : s.powered = true) (done : Completes s op) (noAccess : s.access.held = none)
    (mode : s.control.mode = .config ∨ s.control.mode = .unformatted)
    (written : ∀ m data, opCompleted (freed s m true) op data = (freed s m true).setWriter w)
    (asks : ∀ m, writerOp ((freed s m true).setWriter w) = some next) :
    ∃ t, exec (.arrayReady took) s = .next t ∧ t.control = s.control ∧ NoIncident s t ∧ t.writer = w ∧
      t.port.op = some { next with presented := true } := by
  have ends := exec_ends powered (.of_completes done) took
  rw [written] at ends
  have asks := asks (landStep s op took).mem
  have line : (freed s (landStep s op took).mem true).pins.arrayReady = true := rfl
  generalize shape : freed s (landStep s op took).mem true = v at ends asks line
  have control : v.control = s.control := by rw [← shape]; rfl
  have recorder : v.recorder = s.recorder := by rw [← shape]; rfl
  have works : writerWorks (v.setWriter w) = true :=
    (writerWorks_iff _).mpr (by rw [State.setWriter_control, control]; exact mode)
  have idle := settle_idle (s := v.setWriter w) (writerWorks_idle works).1 (by
    rw [State.setWriter_control, control]
    rcases mode with config | unformatted
    · simp [config]
    · simp [unformatted])
  have port := settle_writer works (by rw [State.setWriter_port, ← shape]; rfl)
    (by rw [State.setWriter_access, ← shape]; exact noAccess) asks
  refine ⟨_, ends, idle.control.trans control, .of_recorder (.refl s) (idle.recorder.trans recorder), idle.writer, ?_⟩
  rw [port, State.setWriter_pins, line]

theorem formatLine_continues {took : LineData} {s : State} {op : ArrayOp} {n : Nat} {f : FormatWork}
    (powered : s.powered = true) (done : Completes s op) (noAccess : s.access.held = none)
    (mode : s.control.mode = .config ∨ s.control.mode = .unformatted) (requester : op.requester = .formatLine n)
    (work : s.writer.format = some f) (early : f.written < 39) :
    ∃ t x, exec (.arrayReady took) s = .next t ∧ t.control = s.control ∧ NoIncident s t ∧
      t.writer = { s.writer with format := some { f with written := f.written + 1 } } ∧
      (formatWrites f.image f.journalBase)[f.written + 1]? = some x ∧
      t.port.op = some
        { freshOp (.formatLine (f.written + 1)) .verifiedWrite x.1 x.2.1 x.2.2 with presented := true } := by
  have inside : f.written + 1 < (formatWrites f.image f.journalBase).length := by simp [formatWrites]; omega
  have place := List.getElem?_eq_getElem inside
  generalize (formatWrites f.image f.journalBase)[f.written + 1] = x at place
  have next := formatOp_eq (f := { f with written := f.written + 1 }) place
  obtain ⟨t, exec, control, noIncident, writer, port⟩ := writerLine_continues (took := took)
    (w := { s.writer with format := some { f with written := f.written + 1 } })
    (next := freshOp (.formatLine (f.written + 1)) .verifiedWrite x.1 x.2.1 x.2.2) powered done noAccess mode
    (fun m data => (opCompleted_format requester data).trans (formatLineWritten_next (s := freed s m true) work early))
    (fun m => congrArg some next)
  exact ⟨t, x, exec, control, noIncident, writer, place, port⟩

theorem storeLine_continues {took : LineData} {s : State} {op : ArrayOp} {n : Nat} {w : CopyWrite} {l : Layout}
    (powered : s.powered = true) (done : Completes s op) (noAccess : s.access.held = none)
    (mode : s.control.mode = .config ∨ s.control.mode = .unformatted) (requester : op.requester = .storeLayoutLine n)
    (noFormat : s.writer.format = none) (long : s.control.longCommand = some .storeLayout)
    (copy : s.writer.copyWrite = some w) (content : w.content = .layout l) (early : w.written < 15) :
    let next : CopyWrite := { w with written := w.written + 1 }
    ∃ t, exec (.arrayReady took) s = .next t ∧ t.control = s.control ∧ NoIncident s t ∧
      t.writer = { s.writer with copyWrite := some next } ∧
      t.port.op = some
        { copyLineOp (.storeLayoutLine (w.written + 1)) .verifiedWrite next with presented := true } := by
  intro next
  refine writerLine_continues (took := took) (next := copyLineOp (.storeLayoutLine (w.written + 1)) .verifiedWrite next)
    powered done noAccess mode
    (fun m data => (opCompleted_store requester data).trans
      (storeLineWritten_next (s := freed s m true) copy content early)) (fun m => ?_)
  have asks : writerOp ((freed s m true).setWriter { s.writer with copyWrite := some next }) =
      copyOp ((freed s m true).setWriter { s.writer with copyWrite := some next }) .storeLayoutLine true := by
    unfold writerOp
    rw [State.setWriter_writer, noFormat]
    exact if_pos long
  rw [asks, copyOp_eq]
  rfl

/-! ## The last lines -/

/-- The fortieth line completes FORMAT (R132). -/
theorem formatLineWritten_last {s : State} {f : FormatWork} (work : s.writer.format = some f)
    (last : f.written = 39) : formatLineWritten s = formatComplete s f.image := by
  unfold formatLineWritten
  rw [work]
  exact if_neg (by simp [last, Config.formatWrites])

/-- What FORMAT's completion makes of the parts, before the mode changes and the command completes (R132). -/
theorem formatComplete_eq (s : State) (image : Layout) :
    ∃ v, formatComplete s image = completeLong (changeMode v .config) .done ∧ v.control = s.control ∧
      v.engine.journalPending = false ∧ v.groups.nextSequence = 1 ∧
      v.writer = { s.writer with
        newestLayout := some .b, layoutGeneration := 2, storedImage := some image
        newestProgress := some .b, progressGeneration := 2, retiredThrough := 0
        format := none, formatIncomplete := false } :=
  ⟨_, rfl, rfl, rfl, rfl, rfl⟩

theorem changeMode_groups (s : State) (m : Mode) : (changeMode s m).groups = s.groups := by
  unfold changeMode
  split
  · rfl
  · rfl

theorem changeMode_writer (s : State) (m : Mode) : (changeMode s m).writer = s.writer := by
  unfold changeMode
  split
  · rfl
  · rfl

/-- The fortieth line of FORMAT leaves the writer's new knowledge and CONFIG (R132). -/
theorem formatLine_completes {took : LineData} {s : State} {op : ArrayOp} {f : FormatWork} {n : Nat}
    (powered : s.powered = true) (done : Completes s op) (requester : op.requester = .formatLine n)
    (work : s.writer.format = some f) (last : f.written = 39) :
    ∃ t, exec (.arrayReady took) s = .next t ∧ t.control.mode = .config ∧ t.control.longCommand = none ∧
      t.control.lastResult = some .done ∧ t.recorder.pendingEvents.commandDone = true ∧
      (s.control.mode = .unformatted → t.recorder.pendingEvents.mode = true) ∧
      t.writer.newestLayout = some .b ∧ t.writer.layoutGeneration = 2 ∧ t.writer.storedImage = some f.image ∧
      t.writer.newestProgress = some .b ∧ t.writer.progressGeneration = 2 ∧ t.writer.retiredThrough = 0 ∧
      t.writer.formatIncomplete = false ∧ t.writer.format = none ∧ t.engine.journalPending = false ∧
      t.groups.nextSequence = 1 := by
  have next := exec_ends powered (.of_completes done) took
  obtain ⟨v, completes, control, journal, sequence, writer⟩ :=
    formatComplete_eq (freed s (landStep s op took).mem true) f.image
  rw [opCompleted_format requester, formatLineWritten_last (s := freed s (landStep s op took).mem true) work last, completes]
    at next
  have mode := changeMode_mode v .config
  have modeU : (completeLong (changeMode v .config) .done).control.mode = .config := mode
  have ends := settle_idle (serving_of_mode modeU (by decide)) (by simp [modeU])
  have event : s.control.mode = .unformatted → (changeMode v .config).recorder.pendingEvents.mode = true := by
    intro unformatted
    rw [changeMode_of_ne (by simp [control, unformatted])]
    rfl
  have writerU : (completeLong (changeMode v .config) .done).writer = v.writer := changeMode_writer v .config
  have engineU : (completeLong (changeMode v .config) .done).engine = v.engine := changeMode_engine v .config
  have groupsU : (completeLong (changeMode v .config) .done).groups = v.groups := changeMode_groups v .config
  refine ⟨_, next, ?_, ?_, ?_, ?_, ?_, ?_⟩
  · rw [ends.control]; exact mode
  · rw [ends.control]; rfl
  · rw [ends.control]; rfl
  · rw [ends.recorder]; rfl
  · rw [ends.recorder]; exact event
  · rw [ends.writer, ends.engine, ends.groups, writerU, engineU, groupsU, writer, journal, sequence]
    exact ⟨rfl, rfl, rfl, rfl, rfl, rfl, rfl, rfl, rfl, rfl⟩

/-- The writer's knowledge with a layout copy complete (R100). -/
def layoutKnown (w : ControlWriter) (c : CopyWrite) (l : Layout) : ControlWriter :=
  { w with newestLayout := some c.target, layoutGeneration := c.generation, storedImage := some l, copyWrite := none }

theorem copyLineWritten_layoutLast {s : State} {w : CopyWrite} {l : Layout} (copy : s.writer.copyWrite = some w)
    (content : w.content = .layout l) (last : w.written = 15) :
    copyLineWritten s = s.setWriter (layoutKnown s.writer w l) := by
  have known : recordCopy s.writer w = layoutKnown s.writer w l := by
    unfold recordCopy
    rw [content]
    rfl
  unfold copyLineWritten
  rw [copy]
  dsimp only
  rw [last, known, content]
  rfl

/-- The sixteenth line completes STORE_LAYOUT (R103). -/
theorem storeLineWritten_last {s : State} {w : CopyWrite} {l : Layout} (copy : s.writer.copyWrite = some w)
    (content : w.content = .layout l) (last : w.written = 15) :
    storeLineWritten s = completeLong (s.setWriter (layoutKnown s.writer w l)) .done := by
  have complete := copyLineWritten_layoutLast copy content last
  unfold storeLineWritten
  rw [copy, complete]
  rfl

theorem storeLine_completes {took : LineData} {s : State} {op : ArrayOp} {n : Nat} {w : CopyWrite} {l : Layout}
    (powered : s.powered = true) (done : Completes s op) (mode : s.control.mode = .config)
    (requester : op.requester = .storeLayoutLine n) (copy : s.writer.copyWrite = some w)
    (content : w.content = .layout l) (last : w.written = 15) :
    ∃ t, exec (.arrayReady took) s = .next t ∧ t.control.mode = .config ∧ t.control.longCommand = none ∧
      t.control.lastResult = some .done ∧ t.recorder.pendingEvents.commandDone = true ∧
      t.writer.newestLayout = some w.target ∧ t.writer.layoutGeneration = w.generation ∧
      t.writer.storedImage = some l ∧ t.writer.copyWrite = none ∧
      t.writer.newestProgress = s.writer.newestProgress ∧ t.layout = s.layout ∧ NoIncident s t := by
  have next := exec_ends powered (.of_completes done) took
  rw [opCompleted_store requester] at next
  generalize (landStep s op took).mem = m at next
  rw [storeLineWritten_last (s := freed s m true) copy content last] at next
  generalize shape : (freed s m true).setWriter (layoutKnown (freed s m true).writer w l) = v at next
  have control : v.control = s.control := by rw [← shape]; rfl
  have writer : v.writer = layoutKnown s.writer w l := by rw [← shape]; rfl
  have layout : v.layout = s.layout := by rw [← shape]; rfl
  have recorder : v.recorder = s.recorder := by rw [← shape]; rfl
  have modeU : (completeLong v .done).control.mode = .config := (congrArg ModeController.mode control).trans mode
  have ends := settle_idle (serving_of_mode modeU (by decide)) (by simp [modeU])
  refine ⟨_, next, ?_, ?_, ?_, ?_, ?_⟩
  · rw [ends.control]; exact modeU
  · rw [ends.control]; rfl
  · rw [ends.control]; rfl
  · rw [ends.recorder]; rfl
  · rw [ends.writer, ends.layout]
    change v.writer.newestLayout = _ ∧ v.writer.layoutGeneration = _ ∧ v.writer.storedImage = _ ∧ v.writer.copyWrite = _ ∧
      v.writer.newestProgress = _ ∧ v.layout = _ ∧ _
    rw [writer, layout]
    exact ⟨rfl, rfl, rfl, rfl, rfl, rfl,
      (NoIncident.of_recorder (.refl s) recorder).trans ((completeLong_noIncident v .done).trans ends.noIncident)⟩

end Sys2Proof.Machine
end

section
/-! The end of recovery and the failures of the writer's and recovery's lines (R83, R101, R103, R128, R129, R133). -/

namespace Sys2Proof.Machine

/-! ## The end of recovery -/

/-- The second line of the final progress copy completes recovery (R128). -/
theorem recoveryLineWritten_last {s : State} {w : CopyWrite} {p : ProgressContent} {r : Recovery}
    (copy : s.writer.copyWrite = some w) (content : w.content = .progress p) (last : w.written = 1)
    (recovers : s.recovery = some r) :
    recoveryLineWritten s false = recoveryComplete (s.setWriter (progressKnown s.writer w p)) r := by
  have recovers' : (s.setWriter (progressKnown s.writer w p)).recovery = some r := recovers
  unfold recoveryLineWritten
  rw [copyLineWritten_progressLast copy content last]
  refine (if_neg (by simp [progressKnown])).trans ?_
  dsimp only
  rw [if_neg (by decide), recovers']
  rfl

/-- What completed recovery leaves beside the command and the ready line (R100, R128). -/
structure Recovered (s t : State) : Prop where
  recovery : t.recovery = none
  event : t.recorder.pendingEvents.mode = true
  writer : t.writer = s.writer
  sequence : t.groups.nextSequence = s.writer.retiredThrough + 1
  noIncident : NoIncident s t
  powered : t.powered = s.powered

theorem Recovered.config {s u : State} (h : Recovered s u) (mode : u.control.mode = .config) :
    Recovered s (settle u) ∧ (settle u).control = u.control := by
  have ends := settle_idle (serving_of_mode mode (by decide)) (by simp [mode])
  exact ⟨⟨ends.recovery.trans h.recovery, by rw [ends.recorder]; exact h.event, ends.writer.trans h.writer,
    by rw [ends.groups]; exact h.sequence, h.noIncident.trans ends.noIncident, ends.powered.trans h.powered⟩, ends.control⟩

theorem Recovered.run {s u : State} (h : Recovered s u) (mode : u.control.mode = .run)
    (quiet : u.control.configRequest = false) :
    Recovered s (settle u) ∧ (settle u).control.mode = .run ∧
      (settle u).control.haltCause = u.control.haltCause ∧
      (u.control.longCommand = none → (settle u).control = u.control ∧ (settle u).recorder = u.recorder) := by
  have works : arbiterWorks u := (arbiterWorks_iff u).mpr (.inl (by simp [serving, mode]))
  have waits : HandoverWaits u := fun request => by simp [quiet] at request
  have settles := settle_settles works waits
  have kept := settle_served works
  refine ⟨⟨?_, settles.event.trans h.event, settles.writer.trans h.writer, ?_, h.noIncident.trans settles.incidents, ?_⟩,
    settles.mode.trans mode, settles.haltCause, fun idle => settle_flush_waits works waits (.inl (by simp [idle]))⟩
  · exact (congrArg Served.recovery kept).trans h.recovery
  · exact (congrArg Served.nextSequence kept).trans h.sequence
  · exact (congrArg Served.powered kept).trans h.powered

/-- Recovery's end in a mode, with the halt cause `cause` (R128). -/
theorem endRecovery_recovered {s : State} {m : Mode} (mode : s.control.mode = .recovering) (other : m ≠ .recovering) :
    Recovered s (endRecovery s m) ∧ (endRecovery s m).control = { s.control with mode := m } := by
  rw [endRecovery_of_ne (fun same => other (same.symm.trans mode))]
  exact ⟨⟨rfl, rfl, rfl, rfl, ⟨rfl, rfl, rfl⟩, rfl⟩, rfl⟩

theorem Recovered.setControl {s t : State} (h : Recovered s t) (v : ModeController) : Recovered s (t.setControl v) :=
  ⟨h.recovery, h.event, h.writer, h.sequence, h.noIncident, h.powered⟩

theorem Recovered.completeLong {s t : State} (h : Recovered s t) (r : LongResult) : Recovered s (completeLong t r) :=
  ⟨h.recovery, h.event, h.writer, h.sequence, h.noIncident, h.powered⟩

/-- The outcomes of recovery after its final progress copy (R117, R128). -/
theorem recoveryComplete_recovered {s : State} {r : Recovery} (mode : s.control.mode = .recovering)
    (quiet : s.control.configRequest = false) (powered : s.powered = true) :
    Recovered s (settle (recoveryComplete s r)) ∧
      (r.path = .command → LongCompleted (settle (recoveryComplete s r)) .done) ∧
      (r.path = .command ∨ s.layout.settings.autoRun = 1 → (settle (recoveryComplete s r)).control.mode = .run ∧
        (settle (recoveryComplete s r)).control.haltCause = none ∧ readyOut (settle (recoveryComplete s r)) = true) ∧
      (r.path = .start → s.layout.settings.autoRun ≠ 1 → (settle (recoveryComplete s r)).control.mode = .config ∧
        readyOut (settle (recoveryComplete s r)) = false) := by
  have ready : ∀ t, Recovered s t → readyOut t = serving t := fun t h => by
    rw [readyOut, h.powered, powered, Bool.true_and]
  obtain ⟨runs, control⟩ := endRecovery_recovered (m := .run) mode (by decide)
  cases path : r.path with
  | command =>
    have complete : recoveryComplete s r = completeLong ((endRecovery s .run).setControl
        { (endRecovery s .run).control with haltCause := none }) .done := by
      unfold recoveryComplete
      rw [path]
    have runs := (runs.setControl { (endRecovery s .run).control with haltCause := none }).completeLong .done
    rw [control] at runs
    rw [complete, control]
    generalize shape : Machine.completeLong _ _ = u at runs
    have controlU : u.control =
        { s.control with mode := .run, haltCause := none, longCommand := none, lastResult := some .done } := by
      rw [← shape]
      rfl
    have event : u.recorder.pendingEvents.commandDone = true := by rw [← shape]; rfl
    obtain ⟨recovered, modeT, halt, kept⟩ := runs.run (by rw [controlU]) (by rw [controlU]; exact quiet)
    obtain ⟨controlT, recorderT⟩ := kept (by rw [controlU])
    refine ⟨recovered, fun _ => ⟨?_, ?_, ?_⟩, fun _ => ⟨modeT, by rw [halt, controlU], ?_⟩, by simp⟩
    · rw [controlT, controlU]
    · rw [controlT, controlU]
    · rw [recorderT]; exact event
    · rw [ready _ recovered, serving, modeT]
      rfl
  | start =>
    by_cases auto : s.layout.settings.autoRun = 1
    · have complete : recoveryComplete s r = (endRecovery s .run).setControl
          { (endRecovery s .run).control with haltCause := none } := by
        unfold recoveryComplete
        rw [path]
        exact if_pos (by simp [auto])
      have runs := runs.setControl { (endRecovery s .run).control with haltCause := none }
      rw [control] at runs
      rw [complete, control]
      generalize shape : State.setControl _ _ = u at runs
      have controlU : u.control = { s.control with mode := .run, haltCause := none } := by rw [← shape]; rfl
      obtain ⟨recovered, modeT, halt, -⟩ := runs.run (by rw [controlU]) (by rw [controlU]; exact quiet)
      refine ⟨recovered, by simp, fun _ => ⟨modeT, by rw [halt, controlU], ?_⟩, fun _ differs => absurd auto differs⟩
      rw [ready _ recovered, serving, modeT]
      rfl
    · have complete : recoveryComplete s r = endRecovery s .config := by
        unfold recoveryComplete
        rw [path]
        exact if_neg (by rw [beq_iff_eq]; exact auto)
      obtain ⟨stops, controlC⟩ := endRecovery_recovered (m := .config) mode (by decide)
      have modeC : (endRecovery s .config).control.mode = .config := by rw [controlC]
      obtain ⟨recovered, controlT⟩ := stops.config modeC
      rw [complete]
      refine ⟨recovered, by simp, fun either => ?_, fun _ _ => ⟨by rw [controlT, modeC], ?_⟩⟩
      · rcases either with command | auto'
        · cases command
        · exact absurd auto' auto
      · rw [ready _ recovered, serving, controlT, modeC]
        rfl

theorem finalRecoveryLine_completes {took : LineData} {s : State} {op : ArrayOp} {q : Seq} {n : Nat} {r : Recovery}
    {w : CopyWrite} {p : ProgressContent} (powered : s.powered = true) (done : Completes s op)
    (mode : s.control.mode = .recovering) (quiet : s.control.configRequest = false) (recovers : s.recovery = some r)
    (requester : op.requester = .recoveryProgress q false n) (copy : s.writer.copyWrite = some w)
    (content : w.content = .progress p) (last : w.written = 1) :
    ∃ t, exec (.arrayReady took) s = .next t ∧ t.recovery = none ∧ t.recorder.pendingEvents.mode = true ∧
      t.writer.newestProgress = some w.target ∧ t.writer.progressGeneration = w.generation ∧
      t.writer.retiredThrough = p.retiredThrough ∧ t.writer.copyWrite = none ∧
      t.groups.nextSequence = p.retiredThrough + 1 ∧ NoIncident s t ∧
      (r.path = .command → t.control.longCommand = none ∧ t.control.lastResult = some .done ∧
        t.recorder.pendingEvents.commandDone = true) ∧
      (r.path = .command ∨ s.layout.settings.autoRun = 1 →
        t.control.mode = .run ∧ t.control.haltCause = none ∧ readyOut t = true) ∧
      (r.path = .start → s.layout.settings.autoRun ≠ 1 → t.control.mode = .config ∧ readyOut t = false) := by
  have next := exec_ends powered (.of_completes done) took
  rw [opCompleted_recovery requester] at next
  generalize (landStep s op took).mem = m at next
  rw [recoveryLineWritten_last (s := freed s m true) copy content last recovers] at next
  have recovered := recoveryComplete_recovered (s := (freed s m true).setWriter (progressKnown s.writer w p)) (r := r)
    mode quiet powered
  obtain ⟨ends, command, run, config⟩ := recovered
  have writer := ends.writer
  exact ⟨_, next, ends.recovery, ends.event, congrArg ControlWriter.newestProgress writer,
    congrArg ControlWriter.progressGeneration writer, congrArg ControlWriter.retiredThrough writer,
    congrArg ControlWriter.copyWrite writer, ends.sequence, (NoIncident.refl s).trans ends.noIncident, command, run, config⟩

/-! ## Failures outside RUN and HALTED -/

/-- The details with which a line of the writer or of recovery fails have no setting, and outside RUN and HALTED their
reaction is RECORD (R157). -/
theorem reactionTaken_writer {s : State} {d : Detail} (idle : serving s = false)
    (detail : stallsGroup d = true ∨ d = .d417) : reactionTaken s d = .record := by
  have fixed : reactionInForce s d = .halt ∨ reactionInForce s d = .record := by
    rcases detail with stalls | rfl
    · exact .inl (reactionInForce_stalls stalls s)
    · exact .inr rfl
  unfold reactionTaken
  rcases fixed with halt | record
  · simp [halt, idle]
  · simp [record]

/-- Such a failure is recorded, and nothing else happens. -/
theorem reportIncident_writer {s : State} {r : Report} (idle : serving s = false)
    (detail : stallsGroup r.detail = true ∨ r.detail = .d417) :
    Accounted s (reportIncident s r) ∧ Records s (reportIncident s r) r .record := by
  have taken := reactionTaken_writer idle detail
  have records := recordIncident_records s r
  have plain : reportIncident s r = recordIncident s r := by
    unfold reportIncident
    rw [taken]
    rfl
  rw [taken] at records
  rw [plain]
  exact ⟨recordIncident_accounted s r, records⟩

/-- The end of a failed command in CONFIG or UNFORMATTED (R103, R133). -/
structure CommandFails (s t : State) (r : Report) : Prop where
  result : LongCompleted t .failed
  mode : t.control.mode = s.control.mode
  layout : t.layout = s.layout
  writer : t.writer = s.writer
  records : Records s t r .record

theorem reportIncident_commandFails {s : State} {r : Report}
    (mode : s.control.mode = .config ∨ s.control.mode = .unformatted) (detail : stallsGroup r.detail = true) :
    CommandFails s (settle (completeLong (reportIncident s r) .failed)) r := by
  have idle : serving s = false := by rcases mode with mode | mode <;> simp [serving, mode]
  obtain ⟨accounted, records⟩ := reportIncident_writer idle (.inl detail)
  have control := accounted.control
  have layout := accounted.layout
  have writer := accounted.writer
  generalize reportIncident s r = u at records control layout writer
  have modeU : (completeLong u .failed).control.mode = s.control.mode := by
    rw [completeLong_mode, control]
  have ends := settle_idle (s := completeLong u .failed)
    (by rw [serving, modeU]; exact idle)
    (by rw [modeU]; rcases mode with mode | mode <;> simp [mode])
  refine ⟨⟨?_, ?_, ?_⟩, ?_, ends.layout.trans layout, ends.writer.trans writer, ?_⟩
  · rw [ends.control]; rfl
  · rw [ends.control]; rfl
  · rw [ends.recorder]; rfl
  · rw [ends.control]; exact modeU
  · exact (records.noIncident (completeLong_noIncident u .failed)).noIncident ends.noIncident

theorem CommandFails.seenFrom {s u t : State} {r : Report} (h : CommandFails u t r) (control : u.control = s.control)
    (recorder : u.recorder = s.recorder) (layout : u.layout = s.layout) :
    LongCompleted t .failed ∧ t.control.mode = s.control.mode ∧ t.layout = s.layout ∧ t.writer = u.writer ∧
      Records s t r .record :=
  ⟨h.result, by rw [h.mode, control], h.layout.trans layout, h.writer,
    Records.of_noIncident (.of_recorder (.refl s) recorder) (by rw [recorder]) h.records⟩

theorem detail_stalls (f : Failure) :
    stallsGroup (f.detail .d414 .d424) = true ∧ stallsGroup (f.detail .d415 .d425) = true ∧
      stallsGroup (f.detail .d416 .d426) = true := by
  cases f
  · exact ⟨rfl, rfl, rfl⟩
  · exact ⟨rfl, rfl, rfl⟩

theorem storeLine_fails {c : Instr} {f : Failure} {s : State} {op : ArrayOp} {n : Nat} {w : CopyWrite}
    (powered : s.powered = true) (fails : FailsWith s op c f) (busy : s.port.op = some op)
    (mode : s.control.mode = .config) (requester : op.requester = .storeLayoutLine n)
    (copy : s.writer.copyWrite = some w) :
    ∃ t, exec c s = .next t ∧ LongCompleted t .failed ∧ t.control.mode = .config ∧ t.layout = s.layout ∧
      t.writer = { s.writer with copyWrite := none } ∧
      Records s t (writerReport (f.detail .d416 .d426) op.line n) .record ∧
      (s.mem.wf = true → ChangesTheCopy s op → CopyNotValid t.mem op.line) := by
  obtain ⟨m, ready, next, -⟩ := exec_fails powered busy fails (by simp [mode])
  have outcome : opFailed (freed s m ready) op f = completeLong (reportIncident (endCopyWrite (freed s m ready))
      (writerReport (f.detail .d416 .d426) op.line n)) .failed := by
    rw [opFailed_store requester, storeLineFailed, freed_writer, copy]
  rw [outcome] at next
  obtain ⟨result, modeT, layout, writer, records⟩ := (reportIncident_commandFails (s := endCopyWrite (freed s m ready))
    (r := writerReport (f.detail .d416 .d426) op.line n) (.inl mode) (detail_stalls f).2.2).seenFrom (s := s) rfl rfl rfl
  exact ⟨_, next, result, modeT.trans mode, layout, writer, records, fun wf changes => failure_notValid powered busy fails
    next (.inr (by simp [mode])) wf (.inr (.inl ⟨n, requester⟩)) changes⟩

theorem formatLine_fails {c : Instr} {f : Failure} {s : State} {op : ArrayOp} {n : Nat} {k : FormatWork}
    (powered : s.powered = true) (fails : FailsWith s op c f) (busy : s.port.op = some op)
    (mode : s.control.mode = .config ∨ s.control.mode = .unformatted) (requester : op.requester = .formatLine n)
    (work : s.writer.format = some k) :
    ∃ t, exec c s = .next t ∧ LongCompleted t .failed ∧ t.control.mode = s.control.mode ∧
      t.writer = { s.writer with format := none } ∧
      Records s t (writerReport (if n = 2 ∨ n = 3 then f.detail .d414 .d424 else f.detail .d416 .d426) op.line n)
        .record ∧
      (4 ≤ n → s.mem.wf = true → ChangesTheCopy s op → CopyNotValid t.mem op.line) := by
  have outside : s.control.mode ≠ .shutdown := by rcases mode with mode | mode <;> simp [mode]
  have stalls : stallsGroup (if n = 2 ∨ n = 3 then f.detail .d414 .d424 else f.detail .d416 .d426) = true := by
    split
    · exact (detail_stalls f).1
    · exact (detail_stalls f).2.2
  obtain ⟨m, ready, next, -⟩ := exec_fails powered busy fails outside
  have outcome : opFailed (freed s m ready) op f = completeLong
      (reportIncident ((freed s m ready).setWriter { s.writer with format := none })
        (writerReport (if n = 2 ∨ n = 3 then f.detail .d414 .d424 else f.detail .d416 .d426) op.line n)) .failed := by
    rw [opFailed_format requester, formatLineFailed, freed_writer, work]
  rw [outcome] at next
  obtain ⟨result, modeT, -, writer, records⟩ := (reportIncident_commandFails
    (s := (freed s m ready).setWriter { s.writer with format := none })
    (r := writerReport (if n = 2 ∨ n = 3 then f.detail .d414 .d424 else f.detail .d416 .d426) op.line n) mode
    stalls).seenFrom (s := s) rfl rfl rfl
  exact ⟨_, next, result, modeT, writer, records, fun inCopies wf changes => failure_notValid powered busy fails next
    (.inr outside) wf (.inr (.inr (.inr (.inr ⟨n, requester, inCopies⟩)))) changes⟩

/-! ## Recovery fails -/

/-- The operations of recovery and what each records when it fails (R83, R129). -/
def RecoveryOp (op : ArrayOp) (q : Seq) (n : Nat) (f : Failure) (d : Detail) : Prop :=
  (op.requester = .scanRead q n ∧ f = .timeout ∧ d = .d417) ∨
    (op.requester = .replayWrite q n ∧ d = f.detail .d415 .d425) ∨
    ((∃ replay, op.requester = .recoveryProgress q replay n) ∧ d = f.detail .d416 .d426)

theorem opFailed_recovers {s : State} {op : ArrayOp} {q : Seq} {n : Nat} {f : Failure} {d : Detail}
    (kind : RecoveryOp op q n f d) : opFailed s op f = recoveryOpFailed s (recoveryReport d q op.line n) := by
  rcases kind with ⟨requester, rfl, rfl⟩ | ⟨requester, rfl⟩ | ⟨⟨replay, requester⟩, rfl⟩
  · unfold opFailed
    rw [requester]
  · unfold opFailed
    rw [requester]
    dsimp only
    rw [failureDetail_eq]
  · unfold opFailed
    rw [requester]
    dsimp only
    rw [failureDetail_eq]

theorem RecoveryOp.detail {op : ArrayOp} {q : Seq} {n : Nat} {f : Failure} {d : Detail} (kind : RecoveryOp op q n f d) :
    stallsGroup d = true ∨ d = .d417 := by
  rcases kind with ⟨-, -, rfl⟩ | ⟨-, rfl⟩ | ⟨-, rfl⟩
  · exact .inr rfl
  · exact .inl (detail_stalls f).2.1
  · exact .inl (detail_stalls f).2.2

/-- Recovery has failed: CONFIG, and on path COMMAND the command FAILED (R117, R129). -/
structure RecoveryFailed (s t : State) (path : RecoveryPath) : Prop where
  recovery : t.recovery = none
  mode : t.control.mode = .config
  event : t.recorder.pendingEvents.mode = true
  ready : readyOut t = false
  sequence : t.groups.nextSequence = s.writer.retiredThrough + 1
  engine : t.engine = s.engine
  writer : t.writer = { s.writer with copyWrite := none }
  noIncident : NoIncident s t
  command : path = .command → LongCompleted t .failed
  start : path = .start →
    t.control.longCommand = s.control.longCommand ∧ t.control.lastResult = s.control.lastResult

theorem RecoveryFailed.settled {s u : State} {path : RecoveryPath} (h : RecoveryFailed s u path) :
    RecoveryFailed s (settle u) path := by
  have idle : serving u = false := serving_of_mode h.mode (by decide)
  have ends := settle_idle idle (by simp [h.mode])
  refine ⟨ends.recovery.trans h.recovery, by rw [ends.control]; exact h.mode, by rw [ends.recorder]; exact h.event, ?_,
    by rw [ends.groups]; exact h.sequence, ends.engine.trans h.engine, ends.writer.trans h.writer,
    h.noIncident.trans ends.noIncident, ?_, ?_⟩
  · rw [readyOut, serving, ends.control]
    exact (congrArg ((settle u).powered && ·) idle).trans (Bool.and_false _)
  · intro command
    rw [LongCompleted, ends.control, ends.recorder]
    exact h.command command
  · intro start
    rw [ends.control]
    exact h.start start

theorem readyOut_config {s : State} (mode : s.control.mode = .config) : readyOut s = false := by
  simp [readyOut, serving, mode]

/-- On path COMMAND the command completes FAILED besides (R117). -/
theorem RecoveryFailed.completed {s u : State} (h : RecoveryFailed s u .start) :
    RecoveryFailed s (completeLong u .failed) .command :=
  ⟨h.recovery, h.mode, h.event, h.ready, h.sequence, h.engine, h.writer,
    h.noIncident.trans (completeLong_noIncident u .failed), fun _ => ⟨rfl, rfl, rfl⟩, by simp⟩

theorem recoveryFails_failed {s : State} (mode : s.control.mode = .recovering) :
    ∀ path, RecoveryFailed s (recoveryFails s path) path := by
  have start : RecoveryFailed s (recoveryFails s .start) .start := by
    rw [recoveryFails_start (by simp [mode])]
    exact ⟨rfl, rfl, rfl, readyOut_config rfl, rfl, rfl, rfl, ⟨rfl, rfl, rfl⟩, by simp, fun _ => ⟨rfl, rfl⟩⟩
  intro path
  cases path with
  | start => exact start
  | command => exact start.completed

theorem recovery_fails {c : Instr} {f : Failure} {s : State} {op : ArrayOp} {n : Nat} {r : Recovery} {q : Seq}
    {d : Detail} (powered : s.powered = true) (fails : FailsWith s op c f) (busy : s.port.op = some op)
    (mode : s.control.mode = .recovering) (recovers : s.recovery = some r) (kind : RecoveryOp op q n f d) :
    ∃ t, exec c s = .next t ∧ Records s t (recoveryReport d q op.line n) .record ∧ t.recovery = none ∧
      t.control.mode = .config ∧ t.recorder.pendingEvents.mode = true ∧ readyOut t = false ∧
      t.groups.nextSequence = s.writer.retiredThrough + 1 ∧ t.engine.journalPending = s.engine.journalPending ∧
      t.writer = { s.writer with copyWrite := none } ∧
      ((∃ replay, op.requester = .recoveryProgress q replay n) → s.mem.wf = true → ChangesTheCopy s op →
        CopyNotValid t.mem op.line) ∧
      (r.path = .command → LongCompleted t .failed) ∧
      (r.path = .start → t.control.longCommand = s.control.longCommand ∧
        t.control.lastResult = s.control.lastResult) := by
  have outside : s.control.mode ≠ .shutdown := by simp [mode]
  obtain ⟨m, ready, next, -⟩ := exec_fails powered busy fails outside
  obtain ⟨accounted, records⟩ := reportIncident_writer (s := freed s m ready) (r := recoveryReport d q op.line n)
    (serving_of_mode mode (by decide)) kind.detail
  have outcome : opFailed (freed s m ready) op f =
      recoveryFails (reportIncident (freed s m ready) (recoveryReport d q op.line n)) r.path := by
    rw [opFailed_recovers kind, recoveryOpFailed, accounted.recovery, freed_recovery, recovers]
  rw [outcome] at next
  have control := accounted.control
  have writer := accounted.writer
  have engine := accounted.engine
  rw [freed_control] at control
  rw [freed_writer] at writer
  rw [freed_engine] at engine
  generalize reportIncident (freed s m ready) (recoveryReport d q op.line n) = u at *
  have failed := (recoveryFails_failed (s := u) (by rw [control]; exact mode) r.path).settled
  refine ⟨_, next, freed_records (records.noIncident failed.noIncident), failed.recovery, failed.mode, failed.event,
    failed.ready, ?_, ?_, ?_, ?_, failed.command, ?_⟩
  · rw [failed.sequence, writer]
  · rw [failed.engine, engine]
  · rw [failed.writer, writer]
  · rintro ⟨replay, requester⟩ wf changes
    exact failure_notValid powered busy fails next (.inr outside) wf (.inr (.inr (.inl ⟨q, replay, n, requester⟩)))
      changes
  · intro start
    rw [← control]
    exact failed.start start

/-- Settles O26: a line before the last is followed by the next, the last completes the work, a failed line ends it. -/
theorem fortiethLineCompletesFormat : Obligations.FortiethLineCompletesFormat := by
  refine ⟨?format, ?lines, ?store, ?recovery, ?failures⟩
  case format =>
    intro took s op f n powered done _ requester work last
    exact formatLine_completes powered done requester work last
  case lines =>
    intro took s op n powered done noAccess mode
    exact ⟨fun f requester work early => formatLine_continues powered done noAccess mode requester work early,
      fun w l requester noFormat long copy content early =>
        storeLine_continues powered done noAccess mode requester noFormat long copy content early⟩
  case store =>
    intro took s op n w l powered done mode requester copy content last
    exact storeLine_completes powered done mode requester copy content last
  case recovery =>
    intro took s op q n r w p powered done mode quiet recovers requester copy content last
    exact finalRecoveryLine_completes powered done mode quiet recovers requester copy content last
  case failures =>
    intro c f s op n powered fails busy writerReport
    exact ⟨fun w mode requester copy => storeLine_fails powered fails busy mode requester copy,
      fun k mode requester work => formatLine_fails powered fails busy mode requester work,
      fun r q d mode recovers kind => recovery_fails powered fails busy mode recovers kind⟩

end Sys2Proof.Machine
end

section
/-! The journal records byte by byte: what the journal engine builds and what the scan tests (R42 to R45, R125, R126). -/

namespace Sys2Proof.Machine

/-! ## Bytes of lines and records -/

theorem bytesOf_line (x : LineData) :
    bytesOf 8 x = [byteOf x 0, byteOf x 1, byteOf x 2, byteOf x 3, byteOf x 4, byteOf x 5, byteOf x 6, byteOf x 7] := rfl

theorem recordBytes_first (r : JournalRecord) {n : Nat} (inside : n < 8) :
    (recordBytes r)[n]? = some (byteOf r.first n) := by
  rw [recordBytes, bytesOf_line, bytesOf_line]
  interval_cases n <;> rfl

theorem recordBytes_second (r : JournalRecord) {n : Nat} (inside : n < 8) :
    (recordBytes r)[8 + n]? = some (byteOf r.second n) := by
  rw [recordBytes, bytesOf_line, bytesOf_line]
  interval_cases n <;> rfl

/-- The check byte goes over every byte but itself (R43). -/
theorem lineRecordCheck_eq (r : JournalRecord) : lineRecordCheck r = xorBytes ((recordBytes r).eraseIdx 7) := by
  have before : bytesOf 7 (r.first.extractLsb' 8 56) = (bytesOf 8 r.first).take 7 := by
    have piece : ∀ k, k ≤ 48 → (r.first.extractLsb' 8 56).extractLsb' k 8 = r.first.extractLsb' (k + 8) 8 := by
      intro k low
      apply BitVec.eq_of_getLsbD_eq
      intro b inside
      have inner : k + b < 56 := by omega
      simp only [BitVec.getLsbD_extractLsb', inside, inner, decide_true, Bool.true_and]
      congr 1
      omega
    rw [bytesOf_line]
    simp [bytesOf, List.range_succ, piece, byteOf]
  rw [lineRecordCheck, before, recordBytes, bytesOf_line, bytesOf_line]
  rfl

/-! ## The records that the journal engine builds -/

/-- Bytes 0 to 6 of a line record (R43). -/
def lineHead (q : Seq) (i : Nat) (e : Entry) : BitVec 56 :=
  0x31#8 ++ q.setWidth 8 ++ e.valid ++ BitVec.ofNat 8 i ++ e.line.setWidth 24

theorem zeros_line (line : LineNo) : (0#3 ++ line : BitVec 24) = line.setWidth 24 := by
  apply BitVec.eq_of_getLsbD_eq
  intro b inside
  rw [BitVec.getLsbD_append, BitVec.getLsbD_setWidth]
  by_cases low : b < 21
  · simp [low, inside]
  · simp [low, BitVec.getLsbD_of_ge _ _ (Nat.le_of_not_lt low)]

theorem bytesOf_lineHead (q : Seq) (i : Nat) (e : Entry) :
    bytesOf 7 (lineHead q i e) =
      [0x31, q.setWidth 8, e.valid, BitVec.ofNat 8 i] ++ bytesOf 3 (e.line.setWidth 24) := by
  have listed : ∀ x : BitVec 56, bytesOf 7 x = [x.extractLsb' 48 8, x.extractLsb' 40 8, x.extractLsb' 32 8,
      x.extractLsb' 24 8, x.extractLsb' 16 8, x.extractLsb' 8 8, x.extractLsb' 0 8] := fun _ => rfl
  rw [listed]
  simp (disch := omega) only [lineHead, extract_append_high, extract_append_low, extract_whole]
  rfl

/-- The check byte of a line record (R43). -/
def lineCheck (q : Seq) (i : Nat) (e : Entry) : Byte :=
  xorBytes (bytesOf 7 (lineHead q i e) ++ bytesOf 8 e.data)

theorem lineRecord_eq (q : Seq) (i : Nat) (e : Entry) :
    lineRecord q i e = { first := lineHead q i e ++ lineCheck q i e, second := e.data } := by
  have head : (0x31#8 ++ q.setWidth 8 ++ e.valid ++ BitVec.ofNat 8 i ++ (0#3 ++ e.line) : BitVec 56) = lineHead q i e := by
    rw [zeros_line]
    rfl
  have check : lineRecordCheck { first := lineHead q i e ++ 0#8, second := e.data } = lineCheck q i e := by
    rw [lineRecordCheck, lineCheck, extract_append_high _ _ (by omega), extract_whole _ (by omega)]
  unfold lineRecord
  rw [head]
  dsimp only
  rw [check]

theorem bytesOf_snoc (head : BitVec 56) (last : Byte) : bytesOf 8 (head ++ last) = bytesOf 7 head ++ [last] := by
  rw [show bytesOf 8 (head ++ last) = [(head ++ last).extractLsb' 56 8, (head ++ last).extractLsb' 48 8,
    (head ++ last).extractLsb' 40 8, (head ++ last).extractLsb' 32 8, (head ++ last).extractLsb' 24 8,
    (head ++ last).extractLsb' 16 8, (head ++ last).extractLsb' 8 8, (head ++ last).extractLsb' 0 8] from rfl]
  simp (disch := omega) only [extract_append_high, extract_append_low, extract_whole]
  rfl

theorem recordBytes_lineRecord (q : Seq) (i : Nat) (e : Entry) :
    recordBytes (lineRecord q i e) = bytesOf 7 (lineHead q i e) ++ [lineCheck q i e] ++ bytesOf 8 e.data := by
  rw [lineRecord_eq, recordBytes, bytesOf_snoc]

theorem recordBytes_commitRecord (q : Seq) (n : Nat) (cause : Option CloseCause) (check : BitVec 32) :
    recordBytes (commitRecord q n cause check) =
      [0x3C, q.setWidth 8, BitVec.ofNat 8 n, causeByte cause] ++ bytesOf 4 q ++ bytesOf 4 check ++ bytesOf 4 (~~~q) := by
  have four : ∀ x : BitVec 32, bytesOf 4 x =
      [x.extractLsb' 24 8, x.extractLsb' 16 8, x.extractLsb' 8 8, x.extractLsb' 0 8] := fun _ => rfl
  rw [recordBytes, bytesOf_line, bytesOf_line, four, four, four]
  simp (disch := omega) only [commitRecord, byteOf, extract_append_high, extract_append_low, extract_whole]
  rfl

/-! ## What the scan tests (R125, R126) -/

theorem acceptsLineRecord_iff (sought : Seq) (j : Nat) (code : BitVec 8) (r : JournalRecord) :
    acceptsLineRecord sought j code r = true ↔
      byteOf r.first 0 = 0x31 ∧ byteOf r.first 1 = sought.setWidth 8 ∧ byteOf r.first 3 = BitVec.ofNat 8 j ∧
        byteOf r.first 7 = xorBytes ((recordBytes r).eraseIdx 7) ∧ byteOf r.first 2 ≠ 0 ∧
        (r.first.extractLsb' 8 24).toNat < 8192 * 2 ^ code.toNat := by
  rw [← lineRecordCheck_eq]
  simp only [acceptsLineRecord, Bool.and_eq_true, beq_iff_eq, bne_iff_ne, decide_eq_true_eq, and_assoc]
  exact Iff.rfl

theorem sealedCommit_iff (sought : Seq) (n : Nat) (running : BitVec 32) (r : JournalRecord) :
    sealedCommit sought n running r = true ↔
      byteOf r.first 0 = 0x3C ∧ r.first.extractLsb' 0 32 = sought ∧ byteOf r.first 1 = sought.setWidth 8 ∧
        r.second.extractLsb' 0 32 = ~~~sought ∧ byteOf r.first 2 = BitVec.ofNat 8 n ∧ 1 ≤ n ∧
        r.second.extractLsb' 32 32 = ~~~running := by
  simp only [sealedCommit, Bool.and_eq_true, beq_iff_eq, decide_eq_true_eq, and_assoc]
  constructor
  · rintro ⟨kind, sequence, rest⟩
    rw [sequence] at rest
    exact ⟨kind, sequence, rest⟩
  · rintro ⟨kind, sequence, rest⟩
    rw [sequence]
    exact ⟨kind, rfl, rest⟩

theorem ofNat_byte_inj {i j : Nat} (hi : i < 256) (hj : j < 256) : BitVec.ofNat 8 i = BitVec.ofNat 8 j ↔ i = j := by
  constructor
  · intro same
    have values := congrArg BitVec.toNat same
    rw [BitVec.toNat_ofNat, BitVec.toNat_ofNat, Nat.mod_eq_of_lt hi, Nat.mod_eq_of_lt hj] at values
    exact values
  · exact congrArg _

/-- The fields of a line record at their places (R43). -/
theorem lineRecord_fields (q : Seq) (i : Nat) (e : Entry) :
    byteOf (lineRecord q i e).first 0 = 0x31 ∧ byteOf (lineRecord q i e).first 1 = q.setWidth 8 ∧
      byteOf (lineRecord q i e).first 2 = e.valid ∧ byteOf (lineRecord q i e).first 3 = BitVec.ofNat 8 i ∧
      byteOf (lineRecord q i e).first 7 = lineCheck q i e ∧
      (lineRecord q i e).first.extractLsb' 8 24 = e.line.setWidth 24 := by
  rw [lineRecord_eq]
  simp (disch := omega) only [lineHead, byteOf, extract_append_high, extract_append_low, extract_whole]
  exact ⟨rfl, trivial, trivial, trivial, trivial, trivial⟩

theorem lineRecordCheck_lineRecord (q : Seq) (i : Nat) (e : Entry) :
    lineRecordCheck (lineRecord q i e) = lineCheck q i e := by
  rw [lineRecord_eq, lineRecordCheck, lineCheck, extract_append_high _ _ (by omega), extract_whole _ (by omega)]

/-- The scan accepts a record of the engine for its sequence byte, at its index and for a line below capacity (R125). -/
theorem acceptsLineRecord_lineRecord {q sought : Seq} {i j : Nat} {code : BitVec 8} {e : Entry} (hi : i < 24)
    (hj : j < 24) (valid : e.valid ≠ 0) :
    acceptsLineRecord sought j code (lineRecord q i e) = true ↔
      sought.setWidth 8 = (q.setWidth 8 : Byte) ∧ j = i ∧ e.line.toNat < 8192 * 2 ^ code.toNat := by
  obtain ⟨kind, sequence, valids, index, check, line⟩ := lineRecord_fields q i e
  have lineNo : (e.line.setWidth 24).toNat = e.line.toNat := by
    rw [BitVec.toNat_setWidth]
    exact Nat.mod_eq_of_lt (by have := e.line.isLt; omega)
  rw [acceptsLineRecord_iff, ← lineRecordCheck_eq, lineRecordCheck_lineRecord, kind, sequence, valids, index, check, line,
    lineNo, ofNat_byte_inj (by omega) (by omega)]
  constructor
  · rintro ⟨-, same, place, -, -, below⟩
    exact ⟨same.symm, place.symm, below⟩
  · rintro ⟨same, place, below⟩
    exact ⟨rfl, same.symm, place.symm, rfl, valid, below⟩

/-- The scan finds the commit record of the records it has read, and none with another count (R45, R126). -/
theorem sealedCommit_commitRecord {q : Seq} {n found : Nat} {cause : Option CloseCause} {bytes : List Byte}
    (some : 1 ≤ n) (count : n ≤ 24) (read : found ≤ 24) :
    sealedCommit q found (crc32Update crc32Initial bytes) (commitRecord q n cause (crc32 bytes)) = true ↔ found = n := by
  have fields : byteOf (commitRecord q n cause (crc32 bytes)).first 0 = 0x3C ∧
      (commitRecord q n cause (crc32 bytes)).first.extractLsb' 0 32 = q ∧
      byteOf (commitRecord q n cause (crc32 bytes)).first 1 = q.setWidth 8 ∧
      byteOf (commitRecord q n cause (crc32 bytes)).first 2 = BitVec.ofNat 8 n ∧
      (commitRecord q n cause (crc32 bytes)).second.extractLsb' 0 32 = ~~~q ∧
      (commitRecord q n cause (crc32 bytes)).second.extractLsb' 32 32 = crc32 bytes := by
    simp (disch := omega) only [commitRecord, byteOf, extract_append_high, extract_append_low, extract_whole]
    exact ⟨rfl, trivial, trivial, trivial, trivial, trivial⟩
  obtain ⟨kind, sequence, byte, counted, complement, check⟩ := fields
  rw [sealedCommit_iff, kind, sequence, byte, counted, complement, check, ofNat_byte_inj (by omega) (by omega)]
  constructor
  · rintro ⟨-, -, -, -, same, -, -⟩
    exact same.symm
  · rintro rfl
    exact ⟨rfl, rfl, rfl, rfl, rfl, some, rfl⟩

/-- The formats and the tests of the records together (R42 to R45, R125, R126). -/
theorem lineRecord_bytes (q : Seq) (i : Nat) (e : Entry) :
    let head := [0x31, q.setWidth 8, e.valid, BitVec.ofNat 8 i] ++ bytesOf 3 (e.line.setWidth 24)
    recordBytes (lineRecord q i e) = head ++ [xorBytes (head ++ bytesOf 8 e.data)] ++ bytesOf 8 e.data := by
  intro head
  rw [recordBytes_lineRecord, lineCheck, bytesOf_lineHead]

end Sys2Proof.Machine
end

section
/-! The scan and the replay of recovery (R125 to R128). -/

namespace Sys2Proof.Machine

/-! ## The port while recovery works -/

/-- A free port takes recovery's next operation (R125, R127, R128). -/
theorem settle_recovering_starts {s : State} {r : Recovery} {op : ArrayOp} (mode : s.control.mode = .recovering)
    (recovers : s.recovery = some r) (free : s.port.op = none) (asks : recoveryOp s r = some op) :
    (settle s).port.op = some { op with presented := s.pins.arrayReady } := by
  rw [settle_of_recovering mode]
  generalize cleared : s.setPort { s.port with passOver := 0 } = u
  have freeU : u.port.op = none := by rw [← cleared]; exact free
  have modeU : u.control.mode = .recovering := by rw [← cleared]; exact mode
  have next : u.recovery.bind (recoveryOp u) = some op := by
    rw [← cleared]
    change s.recovery.bind _ = _
    rw [recovers]
    exact asks
  unfold drivePort
  rw [freeU]
  dsimp only
  rw [modeU]
  dsimp only
  rw [next]
  dsimp only
  rw [startOp_port, ← cleared]
  rfl

theorem recoveryOp_scan {s : State} {r : Recovery} (scan : r.stage = .scan) :
    ∃ o, recoveryOp s r = some o ∧ o.kind = .lineRead ∧
      o.line = journalHalfLine s.layout.settings.journalBase r.scanPosition
        (if r.firstLine.isNone then .first else .second) :=
  ⟨scanOp s r, recoveryOp_of_scan scan, rfl, rfl⟩

theorem recoveryOp_replay {s : State} {r : Recovery} {x : JournalRecord} (replay : r.stage = .replay)
    (record : r.records[r.replayIndex]? = some x) :
    ∃ o, recoveryOp s r = some o ∧ o.kind = .verifiedWrite ∧ o.line = (recordLine x).setWidth 21 ∧ o.data = x.second ∧
      o.enables = recordValid x := by
  unfold recoveryOp
  rw [replay]
  dsimp only
  rw [record]
  exact ⟨_, rfl, rfl, rfl, rfl, rfl⟩

/-! ## The final copy begins (R128) -/

/-- What recovery's final progress copy holds (R128). -/
def recoveryFinal (r : Recovery) (layout : Layout) (retired : Seq) : ProgressContent :=
  progressOf (if r.path = .command ∨ layout.settings.autoRun = 1 then .dirty else .clean) retired

theorem startFinalCopy_eq (s : State) (r : Recovery) :
    startFinalCopy s r = beginProgress (s.setRecovery (some { r with stage := .finalProgress }))
      (recoveryFinal r s.layout s.writer.retiredThrough) := by
  unfold startFinalCopy recoveryFinal
  simp only [Bool.or_eq_true, beq_iff_eq, State.setRecovery_writer]

/-! ## A line of the scan (R125, R126) -/

/-- The scan's state after a position whose record it accepts (R125). -/
def accepting (r : Recovery) (record : JournalRecord) : Recovery :=
  { r with
    records := r.records ++ [record], found := r.found + 1, scanPosition := r.scanPosition + 1
    runningCheck := crc32Update r.runningCheck (recordBytes record), firstLine := none }

/-- The incident of records found without their commit record (R126). -/
def unsealedReport (s : State) (r : Recovery) : Report :=
  { detail := .d570, sequence := some (r.base + 1), count := some (BitVec.ofNat 32 r.found)
    address := some s.layout.settings.journalBase }

theorem positionRead_accepted {s : State} {r : Recovery} {record : JournalRecord} (room : r.found < 24)
    (accepted : acceptsLineRecord (r.base + 1) r.scanPosition s.layout.settings.capacityCode record = true) :
    positionRead s r record = s.setRecovery (some (accepting r record)) :=
  if_pos (by rw [accepted, Bool.and_true]; exact decide_eq_true room)

theorem positionRead_judged {s : State} {r : Recovery} {record : JournalRecord}
    (other : ¬(r.found < 24 ∧
      acceptsLineRecord (r.base + 1) r.scanPosition s.layout.settings.capacityCode record = true)) :
    positionRead s r record = judgeCandidate s r record :=
  if_neg (by rw [Bool.and_eq_true, decide_eq_true_eq]; exact other)

theorem judgeCandidate_sealed {s : State} {r : Recovery} {record : JournalRecord}
    (sealedRecord : sealedCommit (r.base + 1) r.found r.runningCheck record = true) :
    judgeCandidate s r record =
      (setJournalPending s true).setRecovery (some { r with stage := .replay, firstLine := none }) :=
  if_pos sealedRecord

theorem judgeCandidate_unsealed {s : State} {r : Recovery} {record : JournalRecord}
    (other : ¬sealedCommit (r.base + 1) r.found r.runningCheck record = true) :
    judgeCandidate s r record =
      startFinalCopy (setJournalPending (if 1 ≤ r.found then recordIncident s (unsealedReport s r) else s) false)
        { r with firstLine := none } := by
  refine (if_neg other).trans ?_
  by_cases found : 1 ≤ r.found
  · rw [if_pos found, if_pos found]
    rfl
  · rw [if_neg found, if_neg found]

theorem opCompleted_scan {s : State} {op : ArrayOp} {q : Seq} {n : Nat} (requester : op.requester = .scanRead q n)
    (data : LineData) : opCompleted s op data = scanLineRead s data := by
  unfold opCompleted
  rw [requester]

theorem scanLineRead_first {s : State} {r : Recovery} (recovers : s.recovery = some r) (first : r.firstLine = none)
    (data : LineData) : scanLineRead s data = s.setRecovery (some { r with firstLine := some data }) := by
  unfold scanLineRead
  rw [recovers]
  dsimp only
  rw [first]

theorem scanLineRead_second {s : State} {r : Recovery} {l : LineData} (recovers : s.recovery = some r)
    (second : r.firstLine = some l) (data : LineData) :
    scanLineRead s data = positionRead s r { first := l, second := data } := by
  unfold scanLineRead
  rw [recovers]
  dsimp only
  rw [second]

/-- A free port in RECOVERING, with the recovery `r` (R124). -/
structure Recovers (s : State) (r : Recovery) : Prop where
  mode : s.control.mode = .recovering
  recovery : s.recovery = some r
  free : s.port.op = none

theorem Recovers.settles {s : State} {r : Recovery} (h : Recovers s r) : IdleSettles s (settle s) :=
  settle_idle (serving_of_mode h.mode (by decide)) (by simp [h.mode])

/-- The scan goes on with the next line of the journal (R125). -/
theorem Recovers.scans {s : State} {r : Recovery} (h : Recovers s r) (scan : r.stage = .scan) :
    (settle s).recovery = some r ∧ NoIncident s (settle s) ∧ ∃ o, (settle s).port.op = some o ∧ o.kind = .lineRead ∧
      o.line = journalHalfLine s.layout.settings.journalBase r.scanPosition
        (if r.firstLine.isNone then .first else .second) := by
  obtain ⟨o, asks, kind, line⟩ := recoveryOp_scan (s := s) scan
  exact ⟨h.settles.recovery.trans h.recovery, h.settles.noIncident, _,
    settle_recovering_starts h.mode h.recovery h.free asks, kind, line⟩

/-- The replay goes on with the record at its index (R127). -/
theorem Recovers.replays {s : State} {r : Recovery} (h : Recovers s r) (replay : r.stage = .replay) :
    (settle s).recovery = some r ∧ NoIncident s (settle s) ∧ ∀ x, r.records[r.replayIndex]? = some x →
      ∃ o, (settle s).port.op = some o ∧ o.kind = .verifiedWrite ∧ o.line = (recordLine x).setWidth 21 ∧
        o.data = x.second ∧ o.enables = recordValid x := by
  refine ⟨h.settles.recovery.trans h.recovery, h.settles.noIncident, fun x record => ?_⟩
  obtain ⟨o, asks, fields⟩ := recoveryOp_replay (s := s) replay record
  exact ⟨_, settle_recovering_starts h.mode h.recovery h.free asks, fields⟩

/-- The final copy has begun at the end of the handling (R128). -/
theorem startFinalCopy_settled {s v : State} {r : Recovery} (mode : v.control.mode = .recovering)
    (writer : v.writer = s.writer) (layout : v.layout = s.layout) :
    (settle (startFinalCopy v r)).recovery = some { r with stage := .finalProgress } ∧
      CopyBegun s (settle (startFinalCopy v r)) (recoveryFinal r s.layout s.writer.retiredThrough) ∧
      IdleSettles (startFinalCopy v r) (settle (startFinalCopy v r)) := by
  have begun : CopyBegun s (startFinalCopy v r) (recoveryFinal r s.layout s.writer.retiredThrough) := by
    rw [startFinalCopy_eq, writer, layout]
    exact beginProgress_begun writer
  have modeU : (startFinalCopy v r).control.mode = .recovering := by rw [startFinalCopy_eq]; exact mode
  have recovery : (startFinalCopy v r).recovery = some { r with stage := .finalProgress } := by rw [startFinalCopy_eq]; rfl
  have ends := settle_idle (serving_of_mode modeU (by decide)) (by simp [modeU])
  exact ⟨ends.recovery.trans recovery, begun.seen ends.writer, ends⟩

/-- What the unsealed end of the scan leaves (R126, R128). -/
theorem judgeCandidate_settled {s : State} {r : Recovery} {record : JournalRecord} (mode : s.control.mode = .recovering)
    (other : ¬sealedCommit (r.base + 1) r.found r.runningCheck record = true) :
    let t := settle (judgeCandidate s r record)
    t.control = s.control ∧ t.engine.journalPending = false ∧
      t.recovery = some { r with stage := .finalProgress, firstLine := none } ∧
      CopyBegun s t (recoveryFinal r s.layout s.writer.retiredThrough) ∧ (r.found = 0 → NoIncident s t) ∧
      (1 ≤ r.found → Records s t (unsealedReport s r) .none) := by
  intro t
  have recorded := recordIncident_accounted s (unsealedReport s r)
  have records := recordIncident_records s (unsealedReport s r)
  rw [reactionTaken_notice (d := (unsealedReport s r).detail) rfl] at records
  have reported : Accounted s (if 1 ≤ r.found then recordIncident s (unsealedReport s r) else s) :=
    .ite recorded (.refl s)
  have same : r.found = 0 → (if 1 ≤ r.found then recordIncident s (unsealedReport s r) else s) = s :=
    fun zero => if_neg (by omega)
  have one : 1 ≤ r.found →
      (if 1 ≤ r.found then recordIncident s (unsealedReport s r) else s) = recordIncident s (unsealedReport s r) :=
    fun found => if_pos found
  have unsealed := judgeCandidate_unsealed (s := s) other
  generalize (if 1 ≤ r.found then recordIncident s (unsealedReport s r) else s) = v at reported same one unsealed
  have ended := startFinalCopy_settled (s := s) (v := setJournalPending v false) (r := { r with firstLine := none })
    (by rw [setJournalPending, State.setEngine_control, reported.control]; exact mode) reported.writer reported.layout
  rw [← unsealed] at ended
  obtain ⟨recovery, begun, ends⟩ := ended
  have quiet : NoIncident v t := by
    refine NoIncident.trans ?_ ends.noIncident
    rw [unsealed, startFinalCopy_eq]
    exact ⟨rfl, rfl, rfl⟩
  refine ⟨?_, ?_, recovery, begun, fun zero => ?_, fun found => ?_⟩
  · rw [ends.control, unsealed, startFinalCopy_eq, ← reported.control]
    rfl
  · rw [ends.engine, unsealed, startFinalCopy_eq]
    rfl
  · rw [same zero] at quiet
    exact quiet
  · rw [one found] at quiet
    exact records.noIncident quiet

/-- One line of the scan, from the free port to the end of its handling (R125, R126). -/
theorem scanLine_settled {s : State} {r : Recovery} (h : Recovers s r) (scan : r.stage = .scan) (line : LineData) :
    let final := recoveryFinal r s.layout s.writer.retiredThrough
    let t := settle (scanLineRead s line)
    t.control = s.control ∧
      (r.firstLine = none → t.recovery = some { r with firstLine := some line } ∧ NoIncident s t ∧
        ∃ o, t.port.op = some o ∧ o.kind = .lineRead ∧
          o.line = lineOf s.layout.settings.journalBase + BitVec.ofNat 21 (2 * r.scanPosition) + 1) ∧
      ∀ l, r.firstLine = some l →
        let record : JournalRecord := { first := l, second := line }
        let accepted := r.found < 24 ∧
          acceptsLineRecord (r.base + 1) r.scanPosition s.layout.settings.capacityCode record = true
        let isSealed := sealedCommit (r.base + 1) r.found r.runningCheck record = true
        (accepted → NoIncident s t ∧ t.engine.journalPending = s.engine.journalPending ∧
          t.recovery = some (accepting r record) ∧
          ∃ o, t.port.op = some o ∧ o.kind = .lineRead ∧
            o.line = lineOf s.layout.settings.journalBase + BitVec.ofNat 21 (2 * (r.scanPosition + 1))) ∧
        (¬accepted → isSealed → NoIncident s t ∧ t.engine.journalPending = true ∧
          t.recovery = some { r with stage := .replay, firstLine := none } ∧
          ∀ x, r.records[r.replayIndex]? = some x →
            ∃ o, t.port.op = some o ∧ o.kind = .verifiedWrite ∧ o.line = (recordLine x).setWidth 21 ∧
              o.data = x.second ∧ o.enables = recordValid x) ∧
        (¬accepted → ¬isSealed → t.engine.journalPending = false ∧
          t.recovery = some { r with stage := .finalProgress, firstLine := none } ∧ CopyBegun s t final ∧
          (r.found = 0 → NoIncident s t) ∧ (1 ≤ r.found → Records s t (unsealedReport s r) .none)) := by
  intro final t
  have ⟨mode, recovers, free⟩ := h
  cases first : r.firstLine with
  | none =>
    have next : Recovers (scanLineRead s line) { r with firstLine := some line } := by
      rw [scanLineRead_first recovers first]
      exact ⟨mode, rfl, free⟩
    have kept : (scanLineRead s line).control = s.control ∧ NoIncident s (scanLineRead s line) ∧
        (scanLineRead s line).layout = s.layout := by
      rw [scanLineRead_first recovers first]
      exact ⟨rfl, .refl s, rfl⟩
    obtain ⟨recovery, quiet, o, port, kind, place⟩ := next.scans scan
    refine ⟨next.settles.control.trans kept.1, fun _ => ⟨recovery, kept.2.1.trans quiet, o, port, kind, ?_⟩, by simp⟩
    rw [place, kept.2.2]
    rfl
  | some l =>
    have reads := scanLineRead_second recovers first line
    by_cases accepted : r.found < 24 ∧ acceptsLineRecord (r.base + 1) r.scanPosition s.layout.settings.capacityCode
        { first := l, second := line } = true
    · rw [positionRead_accepted accepted.1 accepted.2] at reads
      have next : Recovers (scanLineRead s line) (accepting r { first := l, second := line }) := by
        rw [reads]
        exact ⟨mode, rfl, free⟩
      have kept : (scanLineRead s line).control = s.control ∧ NoIncident s (scanLineRead s line) ∧
          (scanLineRead s line).engine = s.engine ∧ (scanLineRead s line).layout = s.layout := by
        rw [reads]
        exact ⟨rfl, .refl s, rfl, rfl⟩
      obtain ⟨control, noIncident, engine, layout⟩ := kept
      obtain ⟨recovery, quiet, o, port, kind, place⟩ := next.scans scan
      refine ⟨next.settles.control.trans control, by simp, ?_⟩
      rintro l' ⟨⟩
      refine ⟨fun _ => ⟨noIncident.trans quiet, by rw [next.settles.engine, engine], recovery, o, port, kind, ?_⟩,
        fun other => absurd accepted other, fun other => absurd accepted other⟩
      rw [place, layout]
      rfl
    · rw [positionRead_judged accepted] at reads
      by_cases found : sealedCommit (r.base + 1) r.found r.runningCheck { first := l, second := line } = true
      · rw [judgeCandidate_sealed found] at reads
        have next : Recovers (scanLineRead s line) { r with stage := .replay, firstLine := none } := by
          rw [reads]
          exact ⟨mode, rfl, free⟩
        have kept : (scanLineRead s line).control = s.control ∧ NoIncident s (scanLineRead s line) ∧
            (scanLineRead s line).engine.journalPending = true := by
          rw [reads]
          exact ⟨rfl, ⟨rfl, rfl, rfl⟩, rfl⟩
        obtain ⟨control, noIncident, journal⟩ := kept
        obtain ⟨recovery, quiet, replays⟩ := next.replays rfl
        refine ⟨next.settles.control.trans control, by simp, ?_⟩
        rintro l' ⟨⟩
        exact ⟨fun other => absurd other accepted,
          fun _ _ => ⟨noIncident.trans quiet, by rw [next.settles.engine, journal], recovery, replays⟩,
          fun _ other => absurd found other⟩
      · obtain ⟨control, rest⟩ := judgeCandidate_settled (s := s) mode found
        rw [← reads] at control rest
        refine ⟨control, by simp, ?_⟩
        rintro l' ⟨⟩
        exact ⟨fun other => absurd other accepted, fun _ other => absurd other found, fun _ _ => rest⟩

/-! ## The replay (R127) -/

theorem opCompleted_replay {s : State} {op : ArrayOp} {q : Seq} {n : Nat} (requester : op.requester = .replayWrite q n)
    (data : LineData) : opCompleted s op data = replayWritten s := by
  unfold opCompleted
  rw [requester]

/-- The incident of a group that recovery has replayed (R127). -/
def replayedReport (r : Recovery) : Report :=
  { detail := .d560, sequence := some (r.base + 1), count := some (BitVec.ofNat 32 r.found) }

theorem replayWritten_eq {s : State} {r : Recovery} (recovers : s.recovery = some r) :
    replayWritten s =
      if r.replayIndex + 1 < r.found then s.setRecovery (some { r with replayIndex := r.replayIndex + 1 })
      else beginProgress ((recordIncident s (replayedReport r)).setRecovery
        (some { r with replayIndex := r.replayIndex + 1, stage := .replayProgress })) (progressOf .dirty (r.base + 1)) := by
  unfold replayWritten
  rw [recovers]
  rfl

theorem replayWritten_settled {s : State} {r : Recovery} (h : Recovers s r) :
    let t := settle (replayWritten s)
    t.control = s.control ∧
      (r.replayIndex + 1 < r.found → NoIncident s t ∧
        t.recovery = some { r with replayIndex := r.replayIndex + 1 }) ∧
      (r.found ≤ r.replayIndex + 1 →
        t.recovery = some { r with replayIndex := r.replayIndex + 1, stage := .replayProgress } ∧
        CopyBegun s t (progressOf .dirty (r.base + 1)) ∧ Records s t (replayedReport r) .none) := by
  intro t
  have ⟨mode, recovers, free⟩ := h
  have written := replayWritten_eq recovers
  by_cases more : r.replayIndex + 1 < r.found
  · rw [if_pos more] at written
    have next : Recovers (replayWritten s) { r with replayIndex := r.replayIndex + 1 } := by
      rw [written]
      exact ⟨mode, rfl, free⟩
    have kept : (replayWritten s).control = s.control ∧ NoIncident s (replayWritten s) := by
      rw [written]
      exact ⟨rfl, .refl s⟩
    exact ⟨next.settles.control.trans kept.1,
      fun _ => ⟨kept.2.trans next.settles.noIncident, next.settles.recovery.trans next.recovery⟩,
      fun done => absurd more (by omega)⟩
  · rw [if_neg more] at written
    have recorded := recordIncident_accounted s (replayedReport r)
    have records := recordIncident_records s (replayedReport r)
    rw [reactionTaken_notice (d := (replayedReport r).detail) rfl] at records
    generalize recordIncident s (replayedReport r) = v at recorded records written
    have begun : CopyBegun s (replayWritten s) (progressOf .dirty (r.base + 1)) := by
      rw [written]
      exact beginProgress_begun recorded.writer
    have control : (replayWritten s).control = s.control := by
      rw [written, ← recorded.control]
      rfl
    have recovery : (replayWritten s).recovery =
        some { r with replayIndex := r.replayIndex + 1, stage := .replayProgress } := by
      rw [written]
      rfl
    have quiet : NoIncident v (replayWritten s) := by
      rw [written]
      exact ⟨rfl, rfl, rfl⟩
    have modeU : (replayWritten s).control.mode = .recovering := by rw [control]; exact mode
    have ends := settle_idle (serving_of_mode modeU (by decide)) (by simp [modeU])
    exact ⟨ends.control.trans control, fun other => absurd other more, fun _ => ⟨ends.recovery.trans recovery,
      begun.seen ends.writer, records.noIncident (quiet.trans ends.noIncident)⟩⟩

/-- The second line of the copy that retires a replayed group begins the final copy (R127, R128). -/
theorem recoveryLineWritten_retired {s : State} {w : CopyWrite} {p : ProgressContent} {r : Recovery}
    (copy : s.writer.copyWrite = some w) (content : w.content = .progress p) (last : w.written = 1)
    (recovers : s.recovery = some r) :
    recoveryLineWritten s true =
      startFinalCopy (setJournalPending (s.setWriter (progressKnown s.writer w p)) false) r := by
  have recovers' : (setJournalPending (s.setWriter (progressKnown s.writer w p)) false).recovery = some r := recovers
  unfold recoveryLineWritten
  rw [copyLineWritten_progressLast copy content last]
  refine (if_neg (by simp [progressKnown])).trans ?_
  dsimp only
  rw [if_pos rfl, recovers']
  rfl

theorem recoveryLineWritten_retired_settled {s : State} {r : Recovery} {w : CopyWrite} {p : ProgressContent}
    (h : Recovers s r) (copy : s.writer.copyWrite = some w) (content : w.content = .progress p) (last : w.written = 1) :
    let t := settle (recoveryLineWritten s true)
    ∃ v, t.control = s.control ∧ NoIncident s t ∧ t.engine.journalPending = false ∧
      t.writer.newestProgress = some w.target ∧ t.writer.progressGeneration = w.generation ∧
      t.writer.retiredThrough = p.retiredThrough ∧ t.recovery = some { r with stage := .finalProgress } ∧
      t.writer.copyWrite = some v ∧ v.target ≠ w.target ∧ v.generation = w.generation + 1 ∧ v.written = 0 ∧
      v.content = .progress (recoveryFinal r s.layout p.retiredThrough) := by
  intro t
  have written := recoveryLineWritten_retired copy content last h.recovery
  generalize shape : setJournalPending (s.setWriter (progressKnown s.writer w p)) false = x at written
  have control : x.control = s.control := by rw [← shape]; rfl
  have layout : x.layout = s.layout := by rw [← shape]; rfl
  have writer : x.writer = progressKnown s.writer w p := by rw [← shape]; rfl
  have journal : x.engine.journalPending = false := by rw [← shape]; rfl
  have recorder : x.recorder = s.recorder := by rw [← shape]; rfl
  obtain ⟨recovery, begun, ends⟩ := startFinalCopy_settled (s := x) (v := x) (r := r)
    (by rw [control]; exact h.mode) rfl rfl
  rw [← written] at recovery begun ends
  obtain ⟨v, copyT, contentT, writtenT, target, generation⟩ := begun
  have known : t.writer = { x.writer with copyWrite := some v } := by
    have same : t.writer = { x.writer with copyWrite := t.writer.copyWrite } := by
      rw [ends.writer, written, startFinalCopy_eq]
      rfl
    rw [same, copyT]
  rw [writer] at target generation contentT
  refine ⟨v, ?_, ?_, ?_, ?_, ?_, ?_, recovery, copyT, fun same => target (congrArg some same), generation, writtenT, ?_⟩
  · rw [ends.control, written, startFinalCopy_eq, ← control]
    rfl
  · refine NoIncident.trans (.of_recorder (.refl s) ?_) ends.noIncident
    rw [written, startFinalCopy_eq, ← recorder]
    rfl
  · rw [ends.engine, written, startFinalCopy_eq, ← journal]
    rfl
  · rw [known, writer]; rfl
  · rw [known, writer]; rfl
  · rw [known, writer]; rfl
  · rw [contentT, layout]
    rfl

/-- Settles O59: the formats of the records, the tests of the scan, and the steps of scan and replay. -/
theorem journalRecordsAreFoundAgain : Obligations.JournalRecordsAreFoundAgain := by
  refine ⟨lineRecord_bytes, fun q n cause check => ?commit, journalHalfLine_eq, fun r => ?tests, ?found, ?sealed, ?scan,
    ?replay⟩
  case commit =>
    rw [recordBytes_commitRecord]
    rcases cause with _ | cause
    · rfl
    · cases cause <;> rfl
  case tests =>
    exact ⟨fun n inside => recordBytes_first r inside, fun n inside => recordBytes_second r inside,
      fun sought j code => acceptsLineRecord_iff sought j code r,
      fun sought n running => sealedCommit_iff sought n running r⟩
  case found =>
    intro q sought i j code e hi hj valid
    obtain ⟨-, -, valids, -, -, line⟩ := lineRecord_fields q i e
    exact ⟨acceptsLineRecord_lineRecord hi hj valid, line, valids, by rw [lineRecord_eq]⟩
  case sealed =>
    intro q n found cause records some count read bytes
    exact sealedCommit_commitRecord some count read
  case scan =>
    intro took s op r q n powered done kind mode recovers scan requester line final
    have next := exec_lineRead powered done kind took
    rw [opCompleted_scan requester] at next
    exact ⟨_, next, scanLine_settled (s := freed s s.mem true) ⟨mode, recovers, rfl⟩ scan line⟩
  case replay =>
    intro took s op r q n powered done mode recovers
    have next := exec_ends powered (.of_completes done) took
    generalize (landStep s op took).mem = m at next
    have free : Recovers (freed s m true) r := ⟨mode, recovers, rfl⟩
    refine ⟨fun requester _ => ?_, fun w p requester copy content last => ?_⟩
    · rw [opCompleted_replay requester] at next
      exact ⟨_, next, replayWritten_settled free⟩
    · rw [opCompleted_recovery requester] at next
      obtain ⟨v, outcome⟩ := recoveryLineWritten_retired_settled free copy content last
      exact ⟨_, v, next, outcome⟩

end Sys2Proof.Machine
end

section
/-! The end of SHUTDOWN: an operation that times out, and the last line of the final progress copy (R83, R139, R140, R143). -/

namespace Sys2Proof.Machine

/-! ## Incidents in SHUTDOWN -/

/-- In SHUTDOWN an incident is recorded with RECORD, and nothing else happens (R140, log 15). -/
theorem reportIncident_shutdown {s : State} {r : Report} (mode : s.control.mode = .shutdown)
    (incident : isNotice r.detail = false) : reportIncident s r = recordIncident s r := by
  unfold reportIncident
  rw [reactionTaken_shutdown mode incident]
  rfl

/-- Every incident that is new in `t` shows RECORD. -/
def ShowsRecord (s t : State) : Prop :=
  ∀ x ∈ t.recorder.incidents.drop s.recorder.incidents.length, x.reaction = .record

theorem recordIncident_showsRecord {s : State} {r : Report} (taken : reactionTaken s r.detail = .record) :
    ShowsRecord s (recordIncident s r) := by
  unfold ShowsRecord
  rw [recordIncident_incidents, taken]
  split
  · rw [List.drop_left]
    intro x among
    rw [List.mem_singleton.mp among]
  · rw [List.drop_length]
    exact fun x among => absurd among (List.not_mem_nil)

theorem NoIncident.showsRecord {s t : State} (h : NoIncident s t) : ShowsRecord s t := by
  unfold ShowsRecord
  rw [h.1, List.drop_length]
  exact fun x among => absurd among (List.not_mem_nil)

theorem ShowsRecord.noIncident {s t u : State} (h : ShowsRecord s t) (k : NoIncident t u) : ShowsRecord s u := by
  unfold ShowsRecord
  rw [k.1]
  exact h

/-! ## What an outcome in SHUTDOWN leaves -/

/-- What the outcome of an operation in SHUTDOWN leaves for the sequence to end with. -/
structure Left (s t : State) : Prop where
  mode : t.control.mode = s.control.mode
  pins : t.pins = s.pins
  port : t.port = s.port
  newest : t.writer.newestProgress = s.writer.newestProgress
  retired : t.writer.retiredThrough = s.writer.retiredThrough
  journal : t.engine.journalPending = s.engine.journalPending
  table : t.groups.table = s.groups.table

theorem Left.refl (s : State) : Left s s := ⟨rfl, rfl, rfl, rfl, rfl, rfl, rfl⟩

theorem Left.trans {s t u : State} (h : Left s t) (k : Left t u) : Left s u :=
  ⟨k.mode.trans h.mode, k.pins.trans h.pins, k.port.trans h.port, k.newest.trans h.newest, k.retired.trans h.retired,
    k.journal.trans h.journal, k.table.trans h.table⟩

theorem recordIncident_left (s : State) (r : Report) : Left s (recordIncident s r) := ⟨rfl, rfl, rfl, rfl, rfl, rfl, rfl⟩

theorem completeLong_left (s : State) (r : LongResult) : Left s (completeLong s r) := ⟨rfl, rfl, rfl, rfl, rfl, rfl, rfl⟩

/-- A state before the report of a failure, with the recorder as it was. -/
structure BeforeReport (s w : State) : Prop where
  left : Left s w
  recorder : w.recorder = s.recorder

theorem BeforeReport.refl (s : State) : BeforeReport s s := ⟨.refl s, rfl⟩

theorem removeDrained_before (s : State) (k : Fin 32) : BeforeReport s (removeDrained s k true) := by
  cases found : drainedEntry s k with
  | none =>
    rw [removeDrained_of_gone found]
    exact .refl s
  | some e =>
    rw [removeDrained_of_found found]
    exact ⟨⟨rfl, rfl, rfl, rfl, rfl, rfl, rfl⟩, rfl⟩

theorem endCopyWrite_before (s : State) : BeforeReport s (endCopyWrite s) := ⟨⟨rfl, rfl, rfl, rfl, rfl, rfl, rfl⟩, rfl⟩

/-- What the failure `u` of an operation in SHUTDOWN is: the report `r`, at most with a command's end (R119, R140). -/
structure Reports (s u : State) (r : Report) : Prop where
  left : Left s u
  records : Records s u r .record
  shown : ShowsRecord s u

theorem BeforeReport.reports {s w : State} (h : BeforeReport s w) (mode : s.control.mode = .shutdown) {r : Report}
    (incident : isNotice r.detail = false) : Reports s (reportIncident w r) r := by
  have modeW : w.control.mode = .shutdown := h.left.mode.trans mode
  have records := recordIncident_records w r
  have shown := recordIncident_showsRecord (reactionTaken_shutdown modeW incident)
  rw [reactionTaken_shutdown modeW incident] at records
  rw [reportIncident_shutdown modeW incident]
  refine ⟨h.left.trans (recordIncident_left w r), ?_, ?_⟩
  · exact Records.of_noIncident (.of_recorder (.refl s) h.recorder) (by rw [h.recorder]) records
  · unfold ShowsRecord at shown ⊢
    rw [← h.recorder]
    exact shown

theorem Reports.completeLong {s u : State} {r : Report} (h : Reports s u r) (x : LongResult) :
    Reports s (completeLong u x) r :=
  ⟨h.left.trans (completeLong_left u x), h.records.noIncident (completeLong_noIncident u x),
    h.shown.noIncident (completeLong_noIncident u x)⟩

/-! ## The failure of each requester's operation in SHUTDOWN -/

theorem storeLineFailed_reports {s : State} (mode : s.control.mode = .shutdown) {r : Report}
    (incident : isNotice r.detail = false) : Reports s (storeLineFailed s r) r := by
  unfold storeLineFailed
  split
  · exact (BeforeReport.refl s).reports mode incident
  · exact ((endCopyWrite_before s).reports mode incident).completeLong .failed

theorem formatLineFailed_reports {s : State} (mode : s.control.mode = .shutdown) {r : Report}
    (incident : isNotice r.detail = false) : Reports s (formatLineFailed s r) r := by
  have cut : BeforeReport s (s.setWriter { s.writer with format := none }) := ⟨⟨rfl, rfl, rfl, rfl, rfl, rfl, rfl⟩, rfl⟩
  unfold formatLineFailed
  split
  · exact (BeforeReport.refl s).reports mode incident
  · exact (cut.reports mode incident).completeLong .failed

theorem startReadFailed_reports {s : State} (mode : s.control.mode = .shutdown) (line : LineNo) (n : Nat) :
    Reports s (startReadFailed s line n) (writerReport .d417 line n) := by
  have reports := (BeforeReport.refl s).reports mode (r := writerReport .d417 line n) rfl
  have still : (reportIncident s (writerReport .d417 line n)).control.mode ≠ .starting := by
    rw [reports.left.mode, mode]
    decide
  unfold startReadFailed
  dsimp only
  rw [if_neg still]
  exact reports

theorem recoveryOpFailed_reports {s : State} (mode : s.control.mode = .shutdown) (stopped : s.recovery = none)
    {r : Report} (incident : isNotice r.detail = false) : Reports s (recoveryOpFailed s r) r := by
  have reports := (BeforeReport.refl s).reports mode incident
  have still : (reportIncident s r).recovery = none := by
    rw [reportIncident_shutdown mode incident]
    exact stopped
  unfold recoveryOpFailed
  dsimp only
  rw [still]
  exact reports

theorem commitFailed_shutdown {s : State} (mode : s.control.mode = .shutdown) (r : Report) :
    commitFailed s r = reportIncident s r := if_pos mode

theorem throughFailed_reports {s : State} (mode : s.control.mode = .shutdown) (a : Access) (w : Option WindowIndex) :
    Reports s (throughFailed s .timeout a w) (accessReport .d412 a w) := by
  have refused : BeforeReport s (if (operationHeld s).isSome then finishAccess s .refuse else s) := by
    split
    · exact ⟨⟨rfl, rfl, rfl, rfl, rfl, rfl, rfl⟩, rfl⟩
    · exact .refl s
  exact refused.reports mode rfl

/-- Every operation but a controller's read reports its timeout in SHUTDOWN (R74, R83, R140). -/
theorem opFailed_reports {s : State} {op : ArrayOp} (mode : s.control.mode = .shutdown) (stopped : s.recovery = none)
    (other : ∀ a w, op.requester ≠ .controllerRead a w) :
    ∃ r, timeoutReport s op = some r ∧ Reports s (opFailed s op .timeout) r := by
  have here := BeforeReport.refl s
  unfold timeoutReport opFailed
  cases requester : op.requester with
  | controllerRead a w => exact absurd requester (other a w)
  | throughWrite a w => exact ⟨_, rfl, throughFailed_reports mode a w⟩
  | postedDrain k w i => exact ⟨_, rfl, (removeDrained_before s k).reports mode rfl⟩
  | shutdownDrain k w i => exact ⟨_, rfl, (removeDrained_before s k).reports mode rfl⟩
  | journalRecord =>
    refine ⟨_, rfl, ?_⟩
    dsimp only
    rw [commitFailed_shutdown mode]
    exact here.reports mode rfl
  | inPlaceWrite k w i =>
    have before : BeforeReport s (setEntryState s k .ready) := ⟨⟨rfl, rfl, rfl, rfl, rfl, rfl, rfl⟩, rfl⟩
    refine ⟨_, rfl, ?_⟩
    dsimp only [inPlaceFailed]
    rw [commitFailed_shutdown (s := setEntryState s k .ready) mode]
    exact before.reports mode rfl
  | retiringProgress =>
    refine ⟨_, rfl, ?_⟩
    dsimp only
    rw [commitFailed_shutdown (s := endCopyWrite s) mode]
    exact (endCopyWrite_before s).reports mode rfl
  | storeLayoutLine n => exact ⟨_, rfl, storeLineFailed_reports mode rfl⟩
  | formatLine n =>
    have detail : (if formatLineInJournal n = true then failureDetail .timeout .d414 .d424
        else failureDetail .timeout .d416 .d426) = if n = 2 ∨ n = 3 then Detail.d414 else .d416 := by
      simp only [formatLineInJournal, Bool.or_eq_true, beq_iff_eq, failureDetail]
    refine ⟨_, rfl, ?_⟩
    dsimp only
    rw [detail]
    refine formatLineFailed_reports mode ?_
    split
    · rfl
    · rfl
  | startRead n => exact ⟨_, rfl, startReadFailed_reports mode op.line n⟩
  | scanRead q n => exact ⟨_, rfl, recoveryOpFailed_reports mode stopped rfl⟩
  | replayWrite q n => exact ⟨_, rfl, recoveryOpFailed_reports mode stopped rfl⟩
  | recoveryProgress q replay n => exact ⟨_, rfl, recoveryOpFailed_reports mode stopped rfl⟩
  | shutdownRecord => exact ⟨_, rfl, here.reports mode rfl⟩
  | shutdownProgress n => exact ⟨_, rfl, (endCopyWrite_before s).reports mode rfl⟩

/-- A controller's read that times out is refused with RECORD while it is held, and else passes over (R74). -/
theorem opFailed_read_shutdown {s : State} {op : ArrayOp} {a : Access} {w : Option WindowIndex}
    (mode : s.control.mode = .shutdown) (requester : op.requester = .controllerRead a w) :
    Left s (opFailed s op .timeout) ∧ ShowsRecord s (opFailed s op .timeout) ∧
      (s.access.held = none → NoIncident s (opFailed s op .timeout)) := by
  rw [opFailed_read requester]
  cases held : s.access.held with
  | none =>
    rw [readFailed_idle held]
    exact ⟨.refl s, (NoIncident.refl s).showsRecord, fun _ => .refl s⟩
  | some h =>
    have refused : BeforeReport s (finishAccess s .refuse) := ⟨⟨rfl, rfl, rfl, rfl, rfl, rfl, rfl⟩, rfl⟩
    have reports := refused.reports mode (r := accessReport .d411 a w) rfl
    unfold readFailed
    split
    · exact ⟨reports.left, reports.shown, by simp⟩
    · exact ⟨.refl s, (NoIncident.refl s).showsRecord, by simp⟩

/-- What a failed operation leaves in SHUTDOWN (R83, R140). -/
structure FailedInShutdown (s u : State) (op : ArrayOp) : Prop where
  left : Left s u
  shown : ShowsRecord s u
  records : ∀ r, timeoutReport s op = some r → Records s u r .record
  quiet : timeoutReport s op = none → s.access.held = none → NoIncident s u

theorem opFailed_failed {s : State} {op : ArrayOp} (mode : s.control.mode = .shutdown) (stopped : s.recovery = none) :
    FailedInShutdown s (opFailed s op .timeout) op := by
  by_cases read : ∃ a w, op.requester = .controllerRead a w
  · obtain ⟨a, w, requester⟩ := read
    obtain ⟨left, shown, quiet⟩ := opFailed_read_shutdown mode requester
    have none : timeoutReport s op = .none := by
      unfold timeoutReport
      rw [requester]
    exact ⟨left, shown, fun r some => by simp [none] at some, fun _ => quiet⟩
  · obtain ⟨r, reported, reports⟩ := opFailed_reports mode stopped fun a w requester => read ⟨a, w, requester⟩
    refine ⟨reports.left, reports.shown, fun r' same => ?_, fun none => by simp [reported] at none⟩
    cases reported.symm.trans same
    exact reports.records

/-- The entry of a failed drain write is removed (R16). -/
theorem opFailed_drain_queue {s : State} {op : ArrayOp} {k : Fin 32} {w : WindowIndex} {i : Initiator} {e : Entry}
    (mode : s.control.mode = .shutdown)
    (requester : op.requester = .postedDrain k w i ∨ op.requester = .shutdownDrain k w i) (entry : e ∈ s.queue.entries)
    (slot : e.slot = k) (posted : e.group = none) (writing : e.state = .writing) :
    (opFailed s op .timeout).queue.entries = s.queue.entries.filter (fun x => decide (x.slot ≠ k)) := by
  have modeW : (removeDrained s k true).control.mode = .shutdown := (removeDrained_mode s k true).trans mode
  have outcome : opFailed s op .timeout = reportIncident (removeDrained s k true) (drainReport .d413 op.line w i) := by
    unfold opFailed
    rcases requester with requester | requester
    · rw [requester]
      rfl
    · rw [requester]
  have found : ∃ x, drainedEntry s k = some x := by
    cases found : drainedEntry s k with
    | some x => exact ⟨x, rfl⟩
    | none => exact absurd (List.find?_eq_none.mp found e entry) (by simp [slot, posted, writing])
  obtain ⟨x, found⟩ := found
  rw [outcome, reportIncident_shutdown modeW rfl, removeDrained_of_found found]
  exact queueWithout_entries s.queue x k true

/-- The entry of a failed in-place write is READY again (R54). -/
theorem opFailed_inPlace_queue {s : State} {op : ArrayOp} {k : Fin 32} {w : WindowIndex} {i : Initiator}
    (mode : s.control.mode = .shutdown) (requester : op.requester = .inPlaceWrite k w i) :
    (opFailed s op .timeout).queue.entries =
      s.queue.entries.map (fun e => if e.slot = k then { e with state := .ready } else e) := by
  have modeW : (setEntryState s k .ready).control.mode = .shutdown := mode
  rw [opFailed_inPlace requester, commitFailed_shutdown modeW, reportIncident_shutdown modeW rfl]
  exact List.map_congr_left fun e _ => by simp

/-! ## The sequence ends -/

/-- What the end of the sequence in ENDED leaves at the end of its handling (R58, R101, R143). -/
structure SequenceEnded (s t : State) : Prop where
  rests : EndedAtRest t
  noIncident : NoIncident s t
  writer : t.writer = { s.writer with copyWrite := none }
  journal : t.engine.journalPending = s.engine.journalPending
  table : t.groups.table = s.groups.table
  queue : t.queue = s.queue
  recorder : t.recorder.incidents = s.recorder.incidents

theorem endShutdown_low_ended {s : State} (mode : s.control.mode = .shutdown) (low : supplyGood s = false)
    (free : s.port.op = none) : SequenceEnded s (endShutdown s) := by
  have ended := endShutdown_ended mode low
  exact ⟨endShutdown_rests mode low free, endShutdown_noIncident mode low, ended.writer, by rw [ended.engine]; rfl,
    by rw [ended.groups], ended.queue, by rw [ended.recorder]⟩

theorem settle_endShutdown_low {s : State} (mode : s.control.mode = .shutdown) (low : supplyGood s = false)
    (free : s.port.op = none) : SequenceEnded s (settle (endShutdown s)) := by
  have ⟨rests, quiet, writer, journal, table, queue, recorder⟩ := endShutdown_low_ended mode low free
  rw [settle_of_shutdown_low mode low]
  exact ⟨⟨rests.mode, rests.event, rests.stage, free, rests.inCommit, rests.phase, rests.copyWrite⟩,
    quiet.trans ⟨rfl, rfl, rfl⟩, writer, journal, table, queue, recorder⟩

theorem supplyGood_congr {s t : State} (pins : t.pins = s.pins) : supplyGood t = supplyGood s := by
  rw [supplyGood, supplyGood, pins]

theorem timedOut_failed {s : State} {op : ArrayOp} (mode : s.control.mode = .shutdown) (stopped : s.recovery = none)
    (took : LineData) : FailedInShutdown (timedOut s op took) (opFailed (timedOut s op took) op .timeout) op :=
  opFailed_failed (s := timedOut s op took) mode stopped

/-- A timeout in SHUTDOWN ends the sequence after the failed operation (R83, R140). -/
theorem exec_arrayTimeout_shutdown {s : State} {op : ArrayOp} (powered : s.powered = true)
    (mode : s.control.mode = .shutdown) (busy : s.port.op = some op) (stopped : s.recovery = none) (took : LineData) :
    exec (.arrayTimeout took) s = .next (settle (endShutdown (opFailed (timedOut s op took) op .timeout))) := by
  have failed := timedOut_failed mode stopped took (op := op)
  rw [exec_arrayTimeout_busy powered busy, if_pos (failed.left.mode.trans mode)]

theorem timeout_ends {s : State} {op : ArrayOp} (powered : s.powered = true) (mode : s.control.mode = .shutdown)
    (busy : s.port.op = some op) (stopped : s.recovery = none) (took : LineData) :
    ∃ t, exec (.arrayTimeout took) s = .next t ∧
      (CopyRequester op.requester → s.mem.wf = true → ChangesTheCopy s op → CopyNotValid t.mem op.line) ∧
      (supplyGood s = false → EndedAtRest t ∧ t.writer.newestProgress = s.writer.newestProgress ∧
        t.writer.retiredThrough = s.writer.retiredThrough ∧ t.engine.journalPending = s.engine.journalPending ∧
        t.groups.table = s.groups.table ∧ ShowsRecord s t ∧
        (∀ r, timeoutReport s op = some r → Records s t r .record) ∧
        (timeoutReport s op = none → s.access.held = none → NoIncident s t) ∧
        (∀ k w i, op.requester = .postedDrain k w i ∨ op.requester = .shutdownDrain k w i →
          ∀ e ∈ s.queue.entries, e.slot = k → e.group = none → e.state = .writing →
            t.queue.entries = s.queue.entries.filter (fun x => decide (x.slot ≠ k))) ∧
        (∀ k w i, op.requester = .inPlaceWrite k w i → t.queue.entries =
          s.queue.entries.map (fun e => if e.slot = k then { e with state := .ready } else e))) ∧
      (supplyGood s = true → t.control.mode = .starting ∧ t.queue.entries = [] ∧ t.groups.table = [] ∧
        t.recorder.incidents = []) := by
  have next := exec_arrayTimeout_shutdown powered mode busy stopped took
  have ⟨left, shown, records, quiet⟩ := timedOut_failed mode stopped took (op := op)
  have modeV : (timedOut s op took).control.mode = .shutdown := mode
  have modeU := left.mode.trans modeV
  have pins : (opFailed (timedOut s op took) op .timeout).pins = s.pins := left.pins
  have supply := supplyGood_congr pins
  refine ⟨_, next, fun copy wf changes => failure_notValid powered busy (.inl ⟨took, rfl, rfl⟩) next (.inl rfl) wf copy
    changes, fun low => ?low, fun high => ?high⟩
  case low =>
    have ended := settle_endShutdown_low modeU (supply.trans low) (congrArg ArrayPort.op left.port)
    refine ⟨ended.rests, ?_, ?_, ended.journal.trans left.journal, ended.table.trans left.table,
      shown.noIncident ended.noIncident, fun r reported => freed_records ((records r reported).noIncident ended.noIncident),
      fun none idle => (freed_noIncident s _ _).trans ((quiet none idle).trans ended.noIncident), ?_, ?_⟩
    · rw [ended.writer]; exact left.newest
    · rw [ended.writer]; exact left.retired
    · intro k w i requester e entry slot posted writing
      rw [ended.queue]
      exact opFailed_drain_queue modeV requester entry slot posted writing
    · intro k w i requester
      rw [ended.queue]
      exact opFailed_inPlace_queue modeV requester
  case high =>
    rw [settle_of_shutdown_good modeU (supply.trans high)]
    exact ⟨rfl, rfl, rfl, rfl⟩

/-- The second line of the final progress copy ends the sequence (R100, R139). -/
theorem finalLineWritten_last {s : State} {w : CopyWrite} {p : ProgressContent} (copy : s.writer.copyWrite = some w)
    (content : w.content = .progress p) (last : w.written = 1) :
    finalLineWritten s = endShutdown (s.setWriter (progressKnown s.writer w p)) := by
  unfold finalLineWritten
  rw [copyLineWritten_progressLast copy content last]
  exact if_neg (by simp [progressKnown])

theorem opCompleted_final {s : State} {op : ArrayOp} {n : Nat} (requester : op.requester = .shutdownProgress n)
    (data : LineData) : opCompleted s op data = finalLineWritten s := by
  unfold opCompleted
  rw [requester]

theorem finalLine_ends {took : LineData} {s : State} {op : ArrayOp} {n : Nat} {w : CopyWrite} {p : ProgressContent}
    (powered : s.powered = true) (mode : s.control.mode = .shutdown) (busy : s.port.op = some op)
    (presented : op.presented = true) (requester : op.requester = .shutdownProgress n)
    (copy : s.writer.copyWrite = some w) (content : w.content = .progress p) (last : w.written = 1) :
    ∃ t, exec (.arrayReady took) s = .next t ∧
      (supplyGood s = false → EndedAtRest t ∧ NoIncident s t ∧ t.writer.newestProgress = some w.target ∧
        t.writer.progressGeneration = w.generation ∧ t.writer.retiredThrough = p.retiredThrough ∧
        t.groups.table = s.groups.table ∧ t.engine.journalPending = s.engine.journalPending) ∧
      (supplyGood s = true → t = (startedFrom s s.pins.mselN true s.session).setMem t.mem) := by
  have next := exec_ends powered ⟨busy, presented, .inl mode⟩ took
  rw [opCompleted_final requester] at next
  generalize (landStep s op took).mem = m at next
  rw [finalLineWritten_last (s := freed s m true) copy content last] at next
  generalize shape : (freed s m true).setWriter (progressKnown (freed s m true).writer w p) = v at next
  have modeV : v.control.mode = .shutdown := by rw [← shape]; exact mode
  have supply : supplyGood v = supplyGood s := by rw [← shape]; rfl
  refine ⟨_, next, fun low => ?low, fun high => ?high⟩
  case low =>
    have ended := settle_endShutdown_low modeV (supply.trans low) (by rw [← shape]; rfl)
    have quiet : NoIncident s v := by rw [← shape]; exact .refl s
    refine ⟨ended.rests, quiet.trans ended.noIncident, ?_, ?_, ?_, ?_, ?_⟩
    · rw [ended.writer, ← shape]; rfl
    · rw [ended.writer, ← shape]; rfl
    · rw [ended.writer, ← shape]; rfl
    · rw [ended.table, ← shape]; rfl
    · rw [ended.journal, ← shape]; rfl
  case high =>
    rw [settle_of_shutdown_good modeV (supply.trans high), ← shape]
    rfl

/-- Settles O27: the timeout that ends the sequence, by the failure of each requester, and the final copy's last line. -/
theorem timeoutInShutdownEndsIt : Obligations.TimeoutInShutdownEndsIt :=
  ⟨fun took _ _ powered mode busy stopped => timeout_ends powered mode busy stopped took,
    fun _ _ _ _ _ _ powered mode busy presented requester copy content last =>
      finalLine_ends powered mode busy presented requester copy content last⟩

end Sys2Proof.Machine
end

section
/-! The group plan of the shutdown and the writes of its stages GROUP and DRAIN (R135 to R138). -/

namespace Sys2Proof.Machine

/-! ## The group plan (R136) -/

/-- The group plan abandons a group that holds nothing durable, or for which the budget is short (R136). -/
theorem groupAbandoned_iff (s : State) (g : Group) :
    groupAbandoned s g = true ↔ g.state = .open ∨ g.state = .closed ∨ g.state = .stalled .journaling ∨
      ∃ p, g.state = .inPhase p ∧ (p = .journaling ∨ p = .marking) ∧
        s.shutdown.budget < (if p = .journaling then 2 * (g.lineCount - g.journalPosition + 1) else 2) -
          (if s.engine.half = .second then 1 else 0) + 2 := by
  have need : ∀ p, g.state = .inPhase p → groupNeed s g =
      (if p = .journaling then 2 * (g.lineCount - g.journalPosition + 1) else 2) -
        (if s.engine.half = .second then 1 else 0) := by
    intro p state
    unfold groupNeed
    rw [state]
    simp only [GroupState.inPhase.injEq]
    split <;> simp
  unfold groupAbandoned
  match state : g.state with
  | .open => simp
  | .closed => simp
  | .inPhase p =>
    have needed := need p state
    cases p with
    | journaling | marking => simp [needed]
    | applying | retiring => simp
  | .stalled p => cases p <;> simp

/-- The groups that the plan abandons. -/
def lostGroups (s : State) : List Group :=
  s.groups.table.filter (groupAbandoned s)

/-- The groups that the plan keeps. -/
def keptGroups (s : State) : List Group :=
  s.groups.table.filter (fun g => !groupAbandoned s g)

/-- What the group plan makes of the parts (R136). -/
structure Planned (s t : State) : Prop where
  groups : t.groups = { s.groups with table := keptGroups s, flushTarget := none }
  queue : t.queue = { s.queue with
    entries := s.queue.entries.filter (fun e => !(lostGroups s).any (fun g => e.group == some g.sequence)) }
  engine : t.engine = if (lostGroups s).any (fun g => some g.sequence == s.engine.inCommit) then
    JournalEngine.idle s.engine.journalPending else s.engine
  shutdown : t.shutdown = { s.shutdown with
    stage := .group, plan := planOf (keptGroups s), groupsAbandoned := (lostGroups s).length }
  writer : t.writer = s.writer
  layout : t.layout = s.layout
  port : t.port = s.port
  pins : t.pins = s.pins

theorem planGroups_planned (s : State) : Planned s (planGroups s) := by
  unfold planGroups
  dsimp only
  split
  · rename_i loses
    exact ⟨rfl, rfl, (if_pos loses).symm, rfl, rfl, rfl, rfl, rfl⟩
  · rename_i loses
    exact ⟨rfl, rfl, (if_neg loses).symm, rfl, rfl, rfl, rfl, rfl⟩

theorem mem_keptGroups {s : State} {g : Group} :
    g ∈ keptGroups s ↔ g ∈ s.groups.table ∧ ¬groupAbandoned s g = true := by
  simp [keptGroups]

theorem groupContinues_iff (g : Group) :
    groupContinues g = true ↔ g.state = .inPhase .journaling ∨ g.state = .inPhase .marking := by
  unfold groupContinues
  match g.state with
  | .open => simp
  | .closed => simp
  | .inPhase p => cases p <;> simp
  | .stalled p => simp

theorem planOf_continue (kept : List Group) :
    planOf kept = some .continue ↔ ∃ g ∈ kept, g.state = .inPhase .journaling ∨ g.state = .inPhase .marking := by
  have some_continues : kept.any groupContinues = true ↔
      ∃ g ∈ kept, g.state = .inPhase .journaling ∨ g.state = .inPhase .marking := by
    simp only [List.any_eq_true, groupContinues_iff]
  unfold planOf
  rw [← some_continues]
  by_cases continues : kept.any groupContinues = true
  · rw [if_pos continues]
    exact ⟨fun _ => continues, fun _ => rfl⟩
  · rw [if_neg continues]
    split
    · exact ⟨by simp, fun h => absurd h continues⟩
    · exact ⟨by simp, fun h => absurd h continues⟩

/-- The plan for each group, in the words of the statement (R136). -/
theorem planGroups_decides (s : State) :
    let half := if s.engine.half = .second then 1 else 0
    let need (g : Group) (p : Phase) : Nat :=
      (if p = .journaling then 2 * (g.lineCount - g.journalPosition + 1) else 2) - half
    let lost (g : Group) : Prop :=
      g.state = .open ∨ g.state = .closed ∨ g.state = .stalled .journaling ∨
        ∃ p, g.state = .inPhase p ∧ (p = .journaling ∨ p = .marking) ∧ s.shutdown.budget < need g p + 2
    let t := planGroups s
    (∀ g, g ∈ t.groups.table ↔ g ∈ s.groups.table ∧ ¬lost g) ∧
      t.shutdown.groupsAbandoned + t.groups.table.length = s.groups.table.length ∧
      (∀ e, e ∈ t.queue.entries ↔
        e ∈ s.queue.entries ∧ ∀ g ∈ s.groups.table, lost g → e.group ≠ some g.sequence) ∧
      t.groups.flushTarget = none ∧ t.shutdown.budget = s.shutdown.budget ∧
      (t.shutdown.plan = some .continue ↔
        ∃ g ∈ t.groups.table, g.state = .inPhase .journaling ∨ g.state = .inPhase .marking) := by
  intro half need lost t
  have lost_iff : ∀ g, groupAbandoned s g = true ↔ lost g := groupAbandoned_iff s
  have planned := planGroups_planned s
  refine ⟨fun g => ?_, ?_, fun e => ?_, ?_, ?_, ?_⟩
  · rw [planned.groups, ← lost_iff]
    exact mem_keptGroups
  · rw [planned.groups, planned.shutdown]
    have split := List.length_eq_length_filter_add (l := s.groups.table) (groupAbandoned s)
    exact split.symm
  · rw [planned.queue]
    simp only [lostGroups, List.mem_filter, Bool.not_eq_true', List.any_eq_false, beq_iff_eq, lost_iff, and_imp]
  · rw [planned.groups]
  · rw [planned.shutdown]
  · rw [planned.groups, planned.shutdown]
    exact planOf_continue _

/-! ## Stage DRAIN (R138) -/

/-- What the sequencer's next operation leaves: the groups, the engine and the layout. -/
structure Grants (s t : State) : Prop where
  groups : t.groups = s.groups
  engine : t.engine = s.engine
  layout : t.layout = s.layout
  plan : t.shutdown.plan = s.shutdown.plan
  lost : t.shutdown.groupsAbandoned = s.shutdown.groupsAbandoned

theorem startOp_grants {s : State} {op : ArrayOp} (plan : (markGranted s op.requester).shutdown.plan = s.shutdown.plan)
    (lost : (markGranted s op.requester).shutdown.groupsAbandoned = s.shutdown.groupsAbandoned) :
    Grants s (startOp s op) := by
  rw [startOp_eq]
  exact ⟨rfl, rfl, rfl, plan, lost⟩

theorem startFinalProgress_grants (s : State) : Grants s (startFinalProgress s) := by
  rw [startFinalProgress_eq]
  have granted := startOp_grants (s := (setStage s .progress).setWriter { s.writer with copyWrite := some (finalCopy s) })
    (op := lineWrite (.shutdownProgress 0) false (copyLineNo (finalCopy s) 0) (copyLineData (finalCopy s) 0) 0xFF) rfl rfl
  exact ⟨granted.groups, granted.engine, granted.layout, granted.plan, granted.lost⟩

/-- The drain write that stage DRAIN starts (R138). -/
def shutdownDrainOp (e : Entry) : ArrayOp :=
  lineWrite (.shutdownDrain e.slot e.window e.lastWriter) false e.line e.data e.valid

theorem drainChoice_setStage (s : State) : drainChoice (setStage s .drain) = drainChoice s :=
  drainChoice_congr rfl rfl

theorem drainStage_next {s : State} {e : Entry} (budget : 3 ≤ s.shutdown.budget) (chosen : drainChoice s = some e) :
    drainStage s = startOp (setStage s .drain) (shutdownDrainOp e) := by
  have choice : drainChoice (setStage s .drain) = some e := (drainChoice_setStage s).trans chosen
  have enough : 3 ≤ (setStage s .drain).shutdown.budget := budget
  unfold drainStage
  dsimp only
  rw [if_pos enough, choice]
  rfl

theorem drainStage_final {s : State} (last : s.shutdown.budget < 3 ∨ drainChoice s = none) :
    drainStage s = startFinalProgress (abandonPosted (setStage s .drain)) := by
  have nothing : (if 3 ≤ (setStage s .drain).shutdown.budget then drainChoice (setStage s .drain) else none) = none := by
    rcases last with short | none
    · exact if_neg (by rw [setStage_shutdown]; dsimp only; omega)
    · rw [drainChoice_setStage, none]
      exact ite_self _
  unfold drainStage
  dsimp only
  rw [nothing]

theorem drainStage_grants (s : State) : Grants s (drainStage s) := by
  by_cases last : s.shutdown.budget < 3 ∨ drainChoice s = none
  · rw [drainStage_final last]
    have granted := startFinalProgress_grants (abandonPosted (setStage s .drain))
    exact ⟨granted.groups, granted.engine, granted.layout, granted.plan, granted.lost⟩
  · have ⟨enough, chooses⟩ := not_or.mp last
    obtain ⟨e, chosen⟩ := Option.ne_none_iff_exists'.mp chooses
    rw [drainStage_next (by omega) chosen]
    have granted := startOp_grants (s := setStage s .drain) (op := shutdownDrainOp e) rfl rfl
    exact ⟨granted.groups, granted.engine, granted.layout, granted.plan, granted.lost⟩

/-- The write of stage DRAIN, or the final copy, from a free port with the ready input asserted (R138, R139). -/
theorem drainStage_goesOn {s : State} (mode : s.control.mode = .shutdown) (ready : s.pins.arrayReady = true) :
    DrainGoesOn s (drainStage s) := by
  refine ⟨fun e enough chosen => ?next, fun last => ?final⟩
  case next =>
    have op : shutdownDrainOp e =
        freshOp (.shutdownDrain e.slot e.window e.lastWriter) .maskedWrite e.line e.data e.valid := rfl
    have line : (setStage s .drain).pins.arrayReady = true := ready
    rw [drainStage_next enough chosen, startOp_shutdown, startOp_queue, startOp_port, line, ← op]
    refine ⟨rfl, rfl, ?_, rfl⟩
    exact List.map_congr_left fun x _ => by simp
  case final =>
    intro left
    have modeA : (abandonPosted (setStage s .drain)).control.mode = .shutdown := mode
    obtain ⟨begun, budget⟩ := startFinalProgress_begun modeA
    rw [drainStage_final last]
    refine ⟨?_, ?_, budget, begun.of_writer rfl rfl⟩
    · rw [startFinalProgress_eq, startOp_queue]
      exact List.filter_congr fun e _ => by cases group : e.group <;> simp [group]
    · rw [startFinalProgress_eq, startOp_shutdown]
      rfl

/-! ## Stage GROUP (R137) -/

theorem continueGroup_record {s : State} {op : ArrayOp} (next : recordOp s .shutdownRecord false = some op) :
    continueGroup s = startOp s op := by
  unfold continueGroup
  rw [next]

theorem continueGroup_durable {s : State} (none : recordOp s .shutdownRecord false = .none) :
    continueGroup s = drainStage s := by
  unfold continueGroup
  rw [none]

theorem continueGroup_grants (s : State) : Grants s (continueGroup s) := by
  cases next : recordOp s .shutdownRecord false with
  | none =>
    rw [continueGroup_durable next]
    exact drainStage_grants s
  | some op =>
    have requester : op.requester = .shutdownRecord := recordOp_requester next
    rw [continueGroup_record next]
    exact startOp_grants (by rw [requester]; rfl) (by rw [requester]; rfl)

/-- A group of the commit in JOURNALING or MARKING, at a place of its records, has its next line to write (R137). -/
theorem recordOp_next {s : State} {q : Seq} {p : Phase} {n : Nat} {half : Half} (step : AtStep s q p n half)
    (writes : p = .marking ∨ (p = .journaling ∧ n < (groupEntries s q).length)) :
    ∃ o, recordOp s .shutdownRecord false = some o ∧ o.requester = .shutdownRecord ∧ o.kind = .maskedWrite ∧
      o.enables = 0xFF := by
  obtain ⟨inCommit, phase, position, -, r, member, bears, -⟩ := step
  obtain ⟨g, found⟩ : ∃ g, groupOf s q = some g := by
    cases found : groupOf s q with
    | some g => exact ⟨g, rfl⟩
    | none => exact absurd (List.find?_eq_none.mp found r member) (by simp [bears])
  have sequence : g.sequence = q := (groupOf_record found).2
  have commit : commitGroup s = some g := by
    rw [commitGroup, inCommit]
    exact found
  rcases writes with rfl | ⟨rfl, inside⟩
  · unfold recordOp
    rw [commit]
    dsimp only
    rw [phase]
    exact ⟨_, rfl, rfl, rfl, rfl⟩
  · have place := List.getElem?_eq_getElem inside
    unfold recordOp
    rw [commit]
    dsimp only
    rw [phase]
    dsimp only
    rw [sequence, position, place]
    exact ⟨_, rfl, rfl, rfl, rfl⟩

end Sys2Proof.Machine
end

section
/-! The steps that end in SHUTDOWN: what each leaves to the sequence, and the record lines of stage GROUP (R89, R137). -/

namespace Sys2Proof.Machine

/-! ## The work of the requesters leaves the sequence -/

/-- What an operation's requester takes of its step leaves the sequencer, the port and the incidents. -/
structure Works (s u : State) : Prop where
  control : u.control = s.control
  shutdown : u.shutdown = s.shutdown
  layout : u.layout = s.layout
  port : u.port = s.port
  pins : u.pins = s.pins
  recorder : u.recorder = s.recorder
  sequences : (u.groups.table.map Group.sequence).Sublist (s.groups.table.map Group.sequence)

theorem Works.refl (s : State) : Works s s := ⟨rfl, rfl, rfl, rfl, rfl, rfl, .refl _⟩

theorem Works.trans {s t u : State} (h : Works s t) (k : Works t u) : Works s u :=
  ⟨k.control.trans h.control, k.shutdown.trans h.shutdown, k.layout.trans h.layout, k.port.trans h.port,
    k.pins.trans h.pins, k.recorder.trans h.recorder, k.sequences.trans h.sequences⟩

theorem setEngine_works (s : State) (v : JournalEngine) : Works s (s.setEngine v) :=
  ⟨rfl, rfl, rfl, rfl, rfl, rfl, .refl _⟩

theorem setWriter_works (s : State) (v : ControlWriter) : Works s (s.setWriter v) :=
  ⟨rfl, rfl, rfl, rfl, rfl, rfl, .refl _⟩

theorem changeCommitGroup_works (s : State) {f : Group → Group} (keeps : ∀ g, (f g).sequence = g.sequence) :
    Works s (changeCommitGroup s f) := by
  unfold changeCommitGroup
  split
  · rename_i q inCommit
    have same : (changeGroup s q f).groups.table.map Group.sequence = s.groups.table.map Group.sequence := by
      unfold changeGroup
      rw [State.setGroups_groups, List.map_map]
      refine List.map_congr_left fun g _ => ?_
      by_cases bears : (g.sequence == q) = true
      · simp only [Function.comp, if_pos bears, keeps]
      · simp only [Function.comp, if_neg bears]
    exact ⟨rfl, rfl, rfl, rfl, rfl, rfl, by rw [same]⟩
  · exact .refl s

theorem enterPhase_works (s : State) (p : Phase) : Works s (enterPhase s p) :=
  (changeCommitGroup_works (f := fun g => { g with state := .inPhase p, journalPosition := 0 }) s fun _ => rfl).trans
    (setEngine_works _ _)

theorem setPosition_works (s : State) (n : Nat) (half : Half) : Works s (setPosition s n half) :=
  (changeCommitGroup_works (f := fun g => { g with journalPosition := n }) s fun _ => rfl).trans (setEngine_works _ _)

theorem composeRecord_works (s : State) : Works s (composeRecord s) := by
  rw [composeRecord_eq]
  exact setEngine_works s _

theorem setCommitEntries_works (s : State) (p : EntryState → Bool) (st : EntryState) :
    Works s (setCommitEntries s p st) := by
  unfold setCommitEntries
  split
  · exact .refl s
  · exact ⟨rfl, rfl, rfl, rfl, rfl, rfl, .refl _⟩

theorem sealGroup_works (s : State) : Works s (sealGroup s) := by
  unfold sealGroup
  exact (enterPhase_works s .applying).trans ((setEngine_works _ _).trans (setCommitEntries_works _ _ _))

theorem recordWritten_works (s : State) : Works s (recordWritten s) := by
  unfold recordWritten
  split
  · split
    · exact (setPosition_works s _ _).trans (composeRecord_works _)
    · exact (enterPhase_works s .marking).trans (setEngine_works _ _)
  · exact sealGroup_works s
  · exact .refl s
  · exact .refl s
  · exact .refl s

theorem recordLineWritten_works (s : State) : Works s (recordLineWritten s) := by
  unfold recordLineWritten
  split
  · exact setEngine_works s _
  · exact (setEngine_works s _).trans (recordWritten_works _)

theorem startRetiring_works (s : State) : Works s (startRetiring s) := by
  unfold startRetiring
  dsimp only
  split
  · exact (enterPhase_works s .retiring).trans (setWriter_works _ _)
  · exact enterPhase_works s .retiring

theorem entryApplied_works (s : State) (k : Fin 32) : Works s (entryApplied s k) := by
  have applied : Works s (setEntryState s k .applied) := ⟨rfl, rfl, rfl, rfl, rfl, rfl, .refl _⟩
  unfold entryApplied
  dsimp only
  split
  · exact applied.trans (setPosition_works _ _ _)
  · exact applied.trans (startRetiring_works _)

theorem copyLineWritten_works (s : State) : Works s (copyLineWritten s) := by
  unfold copyLineWritten
  split
  · exact .refl s
  · split
    · exact setWriter_works s _
    · exact setWriter_works s _

theorem retireGroup_works (s : State) : Works s (retireGroup s) := by
  unfold retireGroup
  split
  · exact .refl s
  · exact ⟨rfl, rfl, rfl, rfl, rfl, rfl, List.filter_sublist.map _⟩

theorem retiringLineWritten_works (s : State) : Works s (retiringLineWritten s) := by
  unfold retiringLineWritten
  dsimp only
  split
  · exact (copyLineWritten_works s).trans (setPosition_works _ _ _)
  · exact (copyLineWritten_works s).trans (retireGroup_works _)

/-- A drain write that completes leaves the note of a handover's loss (R16, R114). -/
theorem removeDrained_works (s : State) (k : Fin 32) : Works s (removeDrained s k false) := by
  unfold removeDrained
  split
  · exact .refl s
  · exact ⟨rfl, rfl, rfl, rfl, rfl, rfl, .refl _⟩

/-! ## The queue while records are written -/

theorem changeCommitGroup_queue (s : State) (f : Group → Group) : (changeCommitGroup s f).queue = s.queue := by
  unfold changeCommitGroup
  split
  · rfl
  · rfl

theorem setPosition_queue (s : State) (n : Nat) (half : Half) : (setPosition s n half).queue = s.queue :=
  changeCommitGroup_queue s _

theorem composeRecord_queue (s : State) : (composeRecord s).queue = s.queue := by rw [composeRecord_eq]; rfl

/-- Only the commit record's second line changes entries: it makes them READY (R49). -/
theorem recordLineWritten_queue {s : State} (lines : s.engine.half = .first ∨ s.engine.phase ≠ some .marking) :
    (recordLineWritten s).queue = s.queue := by
  cases half : s.engine.half with
  | first =>
    rw [recordLineWritten_first half]
    rfl
  | second =>
    have other : (halfReset s).engine.phase ≠ some .marking := lines.resolve_left (by simp [half])
    rw [recordLineWritten_second half]
    unfold recordWritten
    split
    · split
      · exact (composeRecord_queue _).trans (setPosition_queue (halfReset s) _ _)
      · exact enterPhase_queue (halfReset s) .marking
    · rename_i marking
      exact absurd marking other
    · rfl
    · rfl
    · rfl

/-! ## Stage GROUP goes on (R137) -/

/-- The state with the pass-over count 0 from which the sequencer goes on (R86, R89). -/
def cleared (s : State) : State :=
  s.setPort { s.port with passOver := 0 }

theorem settle_group {s : State} (mode : s.control.mode = .shutdown) (free : s.port.op = none)
    (stage : s.shutdown.stage = .group) : settle s = continueGroup (cleared s) := by
  have kept : (cleared s).shutdown.stage = .group := stage
  rw [settle_of_shutdown mode free]
  change advanceShutdown (cleared s) = _
  unfold advanceShutdown
  rw [kept]

theorem settle_drain {s : State} (mode : s.control.mode = .shutdown) (free : s.port.op = none)
    (stage : s.shutdown.stage = .drain) : settle s = drainStage (cleared s) := by
  have kept : (cleared s).shutdown.stage = .drain := stage
  rw [settle_of_shutdown mode free]
  change advanceShutdown (cleared s) = _
  unfold advanceShutdown
  rw [kept]

theorem settle_finishing {s : State} (mode : s.control.mode = .shutdown) (free : s.port.op = none)
    (stage : s.shutdown.stage = .finishing) : settle s = afterFinishing (cleared s) := by
  have kept : (cleared s).shutdown.stage = .finishing := stage
  rw [settle_of_shutdown mode free]
  change advanceShutdown (cleared s) = _
  unfold advanceShutdown
  rw [kept]

theorem AtStep.cleared {s : State} {q : Seq} {p : Phase} {n : Nat} {half : Half} (h : AtStep s q p n half) :
    AtStep (cleared s) q p n half := h.of_same rfl rfl rfl rfl rfl

theorem Grants.atStep {s t : State} {q : Seq} {p : Phase} {n : Nat} {half : Half} (h : Grants s t)
    (step : AtStep s q p n half) : AtStep t q p n half :=
  step.of_same (by rw [h.groups]) (by rw [h.engine]) (by rw [h.engine]) (by rw [h.engine]) (by rw [h.engine])

/-- A record's next line is in flight in stage GROUP (R137). -/
def NextRecordLine (s t : State) : Prop :=
  t.shutdown.stage = .group ∧ t.shutdown.budget = s.shutdown.budget - 1 ∧
    ∃ o, t.port.op = some o ∧ o.requester = .shutdownRecord ∧ o.kind = .maskedWrite ∧ o.enables = 0xFF

theorem continueGroup_nextLine {s : State} {q : Seq} {p : Phase} {n : Nat} {half : Half}
    (stage : s.shutdown.stage = .group) (step : AtStep s q p n half) (writes : p = .marking ∨ (p = .journaling ∧ n < (groupEntries s q).length)) :
    NextRecordLine s (continueGroup s) := by
  obtain ⟨o, next, requester, kind, enables⟩ := recordOp_next step writes
  rw [continueGroup_record next]
  refine ⟨?_, ?_, { o with presented := s.pins.arrayReady }, congrArg ArrayPort.op (startOp_port s o), requester, kind,
    enables⟩
  · rw [startOp_shutdown, requester]
    exact stage
  · rw [startOp_shutdown, requester]
    rfl

theorem drainStage_stage (s : State) :
    (drainStage s).shutdown.stage = .drain ∨ (drainStage s).shutdown.stage = .progress := by
  by_cases last : s.shutdown.budget < 3 ∨ drainChoice s = none
  · rw [drainStage_final last, startFinalProgress_eq, startOp_shutdown]
    exact .inr rfl
  · have ⟨enough, chooses⟩ := not_or.mp last
    obtain ⟨e, chosen⟩ := Option.ne_none_iff_exists'.mp chooses
    rw [drainStage_next (by omega) chosen, startOp_shutdown]
    exact .inl rfl

theorem recordOp_durable {s : State} {p : Phase} (phase : s.engine.phase = some p)
    (durable : p = .applying ∨ p = .retiring) (r : Requester) (verified : Bool) : recordOp s r verified = none := by
  unfold recordOp
  split
  · rfl
  · rw [phase]
    rcases durable with rfl | rfl
    · rfl
    · rfl

/-- A record line of stage GROUP completes: the group moves on, and the next line, stage DRAIN or the final copy starts
(R137). -/
theorem shutdownRecord_advances {took : LineData} {s : State} {op : ArrayOp} {q : Seq} {g : Group} {p : Phase}
    (powered : s.powered = true) (mode : s.control.mode = .shutdown) (stage : s.shutdown.stage = .group)
    (busy : s.port.op = some op) (presented : op.presented = true) (requester : op.requester = .shutdownRecord)
    (carries : Carries s q g p) (position : g.journalPosition = s.engine.position) :
    ∃ t, exec (.arrayReady took) s = .next t ∧ NoIncident s t ∧
      (s.engine.half = .first → p = .journaling → s.engine.position < (groupEntries s q).length →
        AtStep t q .journaling s.engine.position .second ∧ NextRecordLine s t) ∧
      (s.engine.half = .first → p = .marking → AtStep t q .marking s.engine.position .second ∧ NextRecordLine s t) ∧
      (s.engine.half = .second → p = .journaling →
        (s.engine.position + 1 < g.lineCount → AtStep t q .journaling (s.engine.position + 1) .first ∧
          (s.engine.position + 1 < (groupEntries s q).length → NextRecordLine s t)) ∧
        (g.lineCount ≤ s.engine.position + 1 → AtStep t q .marking 0 .first ∧ NextRecordLine s t ∧
          t.engine.runningCheck = ~~~s.engine.runningCheck)) ∧
      (s.engine.half = .second → p = .marking → AtStep t q .applying 0 .first ∧ t.engine.journalPending = true ∧
        (t.shutdown.stage = .drain ∨ t.shutdown.stage = .progress)) := by
  have next := exec_ends powered ⟨busy, presented, .inl mode⟩ took
  have completes : ∀ x data, opCompleted x op data = recordLineWritten x := fun x data => by
    unfold opCompleted
    rw [requester]
  rw [completes] at next
  generalize (landStep s op took).mem = m at next
  have carriesV : Carries (freed s m true) q g p := carries.of_freed
  have works := recordLineWritten_works (freed s m true)
  have modeX := (congrArg ModeController.mode works.control).trans mode
  have stageX := (congrArg ShutdownSequencer.stage works.shutdown).trans stage
  rw [settle_group modeX (congrArg ArrayPort.op works.port) stageX] at next
  have runs := continueGroup_runs (cleared (recordLineWritten (freed s m true)))
  have grants := continueGroup_grants (cleared (recordLineWritten (freed s m true)))
  have budget : (cleared (recordLineWritten (freed s m true))).shutdown.budget = s.shutdown.budget :=
    congrArg ShutdownSequencer.budget works.shutdown
  have line : ∀ {p n half}, AtStep (recordLineWritten (freed s m true)) q p n half →
      (p = .marking ∨ (p = .journaling ∧ n < (groupEntries (recordLineWritten (freed s m true)) q).length)) →
      NextRecordLine s (continueGroup (cleared (recordLineWritten (freed s m true)))) := by
    intro p n half step writes
    have written := continueGroup_nextLine (s := cleared (recordLineWritten (freed s m true))) stageX step.cleared writes
    rw [NextRecordLine, budget] at written
    exact written
  have entries (lines : s.engine.half = .first ∨ s.engine.phase ≠ some .marking) :
      groupEntries (recordLineWritten (freed s m true)) q = groupEntries s q := by
    unfold groupEntries
    rw [recordLineWritten_queue (s := freed s m true) lines]
    rfl
  refine ⟨_, next, ?_, fun half journaling inside => ?_, fun half marking => ?_, fun half journaling => ?_,
    fun half marking => ?_⟩
  · exact .of_recorder (.refl s) (runs.recorder.trans works.recorder)
  · subst journaling
    have step := recordLineWritten_atSecond carriesV position half
    exact ⟨grants.atStep step.cleared, line step (.inr ⟨rfl, by rw [entries (.inl half)]; exact inside⟩)⟩
  · subst marking
    have step := recordLineWritten_atSecond carriesV position half
    exact ⟨grants.atStep step.cleared, line step (.inl rfl)⟩
  · subst journaling
    refine ⟨fun more => ?_, fun last => ?_⟩
    · have step := (recordLineWritten_atNext carriesV half more).1
      refine ⟨grants.atStep step.cleared, fun inside => line step (.inr ⟨rfl, ?_⟩)⟩
      rw [entries (.inr (by simp [carries.phase]))]
      exact inside
    · obtain ⟨step, check⟩ := recordLineWritten_atMarking carriesV half last
      refine ⟨grants.atStep step.cleared, line step (.inl rfl), ?_⟩
      rw [grants.engine]
      exact check
  · subst marking
    have seals : recordLineWritten (freed s m true) = sealGroup (halfReset (freed s m true)) := by
      rw [recordLineWritten_second (s := freed s m true) half]
      exact recordWritten_sealed (s := halfReset (freed s m true)) carries.phase
    obtain ⟨step, pending, -⟩ := sealGroup_sealed (s := halfReset (freed s m true)) carries.inCommit carries.record
    rw [← seals] at step pending
    have drains : continueGroup (cleared (recordLineWritten (freed s m true))) =
        drainStage (cleared (recordLineWritten (freed s m true))) :=
      continueGroup_durable (recordOp_durable step.cleared.2.1 (.inl rfl) _ _)
    refine ⟨grants.atStep step.cleared, by rw [grants.engine]; exact pending, ?_⟩
    rw [drains]
    exact drainStage_stage _

end Sys2Proof.Machine
end

section
/-! The drain writes of the shutdown (R138). -/

namespace Sys2Proof.Machine

/-! ## An entry is left to drain -/

/-- Where every POSTED entry is READY, the drain chooses one as long as one is left (R13, R14). -/
theorem drainChoice_none_iff {s : State} (ready : ∀ e ∈ s.queue.entries, e.group = none → e.state = .ready) :
    drainChoice s = none ↔ ∀ e ∈ s.queue.entries, e.group.isSome = true := by
  constructor
  · intro nothing
    cases oldest : s.queue.entries.find? (fun e => e.group.isNone) with
    | none => simpa [Option.isSome_iff_ne_none] using List.find?_eq_none.mp oldest
    | some e =>
      obtain ⟨posted, before, after, entries, grouped⟩ := List.find?_eq_some_iff_append.mp oldest
      rw [Option.isNone_iff_eq_none] at posted
      have member : e ∈ s.queue.entries := by
        rw [entries]
        exact List.mem_append_right _ (List.mem_cons_self ..)
      have eligible : Eligible [] before e :=
        ⟨posted, ready e member posted, List.not_mem_nil, fun x older none => by simpa [none] using grouped x older⟩
      have chooses := drainChoice_isSome entries eligible
      rw [nothing] at chooses
      cases chooses
  · intro grouped
    cases chosen : drainChoice s with
    | none => rfl
    | some e =>
      have posted := drainChoice_posted chosen
      have some := grouped e (drainChoice_mem chosen)
      rw [posted] at some
      cases some

/-- The POSTED entries besides the one that has been written. -/
def postedBeside (s : State) (k : Fin 32) : List Entry :=
  s.queue.entries.filter (fun x => decide (x.slot ≠ k) && x.group.isNone)

/-- The queue after a drain write of the shutdown, from the free port in stage DRAIN (R15, R138). -/
structure DrainWritten (s v : State) (k : Fin 32) : Prop where
  entries : v.queue.entries = s.queue.entries.filter (fun x => decide (x.slot ≠ k))
  control : v.control = s.control
  shutdown : v.shutdown = s.shutdown
  writer : v.writer = s.writer
  layout : v.layout = s.layout
  recorder : v.recorder = s.recorder
  ready : v.pins.arrayReady = true

section
variable {s v : State} {k : Fin 32} (h : DrainWritten s v k)
include h

theorem DrainWritten.posted : v.queue.entries.filter (fun x => x.group.isNone) = postedBeside s k := by
  rw [h.entries, List.filter_filter, postedBeside]
  exact List.filter_congr fun x _ => Bool.and_comm _ _

theorem DrainWritten.mem_posted {e : Entry} : e ∈ postedBeside s k ↔ e ∈ v.queue.entries ∧ e.group = none := by
  rw [← h.posted, List.mem_filter, Option.isNone_iff_eq_none]

/-- With every other POSTED entry READY the drain has a choice exactly where one is left. -/
theorem DrainWritten.choice (ready : ∀ x ∈ postedBeside s k, x.state = .ready) :
    drainChoice v = none ↔ postedBeside s k = [] := by
  rw [drainChoice_none_iff fun e entry posted => ready e (h.mem_posted.mpr ⟨entry, posted⟩), ← h.posted,
    List.filter_eq_nil_iff]
  simp [Option.isSome_iff_ne_none]

theorem DrainWritten.sameChoice : drainChoice (freeEntries s (fun x => x.slot == k)) = drainChoice v := by
  refine drainChoice_of_entries h.layout.symm ?_
  rw [h.entries]
  exact List.filter_congr fun x _ => by by_cases same : x.slot = k <;> simp [same]

/-- The next drain write of the shutdown, or the final copy (R138, R139). -/
theorem DrainWritten.goesOn (mode : s.control.mode = .shutdown)
    (ready : ∀ x ∈ postedBeside s k, x.state = .ready) :
    let t := drainStage v
    NoIncident s t ∧ t.shutdown.budget = s.shutdown.budget - 1 ∧ (∀ x ∈ t.queue.entries, x.slot ≠ k) ∧
      (3 ≤ s.shutdown.budget → postedBeside s k ≠ [] → t.shutdown.stage = .drain ∧
        ∃ y o, y ∈ postedBeside s k ∧ drainChoice (freeEntries s (fun x => x.slot == k)) = some y ∧
          t.port.op = some o ∧ o.requester = .shutdownDrain y.slot y.window y.lastWriter ∧ o.kind = .maskedWrite ∧
          o.line = y.line ∧ o.data = y.data ∧ o.enables = y.valid) ∧
      (s.shutdown.budget < 3 ∨ postedBeside s k = [] →
        (∀ x ∈ t.queue.entries, x.group.isSome = true) ∧ t.shutdown.postedAbandoned = (postedBeside s k).length ∧
        FinalCopyBegun s t
          { state := if (postedBeside s k).length = 0 ∧ s.shutdown.groupsAbandoned = 0 then .clean else .short
            postedAbandoned := BitVec.ofNat 8 (postedBeside s k).length
            groupsAbandoned := BitVec.ofNat 8 s.shutdown.groupsAbandoned
            retiredThrough := s.writer.retiredThrough }) := by
  intro t
  obtain ⟨next, final⟩ := drainStage_goesOn (s := v) (by rw [h.control]; exact mode) h.ready
  have budget : v.shutdown.budget = s.shutdown.budget := by rw [h.shutdown]
  have lost : v.shutdown.groupsAbandoned = s.shutdown.groupsAbandoned := by rw [h.shutdown]
  have other : ∀ x ∈ v.queue.entries, x.slot ≠ k := fun x entry => by
    rw [h.entries, List.mem_filter] at entry
    exact of_decide_eq_true entry.2
  have quiet : NoIncident s t := .of_recorder (.refl s) ((drainStage_runs v).recorder.trans h.recorder)
  rw [budget] at next final
  rw [h.posted, lost, h.writer] at final
  rw [h.choice ready] at final
  by_cases last : s.shutdown.budget < 3 ∨ postedBeside s k = []
  · obtain ⟨entries, abandoned, spent, begun⟩ := final last
    refine ⟨quiet, spent, fun x entry => ?_, fun enough left => absurd (last.resolve_left (by omega)) left,
      fun _ => ⟨fun x entry => ?_, abandoned, begun.of_writer (by rw [h.writer]) (by rw [h.writer])⟩⟩
    · rw [entries, List.mem_filter] at entry
      exact other x entry.1
    · rw [entries, List.mem_filter] at entry
      exact entry.2
  · have ⟨enough, left⟩ := not_or.mp last
    obtain ⟨y, chosen⟩ := Option.ne_none_iff_exists'.mp (mt (h.choice ready).mp left)
    obtain ⟨stageT, spent, entries, port⟩ := next y (by omega) chosen
    refine ⟨quiet, spent, fun x entry => ?_, fun _ _ => ⟨stageT, y, _, ?_, ?_, port, rfl, rfl, rfl, rfl, rfl⟩,
      fun other => absurd other last⟩
    · rw [entries] at entry
      obtain ⟨x', entry', rfl⟩ := List.mem_map.mp entry
      split
      · exact other x' entry'
      · exact other x' entry'
    · exact h.mem_posted.mpr ⟨drainChoice_mem chosen, drainChoice_posted chosen⟩
    · rw [h.sameChoice]
      exact chosen

end

/-- A drain write of the shutdown completes (R15, R138). -/
theorem shutdownDrain_goesOn {took : LineData} {s : State} {op : ArrayOp} {e : Entry} {w : WindowIndex} {i : Initiator}
    (powered : s.powered = true) (sound : Sound s) (mode : s.control.mode = .shutdown)
    (stage : s.shutdown.stage = .drain) (busy : s.port.op = some op) (presented : op.presented = true)
    (requester : op.requester = .shutdownDrain e.slot w i) (entry : e ∈ s.queue.entries) (posted : e.group = none)
    (writing : e.state = .writing) :
    ∃ v, exec (.arrayReady took) s = .next (drainStage v) ∧ DrainWritten s v e.slot := by
  have next := exec_ends powered ⟨busy, presented, .inl mode⟩ took
  have completes : ∀ x data, opCompleted x op data = removeDrained x e.slot false := fun x data => by
    unfold opCompleted
    rw [requester]
  rw [completes] at next
  generalize (landStep s op took).mem = m at next
  have works := removeDrained_works (freed s m true) e.slot
  have found : drainedEntry (freed s m true) e.slot = some e :=
    drainedEntry_of_writing sound.queue.slots entry posted writing
  have removed := removeDrained_of_found found false
  have entries : (removeDrained (freed s m true) e.slot false).queue.entries =
      s.queue.entries.filter (fun x => decide (x.slot ≠ e.slot)) := by
    rw [removed]
    exact queueWithout_entries s.queue e e.slot false
  have writer : (removeDrained (freed s m true) e.slot false).writer = s.writer := by
    rw [removed]
    rfl
  rw [settle_drain ((congrArg ModeController.mode works.control).trans mode) (congrArg ArrayPort.op works.port)
    ((congrArg ShutdownSequencer.stage works.shutdown).trans stage)] at next
  exact ⟨_, next, entries, works.control, works.shutdown, writer, works.layout, works.recorder,
    congrArg Pins.arrayReady works.pins⟩

end Sys2Proof.Machine
end

section
/-! The group plan with the first operation that it calls for (R135 to R139). -/

namespace Sys2Proof.Machine

/-! ## Groups with sequences of their own -/

theorem groupOf_of_mem {s : State} {g : Group} (nodup : (s.groups.table.map Group.sequence).Nodup)
    (member : g ∈ s.groups.table) : groupOf s g.sequence = some g := by
  cases found : groupOf s g.sequence with
  | none => exact absurd (List.find?_eq_none.mp found g member) (by simp)
  | some r =>
    obtain ⟨record, bears⟩ := groupOf_record found
    rw [List.inj_on_of_nodup_map nodup record member bears]

section
variable {s : State} {g : Group} (nodup : (s.groups.table.map Group.sequence).Nodup)
include nodup

/-- A kept group shares its sequence with no abandoned one. -/
theorem kept_not_lost (kept : g ∈ keptGroups s) : ∀ l ∈ lostGroups s, l.sequence ≠ g.sequence := by
  intro l lost same
  obtain ⟨member, stays⟩ := mem_keptGroups.mp kept
  obtain ⟨memberL, abandoned⟩ := List.mem_filter.mp lost
  rw [List.inj_on_of_nodup_map nodup memberL member same] at abandoned
  exact stays abandoned

/-- The engine keeps the group in commit exactly where the plan does (R136, log 24). -/
theorem planGroups_keepsEngine (inCommit : s.engine.inCommit = some g.sequence) (kept : g ∈ keptGroups s) :
    (planGroups s).engine = s.engine := by
  rw [(planGroups_planned s).engine]
  refine if_neg fun loses => ?_
  obtain ⟨l, lost, same⟩ := List.any_eq_true.mp loses
  rw [inCommit, beq_iff_eq, Option.some.injEq] at same
  exact kept_not_lost nodup kept l lost same

theorem planGroups_keepsEntries (kept : g ∈ keptGroups s) :
    groupEntries (planGroups s) g.sequence = groupEntries s g.sequence := by
  unfold groupEntries
  rw [(planGroups_planned s).queue, List.filter_filter]
  refine List.filter_congr fun e _ => ?_
  by_cases mine : e.group = some g.sequence
  · have stays : (lostGroups s).any (fun l => e.group == some l.sequence) = false := by
      rw [List.any_eq_false]
      intro l lost same
      rw [mine, beq_iff_eq, Option.some.injEq] at same
      exact kept_not_lost nodup kept l lost same.symm
    rw [stays]
    simp
  · simp [mine]

theorem planGroups_carries {p : Phase} (carries : Carries s g.sequence g p) (kept : g ∈ keptGroups s) :
    Carries (planGroups s) g.sequence g p := by
  have planned := planGroups_planned s
  have engine := planGroups_keepsEngine nodup carries.inCommit kept
  have member : g ∈ (planGroups s).groups.table := by rw [planned.groups]; exact kept
  have still : ((planGroups s).groups.table.map Group.sequence).Nodup := by
    rw [planned.groups]
    exact nodup.sublist (List.filter_sublist.map _)
  exact ⟨by rw [engine]; exact carries.inCommit, by rw [engine]; exact carries.phase, groupOf_of_mem still member,
    carries.state⟩

end

theorem recordLineOp_congr {s t : State} {q : Seq} (layout : t.layout = s.layout) (engine : t.engine = s.engine)
    (entries : groupEntries t q = groupEntries s q) (g : Group) (p : Phase) (r : Requester) (k : OpKind) :
    recordLineOp t q g p r k = recordLineOp s q g p r k := by
  unfold recordLineOp
  rw [layout, engine, entries]

/-! ## What follows the plan -/

/-- The sequence after the group plan (R135). -/
def afterPlan (v : State) : State :=
  if v.shutdown.plan = some .continue then continueGroup v else drainStage v

theorem afterPlan_grants (v : State) : Grants v (afterPlan v) := by
  unfold afterPlan
  split
  · exact continueGroup_grants v
  · exact drainStage_grants v

theorem afterPlan_runs (v : State) : SequenceRuns v (afterPlan v) := by
  unfold afterPlan
  split
  · exact continueGroup_runs v
  · exact drainStage_runs v

theorem afterPlan_follows {u : State} (mode : u.control.mode = .shutdown) (origin : u.shutdown.origin = .full)
    (ready : u.pins.arrayReady = true) (nodup : (u.groups.table.map Group.sequence).Nodup) :
    PlanFollows u (afterPlan (planGroups u)) := by
  have planned := planGroups_planned u
  obtain ⟨control, -, -, -, originV⟩ := planGroups_keeps u
  have grants := afterPlan_grants (planGroups u)
  have runs := afterPlan_runs (planGroups u)
  have readyV : (planGroups u).pins.arrayReady = true := by rw [planned.pins]; exact ready
  have table : (afterPlan (planGroups u)).groups.table = keptGroups u := by rw [grants.groups, planned.groups]
  constructor
  case mode => rw [runs.control, control]; exact mode
  case origin => rw [runs.origin, originV]; exact origin
  case table => rw [grants.groups]
  case plan => exact grants.plan
  case abandoned => exact grants.lost
  case pending =>
    rw [grants.engine, planned.engine]
    split
    · rfl
    · rfl
  case engine =>
    intro g member inCommit
    rw [table, grants.engine]
    refine ⟨fun kept => planGroups_keepsEngine nodup inCommit kept, fun gone => ?_⟩
    have abandoned : groupAbandoned u g = true := by
      by_contra stays
      exact gone (mem_keptGroups.mpr ⟨member, stays⟩)
    have loses : (lostGroups u).any (fun l => some l.sequence == u.engine.inCommit) = true :=
      List.any_eq_true.mpr ⟨g, List.mem_filter.mpr ⟨member, abandoned⟩, by simp [inCommit]⟩
    rw [planned.engine, if_pos loses]
    exact ⟨rfl, rfl⟩
  case group =>
    intro q g p o carries kept line
    rw [table] at kept
    obtain ⟨member, rfl⟩ := groupOf_record carries.record
    have writes : p = .journaling ∨ p = .marking := by
      cases p with
      | journaling => exact .inl rfl
      | marking => exact .inr rfl
      | applying => cases line
      | retiring => cases line
    have continues : (planGroups u).shutdown.plan = some .continue := by
      rw [planned.shutdown]
      refine (planOf_continue _).mpr ⟨g, kept, ?_⟩
      rw [carries.state]
      rcases writes with rfl | rfl
      · exact .inl rfl
      · exact .inr rfl
    have next : recordOp (planGroups u) .shutdownRecord false = some o := by
      rw [recordOp_eq (planGroups_carries nodup carries kept) writes, recordLineOp_congr planned.layout
        (planGroups_keepsEngine nodup carries.inCommit kept) (planGroups_keepsEntries nodup kept)]
      exact line
    have requester : o.requester = .shutdownRecord := recordOp_requester next
    have follows : afterPlan (planGroups u) = startOp (planGroups u) o :=
      (if_pos continues).trans (continueGroup_record next)
    rw [follows, startOp_shutdown, startOp_queue, startOp_port, requester, readyV, markGranted_shutdownRecord,
      spendBudget_shutdown, spendBudget_queue]
    refine ⟨continues, ?_, ?_, rfl, rfl⟩
    · rw [planned.shutdown]
    · rw [planned.shutdown]
  case drain =>
    intro other
    rw [grants.plan] at other
    have follows : afterPlan (planGroups u) = drainStage (planGroups u) := if_neg other
    rw [follows]
    exact drainStage_goesOn (by rw [control]; exact mode) readyV

end Sys2Proof.Machine
end

section
/-! The step that ends at entry to SHUTDOWN counts for its requester (R89, R135). -/

namespace Sys2Proof.Machine

/-! ## The group in commit moves -/

theorem MovesTo.of_same {s t u v : State} {q : Seq} {p : Phase} {n : Nat} {half : Half} (h : MovesTo t u q p n half)
    (table : t.groups.table = s.groups.table) (tableV : v.groups.table = u.groups.table)
    (inCommit : v.engine.inCommit = u.engine.inCommit) (phase : v.engine.phase = u.engine.phase)
    (position : v.engine.position = u.engine.position) (same : v.engine.half = u.engine.half) : MovesTo s v q p n half := by
  obtain ⟨moved, engine⟩ := h
  refine ⟨by rw [tableV, moved, table], ?_⟩
  rw [inCommit, phase, position, same]
  exact engine

theorem enterPhase_moves {s : State} {q : Seq} (inCommit : s.engine.inCommit = some q) (p : Phase) :
    MovesTo s (enterPhase s p) q p 0 .first := by
  rw [enterPhase_eq inCommit]
  exact ⟨List.map_congr_left fun g _ => by simp, inCommit, rfl, rfl, rfl⟩

theorem setPosition_moves {s : State} {q : Seq} {g : Group} {p : Phase}
    (nodup : (s.groups.table.map Group.sequence).Nodup) (carries : Carries s q g p) (n : Nat) (half : Half) :
    MovesTo s (setPosition s n half) q p n half := by
  obtain ⟨inCommit, phase, record, state⟩ := carries
  obtain ⟨member, bears⟩ := groupOf_record record
  rw [setPosition_eq inCommit]
  refine ⟨List.map_congr_left fun r recordR => ?_, inCommit, phase, rfl, rfl⟩
  by_cases same : r.sequence = q
  · have only : r = g := List.inj_on_of_nodup_map nodup recordR member (same.trans bears.symm)
    rw [if_pos same, if_pos (by simpa using same), only, ← state]
  · rw [if_neg same, if_neg (by simpa using same)]

/-! ## The writer's knowledge and journal-pending -/

/-- The writer's knowledge of the progress pair stays. -/
def Knows (s u : State) : Prop :=
  u.writer.newestProgress = s.writer.newestProgress ∧ u.writer.progressGeneration = s.writer.progressGeneration ∧
    u.writer.retiredThrough = s.writer.retiredThrough

theorem Knows.of_writer {s u : State} (writer : u.writer = s.writer) : Knows s u := by
  rw [Knows, writer]
  exact ⟨rfl, rfl, rfl⟩

theorem changeCommitGroup_writer (s : State) (f : Group → Group) : (changeCommitGroup s f).writer = s.writer := by
  unfold changeCommitGroup
  split
  · rfl
  · rfl

theorem changeCommitGroup_engine (s : State) (f : Group → Group) : (changeCommitGroup s f).engine = s.engine := by
  unfold changeCommitGroup
  split
  · rfl
  · rfl

theorem setPosition_writer (s : State) (n : Nat) (half : Half) : (setPosition s n half).writer = s.writer :=
  changeCommitGroup_writer s _

theorem setPosition_pending (s : State) (n : Nat) (half : Half) :
    (setPosition s n half).engine.journalPending = s.engine.journalPending := by
  change (changeCommitGroup s _).engine.journalPending = _
  rw [changeCommitGroup_engine]

theorem enterPhase_pending (s : State) (p : Phase) :
    (enterPhase s p).engine.journalPending = s.engine.journalPending := by
  change (changeCommitGroup s _).engine.journalPending = _
  rw [changeCommitGroup_engine]

theorem composeRecord_writer (s : State) : (composeRecord s).writer = s.writer := by rw [composeRecord_eq]; rfl

theorem setCommitEntries_writer (s : State) (p : EntryState → Bool) (st : EntryState) :
    (setCommitEntries s p st).writer = s.writer := by
  unfold setCommitEntries
  split
  · rfl
  · rfl

theorem recordLineWritten_writer (s : State) : (recordLineWritten s).writer = s.writer := by
  cases half : s.engine.half with
  | first =>
    rw [recordLineWritten_first half]
    rfl
  | second =>
    rw [recordLineWritten_second half]
    unfold recordWritten
    split
    · split
      · exact (composeRecord_writer _).trans (setPosition_writer (halfReset s) _ _)
      · exact enterPhase_writer (halfReset s) .marking
    · unfold sealGroup
      exact (setCommitEntries_writer _ _ _).trans (enterPhase_writer (halfReset s) .applying)
    · rfl
    · rfl
    · rfl

/-! ## A line of a record -/

/-- The second line of a line record moves the group to the next record, or to MARKING (R47, R48). -/
theorem recordLineWritten_journaling {s : State} {q : Seq} {g : Group}
    (nodup : (s.groups.table.map Group.sequence).Nodup) (carries : Carries s q g .journaling)
    (half : s.engine.half = .second) :
    (recordLineWritten s).queue = s.queue ∧
      (recordLineWritten s).engine.journalPending = s.engine.journalPending ∧
      (s.engine.position + 1 < g.lineCount →
        MovesTo s (recordLineWritten s) q .journaling (s.engine.position + 1) .first) ∧
      (g.lineCount ≤ s.engine.position + 1 → MovesTo s (recordLineWritten s) q .marking 0 .first ∧
        (recordLineWritten s).engine.runningCheck = ~~~s.engine.runningCheck) := by
  have reset := carries.halfReset
  have queue := recordLineWritten_queue (s := s) (.inr (by simp [carries.phase]))
  by_cases more : s.engine.position + 1 < g.lineCount
  · have written := recordWritten_next reset more
    rw [composeRecord_eq] at written
    have moves := setPosition_moves (s := halfReset s) nodup reset (s.engine.position + 1) .first
    have pending := setPosition_pending (halfReset s) (s.engine.position + 1) .first
    rw [recordLineWritten_second half] at queue ⊢
    refine ⟨queue, ?_, fun _ => ?_, fun last => absurd more (by omega)⟩
    · rw [written]
      exact pending
    · rw [written]
      exact moves.of_same rfl rfl rfl rfl rfl rfl
  · have written := recordWritten_last reset (by exact Nat.le_of_not_lt more)
    have moves := enterPhase_moves (s := halfReset s) reset.inCommit .marking
    have pending := enterPhase_pending (halfReset s) .marking
    have check := (recordLineWritten_atMarking carries half (by omega)).2
    rw [recordLineWritten_second half] at queue check ⊢
    refine ⟨queue, ?_, fun less => absurd less more, fun _ => ⟨?_, check⟩⟩
    · rw [written]
      exact pending
    · rw [written]
      exact moves.of_same rfl rfl rfl rfl rfl rfl

/-- The commit record's second line seals the group (R49). -/
theorem recordLineWritten_marking {s : State} {q : Seq} {g : Group} (carries : Carries s q g .marking)
    (half : s.engine.half = .second) :
    MovesTo s (recordLineWritten s) q .applying 0 .first ∧ (recordLineWritten s).engine.journalPending = true ∧
      (recordLineWritten s).queue.entries =
        s.queue.entries.map (fun e => if e.group = some q then { e with state := .ready } else e) := by
  have reset := carries.halfReset
  have moves := enterPhase_moves (s := halfReset s) reset.inCommit .applying
  have commit : (enterPhase (halfReset s) .applying).engine.inCommit = some q := moves.engine.1
  have queue := enterPhase_queue (halfReset s) .applying
  rw [recordLineWritten_second half, recordWritten_sealed reset.phase]
  unfold sealGroup setCommitEntries
  generalize enterPhase (halfReset s) .applying = v at moves commit queue
  have entries : v.queue.entries = s.queue.entries := congrArg PostingQueue.entries queue
  dsimp only
  rw [State.setEngine_engine]
  dsimp only
  rw [commit]
  refine ⟨moves.of_same rfl rfl commit.symm rfl rfl rfl, rfl, ?_⟩
  rw [← entries]
  exact List.map_congr_left fun e _ => by simp

/-! ## An in-place write -/

theorem setEntryState_entries (s : State) (k : Fin 32) (st : EntryState) : (setEntryState s k st).queue.entries =
    s.queue.entries.map (fun e => if e.slot = k then { e with state := st } else e) :=
  List.map_congr_left fun e _ => by simp

/-- What RETIRING's beginning leaves of the writer's knowledge, the queue and journal-pending (R51). -/
theorem startRetiring_keeps (s : State) : Knows s (startRetiring s) ∧ (startRetiring s).queue = s.queue ∧
    (startRetiring s).engine.journalPending = s.engine.journalPending := by
  have writer := enterPhase_writer s .retiring
  have queue := enterPhase_queue s .retiring
  have pending := enterPhase_pending s .retiring
  unfold startRetiring
  generalize enterPhase s .retiring = v at writer queue pending
  have knows : Knows s v := .of_writer writer
  dsimp only
  split
  · exact ⟨knows, queue, pending⟩
  · exact ⟨knows, queue, pending⟩

/-- An in-place write leaves its entry APPLIED (R50). -/
theorem entryApplied_keeps (s : State) (k : Fin 32) : Knows s (entryApplied s k) ∧
    (entryApplied s k).engine.journalPending = s.engine.journalPending ∧ (entryApplied s k).queue.entries =
      s.queue.entries.map (fun e => if e.slot = k then { e with state := .applied } else e) := by
  have entries := setEntryState_entries s k .applied
  unfold entryApplied
  dsimp only
  split
  · refine ⟨Knows.of_writer (setPosition_writer _ _ _), setPosition_pending (setEntryState s k .applied) _ _, ?_⟩
    rw [setPosition_queue]
    exact entries
  · obtain ⟨knows, queue, pending⟩ := startRetiring_keeps (setEntryState s k .applied)
    refine ⟨knows, pending, ?_⟩
    rw [queue]
    exact entries

theorem entryApplied_moves {s : State} {q : Seq} {g : Group} (nodup : (s.groups.table.map Group.sequence).Nodup)
    (carries : Carries s q g .applying) (k : Fin 32) :
    (s.engine.position + 1 < g.lineCount → MovesTo s (entryApplied s k) q .applying (s.engine.position + 1) .first) ∧
      (g.lineCount ≤ s.engine.position + 1 → MovesTo s (entryApplied s k) q .retiring 0 .first) := by
  have carriesA : Carries (setEntryState s k .applied) q g .applying :=
    ⟨carries.inCommit, carries.phase, carries.record, carries.state⟩
  have lines : commitLines (setEntryState s k .applied) = g.lineCount :=
    commitLines_of_record carriesA.inCommit carriesA.record
  refine ⟨fun more => ?_, fun last => ?_⟩
  · have applied : entryApplied s k = setPosition (setEntryState s k .applied) (s.engine.position + 1) .first :=
      if_pos (by rw [lines]; exact more)
    rw [applied]
    exact (setPosition_moves (s := setEntryState s k .applied) nodup carriesA _ _).of_same rfl rfl rfl rfl rfl rfl
  · have applied : entryApplied s k = startRetiring (setEntryState s k .applied) :=
      if_neg (by rw [lines]; exact Nat.not_lt.mpr last)
    rw [applied, startRetiring_eq carriesA.inCommit]
    exact (enterPhase_moves (s := setEntryState s k .applied) carriesA.inCommit .retiring).of_same rfl rfl rfl rfl rfl rfl

/-! ## A line of the retiring copy -/

theorem retiringLineWritten_moves {s : State} {q : Seq} {g : Group} {c : CopyWrite} {p : ProgressContent}
    (nodup : (s.groups.table.map Group.sequence).Nodup) (carries : Carries s q g .retiring)
    (copy : s.writer.copyWrite = some c) (content : c.content = .progress p) (half : s.engine.half = .first)
    (written : c.written = 0) :
    Knows s (retiringLineWritten s) ∧ (retiringLineWritten s).engine.journalPending = s.engine.journalPending ∧
      (retiringLineWritten s).queue = s.queue ∧ MovesTo s (retiringLineWritten s) q .retiring 1 .second := by
  have line := copyLineWritten_progressFirst copy content written
  generalize shape : s.setWriter { s.writer with copyWrite := some { c with written := 1 } } = v at line
  have carriesV : Carries v q g .retiring := by
    rw [← shape]
    exact ⟨carries.inCommit, carries.phase, carries.record, carries.state⟩
  have halfV : v.engine.half = .first := by rw [← shape]; exact half
  have moved : retiringLineWritten s = setPosition v 1 .second := by
    unfold retiringLineWritten
    rw [line]
    dsimp only
    rw [halfV]
  have moves := setPosition_moves (s := v) (by rw [← shape]; exact nodup) carriesV 1 .second
  rw [moved]
  refine ⟨?_, ?_, ?_, moves.of_same (by rw [← shape]; rfl) rfl rfl rfl rfl rfl⟩
  · rw [Knows, setPosition_writer, ← shape]
    exact ⟨rfl, rfl, rfl⟩
  · rw [setPosition_pending, ← shape]
    rfl
  · rw [setPosition_queue, ← shape]
    rfl

end Sys2Proof.Machine
end

section
/-! What follows the step that ends at entry to SHUTDOWN, by the origin of the sequence (R89, R135, R141, R142). -/

namespace Sys2Proof.Machine

/-! ## The requesters of RUN and HALTED -/

theorem throughCompleted_idle {s : State} (idle : s.access.held = none) : throughCompleted s = s := by
  unfold throughCompleted
  rw [operationHeld_of_idle idle]

theorem opCompleted_works {s : State} {op : ArrayOp} (idle : s.access.held = none)
    (run : worksInRun op.requester = true) (data : LineData) : Works s (opCompleted s op data) := by
  unfold opCompleted
  cases requester : op.requester with
  | controllerRead a w =>
    dsimp only
    rw [readCompleted_idle idle]
    exact .refl s
  | throughWrite a w =>
    dsimp only
    rw [throughCompleted_idle idle]
    exact .refl s
  | postedDrain k w i => exact removeDrained_works s k
  | journalRecord => exact recordLineWritten_works s
  | inPlaceWrite k w i => exact entryApplied_works s k
  | retiringProgress => exact retiringLineWritten_works s
  | _ => simp [worksInRun, requester] at run

theorem removeDrained_counts (s : State) (k : Fin 32) :
    (removeDrained s k false).groups = s.groups ∧ (removeDrained s k false).engine = s.engine ∧
      (removeDrained s k false).writer = s.writer ∧
      ((∃ e ∈ s.queue.entries, e.slot = k ∧ e.group = none ∧ e.state = .writing) →
        (removeDrained s k false).queue.entries = s.queue.entries.filter (fun x => decide (x.slot ≠ k))) := by
  cases found : drainedEntry s k with
  | none =>
    rw [removeDrained_of_gone found]
    refine ⟨rfl, rfl, rfl, ?_⟩
    rintro ⟨e, entry, slot, posted, writing⟩
    exact absurd (List.find?_eq_none.mp found e entry) (by simp [slot, posted, writing])
  | some x =>
    rw [removeDrained_of_found found]
    exact ⟨rfl, rfl, rfl, fun _ => queueWithout_entries s.queue x k false⟩

/-- What the requester takes of its step (R15, R47 to R51, R74, R135). -/
theorem opCompleted_counts {s : State} {op : ArrayOp} (idle : s.access.held = none)
    (run : worksInRun op.requester = true) (nodup : (s.groups.table.map Group.sequence).Nodup) (data : LineData) :
    StepCounts s op (opCompleted s op data) := by
  have works := opCompleted_works idle run data
  refine ⟨works.control, works.shutdown, works.layout, ?_⟩
  unfold opCompleted
  cases requester : op.requester with
  | controllerRead a w =>
    dsimp only
    rw [readCompleted_idle idle]
    exact ⟨⟨rfl, rfl⟩, ⟨rfl, rfl, rfl⟩, rfl⟩
  | throughWrite a w =>
    dsimp only
    rw [throughCompleted_idle idle]
    exact ⟨⟨rfl, rfl⟩, ⟨rfl, rfl, rfl⟩, rfl⟩
  | postedDrain k w i =>
    obtain ⟨groups, engine, writer, entries⟩ := removeDrained_counts s k
    exact ⟨⟨congrArg GroupTracker.table groups, engine⟩, Knows.of_writer writer, entries⟩
  | journalRecord =>
    refine ⟨Knows.of_writer (recordLineWritten_writer s), fun q g p carries => ⟨fun half => ?_, fun half journaling => ?_,
      fun half marking => ?_⟩⟩
    · dsimp only
      rw [recordLineWritten_first half]
      exact ⟨rfl, rfl, rfl⟩
    · subst journaling
      exact recordLineWritten_journaling nodup carries half
    · subst marking
      exact recordLineWritten_marking carries half
  | inPlaceWrite k w i =>
    obtain ⟨knows, pending, entries⟩ := entryApplied_keeps s k
    exact ⟨knows, pending, entries, fun q g carries => entryApplied_moves nodup carries k⟩
  | retiringProgress =>
    refine fun q g c p carries copy content => ⟨fun half written => ?_, fun half written => ?_⟩
    · exact retiringLineWritten_moves nodup carries copy content half written
    · obtain ⟨retired, writer⟩ := retiringLineWritten_second half carries.inCommit copy content written
      refine ⟨retired.table, retired.entries, retired.engine, ?_⟩
      dsimp only
      rw [writer]
      exact ⟨rfl, rfl, rfl⟩
  | _ => exact trivial

/-- The free port, the pass-over count and the copy write in flight do not show in what counts. -/
theorem StepCounts.seen {s x : State} {op : ArrayOp} {m : Memory} {ready : Bool} (h : StepCounts (freed s m ready) op x) :
    StepCounts s op (endCopyWrite (cleared x)) := by
  have carries : Carries (freed s m ready) = Carries s := by
    funext q g p
    exact propext ⟨fun c => ⟨c.inCommit, c.phase, c.record, c.state⟩, fun c => c.of_freed⟩
  have moves : MovesTo (freed s m ready) x = MovesTo s (endCopyWrite (cleared x)) := by
    funext q p n half
    exact propext ⟨fun c => ⟨c.table, c.engine⟩, fun c => ⟨c.table, c.engine⟩⟩
  unfold StepCounts at h
  rw [carries, moves] at h
  exact h

/-- From RUN and HALTED the group plan follows the step (R135). -/
theorem finishing_full {took : LineData} {s : State} {op : ArrayOp} (powered : s.powered = true)
    (mode : s.control.mode = .shutdown) (stage : s.shutdown.stage = .finishing) (busy : s.port.op = some op)
    (presented : op.presented = true) (idle : s.access.held = none) (origin : s.shutdown.origin = .full)
    (run : worksInRun op.requester = true) (nodup : (s.groups.table.map Group.sequence).Nodup) :
    ∃ t u, exec (.arrayReady took) s = .next t ∧ NoIncident s t ∧ StepCounts s op u ∧ PlanFollows u t := by
  have next := exec_ends powered ⟨busy, presented, .inl mode⟩ took
  generalize (landStep s op took).mem = m at next
  have works := opCompleted_works (s := freed s m true) idle run (m.readLine op.line)
  have counts := opCompleted_counts (s := freed s m true) idle run nodup (m.readLine op.line)
  generalize opCompleted (freed s m true) op (m.readLine op.line) = x at next works counts
  have modeX : x.control.mode = .shutdown := (congrArg ModeController.mode works.control).trans mode
  have originX : x.shutdown.origin = .full := (congrArg ShutdownSequencer.origin works.shutdown).trans origin
  have stageX : x.shutdown.stage = .finishing := (congrArg ShutdownSequencer.stage works.shutdown).trans stage
  have follows : afterFinishing (cleared x) = afterPlan (planGroups (endCopyWrite (cleared x))) :=
    afterFinishing_full (s := cleared x) originX
  have runs := afterFinishing_runs (s := cleared x) originX
  rw [settle_finishing modeX (congrArg ArrayPort.op works.port) stageX] at next
  refine ⟨_, _, next, .of_recorder (.refl s) (runs.recorder.trans works.recorder), counts.seen, ?_⟩
  rw [follows]
  exact afterPlan_follows modeX originX (congrArg Pins.arrayReady works.pins) (nodup.sublist works.sequences)

/-! ## The works of CONFIG -/

theorem storeLineWritten_cut {s : State} (cut : s.writer.copyWrite = none) : storeLineWritten s = s := by
  unfold storeLineWritten
  rw [cut]

theorem formatLineWritten_cut {s : State} (cut : s.writer.format = none) : formatLineWritten s = s := by
  unfold formatLineWritten
  rw [cut]

/-- From CONFIG the sequence ends, or the final copy begins (R141). -/
theorem finishing_config {took : LineData} {s : State} {op : ArrayOp} (powered : s.powered = true)
    (mode : s.control.mode = .shutdown) (stage : s.shutdown.stage = .finishing) (busy : s.port.op = some op)
    (presented : op.presented = true) (noFormat : s.writer.format = none) (origin : s.shutdown.origin = .config)
    (noCopy : s.writer.copyWrite = none)
    (requester : ∃ n, op.requester = .storeLayoutLine n ∨ op.requester = .formatLine n) :
    ∃ t, exec (.arrayReady took) s = .next t ∧
      (s.writer.formatIncomplete = true ∨ s.shutdown.budget < 2 → supplyGood s = false →
        EndedAtRest t ∧ NoIncident s t ∧ t.writer = s.writer) ∧
      (s.writer.formatIncomplete = true ∨ s.shutdown.budget < 2 → supplyGood s = true →
        t = (startedFrom s s.pins.mselN true s.session).setMem t.mem) ∧
      (s.writer.formatIncomplete = false → 2 ≤ s.shutdown.budget → NoIncident s t ∧
        t.shutdown.budget = s.shutdown.budget - 1 ∧ FinalCopyBegun s t (finalContent s)) := by
  have next := exec_ends powered ⟨busy, presented, .inl mode⟩ took
  generalize (landStep s op took).mem = m at next
  have cut : ∀ data, opCompleted (freed s m true) op data = freed s m true := by
    intro data
    obtain ⟨n, store | format⟩ := requester
    · rw [opCompleted_store store]
      exact storeLineWritten_cut noCopy
    · rw [opCompleted_format format]
      exact formatLineWritten_cut noFormat
  rw [cut, settle_finishing (s := freed s m true) mode rfl stage,
    afterFinishing_config (s := cleared (freed s m true)) origin] at next
  generalize shape : endCopyWrite (cleared (freed s m true)) = z at next
  have modeZ : z.control.mode = .shutdown := by rw [← shape]; exact mode
  have supply : supplyGood z = supplyGood s := by rw [← shape]; rfl
  have writer : z.writer = s.writer := by
    rw [← shape]
    change { s.writer with copyWrite := none } = s.writer
    rw [← noCopy]
  have content : finalContent z = finalContent s := by rw [← shape]; rfl
  by_cases ends : s.writer.formatIncomplete = true ∨ s.shutdown.budget < 2
  · refine ⟨_, next.trans (congrArg Host.Outcome.next (if_pos ends)), fun _ low => ?_, fun _ high => ?_,
      fun complete enough => ?_⟩
    · have ended := endShutdown_low_ended modeZ (supply.trans low) (by rw [← shape]; rfl)
      have quiet : NoIncident s z := by rw [← shape]; exact .refl s
      refine ⟨ended.rests, quiet.trans ended.noIncident, ?_⟩
      rw [ended.writer, writer, ← noCopy]
    · rw [endShutdown_restarts modeZ (supply.trans high), ← shape]
      rfl
    · rcases ends with incomplete | short
      · rw [complete] at incomplete
        cases incomplete
      · omega
  · obtain ⟨begun, budget⟩ := startFinalProgress_begun modeZ
    have runs := startFinalProgress_runs z
    refine ⟨_, next.trans (congrArg Host.Outcome.next (if_neg ends)), fun stop => absurd stop ends,
      fun stop => absurd stop ends, fun _ _ => ⟨?_, ?_, ?_⟩⟩
    · refine .of_recorder (.refl s) (runs.recorder.trans ?_)
      rw [← shape]
      rfl
    · rw [budget, ← shape]
      rfl
    · rw [← content]
      exact begun.of_writer (by rw [writer]) (by rw [writer])

/-! ## The works of STARTING, RECOVERING and UNFORMATTED -/

/-- The engine once a line of a progress copy of recovery has been written in SHUTDOWN (R127). -/
def engineAfterCopy (s : State) (replay : Bool) : JournalEngine :=
  if (copyLineWritten s).writer.copyWrite.isSome then s.engine
  else if replay then { s.engine with journalPending := false } else s.engine

theorem copyLineWritten_eq (s : State) : ∃ w, copyLineWritten s = s.setWriter w := by
  unfold copyLineWritten
  split
  · exact ⟨s.writer, rfl⟩
  · split
    · exact ⟨_, rfl⟩
    · exact ⟨_, rfl⟩

/-- Once SHUTDOWN has stopped recovery, a line of its progress copy counts for the copy alone (R101, log 18). -/
theorem recoveryLineWritten_stopped {s : State} (stopped : s.recovery = none) (replay : Bool) :
    recoveryLineWritten s replay = (copyLineWritten s).setEngine (engineAfterCopy s replay) := by
  obtain ⟨w, written⟩ := copyLineWritten_eq s
  unfold recoveryLineWritten engineAfterCopy
  rw [written]
  dsimp only
  split
  · rfl
  · cases replay with
    | true =>
      have still : (setJournalPending (s.setWriter w) false).recovery = none := stopped
      rw [if_pos rfl, still]
      rfl
    | false =>
      have still : (s.setWriter w).recovery = none := stopped
      rw [if_neg (by decide), still]
      rfl

/-- The requesters of the works that SHUTDOWN has stopped in STARTING, RECOVERING and UNFORMATTED (R142). -/
def StoppedWork (r : Requester) : Prop :=
  (∃ n, r = .startRead n) ∨ (∃ q n, r = .scanRead q n ∨ r = .replayWrite q n) ∨
    (∃ q b n, r = .recoveryProgress q b n) ∨ ∃ n, r = .formatLine n

/-- A stopped work takes nothing of its step but a line of a progress copy (R101, R142, log 18). -/
theorem opCompleted_stopped {s : State} {op : ArrayOp} (mode : s.control.mode = .shutdown) (stopped : s.recovery = none)
    (noFormat : s.writer.format = none) (work : StoppedWork op.requester) (data : LineData) :
    ((∀ q b n, op.requester ≠ .recoveryProgress q b n) ∧ opCompleted s op data = s) ∨
      ∃ q replay n, op.requester = .recoveryProgress q replay n ∧
        opCompleted s op data = (copyLineWritten s).setEngine (engineAfterCopy s replay) := by
  rcases work with ⟨n, requester⟩ | ⟨q, n, requester | requester⟩ | ⟨q, replay, n, requester⟩ | ⟨n, requester⟩
  · refine .inl ⟨by simp [requester], ?_⟩
    rw [opCompleted_start requester]
    exact if_neg (by simp [mode])
  · refine .inl ⟨by simp [requester], ?_⟩
    rw [opCompleted_scan requester]
    unfold scanLineRead
    rw [stopped]
  · refine .inl ⟨by simp [requester], ?_⟩
    rw [opCompleted_replay requester]
    unfold replayWritten
    rw [stopped]
  · exact .inr ⟨q, replay, n, requester, (opCompleted_recovery requester data).trans
      (recoveryLineWritten_stopped stopped replay)⟩
  · refine .inl ⟨by simp [requester], ?_⟩
    rw [opCompleted_format requester]
    exact formatLineWritten_cut noFormat

/-- What the writer and journal-pending are once a stopped work's step has counted. -/
structure Stopped (s t : State) (op : ArrayOp) : Prop where
  other : (∀ q b n, op.requester ≠ .recoveryProgress q b n) →
    t.writer = { s.writer with copyWrite := none } ∧ t.engine.journalPending = s.engine.journalPending
  copy : ∀ q replay n c p, op.requester = .recoveryProgress q replay n → s.writer.copyWrite = some c →
    c.content = .progress p →
    (c.written = 0 → t.writer = { s.writer with copyWrite := none } ∧
      t.engine.journalPending = s.engine.journalPending) ∧
    (c.written = 1 → t.writer.newestProgress = some c.target ∧ t.writer.progressGeneration = c.generation ∧
      t.writer.retiredThrough = p.retiredThrough ∧
      t.engine.journalPending = (if replay then false else s.engine.journalPending))

/-- The end of the copy write shows the step that counted (R101). -/
theorem opCompleted_stopped_copy {s : State} {op : ArrayOp} (mode : s.control.mode = .shutdown)
    (stopped : s.recovery = none) (noFormat : s.writer.format = none) (work : StoppedWork op.requester)
    (data : LineData) :
    (∃ w e, opCompleted s op data = (s.setWriter w).setEngine e) ∧
      Stopped s (endCopyWrite (opCompleted s op data)) op := by
  rcases opCompleted_stopped mode stopped noFormat work data with ⟨other, nothing⟩ | ⟨q, replay, n, requester, line⟩
  · rw [nothing]
    exact ⟨⟨s.writer, s.engine, rfl⟩, fun _ => ⟨rfl, rfl⟩,
      fun q replay n c p requester => absurd requester (other q replay n)⟩
  · obtain ⟨w, written⟩ := copyLineWritten_eq s
    rw [line]
    refine ⟨⟨w, engineAfterCopy s replay, by rw [written]⟩, fun none => absurd requester (none q replay n), ?_⟩
    intro q' replay' n' c p requester' copy content
    obtain ⟨-, rfl, -⟩ : q = q' ∧ replay = replay' ∧ n = n' := by simpa using requester.symm.trans requester'
    refine ⟨fun zero => ?_, fun one => ?_⟩
    · have first := copyLineWritten_progressFirst copy content zero
      have engine : engineAfterCopy s replay = s.engine := by
        unfold engineAfterCopy
        rw [first]
        exact if_pos rfl
      rw [first, engine]
      exact ⟨rfl, rfl⟩
    · have last := copyLineWritten_progressLast copy content one
      have engine : engineAfterCopy s replay = if replay then { s.engine with journalPending := false } else s.engine := by
        unfold engineAfterCopy
        rw [last]
        exact if_neg (by simp [progressKnown])
      rw [last, engine]
      refine ⟨rfl, rfl, rfl, ?_⟩
      cases replay <;> rfl

/-- From STARTING, RECOVERING and UNFORMATTED the sequence ends (R142). -/
theorem finishing_none {took : LineData} {s : State} {op : ArrayOp} (powered : s.powered = true)
    (mode : s.control.mode = .shutdown) (stage : s.shutdown.stage = .finishing) (busy : s.port.op = some op)
    (presented : op.presented = true) (stopped : s.recovery = none) (noFormat : s.writer.format = none)
    (origin : s.shutdown.origin = .none) (work : StoppedWork op.requester) :
    ∃ t, exec (.arrayReady took) s = .next t ∧
      (supplyGood s = true → t = (startedFrom s s.pins.mselN true s.session).setMem t.mem) ∧
      (supplyGood s = false → EndedAtRest t ∧ NoIncident s t ∧ Stopped s t op) := by
  have next := exec_ends powered ⟨busy, presented, .inl mode⟩ took
  generalize (landStep s op took).mem = m at next
  obtain ⟨⟨w, e, step⟩, ⟨other, copy⟩⟩ := opCompleted_stopped_copy (s := freed s m true) mode stopped noFormat work
    (m.readLine op.line)
  change exec (.arrayReady took) s = .next (settle (opCompleted (freed s m true) op (m.readLine op.line))) at next
  rw [step] at next other copy
  have settled := settle_finishing (s := ((freed s m true).setWriter w).setEngine e) mode rfl stage
  rw [settled, afterFinishing_none (s := cleared (((freed s m true).setWriter w).setEngine e)) origin] at next
  generalize shape : endCopyWrite (cleared (((freed s m true).setWriter w).setEngine e)) = z at next
  have modeZ : z.control.mode = .shutdown := by rw [← shape]; exact mode
  have supply : supplyGood z = supplyGood s := by rw [← shape]; rfl
  refine ⟨_, next, fun high => ?_, fun low => ?_⟩
  · rw [endShutdown_restarts modeZ (supply.trans high), ← shape]
    rfl
  · have ended := endShutdown_low_ended modeZ (supply.trans low) (by rw [← shape]; rfl)
    have quiet : NoIncident s z := by rw [← shape]; exact .refl s
    have writer : (endShutdown z).writer = { w with copyWrite := none } := by rw [ended.writer, ← shape]; rfl
    have pending : (endShutdown z).engine.journalPending = e.journalPending := by rw [ended.journal, ← shape]; rfl
    refine ⟨ended.rests, quiet.trans ended.noIncident, ?_, ?_⟩
    · rw [writer, pending]
      exact other
    · rw [writer, pending]
      exact copy

/-- Settles O60: the group plan, the record lines under CONTINUE, the drain writes, and the step at entry by its origin. -/
theorem shutdownPlanDecidesEveryGroup : Obligations.ShutdownPlanDecidesEveryGroup := by
  refine ⟨planGroups_decides, ?record, ?drain, ?finishing⟩
  case record =>
    intro took s op q g p powered mode stage busy presented requester carries position
    exact shutdownRecord_advances powered mode stage busy presented requester carries position
  case drain =>
    intro took s op e w i powered sound mode stage busy presented requester entry posted writing left ready
    obtain ⟨v, next, written⟩ := shutdownDrain_goesOn powered sound mode stage busy presented requester entry posted
      writing (took := took)
    exact ⟨_, next, written.goesOn mode ready⟩
  case finishing =>
    intro took s op powered mode stage busy presented idle stopped noFormat
    refine ⟨fun origin run nodup => finishing_full powered mode stage busy presented idle origin run nodup,
      fun origin noCopy requester =>
        finishing_config powered mode stage busy presented noFormat origin noCopy requester, fun origin work => ?_⟩
    obtain ⟨t, next, high, low⟩ :=
      finishing_none powered mode stage busy presented stopped noFormat origin work (took := took)
    refine ⟨t, next, high, fun supply => ?_⟩
    obtain ⟨rests, quiet, ended⟩ := low supply
    exact ⟨rests, quiet, ended.other, ended.copy⟩

end Sys2Proof.Machine
end
